-- ==== Sys2Proof/Word.lean ====
section
/-!
DEFINITION. The word types of VEDS-1.

Registers, command words and binary32 patterns are 32 bits wide (10_state.md rules R15, R17); packet RAM, error codes
and opcodes are bytes. Everything the spec counts or indexes is a natural number.
-/

namespace Sys2Proof

/-- A 32-bit register, command word, host-port word or binary32 pattern. -/
abbrev Word := BitVec 32

/-- A byte of packet RAM, an opcode, an error code or a cascade mask. -/
abbrev Byte := BitVec 8

end Sys2Proof
end

