-- ==== Sys2Proof/Config.lean ====
section
/-!
DEFINITION. What a VEDS-1 fixes (00_scope.md rule R6), and the values the spec leaves free.

The parameters that are plain data stand in `Params`, which State carries, so that every statement about a state holds
for every value of them. The free values are opaque constants: nothing can be proved about the value of one.
-/

namespace Sys2Proof

/-- `EOB_PROBE`: which reading of "already at end of buffer" a zero-width read takes (R59). -/
inductive EobProbe where
  | allConsumed
  | lastByteFetched
deriving DecidableEq, Repr

/-- `LOOKUP2`: whether the explicit-per-entry lookup exists (R73, R75). -/
inductive Lookup2 where
  | vorbisFormula
  | unsupported
deriving DecidableEq, Repr

/-- `FIRST_MIDDLE`: where the first block after a lapping reset starts to emit (R98). -/
inductive FirstMiddle where
  | full
  | fromCentre
deriving DecidableEq, Repr

/-- `F32`: which record of binary32 functions the block has (R6, R12, U28). `ieee` is R12's decision, which
Machine/Float32.lean writes out; `other n` is any other record, of which nothing is known (log 6). -/
inductive F32Choice where
  | ieee
  | other (n : Nat)
deriving DecidableEq, Repr

/-- The parameters of R6, and `SYNTH_TOL` of R13. `SYNTH` itself is `Config.synth`. The scale and the tolerance are
rational, so that Params is plain data (log 8). -/
structure Params where
  pktBytes    : Nat
  vecWords    : Nat
  pcmWords    : Nat
  nodeCap     : Nat
  valCap      : Nat
  eobProbe    : EobProbe
  lookup2     : Lookup2
  firstMiddle : FirstMiddle
  f32         : F32Choice
  imdctScale  : Rat
  synthTol    : Rat
deriving DecidableEq, Repr

/-- The defaults of R6, and of R13 for the tolerance. -/
def Params.default : Params where
  pktBytes    := 262144
  vecWords    := 131072
  pcmWords    := 16384
  nodeCap     := 4194304
  valCap      := 4194304
  eobProbe    := .allConsumed
  lookup2     := .vorbisFormula
  firstMiddle := .full
  f32         := .ieee
  imdctScale  := 1
  synthTol    := 1 / 10000

/-- `PKT_BYTES` is a multiple of 4 (R6), and no two windows of the host-port map overlap (R40). -/
abbrev Params.wf (p : Params) : Prop :=
  p.pktBytes % 4 = 0 ∧ p.pktBytes ≤ 0x10000000 ∧ 4 * p.vecWords ≤ 0x10000000 ∧ 4 * p.pcmWords ≤ 0x10000000

/-! The fixed values of R6. -/

/-- `N_CB`, codebook slots. -/
abbrev nCb : Nat := 256
/-- `N_RES`, residue slots. -/
abbrev nRes : Nat := 64
/-- `MAX_PASS`, residue passes. -/
abbrev maxPass : Nat := 8
/-- `MAX_CW_LEN`, the longest codeword. -/
abbrev maxCwLen : Nat := 32
/-- `BS_MIN_EXP`, the smallest block-size exponent. -/
abbrev bsMinExp : Nat := 6
/-- `BS_MAX_EXP`, the largest block-size exponent. -/
abbrev bsMaxExp : Nat := 13

/-- The tapers of one block (R92): its size n, the left taper's start and width, the right taper's start and width. -/
structure Geometry where
  n  : Nat
  ls : Nat
  ln : Nat
  rs : Nat
  rn : Nat
deriving DecidableEq, Repr

/-- A binary32 word that is a zero if `atZero` holds. -/
structure SynthWord (atZero : Prop) where
  word : Word := 0
  zero : atZero → word.toNat % 2 ^ 31 = 0 := by exact fun _ => rfl
deriving Inhabited

/-- `SYNTH` (R13, R95): the binary32 word the block computes for an exact real. The real is given by the predicate that
holds of it alone, which asks for no computation with reals, so equal reals give equal words. Nothing else is known of
the word, but that SYNTH(0) is a zero: R95 (b) says so of the sample that (a) calls SYNTH(0) (log 7). -/
opaque Config.synth : (is : ℝ → Prop) → SynthWord (is 0)

/-- `f32add` of another record than R12's decision (log 6). -/
opaque Config.f32AddOther : Nat → Word → Word → Word

/-- `f32mul` of another record than R12's decision (log 6). -/
opaque Config.f32MulOther : Nat → Word → Word → Word

/-- `f32round` of another record than R12's decision, of the real that the predicate holds of (log 6). -/
opaque Config.f32RoundOther : Nat → (ℝ → Prop) → Word

/-- A fresh 32-bit value, by the number of the draw (R107; 93_implementation_defined.md U1, U3, U8, U10; log 5). -/
opaque Config.freeWord : Nat → Word

/-- A fresh natural number, by the number of the draw (R44, R48, R107; U2, U9, U10; log 5). -/
opaque Config.freeNat : Nat → Nat

/-- Sign and payload of the quiet NaN that a sum of two words gives (R12, U6; log 6). -/
opaque Config.nanOfAdd : Word → Word → BitVec 23

/-- Sign and payload of the quiet NaN that a product of two words gives (R12, U6; log 6). -/
opaque Config.nanOfMul : Word → Word → BitVec 23

end Sys2Proof
end

