-- ==== Sys2Proof/Syntax.lean ====
section
/-!
DEFINITION. The commands of VEDS-1, one constructor per row of spec/opcode_table.json (30_encoding.md rules R52 to R54).

Operands are the numbers of R53: zero-extended fields, with the vector count of RES_DECODE as nvec = v + 1.
-/

namespace Sys2Proof

/-- A command. The operands' ranges are checked in WellFormed.lean. -/
inductive Instr where
  /-- 0x00, R87 -/
  | nop
  /-- 0x01, R88 -/
  | softReset
  /-- 0x02, R89 -/
  | cfgSeal
  /-- 0x03, R90 -/
  | cfgReset
  /-- 0x10, R64 -/
  | brStart
  /-- 0x11, R65: n bits, unsigned -/
  | brReadU (n : Nat)
  /-- 0x12, R66: n bits, two's complement -/
  | brReadS (n : Nat)
  /-- 0x13, R67 -/
  | brReadF
  /-- 0x14, R68 -/
  | brIlog
  /-- 0x20, R75: codebook slot k -/
  | cbDefine (k : Nat)
  /-- 0x21, R76: codebook slot k -/
  | cbScalar (k : Nat)
  /-- 0x22, R77: codebook slot k, accumulate or overwrite -/
  | cbVector (k : Nat) (acc : Bool)
  /-- 0x30, R84: residue slot r -/
  | resDefine (r : Nat)
  /-- 0x31, R85: residue slot r, vector count -/
  | resDecode (r : Nat) (nvec : Nat)
  /-- 0x40, R97: short and long block-size exponents -/
  | synConfig (e0 e1 : Nat)
  /-- 0x41, R98: current, previous and next block long -/
  | synBlock (w pw nw : Bool)
  /-- 0x42, R99 -/
  | synReset
  /-- 0x43, R100 -/
  | pcmClear
deriving DecidableEq, Repr

end Sys2Proof
end

