-- ==== Sys2Proof/WellFormed.lean ====
section
/-!
DEFINITION. The operand ranges of the formats (30_encoding.md rules R52, R53, R55).
-/

namespace Sys2Proof

/-- Every operand is a value its field can hold; a bit count is at most 32 (R55 (c)). -/
def Instr.wellFormed : Instr → Bool
  | .brReadU n | .brReadS n => decide (n ≤ 32)
  | .cbDefine k | .cbScalar k | .cbVector k _ => decide (k < 256)
  | .resDefine r => decide (r < 64)
  | .resDecode r nvec => decide (r < 64) && decide (1 ≤ nvec) && decide (nvec ≤ 32)
  | .synConfig e0 e1 => decide (e0 < 16) && decide (e1 < 16)
  | .nop | .softReset | .cfgSeal | .cfgReset | .brStart | .brReadF | .brIlog | .synBlock _ _ _ | .synReset
  | .pcmClear => true

end Sys2Proof
end

