-- ==== Sys2Proof/Decode.lean ====
section
/-!
DEFINITION. Decoding and encoding of command words (30_encoding.md rules R51 to R57).

A command word is OP in bits 31..24 and the format's fields in bits 23..0, the payload. A format's reserved bits must
be 0. Decoding is total: every word is a command or illegal for one named reason (R55).
-/

namespace Sys2Proof

/-- Why a word is illegal: (a), (b) and (c) of R55. -/
inductive Illegal where
  | undefinedOpcode
  | reservedBits
  | bitCount
deriving DecidableEq, Repr

/-- Format F0 (R52): no field. -/
def fieldsF0 (p : Nat) (i : Instr) : Except Illegal Instr :=
  if p = 0 then .ok i else .error .reservedBits

/-- Format FB (R52): n in bits 5..0, at most 32. -/
def fieldsFB (p : Nat) (f : Nat → Instr) : Except Illegal Instr :=
  if p < 64 then (if p ≤ 32 then .ok (f p) else .error .bitCount) else .error .reservedBits

/-- Formats FK and FSC (R52): one byte of fields in bits 7..0. -/
def fieldsByte (p : Nat) (f : Nat → Instr) : Except Illegal Instr :=
  if p < 256 then .ok (f p) else .error .reservedBits

/-- Format FKV (R52): k in bits 7..0, ACC in bit 8. -/
def fieldsFKV (p : Nat) (f : Nat → Bool → Instr) : Except Illegal Instr :=
  if p < 512 then .ok (f (p % 256) (decide (p / 256 = 1))) else .error .reservedBits

/-- Format FR (R52): r in bits 5..0. -/
def fieldsFR (p : Nat) (f : Nat → Instr) : Except Illegal Instr :=
  if p < 64 then .ok (f p) else .error .reservedBits

/-- Format FRD (R52): r in bits 5..0, v in bits 12..8; bits 7..6 and 23..13 are reserved. -/
def fieldsFRD (p : Nat) (f : Nat → Nat → Instr) : Except Illegal Instr :=
  if p < 8192 ∧ p / 64 % 4 = 0 then .ok (f (p % 64) (p / 256 + 1)) else .error .reservedBits

/-- Format FSB (R52): W, PW and NW in bits 0, 1 and 2. -/
def fieldsFSB (p : Nat) (f : Bool → Bool → Bool → Instr) : Except Illegal Instr :=
  if p < 8 then .ok (f (decide (p % 2 = 1)) (decide (p / 2 % 2 = 1)) (decide (p / 4 = 1)))
  else .error .reservedBits

/-- The decoding procedure of R56 on an opcode and a payload, with the opcode map of R54. -/
def decodeParts (op p : Nat) : Except Illegal Instr :=
  match op with
  | 0x00 => fieldsF0 p .nop
  | 0x01 => fieldsF0 p .softReset
  | 0x02 => fieldsF0 p .cfgSeal
  | 0x03 => fieldsF0 p .cfgReset
  | 0x10 => fieldsF0 p .brStart
  | 0x11 => fieldsFB p .brReadU
  | 0x12 => fieldsFB p .brReadS
  | 0x13 => fieldsF0 p .brReadF
  | 0x14 => fieldsF0 p .brIlog
  | 0x20 => fieldsByte p .cbDefine
  | 0x21 => fieldsByte p .cbScalar
  | 0x22 => fieldsFKV p .cbVector
  | 0x30 => fieldsFR p .resDefine
  | 0x31 => fieldsFRD p .resDecode
  | 0x40 => fieldsByte p fun b => .synConfig (b % 16) (b / 16)
  | 0x41 => fieldsFSB p .synBlock
  | 0x42 => fieldsF0 p .synReset
  | 0x43 => fieldsF0 p .pcmClear
  | _ => .error .undefinedOpcode

/-- The opcode byte OP = c[31:24] of a command word (R51). -/
def opcodeByte (c : Word) : Byte := c.extractLsb' 24 8

/-- The decoding procedure of R56. -/
def decode (c : Word) : Except Illegal Instr :=
  decodeParts (c.toNat / 2 ^ 24) (c.toNat % 2 ^ 24)

/-- OP of a command (R54). -/
def Instr.opcode : Instr → Nat
  | .nop => 0x00
  | .softReset => 0x01
  | .cfgSeal => 0x02
  | .cfgReset => 0x03
  | .brStart => 0x10
  | .brReadU _ => 0x11
  | .brReadS _ => 0x12
  | .brReadF => 0x13
  | .brIlog => 0x14
  | .cbDefine _ => 0x20
  | .cbScalar _ => 0x21
  | .cbVector _ _ => 0x22
  | .resDefine _ => 0x30
  | .resDecode _ _ => 0x31
  | .synConfig _ _ => 0x40
  | .synBlock _ _ _ => 0x41
  | .synReset => 0x42
  | .pcmClear => 0x43

/-- Bits 23..0 of a command's word (R52, R57). -/
def Instr.payload : Instr → Nat
  | .brReadU n | .brReadS n => n
  | .cbDefine k | .cbScalar k => k
  | .cbVector k acc => acc.toNat * 256 + k
  | .resDefine r => r
  | .resDecode r nvec => (nvec - 1) * 256 + r
  | .synConfig e0 e1 => e1 * 16 + e0
  | .synBlock w pw nw => nw.toNat * 4 + pw.toNat * 2 + w.toNat
  | .nop | .softReset | .cfgSeal | .cfgReset | .brStart | .brReadF | .brIlog | .synReset | .pcmClear => 0

/-- The word of a well-formed command (R57). -/
def encode (i : Instr) : Word := BitVec.ofNat 32 (i.opcode * 2 ^ 24 + i.payload)

/-- One row of spec/opcode_table.json: `c &&& mask = pattern` exactly when OP and the reserved bits are the row's. -/
structure TableRow where
  mnemonic : String
  pattern  : Word
  mask     : Word
deriving DecidableEq, Repr

/-- spec/opcode_table.json's patterns and masks (R56). The decoder does not read it: a statement compares the two. -/
def opcodeTable : List TableRow :=
  [ ⟨"NOP",        0x00000000, 0xFFFFFFFF⟩, ⟨"SOFT_RESET", 0x01000000, 0xFFFFFFFF⟩
  , ⟨"CFG_SEAL",   0x02000000, 0xFFFFFFFF⟩, ⟨"CFG_RESET",  0x03000000, 0xFFFFFFFF⟩
  , ⟨"BR_START",   0x10000000, 0xFFFFFFFF⟩, ⟨"BR_READU",   0x11000000, 0xFFFFFFC0⟩
  , ⟨"BR_READS",   0x12000000, 0xFFFFFFC0⟩, ⟨"BR_READF",   0x13000000, 0xFFFFFFFF⟩
  , ⟨"BR_ILOG",    0x14000000, 0xFFFFFFFF⟩, ⟨"CB_DEFINE",  0x20000000, 0xFFFFFF00⟩
  , ⟨"CB_SCALAR",  0x21000000, 0xFFFFFF00⟩, ⟨"CB_VECTOR",  0x22000000, 0xFFFFFE00⟩
  , ⟨"RES_DEFINE", 0x30000000, 0xFFFFFFC0⟩, ⟨"RES_DECODE", 0x31000000, 0xFFFFE0C0⟩
  , ⟨"SYN_CONFIG", 0x40000000, 0xFFFFFF00⟩, ⟨"SYN_BLOCK",  0x41000000, 0xFFFFFFF8⟩
  , ⟨"SYN_RESET",  0x42000000, 0xFFFFFFFF⟩, ⟨"PCM_CLEAR",  0x43000000, 0xFFFFFFFF⟩ ]

/-- The row's mnemonic of a command (R54). -/
def Instr.mnemonic : Instr → String
  | .nop => "NOP"
  | .softReset => "SOFT_RESET"
  | .cfgSeal => "CFG_SEAL"
  | .cfgReset => "CFG_RESET"
  | .brStart => "BR_START"
  | .brReadU _ => "BR_READU"
  | .brReadS _ => "BR_READS"
  | .brReadF => "BR_READF"
  | .brIlog => "BR_ILOG"
  | .cbDefine _ => "CB_DEFINE"
  | .cbScalar _ => "CB_SCALAR"
  | .cbVector _ _ => "CB_VECTOR"
  | .resDefine _ => "RES_DEFINE"
  | .resDecode _ _ => "RES_DECODE"
  | .synConfig _ _ => "SYN_CONFIG"
  | .synBlock _ _ _ => "SYN_BLOCK"
  | .synReset => "SYN_RESET"
  | .pcmClear => "PCM_CLEAR"

/-- The recovery set RS of R106: the commands that run while ERR = 1. -/
def Instr.recovery : Instr → Bool
  | .nop | .softReset | .brStart | .cfgReset | .synReset | .pcmClear => true
  | .cfgSeal | .brReadU _ | .brReadS _ | .brReadF | .brIlog | .cbDefine _ | .cbScalar _ | .cbVector _ _
  | .resDefine _ | .resDecode _ _ | .synConfig _ _ | .synBlock _ _ _ => false

/-- The instruction this decoder reads from a word given as a number, as spec/opcode_table.json numbers its bits:
bit 0 least significant, bits at or above `nbits` 0. -/
def decodeTableWord (nbits w : Nat) : Option Instr :=
  match decode (BitVec.ofNat 32 (w % 2 ^ nbits)) with
  | .ok i => some i
  | .error _ => none

end Sys2Proof
end

