-- ==== Sys2Proof/Machine/State.lean ====
section
/-!
DEFINITION. The state of VEDS-1 (10_state.md rules R14 to R35), its reset, and the reasons a step can stop.

All of it is plain data. Spaces that are mostly empty (the RAMs, the codebook and residue slots) are lists of
(index, content) pairs with strictly rising indices; an index that is not listed is unwritten or empty (logs 3, 20).
-/

namespace Sys2Proof.Machine

/-- The three RAMs of R37. -/
inductive Space where
  | pkt
  | vec
  | pcm
deriving DecidableEq, Repr

/-- Why the machine stops. -/
inductive Fault where
  /-- `UNWRITTEN` (R39, R128): a read of RAM that nothing has written since power-on. Raised by the bit reader, by
  CB_VECTOR with ACC = 1, SYN_BLOCK and RES_DECODE, and by a host read of a RAM window. Safe: the hardware goes on with
  whatever bits the RAM holds, and the spec asks a model to fault. -/
  | unwritten (space : Space) (index : Nat)
  /-- A bus error (R42): a host access of another width than 4 bytes, not aligned, or unmapped. Raised by the host
  port. Safe: the block's state is unchanged and the spec asks a model to fault. -/
  | busError (addr : Word)
  /-- A bus error because reset is asserted (R119). Raised by the host port. Safe, as above. -/
  | busErrorInReset (addr : Word)
deriving DecidableEq, Repr

/-- Why a step is refused. -/
inductive Refusal where
  /-- An arm of Machine/Dispatch.lean without a meaning. Safe. No arm raises it. -/
  | notModelled (mnemonic : String)
deriving DecidableEq, Repr

/-- CFG_STATE (R26). -/
inductive CfgState where
  | opened
  | sealed
  | broken
deriving DecidableEq, Repr

/-- A codeword tree (R27): a child that is none is `empty`, and a root is an `inner` node. -/
inductive Tree where
  | empty
  | leaf (sym : Nat)
  | inner (child0 child1 : Tree)
deriving DecidableEq, Repr

/-- The lookup kinds with a value table (R27). -/
inductive LookupKind where
  | lattice
  | explicit
deriving DecidableEq, Repr

/-- The value table of a codebook whose kind is not NONE (R27, R73). -/
structure Lookup where
  kind  : LookupKind
  min   : Word
  delta : Word
  vbits : Nat
  seq   : Bool
  mult  : List (BitVec 16)
  val   : List (List Word)
deriving DecidableEq, Repr

/-- A codebook record (R27). A length that is none is UNUSED; a lookup that is none is kind NONE. -/
structure Codebook where
  dim    : Nat
  count  : Nat
  len    : List (Option Nat)
  tree   : Tree
  lookup : Option Lookup
deriving DecidableEq, Repr

/-- A residue record (R28). `books` has one list of eight entries per class; none is UNUSED. -/
structure Residue where
  type      : Nat
  begin     : Nat
  stop      : Nat
  psize     : Nat
  classes   : Nat
  classbook : Nat
  cascade   : List Byte
  books     : List (List (Option Nat))
deriving DecidableEq, Repr

/-- The host-visible registers of R17. -/
inductive Reg where
  | cmd
  | arg0
  | arg1
  | result
  | status
  | bitpos
  | pktlen
  | silent
  | pcmcount
  | cfginfo
  | lapinfo
deriving DecidableEq, Repr

/-- What a host-port address names (R40): a register, or word w of a RAM window. -/
inductive Target where
  | reg (r : Reg)
  | pkt (w : Nat)
  | vec (w : Nat)
  | pcm (w : Nat)
deriving DecidableEq, Repr

/-- What reaches the block from outside, in the order it does: a host access of some number of bytes, or an edge of the
reset input (R42, R119). -/
inductive HostEvent where
  | read (addr : Word) (bytes : Nat)
  | write (addr : Word) (bytes : Nat) (value : Word)
  | reset (asserted : Bool)
deriving DecidableEq, Repr

/-- The host port's answer to the last access it served. -/
inductive PortResponse where
  | idle
  | done
  | data (value : Word)
deriving DecidableEq, Repr

/-- The stall of R44 as STATUS reads see it: the word with BUSY = 1 and the values from before the command, and how
many STATUS reads still see it. -/
structure StallView where
  seen : Word
  left : Nat
deriving DecidableEq, Repr

/-- A list of (index, content) pairs; its canonical form has strictly rising indices (`Sparse.wf`). -/
abbrev Sparse (α : Type) : Type := List (Nat × α)

/-- The state of R14. The fields after `basis` are the model's own. -/
structure State where
  arg0 : Word
  arg1 : Word
  result : Word
  silent : Word
  busy : Bool
  err : Bool
  errcode : Byte
  errop : Byte
  bitpos : Nat
  pktlen : Nat
  pcmcount : Nat
  cfgState : CfgState
  /-- CB[0..255] (R27) -/
  cb : Sparse Codebook
  /-- RES[0..63] (R28) -/
  res : Sparse Residue
  cbCount : Nat
  resCount : Nat
  synValid : Bool
  e0 : BitVec 4
  e1 : BitVec 4
  lapValid : Bool
  tailLen : Nat
  /-- TAIL[0..] as far as it was ever written since reset (R32; log 10) -/
  tail : List Word
  /-- PKT, by byte (R37): a list of Host.Cell -/
  pkt : Sparse Byte
  /-- VEC, by word (R37, R38) -/
  vec : Sparse Word
  /-- PCM, by word (R37) -/
  pcm : Sparse Word
  /-- BASIS: the transform sizes N whose table is present, rising (R33, R96; log 18) -/
  basis : List Nat
  /-- the parameters of R6 (log 2) -/
  params : Params
  /-- PKT bytes rewritten under the current packet: index and an earlier value, none if it was unwritten (R48; log 9) -/
  raced : List (Nat × Option Byte)
  /-- the reset input is asserted (R119; log 13) -/
  inReset : Bool
  /-- what the host has done that the block has not served yet, oldest first (log 1) -/
  pending : List HostEvent
  /-- the port's answer to the last access served (log 1) -/
  response : PortResponse
  /-- STATUS reads that still see BUSY = 1 (R44; log 4) -/
  stall : Option StallView
  /-- free values drawn so far (log 5) -/
  draws : Nat
deriving DecidableEq, Repr

/-- The machine right after reset (R35, R119). -/
def State.reset : State where
  arg0 := 0
  arg1 := 0
  result := 0
  silent := 0
  busy := false
  err := false
  errcode := 0
  errop := 0
  bitpos := 0
  pktlen := 0
  pcmcount := 0
  cfgState := .opened
  cb := []
  res := []
  cbCount := 0
  resCount := 0
  synValid := false
  e0 := 0
  e1 := 0
  lapValid := false
  tailLen := 0
  tail := []
  pkt := []
  vec := []
  pcm := []
  basis := []
  params := Params.default
  raced := []
  inReset := false
  pending := []
  response := .idle
  stall := none
  draws := 0

end Sys2Proof.Machine
end

