-- ==== Sys2Proof/Machine/Flags.lean ====
section
/-!
DEFINITION. The error codes, and the register words that are views of other state: STATUS, CFGINFO and LAPINFO.
-/

namespace Sys2Proof.Machine

/-- The errors of R105. -/
inductive ErrorCode where
  | eob
  | badCode
  | badSync
  | insert
  | unsupported
  | badRef
  | badCfg
  | range
  | noSpace
  | cfgState
  | illegal
  | lapMismatch
  | noLookup
  | overflow
deriving DecidableEq, Repr

/-- The code of an error (R105). -/
def ErrorCode.code : ErrorCode → Byte
  | .eob => 0x01
  | .badCode => 0x02
  | .badSync => 0x03
  | .insert => 0x04
  | .unsupported => 0x05
  | .badRef => 0x06
  | .badCfg => 0x07
  | .range => 0x08
  | .noSpace => 0x09
  | .cfgState => 0x0A
  | .illegal => 0x0B
  | .lapMismatch => 0x0C
  | .noLookup => 0x0D
  | .overflow => 0x0E

/-- A bit as a number. -/
def bit (b : Bool) : Nat := b.toNat

/-- STATUS (R18): BUSY, ERR, ERRCODE in 15..8, ERROP in 23..16, the rest 0. -/
def statusWord (s : State) : Word :=
  BitVec.ofNat 32 (bit s.busy + 2 * bit s.err + 2 ^ 8 * s.errcode.toNat + 2 ^ 16 * s.errop.toNat)

/-- CFG_STATE as CFGINFO shows it (R23). -/
def CfgState.code : CfgState → Nat
  | .opened => 0
  | .sealed => 1
  | .broken => 2

/-- CFGINFO (R23): CFG_STATE, SYN_VALID, E0 in 7..4, E1 in 11..8, CB_COUNT in 20..12, RES_COUNT in 27..21. -/
def cfginfoWord (s : State) : Word :=
  BitVec.ofNat 32 (s.cfgState.code + 4 * bit s.synValid + 2 ^ 4 * s.e0.toNat + 2 ^ 8 * s.e1.toNat
    + 2 ^ 12 * (s.cbCount % 2 ^ 9) + 2 ^ 21 * (s.resCount % 2 ^ 7))

/-- LAPINFO (R24): LAP_VALID in bit 0, TAIL_LEN in 31..16. -/
def lapinfoWord (s : State) : Word :=
  BitVec.ofNat 32 (bit s.lapValid + 2 ^ 16 * (s.tailLen % 2 ^ 16))

/-- ERR, ERRCODE and ERROP cleared, as BR_START and CFG_RESET do on success (R64, R90). -/
def clearError (s : State) : State := { s with err := false, errcode := 0, errop := 0 }

end Sys2Proof.Machine
end

