-- ==== Sys2Proof/Machine/Operands.lean ====
section
/-!
DEFINITION. Operands of commands (30_encoding.md rule R53) and the integer functions the rules use.
-/

namespace Sys2Proof.Machine

/-- `ilog` (R11): the number of bits needed to represent v. -/
def ilog (v : Nat) : Nat := if v = 0 then 0 else Nat.log2 v + 1

/-- The search of `lookup1Values`: adds bits from 2^(bits-1) down while the power stays at most `count`. -/
def lookup1Search (count dim : Nat) : Nat → Nat → Nat
  | 0, r => r
  | bits + 1, r => lookup1Search count dim bits (if (r + 2 ^ bits) ^ dim ≤ count then r + 2 ^ bits else r)

/-- `lookup1_values(E, D)` (R69): the largest R with R^D ≤ E, for D ≥ 1. -/
def lookup1Values (count dim : Nat) : Nat := lookup1Search count dim (ilog count) 0

/-- ARG0 as an unsigned number (R53). -/
def arg0Nat (s : State) : Nat := s.arg0.toNat

/-- ARG1 as an unsigned number (R53). -/
def arg1Nat (s : State) : Nat := s.arg1.toNat

/-- SILENT bit v (R22). -/
def silentBit (s : State) (v : Nat) : Bool := s.silent.getLsbD v

/-- Whether a command is on R107's list of commands that read bits, after whose errors BITPOS is a draw. -/
def readsBits : Instr → Bool
  | .brReadU _ | .brReadS _ | .brReadF | .cbDefine _ | .cbScalar _ | .cbVector _ _ | .resDefine _ | .resDecode _ _ => true
  | .nop | .softReset | .cfgSeal | .cfgReset | .brStart | .brIlog | .synConfig _ _ | .synBlock _ _ _ | .synReset
  | .pcmClear => false

/-- OP of a command as ERROP shows it (R18). -/
def opByte (i : Instr) : Byte := BitVec.ofNat 8 i.opcode

end Sys2Proof.Machine
end

