-- ==== Sys2Proof/Machine/Float32.lean ====
section
/-!
DEFINITION. Binary32 arithmetic (00_scope.md rule R12). `f32Add`, `f32Mul` and `f32Round` are the record R12 decides
for: IEEE 754 with round to nearest even, gradual underflow and overflow to infinity, where the bits of a NaN result are
a free quiet NaN, a function of the operands. `F32Choice.add`, `.mul` and `.round` are the block's, by the parameter
`F32` (log 6).
-/

namespace Sys2Proof.Machine

/-- What a binary32 word stands for; `finite neg m e` is (-1)^neg · m · 2^e. -/
inductive F32Value where
  | nan
  | inf (neg : Bool)
  | finite (neg : Bool) (m : Nat) (e : Int)
deriving DecidableEq, Repr

/-- (-1)^neg · m · 2^e. -/
noncomputable def dyadicReal (neg : Bool) (m : Nat) (e : Int) : ℝ := (if neg then -1 else 1) * m * (2 : ℝ) ^ e

/-- The value of a binary32 pattern. -/
def f32Value (w : Word) : F32Value :=
  let neg := w.getLsbD 31
  let expo : Nat := w.toNat / 2 ^ 23 % 2 ^ 8
  let frac := w.toNat % 2 ^ 23
  if expo = 255 then (if frac = 0 then .inf neg else .nan)
  else if expo = 0 then .finite neg frac (-149)
  else .finite neg (2 ^ 23 + frac) ((expo : Int) - 150)

/-- A sign and a magnitude as a binary32 pattern. -/
def f32Pack (neg : Bool) (magnitude : Nat) : Word :=
  BitVec.ofNat 32 (bit neg * 2 ^ 31 + magnitude)

/-- m / 2^k to the nearest integer, ties to even. -/
def roundShift (m k : Nat) : Nat :=
  let q := m / 2 ^ k
  let r := m % 2 ^ k
  if 2 ^ k < 2 * r ∨ (2 ^ k = 2 * r ∧ q % 2 = 1) then q + 1 else q

/-- The magnitude bits of m · 2^e rounded to binary32: the quantum is 2^quantum, with 24 significant bits or 2^-149,
whichever is larger; magnitudes past the largest finite one are infinity. -/
def f32RoundMagnitude (m : Nat) (e : Int) : Nat :=
  let quantum := max (e + ilog m - 24) (-149)
  let k := if quantum ≤ e then m * 2 ^ (e - quantum).toNat else roundShift m (quantum - e).toNat
  min ((quantum + 149).toNat * 2 ^ 23 + k) 0x7F800000

/-- `f32round` as R12 decides, of the exact real (-1)^neg · m · 2^e; a zero keeps the sign it is given. -/
def f32Round (neg : Bool) (m : Nat) (e : Int) : Word :=
  f32Pack neg (if m = 0 then 0 else f32RoundMagnitude m e)

/-- A quiet NaN of the given sign and payload (log 6). -/
def quietNan (b : BitVec 23) : Word :=
  f32Pack (b.getLsbD 22) (0x7FC00000 + b.toNat % 2 ^ 22)

/-- (-1)^neg · m · 2^k as an integer. -/
def signedShift (neg : Bool) (m k : Nat) : Int := if neg then -((m * 2 ^ k : Nat) : Int) else ((m * 2 ^ k : Nat) : Int)

/-- The sum of two finite values, one rounding; an exact zero is +0 unless both operands are negative. -/
def f32AddFinite (n1 : Bool) (m1 : Nat) (e1 : Int) (n2 : Bool) (m2 : Nat) (e2 : Int) : Word :=
  let e := min e1 e2
  let sum := signedShift n1 m1 (e1 - e).toNat + signedShift n2 m2 (e2 - e).toNat
  if sum = 0 then f32Pack (n1 && n2) 0 else f32Round (decide (sum < 0)) sum.natAbs e

/-- `f32add` as R12 decides. -/
def f32Add (a b : Word) : Word :=
  match f32Value a, f32Value b with
  | .finite n1 m1 e1, .finite n2 m2 e2 => f32AddFinite n1 m1 e1 n2 m2 e2
  | .finite _ _ _, .inf n => f32Pack n 0x7F800000
  | .inf n, .finite _ _ _ => f32Pack n 0x7F800000
  | .inf n1, .inf n2 => if n1 = n2 then f32Pack n1 0x7F800000 else quietNan (Config.nanOfAdd a b)
  | _, _ => quietNan (Config.nanOfAdd a b)

/-- `f32mul` as R12 decides. -/
def f32Mul (a b : Word) : Word :=
  match f32Value a, f32Value b with
  | .finite n1 m1 e1, .finite n2 m2 e2 => f32Round (n1 ^^ n2) (m1 * m2) (e1 + e2)
  | .finite n1 m1 _, .inf n2 =>
    if m1 = 0 then quietNan (Config.nanOfMul a b) else f32Pack (n1 ^^ n2) 0x7F800000
  | .inf n1, .finite n2 m2 _ =>
    if m2 = 0 then quietNan (Config.nanOfMul a b) else f32Pack (n1 ^^ n2) 0x7F800000
  | .inf n1, .inf n2 => f32Pack (n1 ^^ n2) 0x7F800000
  | _, _ => quietNan (Config.nanOfMul a b)

/-- `f32(m)` (R73): the binary32 of a multiplicand, exact below 2^24. -/
def f32OfNat (m : Nat) : Word := f32Round false m 0

end Sys2Proof.Machine

namespace Sys2Proof

open Machine

/-- `F32.f32add` (R12). -/
def F32Choice.add (f : F32Choice) (a b : Word) : Word :=
  match f with
  | .ieee => f32Add a b
  | .other n => Config.f32AddOther n a b

/-- `F32.f32mul` (R12). -/
def F32Choice.mul (f : F32Choice) (a b : Word) : Word :=
  match f with
  | .ieee => f32Mul a b
  | .other n => Config.f32MulOther n a b

/-- `F32.f32round` (R12) of the exact real (-1)^neg · m · 2^e, for m ≠ 0; no rule rounds an infinity. -/
def F32Choice.round (f : F32Choice) (neg : Bool) (m : Nat) (e : Int) : Word :=
  match f with
  | .ieee => f32Round neg m e
  | .other n => Config.f32RoundOther n fun y => y = dyadicReal neg m e

end Sys2Proof

namespace Sys2Proof.Machine

/-- `VendorFloat` (R63): mantissa in bits 20..0, exponent in 30..21 with bias 788, sign in bit 31. -/
def vendorFloat (f : F32Choice) (x : Nat) : Word :=
  let mant := x % 2 ^ 21
  let expo : Nat := x / 2 ^ 21 % 2 ^ 10
  if mant = 0 then 0 else f.round (decide (x / 2 ^ 31 % 2 = 1)) mant ((expo : Int) - 788)

/-- The word is neither NaN nor an infinity (R95). -/
def f32IsFinite (w : Word) : Bool := decide (w.toNat / 2 ^ 23 % 2 ^ 8 ≠ 255)

/-- The word is +0 or -0 (R95). -/
def f32IsZero (w : Word) : Bool := decide (w.toNat % 2 ^ 31 = 0)

end Sys2Proof.Machine
end

