-- ==== Sys2Proof/Machine/Ops.lean ====
section
/-!
DEFINITION. The shared operations: sparse lists, the RAMs, the shape of a command, and the error entry.
-/

namespace Sys2Proof.Machine

/-! Sparse lists -/

/-- The canonical form: strictly rising indices. -/
abbrev Sparse.wf {α : Type} (m : Sparse α) : Prop := (m.map Prod.fst).Pairwise (· < ·)

/-- The content at an index, none if nothing is listed there. -/
def Sparse.find {α : Type} : Sparse α → Nat → Option α
  | [], _ => none
  | (j, x) :: rest, i => if i = j then some x else Sparse.find rest i

/-- The elements of a list at indices i, i + 1, and so on. -/
def Sparse.block {α : Type} (i : Nat) : List α → Sparse α
  | [] => []
  | x :: xs => (i, x) :: Sparse.block (i + 1) xs

/-- `xs` stored at i, i + 1, and so on, over what was there. -/
def Sparse.store {α : Type} (m : Sparse α) (i : Nat) (xs : List α) : Sparse α :=
  m.filter (fun c => decide (c.1 < i)) ++ Sparse.block i xs ++ m.filter (fun c => decide (i + xs.length ≤ c.1))

/-- Nothing listed at i. -/
def Sparse.erase {α : Type} (m : Sparse α) (i : Nat) : Sparse α :=
  m.filter (fun c => decide (c.1 ≠ i))

/-! The shape of a command

A command runs on the state and either ends with a result, or stops: at a `raise` of its rule (R9), or at a read the
model faults on. The state at the stop is kept, since R107 starts from it. -/

/-- How a command's rule stops before its end. -/
inductive Stop where
  | raise (e : ErrorCode)
  | fault (f : Fault)
deriving DecidableEq, Repr

/-- A piece of a command's rule. -/
abbrev Cmd (α : Type) : Type := EStateM Stop State α

/-- `raise E` (R9, R107). -/
def raise {α : Type} (e : ErrorCode) : Cmd α := fun s => .error (.raise e) s

/-- `if c: raise E`. -/
def raiseIf (c : Bool) (e : ErrorCode) : Cmd Unit := if c then raise e else pure ()

/-- A read the model faults on (R39). -/
def stopFault {α : Type} (f : Fault) : Cmd α := fun s => .error (.fault f) s

/-- If `c` raises, `fix` is applied to the state it leaves (R107's second exception, R108). -/
def onRaise {α : Type} (fix : State → State) (c : Cmd α) : Cmd α := fun s =>
  match c s with
  | .ok a t => .ok a t
  | .error (.raise e) t => .error (.raise e) (fix t)
  | .error (.fault f) t => .error (.fault f) t

/-- `c` repeated n times, its results in order. -/
def repeatCmd {α : Type} (c : Cmd α) : Nat → Cmd (List α)
  | 0 => pure []
  | n + 1 => do
    let x ← c
    let xs ← repeatCmd c n
    pure (x :: xs)

/-- `f` on every element of a list, its results in order. -/
def forEach {α β : Type} (f : α → Cmd β) : List α → Cmd (List β)
  | [] => pure []
  | a :: as => do
    let x ← f a
    let xs ← forEach f as
    pure (x :: xs)

/-! Free values -/

/-- A fresh 32-bit value (log 5). -/
def drawWord : Cmd Word := fun s => .ok (Config.freeWord s.draws) { s with draws := s.draws + 1 }

/-- A fresh natural number (log 5). -/
def drawNat : Cmd Nat := fun s => .ok (Config.freeNat s.draws) { s with draws := s.draws + 1 }

/-! The RAMs -/

/-- The earlier values of PKT byte b that a read may still see (R48). -/
def racedValues (s : State) (b : Nat) : List (Option Byte) :=
  (s.raced.filter (fun c => decide (c.1 = b))).map Prod.snd

/-- Bit p of the packet stream (R36): bit p mod 8 of PKT byte p div 8. A byte that was rewritten under the packet reads
as the present value or an earlier one, by a draw (R48); an unwritten byte is the fault of R39. -/
def packetBit (p : Nat) : Cmd Bool := do
  let s ← get
  match s.pkt.find (p / 8) with
  | none => stopFault (.unwritten .pkt (p / 8))
  | some now =>
    match racedValues s (p / 8) with
    | [] => pure (now.getLsbD (p % 8))
    | old :: olds => do
      let k ← drawNat
      match (some now :: old :: olds).getD (k % (olds.length + 2)) none with
      | some b => pure (b.getLsbD (p % 8))
      | none => do
        let w ← drawWord
        pure (w.getLsbD 0)

/-- `VecRead(w)` (R9, R39). -/
def vecRead (w : Nat) : Cmd Word := do
  let s ← get
  match s.vec.find w with
  | some x => pure x
  | none => stopFault (.unwritten .vec w)

/-- `VecRead` of n words from w. -/
def vecReadBlock (w n : Nat) : Cmd (List Word) := forEach vecRead (List.range' w n)

/-- The state with the words stored in VEC from w (R9). -/
def storeVec (s : State) (w : Nat) (xs : List Word) : State := { s with vec := s.vec.store w xs }

/-- The state with the words stored in PCM from w (R9). -/
def storePcm (s : State) (w : Nat) (xs : List Word) : State := { s with pcm := s.pcm.store w xs }

/-- `VecWrite` of words from w (R9). -/
def vecWrite (w : Nat) (xs : List Word) : Cmd Unit := modify fun s => storeVec s w xs

/-- n words of VEC from w, each a draw (R107). -/
def freeVec (w n : Nat) (s : State) : State :=
  { storeVec s w ((List.range n).map fun k => Config.freeWord (s.draws + k)) with draws := s.draws + n }

/-- RESULT written (R21). -/
def setResult (v : Word) (s : State) : State := { s with result := v }

/-! The error entry -/

/-- Taking an error (R107): what `raise e` in command i does, where the command started at BITPOS `start`. RESULT is a
draw; BITPOS is a draw in start .. 8·PKTLEN for the commands that read bits (log 22). -/
def errorEntry (op : Byte) (reads : Bool) (start : Nat) (e : ErrorCode) (s : State) : State :=
  { s with
    err := true
    errcode := e.code
    errop := op
    result := Config.freeWord s.draws
    bitpos := if reads then start + Config.freeNat (s.draws + 1) % (8 * s.pktlen - start + 1) else s.bitpos
    draws := s.draws + 2 }

/-- The configuration effect (a) of R108: CFG_STATE becomes BROKEN. The two define commands add their slot. -/
def breakConfig (s : State) : State := { s with cfgState := .broken }

/-- The end of command i's rule: success, the error entry, or a model fault (R104). -/
def runCommand (i : Instr) (c : Cmd Unit) (s : State) : Host.Outcome State Fault Refusal :=
  match c s with
  | .ok _ t => .next t
  | .error (.raise e) t => .next (errorEntry (opByte i) (readsBits i) s.bitpos e t)
  | .error (.fault f) _ => .fault f

end Sys2Proof.Machine
end

