-- ==== Sys2Proof/Machine/BitReader.lean ====
section
/-!
DEFINITION. The bit reader's primitives and commands (41_bitreader.md rules R59 to R68).
-/

namespace Sys2Proof.Machine

/-- `at_end()` (R59). -/
def atEnd (s : State) : Bool :=
  match s.params.eobProbe with
  | .allConsumed => decide (s.bitpos = 8 * s.pktlen)
  | .lastByteFetched => decide (s.pktlen = 0 ∨ 8 * (s.pktlen - 1) < s.bitpos)

/-- `ReadBit()` (R60). -/
def readBit : Cmd Bool := do
  let s ← get
  raiseIf (decide (8 * s.pktlen ≤ s.bitpos)) .eob
  let b ← packetBit s.bitpos
  modify fun t => { t with bitpos := s.bitpos + 1 }
  pure b

/-- The loop of R61: n bits, the first read least significant. -/
def readBits : Nat → Cmd Nat
  | 0 => pure 0
  | n + 1 => do
    let b ← readBit
    let v ← readBits n
    pure (bit b + 2 * v)

/-- `ReadU(n)` (R61). -/
def readU (n : Nat) : Cmd Nat := do
  let s ← get
  raiseIf (decide (n = 0) && atEnd s) .eob
  readBits n

/-- `sext` of an n-bit value to 32 bits, as a 32-bit pattern (R8, R62). -/
def signExtend32 (n u : Nat) : Word :=
  if 0 < n ∧ 2 ^ (n - 1) ≤ u then BitVec.ofNat 32 (2 ^ 32 - 2 ^ n + u) else BitVec.ofNat 32 u

/-- `ReadVF()` (R63). -/
def readVF (f : F32Choice) : Cmd Word := do
  let x ← readU 32
  pure (vendorFloat f x)

/-- `BR_START` (R64). -/
def execBrStart (s : State) : Host.Outcome State Fault Refusal :=
  runCommand .brStart (do
    raiseIf (decide (s.params.pktBytes < arg0Nat s)) .range
    modify fun t => { clearError t with pktlen := arg0Nat s, bitpos := 0, raced := [] }) s

/-- `BR_READU n` (R65). -/
def execBrReadU (n : Nat) (s : State) : Host.Outcome State Fault Refusal :=
  runCommand (.brReadU n) (do
    let u ← readU n
    modify (setResult (BitVec.ofNat 32 u))) s

/-- `BR_READS n` (R66). -/
def execBrReadS (n : Nat) (s : State) : Host.Outcome State Fault Refusal :=
  runCommand (.brReadS n) (do
    let u ← readU n
    modify (setResult (signExtend32 n u))) s

/-- `BR_READF` (R67). -/
def execBrReadF (s : State) : Host.Outcome State Fault Refusal :=
  runCommand .brReadF (do
    let v ← readVF s.params.f32
    modify (setResult v)) s

/-- `BR_ILOG` (R68). -/
def execBrIlog (s : State) : Host.Outcome State Fault Refusal :=
  runCommand .brIlog (modify (setResult (BitVec.ofNat 32 (ilog (arg0Nat s))))) s

end Sys2Proof.Machine
end

