-- ==== Sys2Proof/Machine/Codebook.lean ====
section
/-!
DEFINITION. Codebooks: the codeword tree, the header parse, the value table, and the three commands
(42_codebook.md rules R69 to R78).
-/

namespace Sys2Proof.Machine

/-! The codeword tree -/

/-- The node count of a tree, root included (R31). -/
def Tree.nodes : Tree → Nat
  | .empty => 0
  | .leaf _ => 1
  | .inner a b => 1 + a.nodes + b.nodes

/-- `Chain(sym, d)` with d = depth + 1 (R70): a fresh path down child 0 to the leaf. -/
def chain (sym : Nat) : Nat → Tree
  | 0 => .leaf sym
  | depth + 1 => .inner (chain sym depth) .empty

/-- The part of `Place` (R70) that tries one child: a leaf for `sym` at depth d ≥ 1 counted from the child's parent,
child 0 before child 1, or none when there is no room. -/
def placeChild (sym : Nat) : Tree → Nat → Option Tree
  | .empty, d => some (chain sym (d - 1))
  | .leaf _, _ => none
  | .inner a b, d =>
    if 2 ≤ d then
      match placeChild sym a (d - 1) with
      | some a' => some (.inner a' b)
      | none => (placeChild sym b (d - 1)).map (.inner a ·)
    else none

/-- `Insert(root, sym, L)` (R70) at an inner root; none is its failure. -/
def insertCodeword (root : Tree) (sym len : Nat) : Option Tree :=
  match root with
  | .inner a b =>
    match placeChild sym a len with
    | some a' => some (.inner a' b)
    | none => (placeChild sym b len).map (.inner a ·)
  | _ => none

/-- The insertions of `CB_DEFINE` (R75): entries from `sym` on, in ascending order, UNUSED ones skipped. -/
def insertLengths : Tree → Nat → List (Option Nat) → Option Tree
  | t, _, [] => some t
  | t, sym, none :: rest => insertLengths t (sym + 1) rest
  | t, sym, some len :: rest =>
    match insertCodeword t sym len with
    | some t' => insertLengths t' (sym + 1) rest
    | none => none

/-- The codeword tree of a list of lengths (R75); none when a codeword has no room. -/
def buildTree (lens : List (Option Nat)) : Option Tree := insertLengths (.inner .empty .empty) 0 lens

/-- The walk of R71 from a node: an empty child is BADCODE, a leaf ends it, an inner node reads one bit. -/
def walk : Tree → Cmd Nat
  | .empty => raise .badCode
  | .leaf sym => pure sym
  | .inner a b => do
    let b1 ← readBit
    if b1 then walk b else walk a

/-! The value table -/

/-- The mixed-radix digits of e, least significant first (R73). -/
def latticeDigits (radix : Nat) : Nat → Nat → List Nat
  | 0, _ => []
  | dim + 1, e => e % radix :: latticeDigits radix dim (e / radix)

/-- The multiplicands that entry e uses, dimension by dimension (R73). -/
def entryMults (kind : LookupKind) (mult : List (BitVec 16)) (count dim e : Nat) : List (BitVec 16) :=
  match kind with
  | .lattice => (latticeDigits (lookup1Values count dim) dim e).map fun off => mult.getD off 0
  | .explicit => (List.range dim).map fun d => mult.getD (e * dim + d) 0

/-- One entry's values (R73): v = m·delta + min + last, each operation rounded, with `last` carried when seq = 1. -/
def entryValues (f : F32Choice) (delta min : Word) (seq : Bool) : Word → List (BitVec 16) → List Word
  | _, [] => []
  | last, m :: ms =>
    let v := f.add (f.add (f.mul (f32OfNat m.toNat) delta) min) last
    v :: entryValues f delta min seq (if seq then v else last) ms

/-- `BuildValues` (R73). -/
def buildValues (f : F32Choice) (kind : LookupKind) (mult : List (BitVec 16)) (delta min : Word) (seq : Bool)
    (count dim : Nat) : List (List Word) :=
  (List.range count).map fun e => entryValues f delta min seq 0 (entryMults kind mult count dim e)

/-! Storage accounting -/

/-- The nodes of a slot's tree (R75). -/
def Codebook.nodes (c : Codebook) : Nat := c.tree.nodes

/-- The value-table words of a slot (R75). -/
def Codebook.vals (c : Codebook) : Nat :=
  match c.lookup with
  | none => 0
  | some _ => c.count * c.dim

/-- `NODES_USED` (R31). -/
def nodesUsed (s : State) : Nat := (s.cb.map fun c => c.2.nodes).sum

/-- `VALS_USED` (R31). -/
def valsUsed (s : State) : Nat := (s.cb.map fun c => c.2.vals).sum

/-- `nodes(CB[k])` (R75). -/
def slotNodes (s : State) (k : Nat) : Nat := ((s.cb.find k).map Codebook.nodes).getD 0

/-- `vals(CB[k])` (R75). -/
def slotVals (s : State) (k : Nat) : Nat := ((s.cb.find k).map Codebook.vals).getD 0

/-! The header parse -/

/-- One unordered length (R72): a presence flag when sparse, then 5 bits plus 1. -/
def readLength (sparse : Bool) : Cmd (Option Nat) := do
  let used ← if sparse then readU 1 else pure 1
  if used = 1 then do
    let l ← readU 5
    pure (some (l + 1))
  else pure none

/-- The ordered mode's loop (R72) from entry `cur` with length `len`. Each round reads a bit or more, so `fuel` above
the bits left is never used up. -/
def readOrdered (count : Nat) : Nat → Nat → Nat → Cmd (List (Option Nat))
  | 0, _, _ => raise .eob
  | fuel + 1, cur, len =>
    if cur < count then do
      let num ← readU (ilog (count - cur))
      raiseIf (decide (count < cur + num)) .badCfg
      raiseIf (decide (0 < num ∧ maxCwLen < len)) .badCfg
      let rest ← readOrdered count fuel (cur + num) (len + 1)
      pure (List.replicate num (some len) ++ rest)
    else pure []

/-- The bits of the packet not read yet. -/
def bitsLeft (s : State) : Nat := 8 * s.pktlen - s.bitpos

/-- `ReadLengths(E)` (R72). -/
def readLengths (count : Nat) : Cmd (List (Option Nat)) := do
  let ordered ← readU 1
  if ordered = 0 then do
    let sparse ← readU 1
    repeatCmd (readLength (decide (sparse = 1))) count
  else do
    let l ← readU 5
    let s ← get
    readOrdered count (bitsLeft s + 1) 0 (l + 1)

/-- How many multiplicands a value table has (R75). -/
def multCount (kind : LookupKind) (count dim : Nat) : Nat :=
  match kind with
  | .lattice => lookup1Values count dim
  | .explicit => count * dim

/-- The fields of a value-table part, and the table they give (R75). -/
def readTableFields (f : F32Choice) (kind : LookupKind) (dim count : Nat) : Cmd (Option Lookup) := do
  let min ← readVF f
  let delta ← readVF f
  let vb ← readU 4
  let sq ← readU 1
  let ms ← repeatCmd (readU (vb + 1)) (multCount kind count dim)
  let mult := ms.map (BitVec.ofNat 16)
  let seq := decide (sq = 1)
  let val := buildValues f kind mult delta min seq count dim
  pure (some { kind, min, delta, vbits := vb + 1, seq, mult, val })

/-- The value-table part of `CB_DEFINE` (R75) for lookup type 1 or 2. -/
def readTable (k : Nat) (kind : LookupKind) (dim count : Nat) : Cmd (Option Lookup) := do
  let s ← get
  raiseIf (decide (kind = .explicit ∧ s.params.lookup2 = .unsupported)) .unsupported
  raiseIf (decide (dim = 0)) .badCfg
  raiseIf (decide (s.params.valCap < valsUsed s - slotVals s k + count * dim)) .noSpace
  readTableFields s.params.f32 kind dim count

/-- The lookup part of `CB_DEFINE` (R75) by lookup type. -/
def readLookup (k t dim count : Nat) : Cmd (Option Lookup) :=
  match t with
  | 0 => pure none
  | 1 => readTable k .lattice dim count
  | 2 => readTable k .explicit dim count
  | _ => raise .unsupported

/-- The parse of `CB_DEFINE` (R75) after its CFG_STATE check, up to the record. -/
def parseCodebook (k : Nat) : Cmd Codebook := do
  let sync ← readU 24
  raiseIf (decide (sync ≠ 0x564342)) .badSync
  let dim ← readU 16
  let count ← readU 24
  let len ← readLengths count
  match buildTree len with
  | none => raise .insert
  | some tree => do
    let s ← get
    raiseIf (decide (s.params.nodeCap < nodesUsed s - slotNodes s k + tree.nodes)) .noSpace
    let t ← readU 4
    let lookup ← readLookup k t dim count
    pure { dim, count, len, tree, lookup }

/-- R108 for `CB_DEFINE k`: CFG_STATE becomes BROKEN and the slot empty. -/
def dropCodebook (k : Nat) (s : State) : State := { breakConfig s with cb := s.cb.erase k }

/-- `CB_DEFINE k` (R75). -/
def execCbDefine (k : Nat) (s : State) : Host.Outcome State Fault Refusal :=
  runCommand (.cbDefine k) (do
    raiseIf (decide (s.cfgState ≠ .opened)) .cfgState
    let c ← onRaise (dropCodebook k) (parseCodebook k)
    modify fun t => setResult (BitVec.ofNat 32 c.count) { t with cb := t.cb.store k [c] }) s

/-! Decode -/

/-- `CB[k]`. A slot that a sealed configuration names is never empty; BADREF otherwise (log 12). -/
def codebookAt (k : Nat) : Cmd Codebook := do
  let s ← get
  match s.cb.find k with
  | some c => pure c
  | none => raise .badRef

/-- `ScalarDecode(k)` (R71). -/
def scalarDecode (k : Nat) : Cmd Nat := do
  let c ← codebookAt k
  walk c.tree

/-- `CB[k].val[e][0..D-1]`, always D words (log 12). -/
def entryVector (c : Codebook) (l : Lookup) (e : Nat) : List Word :=
  (List.range c.dim).map fun d => (l.val.getD e []).getD d 0

/-- `VectorDecode(k)` (R74). -/
def vectorDecode (k : Nat) : Cmd (Nat × List Word) := do
  let c ← codebookAt k
  match c.lookup with
  | none => raise .noLookup
  | some l => do
    let e ← scalarDecode k
    pure (e, entryVector c l e)

/-- The two checks every decode command of a codebook starts with (R76, R77, R109): CFG_STATE, then the slot. -/
def decodeGate (k : Nat) : Cmd Unit := do
  let s ← get
  raiseIf (decide (s.cfgState ≠ .sealed)) .cfgState
  raiseIf (decide (s.cbCount ≤ k)) .badRef

/-- `CB_SCALAR k` (R76). -/
def execCbScalar (k : Nat) (s : State) : Host.Outcome State Fault Refusal :=
  runCommand (.cbScalar k) (do
    decodeGate k
    let e ← scalarDecode k
    modify (setResult (BitVec.ofNat 32 e))) s

/-- `CB_VECTOR k[, acc]` (R77). -/
def execCbVector (k : Nat) (acc : Bool) (s : State) : Host.Outcome State Fault Refusal :=
  runCommand (.cbVector k acc) (do
    decodeGate k
    let c ← codebookAt k
    raiseIf c.lookup.isNone .noLookup
    raiseIf (decide (s.params.vecWords < arg0Nat s + c.dim)) .range
    let (e, v) ← vectorDecode k
    if acc then do
      let old ← vecReadBlock (arg0Nat s) v.length
      vecWrite (arg0Nat s) (List.zipWith s.params.f32.add old v)
    else vecWrite (arg0Nat s) v
    modify (setResult (BitVec.ofNat 32 e))) s

end Sys2Proof.Machine
end

