-- ==== Sys2Proof/Machine/Control.lean ====
section
/-!
DEFINITION. The configuration and control commands (44_config.md rules R87 to R91).
-/

namespace Sys2Proof.Machine

/-- `NOP` (R87). -/
def execNop (s : State) : Host.Outcome State Fault Refusal :=
  runCommand .nop (pure ()) s

/-- Every state of R35 other than the RAMs at its reset value (R88); the model's own fields that describe the outside
(parameters, pending accesses, draws) are kept. -/
def softResetState (s : State) : State :=
  { State.reset with
    pkt := s.pkt
    vec := s.vec
    pcm := s.pcm
    params := s.params
    inReset := s.inReset
    pending := s.pending
    response := s.response
    stall := s.stall
    draws := s.draws }

/-- `SOFT_RESET` (R88). -/
def execSoftReset (s : State) : Host.Outcome State Fault Refusal :=
  runCommand .softReset (modify softResetState) s

/-- The state `CFG_RESET` leaves (R90). -/
def cfgResetState (s : State) : State :=
  { clearError s with
    cb := []
    res := []
    cbCount := 0
    resCount := 0
    synValid := false
    e0 := 0
    e1 := 0
    lapValid := false
    tailLen := 0
    basis := []
    pcmcount := 0
    cfgState := .opened }

/-- `CFG_RESET` (R90). -/
def execCfgReset (s : State) : Host.Outcome State Fault Refusal :=
  runCommand .cfgReset (modify cfgResetState) s

/-- The pass books a residue names, in class then pass order (R84, R89). -/
def residueBooks (r : Residue) : List Nat := r.books.flatten.filterMap id

/-- `CFG_SEAL`'s checks of residue slot r against ncb codebooks (R89). -/
def sealResidue (ncb r : Nat) : Cmd Unit := do
  let s ← get
  match s.res.find r with
  | none => raise .badRef
  | some x => do
    raiseIf (decide (ncb ≤ x.classbook)) .badRef
    raiseIf ((residueBooks x).any fun b => decide (ncb ≤ b)) .badRef

/-- `CFG_SEAL`'s checks after CFG_STATE, in the order of R89. -/
def sealChecks (ncb nres : Nat) : Cmd Unit := do
  raiseIf (decide (nCb < ncb)) .badCfg
  raiseIf (decide (nRes < nres)) .badCfg
  let s ← get
  raiseIf ((List.range ncb).any fun k => (s.cb.find k).isNone) .badRef
  let _ ← forEach (sealResidue ncb) (List.range nres)

/-- `CFG_SEAL` (R89), with the effect of R108 on an error in OPEN. -/
def execCfgSeal (s : State) : Host.Outcome State Fault Refusal :=
  runCommand .cfgSeal (do
    raiseIf (decide (s.cfgState ≠ .opened)) .cfgState
    onRaise breakConfig (sealChecks (arg0Nat s) (arg1Nat s))
    modify fun t => { t with cbCount := arg0Nat s, resCount := arg1Nat s, cfgState := .sealed }) s

end Sys2Proof.Machine
end

