-- ==== Sys2Proof/Machine/Residue.lean ====
section
/-!
DEFINITION. Residues: the header parse, the decode core, and the two commands (43_residue.md rules R79 to R86).
-/

namespace Sys2Proof.Machine

/-! The header parse -/

/-- One class's cascade mask (R79): 3 low bits, a flag, and 5 high bits when it is set. -/
def readCascade : Cmd Byte := do
  let lo ← readU 3
  let flag ← readU 1
  let hi ← if flag = 1 then readU 5 else pure 0
  pure (BitVec.ofNat 8 (hi * 8 + lo))

/-- One class's books (R79): 8 bits for every pass whose cascade bit is set. -/
def readBooks (mask : Byte) : Cmd (List (Option Nat)) :=
  forEach (fun p => if mask.getLsbD p then do
      let b ← readU 8
      pure (some b)
    else pure none) (List.range maxPass)

/-- `ReadResidue()` (R79). -/
def readResidue : Cmd Residue := do
  let type ← readU 16
  raiseIf (decide (2 < type)) .unsupported
  let begin ← readU 24
  let stop ← readU 24
  let ps ← readU 24
  let cs ← readU 6
  let classbook ← readU 8
  let cascade ← repeatCmd readCascade (cs + 1)
  let books ← forEach readBooks cascade
  pure { type, begin, stop, psize := ps + 1, classes := cs + 1, classbook, cascade, books }

/-- `ReadResidue` and the reference checks of `RES_DEFINE` (R84). -/
def parseResidue : Cmd Residue := do
  let x ← readResidue
  let s ← get
  raiseIf ((s.cb.find x.classbook).isNone) .badRef
  raiseIf ((residueBooks x).any fun b => (s.cb.find b).isNone) .badRef
  pure x

/-- R108 for `RES_DEFINE r`: CFG_STATE becomes BROKEN and the slot empty. -/
def dropResidue (r : Nat) (s : State) : State := { breakConfig s with res := s.res.erase r }

/-- `RES_DEFINE r` (R84). -/
def execResDefine (r : Nat) (s : State) : Host.Outcome State Fault Refusal :=
  runCommand (.resDefine r) (do
    raiseIf (decide (s.cfgState ≠ .opened)) .cfgState
    let x ← onRaise (dropResidue r) parseResidue
    modify fun t => setResult (BitVec.ofNat 32 x.type) { t with res := t.res.store r [x] }) s

/-! The decode core -/

/-- One residue decode: the residue, the region in VEC, the silent flags (R85), and the block's arithmetic (R12). -/
structure ResidueJob where
  res    : Residue
  base   : Nat
  nvec   : Nat
  len    : Nat
  silent : Word
  f32    : F32Choice
deriving DecidableEq, Repr

/-- `target(v, i)`: the VEC word of element i of vector v (R82), or of pseudo-element i (R83). -/
def ResidueJob.target (j : ResidueJob) (v i : Nat) : Nat :=
  if j.res.type = 2 then j.base + i % j.nvec * j.len + i / j.nvec else j.base + v * j.len + i

/-- `Lvec` (R82, R83). -/
def ResidueJob.lvec (j : ResidueJob) : Nat := if j.res.type = 2 then j.nvec * j.len else j.len

/-- `active` (R82, R83). -/
def ResidueJob.active (j : ResidueJob) : List Nat :=
  if j.res.type = 2 then [0] else (List.range j.nvec).filter fun v => !j.silent.getLsbD v

/-- Every one of the nvec vectors is silent (R85). -/
def ResidueJob.allSilent (j : ResidueJob) : Bool := (List.range j.nvec).all fun v => j.silent.getLsbD v

/-- The inner loop of R80: a vector's values added to the elements from i on. -/
def addValues (j : ResidueJob) (v : Nat) : Nat → List Word → Cmd Unit
  | _, [] => pure ()
  | i, x :: xs => do
    raiseIf (decide (j.lvec ≤ i)) .range
    let old ← vecRead (j.target v i)
    vecWrite (j.target v i) [j.f32.add old x]
    addValues j v (i + 1) xs

/-- The outer loop of R80 from element k of the partition on. A book with a value table has D ≥ 1, so `fuel` of the
partition size is never used up (log 12). -/
def fillPartition (j : ResidueJob) (bk v off : Nat) : Nat → Nat → Cmd Unit
  | 0, _ => pure ()
  | fuel + 1, k =>
    if k < j.res.psize then do
      let (_, xs) ← vectorDecode bk
      addValues j v (off + k) xs
      fillPartition j bk v off fuel (k + xs.length)
    else pure ()

/-- `DecodePartition` (R80). -/
def decodePartition (j : ResidueJob) (bk v off : Nat) : Cmd Unit := do
  let c ← codebookAt bk
  raiseIf c.lookup.isNone .noLookup
  fillPartition j bk v off j.res.psize 0

/-- The class digits of one class codeword (R81), most significant first. -/
def classDigits (classes : Nat) : Nat → Nat → List Nat → List Nat
  | 0, _, acc => acc
  | n + 1, temp, acc => classDigits classes n (temp / classes) (temp % classes :: acc)

/-- The classification of one partition group (R81): one class codeword for every active vector, its digits appended to
the vector's classes. `cls` has one list per active vector. -/
def classify (j : ResidueJob) (dc room : Nat) (cls : List (List Nat)) : Cmd (List (List Nat)) :=
  forEach (fun known => do
    let temp ← scalarDecode j.res.classbook
    pure (known ++ (classDigits j.res.classes dc temp []).take room)) cls

/-- Partition p in one pass for one active vector, whose classes are `known` (R81). -/
def decodeVectorPartition (j : ResidueJob) (pass p : Nat) (vk : Nat × List Nat) : Cmd Unit :=
  let c := vk.2.getD p 0
  if (j.res.cascade.getD c 0).getLsbD pass then
    match (j.res.books.getD c []).getD pass none with
    | some bk => decodePartition j bk vk.1 (j.res.begin + p * j.res.psize)
    | none => raise .badRef
  else pure ()

/-- Partitions p, p + 1, … of one group in one pass, for every active vector (R81). -/
def decodeGroup (j : ResidueJob) (pass : Nat) (cls : List (List Nat)) : List Nat → Cmd Unit
  | [] => pure ()
  | p :: ps => do
    let _ ← forEach (decodeVectorPartition j pass p) (j.active.zip cls)
    decodeGroup j pass cls ps

/-- One pass of R81 from partition p on; `fuel` of the partition count suffices, since a group has a partition. -/
def decodePass (j : ResidueJob) (dc parts pass : Nat) : Nat → Nat → List (List Nat) → Cmd (List (List Nat))
  | 0, _, cls => pure cls
  | fuel + 1, p, cls =>
    if p < parts then do
      let cls' ← if pass = 0 then classify j dc (parts - p) cls else pure cls
      decodeGroup j pass cls' (List.range' p (min dc (parts - p)))
      decodePass j dc parts pass fuel (p + dc) cls'
    else pure cls

/-- The passes of R81, in order. -/
def decodePasses (j : ResidueJob) (dc parts : Nat) : List Nat → List (List Nat) → Cmd Unit
  | [], _ => pure ()
  | pass :: rest, cls => do
    let cls' ← decodePass j dc parts pass parts 0 cls
    decodePasses j dc parts rest cls'

/-- `DecodeCore` (R81). -/
def decodeCore (j : ResidueJob) : Cmd Unit := do
  let parts := (j.res.stop - j.res.begin) / j.res.psize
  let c ← codebookAt j.res.classbook
  raiseIf (decide (0 < parts ∧ c.dim = 0)) .badCfg
  decodePasses j c.dim parts (List.range maxPass) (j.active.map fun _ => [])

/-- `RES_DECODE` after the zeroing loop (R85): the bits it consumes. -/
def decodeResidue (j : ResidueJob) : Cmd Nat := do
  let start ← get
  if j.res.type = 2 ∧ j.allSilent then pure 0
  else do
    raiseIf (decide (j.res.stop < j.res.begin)) .badCfg
    raiseIf (decide (j.lvec < j.res.stop)) .range
    decodeCore j
    let t ← get
    pure (t.bitpos - start.bitpos)

/-- `RES[r]`. A slot below the sealed count is never empty; BADREF otherwise (log 12). -/
def residueAt (r : Nat) : Cmd Residue := do
  let s ← get
  match s.res.find r with
  | some x => pure x
  | none => raise .badRef

/-- The checks of `RES_DECODE` before the zeroing loop (R85). -/
def residueChecks (r nvec : Nat) : Cmd ResidueJob := do
  let s ← get
  raiseIf (decide (s.cfgState ≠ .sealed)) .cfgState
  raiseIf (decide (s.resCount ≤ r)) .badRef
  raiseIf (decide (s.params.vecWords < arg0Nat s + nvec * arg1Nat s)) .range
  let x ← residueAt r
  raiseIf (decide (x.type = 0)) .unsupported
  pure { res := x, base := arg0Nat s, nvec, len := arg1Nat s, silent := s.silent, f32 := s.params.f32 }

/-- `RES_DECODE r, nvec` (R85); an error after the zeroing loop leaves the region a draw (R107). -/
def execResDecode (r nvec : Nat) (s : State) : Host.Outcome State Fault Refusal :=
  runCommand (.resDecode r nvec) (do
    let j ← residueChecks r nvec
    vecWrite j.base (List.replicate (j.nvec * j.len) 0)
    let used ← onRaise (freeVec j.base (j.nvec * j.len)) (decodeResidue j)
    modify (setResult (BitVec.ofNat 32 used))) s

end Sys2Proof.Machine
end

