-- ==== Sys2Proof/Machine/Exact.lean ====
section
/-!
DEFINITION. The exact real numbers behind binary32 words and synthesised samples (00_scope.md rules R12, R13;
45_synthesis.md rules R93 to R95). No step computes with them: `f32Round`, `f32Add` and `f32Mul` are held to them, and
SYNTH is a function of them.
-/

namespace Sys2Proof.Machine

/-- The left taper's end, `le` (R92). -/
def Geometry.le (g : Geometry) : Nat := g.ls + g.ln

/-- The right taper's end, `re` (R92). -/
def Geometry.re (g : Geometry) : Nat := g.rs + g.rn

/-- The real value of a finite binary32 word; 0 for a NaN or an infinity, which have none. -/
noncomputable def f32Real (w : Word) : ℝ :=
  match f32Value w with
  | .finite neg m e => dyadicReal neg m e
  | .inf _ | .nan => 0

/-- `w` is the real x rounded to binary32, to nearest even with overflow to infinity (R12, R63): from 2^128·(1 - 2^-25)
on in magnitude the infinity of x's sign, below it a finite word with no finite word nearer to x, and of two words
equally near with different values the one whose last bit is 0. -/
def RoundsTo (x : ℝ) (w : Word) : Prop :=
  if (2 : ℝ) ^ 128 * (1 - (2 : ℝ) ^ (-25 : ℤ)) ≤ |x| then w = f32Pack (decide (x < 0)) 0x7F800000
  else f32IsFinite w = true ∧
    (∀ v, f32IsFinite v = true → |f32Real w - x| ≤ |f32Real v - x|) ∧
    (∀ v, f32IsFinite v = true → |f32Real v - x| = |f32Real w - x| → f32Real v ≠ f32Real w → w.getLsbD 0 = false)

/-- The source's window function at sample j of a K-sample window (R93). -/
noncomputable def windowFunction (k j : Nat) : ℝ :=
  Real.sin (Real.pi / 2 * Real.sin (Real.pi / k * (j + 1 / 2)) ^ 2)

/-- The window value w(i) of a block (R93). -/
noncomputable def window (g : Geometry) (i : Nat) : ℝ :=
  if i < g.ls then 0
  else if i < Geometry.le g then windowFunction (2 * g.ln) (i - g.ls)
  else if i < g.rs then 1
  else if i < Geometry.re g then windowFunction (2 * g.rn) (g.rn + i - g.rs)
  else 0

/-- `IMDCT(x)[i]` for a spectrum of n values (R94), at any `IMDCT_SCALE`. -/
noncomputable def imdct (scale : ℝ) (n : Nat) (x : Nat → ℝ) (i : Nat) : ℝ :=
  scale * ∑ k ∈ Finset.range n, x k * Real.cos (Real.pi / n * (i + 1 / 2 + n / 2) * (k + 1 / 2))

/-- The exact sample ŷ[i] = w(i) · IMDCT(x)[i] of R95 (a), for a block with these tapers and spectrum words. -/
noncomputable def exactSample (scale : ℝ) (g : Geometry) (x : List Word) (i : Nat) : ℝ :=
  window g i * imdct scale (g.n / 2) (fun k => f32Real (x.getD k 0)) i

/-- `SYNTH(x)` (R13). -/
def synth (x : ℝ) : Word := (Config.synth fun y => y = x).word

/-- The named property of R13 at one real: SYNTH gives a finite word within the tolerance of it. It is never assumed of
SYNTH outright, since no binary32 value is within 1e-4 of a large real (log 7). -/
def SynthWithin (tol x : ℝ) : Prop := f32IsFinite (synth x) = true ∧ |f32Real (synth x) - x| ≤ tol

end Sys2Proof.Machine
end

