-- ==== Sys2Proof/Machine/Synthesis.lean ====
section
/-!
DEFINITION. The synthesis commands (45_synthesis.md rules R92 to R103).
-/

namespace Sys2Proof.Machine

/-- `Geom(W, PW, NW)` for block-size exponents e0 and e1 (R92). -/
def geometry (e0 e1 : Nat) (w pw nw : Bool) : Geometry :=
  let n := 2 ^ (if w then e1 else e0)
  let s := 2 ^ e0
  let left := if w && !pw then (n / 4 - s / 4, s / 2) else (0, n / 2)
  let right := if w && !nw then (3 * n / 4 - s / 4, s / 2) else (n / 2, n / 2)
  { n, ls := left.1, ln := left.2, rs := right.1, rn := right.2 }

/-- Sample i of a block with a finite spectrum (R95 (a)): `synth` of the exact sample, written so that nothing computes
with reals. -/
def sampleWord (scale : Rat) (g : Geometry) (x : List Word) (i : Nat) : Word :=
  (Config.synth fun y => y = exactSample scale g x i).word

/-- The samples y[ls], …, y[re - 1] (R95): of a finite spectrum SYNTH of the exact reals (a), which is a zero for an
all-zero one (b); of a spectrum with a NaN or an infinity each is a draw (c). -/
def blockSamples (p : Params) (g : Geometry) (x : List Word) : Cmd (List Word) :=
  let is := List.range' g.ls (Geometry.re g - g.ls)
  if x.all f32IsFinite then pure (is.map (sampleWord p.imdctScale g x))
  else forEach (fun _ => drawWord) is

/-- Elements lo, …, hi - 1 of a block whose samples start at ls. -/
def samplesFrom (g : Geometry) (ys : List Word) (lo hi : Nat) : List Word := (ys.drop (lo - g.ls)).take (hi - lo)

/-- TAIL[0..n-1] (R32); a word never written since reset reads as 0 (log 10). -/
def tailWords (s : State) (n : Nat) : List Word := (List.range n).map fun k => s.tail.getD k 0

/-- `ms`, the start of the middle (R98). -/
def middleStart (p : Params) (first : Bool) (g : Geometry) : Nat :=
  if first && decide (p.firstMiddle = .fromCentre) then max (Geometry.le g) (g.n / 2) else Geometry.le g

/-- A size added to BASIS, which keeps rising (R96). -/
def addBasis (n : Nat) : List Nat → List Nat
  | [] => [n]
  | m :: rest => if n < m then n :: m :: rest else if n = m then m :: rest else m :: addBasis n rest

/-- The geometry `SYN_BLOCK` uses in a state (R98). -/
def blockGeometry (s : State) (w pw nw : Bool) : Geometry := geometry s.e0.toNat s.e1.toNat w pw nw

/-- How many samples `SYN_BLOCK` appends (R98): the overlap, but for a first block, and the middle. DEDUCED, unsafe: R125
says at most 2^(E1-1), but R98 with R92 gives 3n/4 - s/4 for a later long block with PW = 1 and NW = 0, as
95_test_vectors.md section 2.6 does (176 > 128 at E0 = 6, E1 = 8); R98 is followed (log 24). -/
def blockCount (s : State) (g : Geometry) : Nat :=
  (if s.lapValid then g.ln else 0) + (g.rs - middleStart s.params (!s.lapValid) g)

/-- The checks of `SYN_BLOCK`, in the order of R98. -/
def blockChecks (g : Geometry) : Cmd Unit := do
  let s ← get
  raiseIf (decide (s.params.vecWords < arg0Nat s + g.n / 2)) .range
  raiseIf (s.lapValid && decide (s.tailLen ≠ g.ln)) .lapMismatch
  raiseIf (decide (s.params.pcmWords < s.pcmcount + blockCount s g)) .overflow

/-- The words `SYN_BLOCK` appends to PCM (R98): the overlap unless the block is a first one, then the middle. -/
def blockOutput (s : State) (g : Geometry) (ys : List Word) : List Word :=
  (if s.lapValid then List.zipWith s.params.f32.add (tailWords s g.ln) (samplesFrom g ys g.ls (Geometry.le g)) else [])
    ++ samplesFrom g ys (middleStart s.params (!s.lapValid) g) g.rs

/-- The state `SYN_BLOCK` leaves when its samples are ys (R98). -/
def blockState (s : State) (g : Geometry) (ys : List Word) : State :=
  { storePcm s s.pcmcount (blockOutput s g ys) with
    pcmcount := s.pcmcount + blockCount s g
    tail := samplesFrom g ys g.rs (Geometry.re g) ++ s.tail.drop g.rn
    tailLen := g.rn
    lapValid := true
    basis := addBasis (g.n / 2) s.basis
    result := BitVec.ofNat 32 (blockCount s g) }

/-- `SYN_CONFIG e0, e1` (R97), with the effect of R108 on an error in OPEN. -/
def execSynConfig (e0 e1 : Nat) (s : State) : Host.Outcome State Fault Refusal :=
  runCommand (.synConfig e0 e1) (do
    raiseIf (decide (s.cfgState ≠ .opened)) .cfgState
    onRaise breakConfig (do
      raiseIf (decide (e0 < bsMinExp ∨ bsMaxExp < e0)) .badCfg
      raiseIf (decide (e1 < e0 ∨ bsMaxExp < e1)) .badCfg)
    modify fun t => { t with e0 := BitVec.ofNat 4 e0, e1 := BitVec.ofNat 4 e1, synValid := true }) s

/-- `SYN_BLOCK c, p, x` (R98). -/
def execSynBlock (w pw nw : Bool) (s : State) : Host.Outcome State Fault Refusal :=
  runCommand (.synBlock w pw nw) (do
    raiseIf (decide (s.cfgState ≠ .sealed)) .cfgState
    raiseIf (!s.synValid) .cfgState
    let g := blockGeometry s w pw nw
    blockChecks g
    let x ← vecReadBlock (arg0Nat s) (g.n / 2)
    let ys ← blockSamples s.params g x
    modify fun t => blockState t g ys) s

/-- `SYN_RESET` (R99). -/
def execSynReset (s : State) : Host.Outcome State Fault Refusal :=
  runCommand .synReset (modify fun t => { t with lapValid := false, tailLen := 0 }) s

/-- `PCM_CLEAR` (R100). -/
def execPcmClear (s : State) : Host.Outcome State Fault Refusal :=
  runCommand .pcmClear (modify fun t => { t with pcmcount := 0 }) s

end Sys2Proof.Machine
end

