-- ==== Sys2Proof/Machine/Dispatch.lean ====
section
/-!
DEFINITION. The one dispatch from a command to its meaning (30_encoding.md rule R54). The gate of 60_exceptions.md rule
R106 stands around it, in Machine/HostPort.lean.
-/

namespace Sys2Proof.Machine

def exec (i : Instr) (s : State) : Host.Outcome State Fault Refusal :=
  match i with
  | .nop => Sys2Proof.Machine.execNop s
  | .softReset => Sys2Proof.Machine.execSoftReset s
  | .cfgSeal => Sys2Proof.Machine.execCfgSeal s
  | .cfgReset => Sys2Proof.Machine.execCfgReset s
  | .brStart => Sys2Proof.Machine.execBrStart s
  | .brReadU n => Sys2Proof.Machine.execBrReadU n s
  | .brReadS n => Sys2Proof.Machine.execBrReadS n s
  | .brReadF => Sys2Proof.Machine.execBrReadF s
  | .brIlog => Sys2Proof.Machine.execBrIlog s
  | .cbDefine k => Sys2Proof.Machine.execCbDefine k s
  | .cbScalar k => Sys2Proof.Machine.execCbScalar k s
  | .cbVector k acc => Sys2Proof.Machine.execCbVector k acc s
  | .resDefine r => Sys2Proof.Machine.execResDefine r s
  | .resDecode r nvec => Sys2Proof.Machine.execResDecode r nvec s
  | .synConfig e0 e1 => Sys2Proof.Machine.execSynConfig e0 e1 s
  | .synBlock w pw nw => Sys2Proof.Machine.execSynBlock w pw nw s
  | .synReset => Sys2Proof.Machine.execSynReset s
  | .pcmClear => Sys2Proof.Machine.execPcmClear s

end Sys2Proof.Machine
end

