-- ==== Sys2Proof/Machine/HostPort.lean ====
section
/-!
DEFINITION. The host port (20_memory.md rules R40 to R48), the command gate (60_exceptions.md rule R106) and the reset
input (70_reset_and_hazards.md rule R119).
-/

namespace Sys2Proof.Machine

/-! The address map -/

/-- The register at a word offset of the register window (R17). -/
def regAt : Nat → Option Reg
  | 0 => some .cmd
  | 1 => some .arg0
  | 2 => some .arg1
  | 3 => some .result
  | 4 => some .status
  | 5 => some .bitpos
  | 6 => some .pktlen
  | 7 => some .silent
  | 8 => some .pcmcount
  | 9 => some .cfginfo
  | 10 => some .lapinfo
  | _ => none

/-- Where the windows of R40 start. -/
def pktBase : Nat := 0x10000000
/-- Where VEC starts (R40). -/
def vecBase : Nat := 0x20000000
/-- Where PCM starts (R40). -/
def pcmBase : Nat := 0x30000000

/-- What a word-aligned host-port address names (R40); none is unmapped. -/
def targetAt (p : Params) (a : Nat) : Option Target :=
  if a < 0x2C then (regAt (a / 4)).map .reg
  else if pktBase ≤ a ∧ a < pktBase + p.pktBytes then some (.pkt ((a - pktBase) / 4))
  else if vecBase ≤ a ∧ a < vecBase + 4 * p.vecWords then some (.vec ((a - vecBase) / 4))
  else if pcmBase ≤ a ∧ a < pcmBase + 4 * p.pcmWords then some (.pcm ((a - pcmBase) / 4))
  else none

/-- The target of a host access, or none for a bus error: width 4, aligned, mapped (R42). -/
def accessTarget (p : Params) (addr : Word) (bytes : Nat) : Option Target :=
  if bytes = 4 ∧ addr.toNat % 4 = 0 then targetAt p addr.toNat else none

/-- Byte j of a host word into PKT: little-endian (R41). -/
def hostByte (v : Word) (j : Nat) : Byte := v.extractLsb' (8 * j) 8

/-- Four PKT bytes as a host word: little-endian (R41). -/
def hostWord (b0 b1 b2 b3 : Byte) : Word := b3 ++ b2 ++ b1 ++ b0

/-! The command gate -/

/-- The gate of R106 on a command word: the ERR gate, then the illegal-encoding check, then the command's rule. -/
def gate (c : Word) (s : State) : Host.Outcome State Fault Refusal :=
  match decode c with
  | .ok i => if s.err && !i.recovery then .next s else exec i s
  | .error _ => if s.err then .next s else .next (errorEntry (opcodeByte c) false s.bitpos .illegal s)

/-- The end of a command as the port sees it (R44): BUSY is 0, and a draw says how many STATUS reads still see the word
with BUSY = 1 and the values from before the command. -/
def retire (seen : Word) (s : State) : State :=
  { s with
    busy := false
    response := .done
    stall := some { seen, left := Config.freeNat s.draws }
    draws := s.draws + 1 }

/-- `Issue(c)` (R44, R106), one atomic transition (R45). -/
def issue (c : Word) (s : State) : Host.Outcome State Fault Refusal :=
  let begun := { s with busy := true }
  match gate c begun with
  | .next t => .next (retire (statusWord begun) t)
  | .fault f => .fault f
  | .refused r => .refused r

/-! Host accesses -/

/-- The earlier values of the bytes of PKT word w that a write of v leaves racing (R48): those below PKTLEN whose value
changes. -/
def racedByWrite (s : State) (w : Nat) (v : Word) : List (Nat × Option Byte) :=
  ((List.range 4).filter fun j =>
      decide (4 * w + j < s.pktlen ∧ s.pkt.find (4 * w + j) ≠ some (hostByte v j))).map
    fun j => (4 * w + j, s.pkt.find (4 * w + j))

/-- A host write of v into PKT word w (R41, R48). -/
def writePktWord (s : State) (w : Nat) (v : Word) : State :=
  { s with
    pkt := s.pkt.store (4 * w) ((List.range 4).map (hostByte v))
    raced := racedByWrite s w v ++ s.raced }

/-- What a host write to a register other than CMD stores (R17); a write to an RO register is ignored (R42). -/
def writeReg (r : Reg) (v : Word) (s : State) : State :=
  match r with
  | .arg0 => { s with arg0 := v }
  | .arg1 => { s with arg1 := v }
  | .silent => { s with silent := v }
  | .cmd | .result | .status | .bitpos | .pktlen | .pcmcount | .cfginfo | .lapinfo => s

/-- What a host read of a register returns (R17), STATUS after the stall. -/
def readReg (r : Reg) (s : State) : Word :=
  match r with
  | .cmd => 0
  | .arg0 => s.arg0
  | .arg1 => s.arg1
  | .result => s.result
  | .status => statusWord s
  | .bitpos => BitVec.ofNat 32 s.bitpos
  | .pktlen => BitVec.ofNat 32 s.pktlen
  | .silent => s.silent
  | .pcmcount => BitVec.ofNat 32 s.pcmcount
  | .cfginfo => cfginfoWord s
  | .lapinfo => lapinfoWord s

/-- The access is done with an answer. Any access but a STATUS read completes only when the command has (R44). -/
def respond (r : PortResponse) (s : State) : State := { s with response := r, stall := none }

/-- A host read of STATUS (R44): while the stall lasts, the word from before the command with BUSY = 1. -/
def readStatus (s : State) : State :=
  match s.stall with
  | some { seen, left := left + 1 } => { s with response := .data seen, stall := some { seen, left } }
  | _ => respond (.data (statusWord s)) s

/-- A host read of a mapped target (R39, R41, R42). -/
def serveRead (t : Target) (s : State) : Host.Outcome State Fault Refusal :=
  match t with
  | .reg .status => .next (readStatus s)
  | .reg r => .next (respond (.data (readReg r s)) s)
  | .pkt w =>
    match s.pkt.find (4 * w), s.pkt.find (4 * w + 1), s.pkt.find (4 * w + 2), s.pkt.find (4 * w + 3) with
    | some b0, some b1, some b2, some b3 => .next (respond (.data (hostWord b0 b1 b2 b3)) s)
    | _, _, _, _ => .fault (.unwritten .pkt (4 * w))
  | .vec w =>
    match s.vec.find w with
    | some x => .next (respond (.data x) s)
    | none => .fault (.unwritten .vec w)
  | .pcm w =>
    match s.pcm.find w with
    | some x => .next (respond (.data x) s)
    | none => .fault (.unwritten .pcm w)

/-- A host write to a mapped target (R42, R43): CMD issues, PCM is read only. -/
def serveWrite (t : Target) (v : Word) (s : State) : Host.Outcome State Fault Refusal :=
  match t with
  | .reg .cmd => issue v s
  | .reg r => .next (respond .done (writeReg r v s))
  | .pkt w => .next (respond .done (writePktWord s w v))
  | .vec w => .next (respond .done (storeVec s w [v]))
  | .pcm _ => .next (respond .done s)

/-- An access of the host port: a bus error in reset (R119) or without a target (R42), else served. -/
def serveAccess (addr : Word) (bytes : Nat) (serve : Target → Host.Outcome State Fault Refusal) (s : State) :
    Host.Outcome State Fault Refusal :=
  if s.inReset then .fault (.busErrorInReset addr)
  else match accessTarget s.params addr bytes with
    | some t => serve t
    | none => .fault (.busError addr)

/-- The reset input asserted (R119): every state of R35 at its reset value, the RAMs unwritten. -/
def assertReset (s : State) : State :=
  { State.reset with params := s.params, pending := s.pending, draws := s.draws, inReset := true }

/-- What one host event does (R40 to R44, R119). -/
def serve (e : HostEvent) (s : State) : Host.Outcome State Fault Refusal :=
  match e with
  | .read addr bytes => serveAccess addr bytes (fun t => serveRead t s) s
  | .write addr bytes v => serveAccess addr bytes (fun t => serveWrite t v s) s
  | .reset true => .next (assertReset s)
  | .reset false => .next { s with inReset := false }

/-- One step of the system: the oldest pending host event is served; with none the block is idle (R119). -/
def serveNext (s : State) : Host.Outcome State Fault Refusal :=
  match s.pending with
  | [] => .next s
  | e :: rest => serve e { s with pending := rest }

/-- A host write of a command word to CMD at the head of the pending events, with reset released (log 1). -/
def placeCommand (s : State) (c : Word) : State :=
  { s with pending := .write 0 4 c :: s.pending, inReset := false }

end Sys2Proof.Machine
end

