-- ==== Sys2Proof/Machine/Step.lean ====
section
/-!
DEFINITION. The step, and how the host places a command word for the next step (logs 1, 4).
-/

namespace Sys2Proof.Machine

/-- One step: the oldest pending host event is served (20_memory.md rules R44, R45). -/
def step : State → Host.Outcome State Fault Refusal := serveNext

/-- `s` with a command word written to CMD as the next host event, so that the next step issues exactly it. -/
def State.withFetchWord (s : State) (nbits w : Nat) : State :=
  placeCommand s (BitVec.ofNat 32 (w % 2 ^ nbits))

end Sys2Proof.Machine
end

