-- ==== Sys2Proof/Machine/Headers.lean ====
section
/-!
DEFINITION. The setup headers as data, and the packet bits that spell them (42_codebook.md rules R72, R75; 43_residue.md
rule R79). The parsers do not read this file: statements say that they read these bits back.
-/

namespace Sys2Proof.Machine

/-- The low n bits of v in stream order: the first bit read is the least significant (R61). -/
def fieldBits (n v : Nat) : List Bool := (List.range n).map v.testBit

/-- The packet holds these bits from BITPOS on: inside the packet, written, and not rewritten under it. -/
def packetHas (s : State) (bits : List Bool) : Bool :=
  decide (s.bitpos + bits.length ≤ 8 * s.pktlen) &&
    (List.range bits.length).all fun j =>
      match s.pkt.find ((s.bitpos + j) / 8) with
      | some b => (racedValues s ((s.bitpos + j) / 8)).isEmpty
          && (b.getLsbD ((s.bitpos + j) % 8) == bits.getD j false)
      | none => false

/-- The codeword lengths of a header, by mode (R72). -/
inductive LengthFields where
  | dense (lens : List Nat)
  | sparse (lens : List (Option Nat))
  | ordered (first : Nat) (runs : List Nat)
deriving DecidableEq, Repr

/-- The counts of the ordered mode, each in as many bits as the entries left need (R72). -/
def runBits : Nat → List Nat → List Bool
  | _, [] => []
  | left, num :: rest => fieldBits (ilog left) num ++ runBits (left - num) rest

/-- The lengths that ordered runs give, from length `len` on (R72). -/
def runLengths : Nat → List Nat → List (Option Nat)
  | _, [] => []
  | len, num :: rest => List.replicate num (some len) ++ runLengths (len + 1) rest

/-- Runs that end exactly at the entry count, the last one not empty, none of a length over 32 (R72). -/
def runsOk : Nat → Nat → List Nat → Bool
  | left, _, [] => decide (left = 0)
  | left, len, num :: rest =>
    decide (0 < left ∧ num ≤ left ∧ (num = 0 ∨ len ≤ maxCwLen)) && runsOk (left - num) (len + 1) rest

/-- Runs that each fit in the entries left, none that is not empty of a length over 32 (R72); entries may be left. -/
def runsFit : Nat → Nat → List Nat → Bool
  | _, _, [] => true
  | left, len, num :: rest =>
    decide (0 < left ∧ num ≤ left ∧ (num = 0 ∨ len ≤ maxCwLen)) && runsFit (left - num) (len + 1) rest

/-- The bits of the lengths part (R72) for `count` entries. -/
def LengthFields.bits (count : Nat) : LengthFields → List Bool
  | .dense lens => false :: false :: lens.flatMap fun l => fieldBits 5 (l - 1)
  | .sparse lens => false :: true :: lens.flatMap fun
      | none => [false]
      | some l => true :: fieldBits 5 (l - 1)
  | .ordered first runs => true :: fieldBits 5 (first - 1) ++ runBits count runs

/-- The lengths a lengths part gives (R72). -/
def LengthFields.lengths : LengthFields → List (Option Nat)
  | .dense lens => lens.map some
  | .sparse lens => lens
  | .ordered first runs => runLengths first runs

/-- The lengths part is one the header format has for `count` entries (R72). -/
def LengthFields.wellFormed (count : Nat) : LengthFields → Bool
  | .dense lens => decide (lens.length = count) && lens.all fun l => decide (1 ≤ l ∧ l ≤ 32)
  | .sparse lens => decide (lens.length = count) && lens.all fun
      | none => true
      | some l => decide (1 ≤ l ∧ l ≤ 32)
  | .ordered first runs => decide (1 ≤ first ∧ first ≤ 32) && runsOk count first runs

/-- The value-table part of a codebook header (R75); `min` and `delta` are vendor float fields. -/
structure TableFields where
  kind  : LookupKind
  min   : Nat
  delta : Nat
  vbits : Nat
  seq   : Bool
  mult  : List Nat
deriving DecidableEq, Repr

/-- A codebook header (R75). -/
structure CodebookHeader where
  dim     : Nat
  count   : Nat
  lengths : LengthFields
  table   : Option TableFields
deriving DecidableEq, Repr

/-- Every field fits its width, the lengths part is well formed, and a value table has D ≥ 1 and its multiplicands. -/
def CodebookHeader.wellFormed (h : CodebookHeader) : Bool :=
  decide (h.dim < 2 ^ 16 ∧ h.count < 2 ^ 24) && h.lengths.wellFormed h.count &&
    match h.table with
    | none => true
    | some t =>
      decide (1 ≤ h.dim ∧ t.min < 2 ^ 32 ∧ t.delta < 2 ^ 32 ∧ 1 ≤ t.vbits ∧ t.vbits ≤ 16
        ∧ t.mult.length = multCount t.kind h.count h.dim) && t.mult.all fun m => decide (m < 2 ^ t.vbits)

/-- The lookup-type number of a kind (R75). -/
def LookupKind.number : LookupKind → Nat
  | .lattice => 1
  | .explicit => 2

/-- The bits of a value-table part, lookup type first (R75). -/
def tableBits : Option TableFields → List Bool
  | none => fieldBits 4 0
  | some t => fieldBits 4 t.kind.number ++ fieldBits 32 t.min ++ fieldBits 32 t.delta ++ fieldBits 4 (t.vbits - 1)
      ++ [t.seq] ++ t.mult.flatMap (fieldBits t.vbits)

/-- The bits of a codebook header (R75). -/
def CodebookHeader.bits (h : CodebookHeader) : List Bool :=
  fieldBits 24 0x564342 ++ fieldBits 16 h.dim ++ fieldBits 24 h.count ++ h.lengths.bits h.count ++ tableBits h.table

/-- The value table of a header's record (R73, R75). -/
def CodebookHeader.lookup (f : F32Choice) (h : CodebookHeader) : Option Lookup :=
  h.table.map fun t =>
    let mult := t.mult.map (BitVec.ofNat 16)
    let min := vendorFloat f t.min
    let delta := vendorFloat f t.delta
    { kind := t.kind, min, delta, vbits := t.vbits, seq := t.seq, mult,
      val := buildValues f t.kind mult delta min t.seq h.count h.dim }

/-- The record that a header with this codeword tree defines (R75). -/
def CodebookHeader.record (f : F32Choice) (h : CodebookHeader) (tree : Tree) : Codebook :=
  { dim := h.dim, count := h.count, len := h.lengths.lengths, tree, lookup := h.lookup f }

/-- The header's storage and lookup kind are allowed in a state, in slot k (R75): no NOSPACE, no UNSUPPORTED. -/
def CodebookHeader.fits (h : CodebookHeader) (tree : Tree) (k : Nat) (s : State) : Bool :=
  decide (nodesUsed s - slotNodes s k + tree.nodes ≤ s.params.nodeCap) &&
    match h.table with
    | none => true
    | some t => decide (valsUsed s - slotVals s k + h.count * h.dim ≤ s.params.valCap)
        && decide (t.kind = .explicit → s.params.lookup2 = .vorbisFormula)

/-- A residue header (R79). A cascade mask is 3 low bits and, when its flag is set, 5 high bits. -/
structure ResidueHeader where
  type      : Nat
  begin     : Nat
  stop      : Nat
  psize     : Nat
  classbook : Nat
  cascade   : List (Nat × Option Nat)
  books     : List (List (Option Nat))
deriving DecidableEq, Repr

/-- The mask of one cascade entry (R79). -/
def cascadeMask (c : Nat × Option Nat) : Byte := BitVec.ofNat 8 (c.2.getD 0 * 8 + c.1)

/-- The bits of one cascade entry (R79). -/
def cascadeBits (c : Nat × Option Nat) : List Bool :=
  fieldBits 3 c.1 ++ match c.2 with
    | none => [false]
    | some hi => true :: fieldBits 5 hi

/-- The bits of a residue header (R79). -/
def ResidueHeader.bits (h : ResidueHeader) : List Bool :=
  fieldBits 16 h.type ++ fieldBits 24 h.begin ++ fieldBits 24 h.stop ++ fieldBits 24 (h.psize - 1)
    ++ fieldBits 6 (h.cascade.length - 1) ++ fieldBits 8 h.classbook ++ h.cascade.flatMap cascadeBits
    ++ h.books.flatMap (fun row => row.flatMap fun
        | none => []
        | some b => fieldBits 8 b)

/-- The record a residue header defines (R79). -/
def ResidueHeader.record (h : ResidueHeader) : Residue :=
  { type := h.type, begin := h.begin, stop := h.stop, psize := h.psize, classes := h.cascade.length,
    classbook := h.classbook, cascade := h.cascade.map cascadeMask, books := h.books }

/-- A class's books agree with its cascade mask (R28): eight entries, each present exactly where the mask's bit is set,
each a slot number. -/
def classBooksOk (mask : Byte) (row : List (Option Nat)) : Bool :=
  decide (row.length = 8) && (List.range 8).all fun p =>
    match row.getD p none with
    | none => !mask.getLsbD p
    | some b => mask.getLsbD p && decide (b < 256)

/-- A residue record in the ranges of R28. -/
def Residue.wellFormed (x : Residue) : Bool :=
  decide (x.type ≤ 2 ∧ x.begin < 2 ^ 24 ∧ x.stop < 2 ^ 24 ∧ 1 ≤ x.psize ∧ x.psize ≤ 2 ^ 24 ∧ 1 ≤ x.classes
    ∧ x.classes ≤ 64 ∧ x.classbook < 256 ∧ x.cascade.length = x.classes ∧ x.books.length = x.classes)
  && (List.zipWith classBooksOk x.cascade x.books).all id

/-- A residue header whose fields fit their widths and whose books agree with its masks (R79). -/
def ResidueHeader.wellFormed (h : ResidueHeader) : Bool :=
  h.record.wellFormed && h.cascade.all fun c => decide (c.1 < 8 ∧ c.2.getD 0 < 32)

/-- Every codebook a residue names is defined (R84). -/
def residueResolves (s : State) (x : Residue) : Bool :=
  (s.cb.find x.classbook).isSome && (residueBooks x).all fun b => (s.cb.find b).isSome

/-- The node at the end of a path, root first: child 1 where the path has a 1 (R71, R78). -/
def Tree.nodeAt : Tree → List Bool → Option Tree
  | t, [] => some t
  | .inner a b, b1 :: rest => if b1 then b.nodeAt rest else a.nodeAt rest
  | _, _ :: _ => none

/-- A path as a number, root first: the lower one goes further to child 0 first (R70). -/
def pathNumber (path : List Bool) : Nat := path.foldl (fun n b => 2 * n + bit b) 0

/-- A path is free in a tree (R70): no leaf lies on it, and no node lies at or below its end. -/
def pathFree (t : Tree) (path : List Bool) : Prop :=
  (t.nodeAt path = none ∨ t.nodeAt path = some .empty)
    ∧ ∀ n, n ≤ path.length → ∀ sym, t.nodeAt (path.take n) ≠ some (.leaf sym)

end Sys2Proof.Machine
end

