-- ==== Sys2Proof/Machine/ResidueTrace.lean ====
section
/-!
DEFINITION. A residue decode as data (43_residue.md rules R80 and R81): the order in which it reads codewords, which
codewords these may be, and which values they add where. The decoder does not read this file: statements say that it
decodes so.
-/

namespace Sys2Proof.Machine

/-- A place where the decode core reads codewords (R81): the class codeword of partition group g for vector v, or the
codewords that fill partition p of vector v in one pass. -/
inductive ResidueStep where
  | classify (group v : Nat)
  | fill (pass p v : Nat)
deriving DecidableEq, Repr

/-- The partitions of group g: Dc of them, fewer in the last group (R81). -/
def groupPartitions (dc parts g : Nat) : List Nat := List.range' (g * dc) (min dc (parts - g * dc))

/-- One group in one pass (R81): in pass 0 the class codeword of every active vector; then, partition by partition,
every active vector. -/
def groupSteps (active : List Nat) (dc parts pass g : Nat) : List ResidueStep :=
  (if pass = 0 then active.map (.classify g) else [])
    ++ (groupPartitions dc parts g).flatMap fun p => active.map (.fill pass p)

/-- The order of R81: pass, then partition group. -/
def residueSteps (active : List Nat) (dc parts : Nat) : List ResidueStep :=
  (List.range maxPass).flatMap fun pass =>
    (List.range ((parts + dc - 1) / dc)).flatMap (groupSteps active dc parts pass)

/-- Codewords, with the entries they stand for, for every place that reads some. -/
abbrev StepWords : Type := ResidueStep → List (List Bool × Nat)

/-- The class of partition p of vector v (R81): a digit of its group's class codeword, the first partition of the group
the most significant. -/
def partitionClass (x : Residue) (dc : Nat) (words : StepWords) (p v : Nat) : Nat :=
  match words (.classify (p / dc) v) with
  | [] => 0
  | (_, entry) :: _ => entry / x.classes ^ (dc - 1 - p % dc) % x.classes

/-- The book of a class in a pass, none where the cascade mask has no bit for the pass (R81). -/
def passBook (x : Residue) (cls pass : Nat) : Option Nat :=
  if (x.cascade.getD cls 0).getLsbD pass then (x.books.getD cls []).getD pass none else none

/-- The words are codewords of the book. -/
def codewordsOf (c : Codebook) (words : List (List Bool × Nat)) : Bool :=
  words.all fun w => decide (c.tree.nodeAt w.1 = some (.leaf w.2))

/-- The words are codewords of a book with a value table, each with its D ≥ 1 values. -/
def vectorsOf (c : Codebook) (words : List (List Bool × Nat)) : Bool :=
  match c.lookup with
  | none => false
  | some l => decide (1 ≤ c.dim) && codewordsOf c words && words.all fun w => decide ((l.val.getD w.2 []).length = c.dim)

/-- The words at one place are ones the decode core can read there without an error (R80, R81): one class codeword; or,
where the class has a book for the pass, codewords whose vectors fill the partition, the last one overshooting by less
than a vector and staying inside the vector's Lvec elements; or, where it has none, nothing. -/
def stepOk (cb : Sparse Codebook) (x : Residue) (dc lvec : Nat) (words : StepWords) (step : ResidueStep) : Bool :=
  match step with
  | .classify _ _ =>
    match cb.find x.classbook with
    | none => false
    | some c => decide ((words step).length = 1) && codewordsOf c (words step)
  | .fill pass p v =>
    match passBook x (partitionClass x dc words p v) pass with
    | none => (words step).isEmpty
    | some b =>
      match cb.find b with
      | none => false
      | some c =>
        let size := (words step).length * c.dim
        vectorsOf c (words step) && decide (size < x.psize + c.dim ∧ x.psize ≤ size ∧ x.begin + p * x.psize + size ≤ lvec)

/-- The bits that these codewords are, in the order they are read (R81). -/
def traceBits (words : StepWords) (steps : List ResidueStep) : List Bool :=
  steps.flatMap fun step => (words step).flatMap Prod.fst

/-- The values of codewords, in order (R74). -/
def traceValues (cb : Sparse Codebook) (b : Nat) (words : List (List Bool × Nat)) : List Word :=
  words.flatMap fun w => (((cb.find b).bind Codebook.lookup).map fun l => l.val.getD w.2 []).getD []

/-- What one place adds: VEC words and the values added to them, in order (R80). `target v i` is the VEC word of element
i of vector v. -/
def stepAdds (cb : Sparse Codebook) (x : Residue) (dc : Nat) (target : Nat → Nat → Nat) (words : StepWords)
    (step : ResidueStep) : List (Nat × Word) :=
  match step with
  | .classify _ _ => []
  | .fill pass p v =>
    match passBook x (partitionClass x dc words p v) pass with
    | none => []
    | some b => (traceValues cb b (words step)).mapIdx fun k y => (target v (x.begin + p * x.psize + k), y)

/-- A VEC word after additions, one rounding each (R80). -/
def addedWord (f : F32Choice) (adds : List (Nat × Word)) (a : Nat) (start : Word) : Word :=
  adds.foldl (fun sum y => if y.1 = a then f.add sum y.2 else sum) start

end Sys2Proof.Machine
end

