-- ==== Sys2Proof/Safety.lean ====
section
/-!
DEFINITION. What claims about runs are made of: the invariants of the state the spec states, and when a command has
what it reads.
-/

namespace Sys2Proof.Machine

/-! Invariants -/

/-- R18, R19, R20, R25, R44: the reader stands inside the packet, the packet and the samples fit their RAMs, the error
fields agree with ERR and hold a code of R105, and no command is half done between steps. -/
def RegistersOk (s : State) : Prop :=
  s.bitpos ≤ 8 * s.pktlen ∧ s.pktlen ≤ s.params.pktBytes ∧ s.pcmcount ≤ s.params.pcmWords ∧ s.busy = false
    ∧ (s.err = false → s.errcode = 0 ∧ s.errop = 0) ∧ (s.err = true → 1 ≤ s.errcode.toNat ∧ s.errcode.toNat ≤ 14)

/-- R37, R27, R28: the RAMs and the slots are in their canonical form, with no index past their sizes. -/
def StorageOk (s : State) : Prop :=
  s.pkt.wf ∧ s.vec.wf ∧ s.pcm.wf ∧ s.cb.wf ∧ s.res.wf
    ∧ (∀ c ∈ s.pkt, c.1 < s.params.pktBytes) ∧ (∀ c ∈ s.vec, c.1 < s.params.vecWords)
    ∧ (∀ c ∈ s.pcm, c.1 < s.params.pcmWords) ∧ (∀ c ∈ s.cb, c.1 < nCb) ∧ (∀ c ∈ s.res, c.1 < nRes)

/-- R23, R29, R30, R97, and the source's invariant R89 enforces: the block sizes are legal once set, the counts are 0
outside SEALED, and in SEALED every slot below the counts is defined and every reference of a residue resolves. -/
def ConfigOk (s : State) : Prop :=
  (s.synValid = true → 6 ≤ s.e0.toNat ∧ s.e0.toNat ≤ s.e1.toNat ∧ s.e1.toNat ≤ 13)
    ∧ (s.cfgState ≠ .sealed → s.cbCount = 0 ∧ s.resCount = 0)
    ∧ s.cbCount ≤ nCb ∧ s.resCount ≤ nRes
    ∧ (∀ k, k < s.cbCount → (s.cb.find k).isSome = true)
    ∧ (∀ r, r < s.resCount → ∃ x, s.res.find r = some x ∧ x.classbook < s.cbCount ∧ ∀ b ∈ residueBooks x, b < s.cbCount)

/-- R32, R33, R103: a tail is held only in SEALED with the block sizes set, its length is half a short or half a long
block, and BASIS holds at most the two transform sizes. -/
def LappingOk (s : State) : Prop :=
  (s.lapValid = true → s.cfgState = .sealed ∧ s.synValid = true
      ∧ (s.tailLen = 2 ^ (s.e0.toNat - 1) ∨ s.tailLen = 2 ^ (s.e1.toNat - 1)))
    ∧ (s.lapValid = false → s.tailLen = 0)
    ∧ (s.basis ≠ [] → s.cfgState = .sealed)
    ∧ s.basis.Pairwise (· < ·)
    ∧ (∀ n ∈ s.basis, n = 2 ^ (s.e0.toNat - 1) ∨ n = 2 ^ (s.e1.toNat - 1))

/-- A codebook record as R27 describes it: field ranges, lengths 1 to 32, the tree those lengths build, and the value
table of R73, by the block's arithmetic. -/
def codebookOk (f : F32Choice) (c : Codebook) : Prop :=
  c.dim < 2 ^ 16 ∧ c.count < 2 ^ 24 ∧ c.len.length = c.count
    ∧ (∀ l, some l ∈ c.len → 1 ≤ l ∧ l ≤ maxCwLen)
    ∧ buildTree c.len = some c.tree
    ∧ ∀ l, c.lookup = some l →
        1 ≤ c.dim ∧ 1 ≤ l.vbits ∧ l.vbits ≤ 16 ∧ l.mult.length = multCount l.kind c.count c.dim
          ∧ (∀ m ∈ l.mult, m.toNat < 2 ^ l.vbits)
          ∧ l.val = buildValues f l.kind l.mult l.delta l.min l.seq c.count c.dim

/-- R27, R28, R31: every slot holds a record of its kind, and the tables fit their capacities. -/
def TablesOk (s : State) : Prop :=
  s.cb.wf ∧ (∀ c ∈ s.cb, codebookOk s.params.f32 c.2) ∧ (∀ c ∈ s.res, c.2.wellFormed = true)
    ∧ nodesUsed s ≤ s.params.nodeCap ∧ valsUsed s ≤ s.params.valCap

/-! What a command reads is there -/

/-- Every byte of the current packet is written (R128). -/
def PacketWritten (s : State) : Prop := ∀ b, b < s.pktlen → (s.pkt.find b).isSome = true

/-- n words of VEC from w are written (R128). -/
def VecWritten (s : State) (w n : Nat) : Prop := ∀ k, k < n → (s.vec.find (w + k)).isSome = true

/-- The VEC words that command i reads before it writes them (R39): the destination of an accumulating CB_VECTOR and
the spectrum of a SYN_BLOCK. -/
def VecReadable (i : Instr) (s : State) : Prop :=
  match i with
  | .cbVector k true => ∀ c, s.cb.find k = some c → VecWritten s (arg0Nat s) c.dim
  | .synBlock w pw nw => VecWritten s (arg0Nat s) ((blockGeometry s w pw nw).n / 2)
  | _ => True

/-- The checks of CFG_SEAL on the slots (R89): every slot below the counts is defined, every reference is below ncb. -/
def Sealable (s : State) : Prop :=
  (∀ k, k < arg0Nat s → (s.cb.find k).isSome = true)
    ∧ ∀ r, r < arg1Nat s → ∃ x, s.res.find r = some x ∧ x.classbook < arg0Nat s ∧ ∀ b ∈ residueBooks x, b < arg0Nat s

/-- The block sizes are ones SYN_CONFIG accepts (R97). -/
def SizesOk (s : State) : Prop := 6 ≤ s.e0.toNat ∧ s.e0.toNat ≤ s.e1.toNat ∧ s.e1.toNat ≤ 13

/-- A run of SYN_BLOCK commands without an error (R101). -/
def runBlocks : List (Bool × Bool × Bool) → State → Option State
  | [], s => some s
  | (w, pw, nw) :: rest, s =>
    match exec (.synBlock w pw nw) s with
    | .next t => if t.err then none else runBlocks rest t
    | _ => none

/-! Frames -/

/-- `t` is `s` after an error of command i: R107's four items and nothing else. ERR, ERRCODE and ERROP say which error;
RESULT is a draw; BITPOS is a draw in its range for the commands that read bits. -/
def ErrorFrom (i : Instr) (e : ErrorCode) (s t : State) : Prop :=
  t = { s with err := true, errcode := e.code, errop := BitVec.ofNat 8 i.opcode, result := t.result,
               bitpos := t.bitpos, draws := t.draws }
    ∧ (readsBits i = false → t.bitpos = s.bitpos)
    ∧ (s.bitpos ≤ 8 * s.pktlen → s.bitpos ≤ t.bitpos ∧ t.bitpos ≤ 8 * s.pktlen)

/-- Command i raises e in s, with the effects of R107 only. -/
def Raises (i : Instr) (e : ErrorCode) (s : State) : Prop :=
  ∃ t, exec i s = .next t ∧ ErrorFrom i e s t

/-- Configuration command i raises e in s, with the effects of R107 and CFG_STATE going to BROKEN (R108 (a)). -/
def RaisesAndBreaks (i : Instr) (e : ErrorCode) (s : State) : Prop :=
  ∃ t, exec i s = .next t ∧ ErrorFrom i e (breakConfig s) t

end Sys2Proof.Machine
end

