-- ==== Sys2Proof/Certificates/Slice0/Obligations.lean ====
section
/-!
DEFINITION. The statements about VEDS-1, by the rules of the spec they formalise.
-/

open Sys2Proof Sys2Proof.Machine

/-! Encoding (30_encoding.md) -/

/-- R52, R54, R56, R57: decoding the word of a well-formed command gives the command, at every value of its operands;
and a word that decodes is the word of the command it decodes to, which is well formed. -/
def Obligations.DecodeAndEncodeAgree : Prop :=
  (∀ i : Instr, i.wellFormed = true → decode (encode i) = .ok i)
  ∧ ∀ (c : Word) (i : Instr), decode c = .ok i → i.wellFormed = true ∧ encode i = c

/-- R54, R56: a row of the opcode table matches a word exactly when OP is defined and the reserved bits are 0; then the word
is the row's command, or it is BR_READU or BR_READS with a bit count over 32, which is illegal. -/
def Obligations.OpcodeTableRowsMatchTheDecoder : Prop :=
  ∀ c : Word,
    (∀ i, decode c = .ok i → ∃ row ∈ opcodeTable, row.mnemonic = i.mnemonic ∧ c &&& row.mask = row.pattern)
    ∧ (decode c = .error .bitCount →
        ∃ row ∈ opcodeTable, (row.mnemonic = "BR_READU" ∨ row.mnemonic = "BR_READS")
          ∧ c &&& row.mask = row.pattern ∧ 32 < c.toNat % 64)
    ∧ ∀ row ∈ opcodeTable, c &&& row.mask = row.pattern →
        (∃ i, decode c = .ok i ∧ i.mnemonic = row.mnemonic)
          ∨ (decode c = .error .bitCount ∧ 32 < c.toNat % 64)

/-- R57: the five worked examples of the command syntax, and words of 95_test_vectors.md section 2.1. -/
def Obligations.WorkedWordsDecode : Prop :=
  decode 0x11000005 = .ok (.brReadU 5) ∧ decode 0x22000103 = .ok (.cbVector 3 true)
    ∧ decode 0x31000100 = .ok (.resDecode 0 2) ∧ decode 0x40000086 = .ok (.synConfig 6 8)
    ∧ decode 0x41000003 = .ok (.synBlock true true false) ∧ decode 0x31001F3F = .ok (.resDecode 63 32)
    ∧ decode 0x11000021 = .error .bitCount ∧ decode 0x31000040 = .error .reservedBits
    ∧ decode 0x05000000 = .error .undefinedOpcode

/-! The step, the gate and the host port (20_memory.md, 60_exceptions.md R106) -/

/-- R44, R45, R106: when the next host event writes a word to CMD that decodes to i, and ERR = 0 or i is in the recovery
set, the step is i's meaning with BUSY = 1 around it; afterwards the access is answered and some number of STATUS reads
still see BUSY = 1 (log 4). -/
def Obligations.StepRunsTheDecodedCommand : Prop :=
  ∀ (s : State) (c : Word) (i : Instr) (rest : List HostEvent),
    s.pending = .write 0 4 c :: rest → s.inReset = false → decode c = .ok i → (s.err = false ∨ i.recovery = true) →
    match exec i { s with pending := rest, busy := true } with
    | .next t => ∃ n, step s = .next { t with
        busy := false, response := .done, draws := t.draws + 1,
        stall := some { seen := statusWord { s with busy := true }, left := n } }
    | .fault f => step s = .fault f
    | .refused r => step s = .refused r

/-- R106: while ERR = 1 an illegal word and a command outside the recovery set change no state; with ERR = 0 an illegal
word raises ILLEGAL with its OP; the recovery set is the six commands named, BR_START, CFG_RESET and SOFT_RESET clear
ERR when they succeed, NOP, SYN_RESET and PCM_CLEAR leave it, and only BR_START can fail, with RANGE. How many STATUS
reads see BUSY = 1 afterwards is free (log 4). -/
def Obligations.CommandGate : Prop :=
  (∀ (s : State) (c : Word) (rest : List HostEvent),
    s.pending = .write 0 4 c :: rest → s.inReset = false →
    (s.err = true → (∀ i, decode c = .ok i → i.recovery = false) →
      ∃ n, step s = .next { s with
        pending := rest, busy := false, response := .done, draws := s.draws + 1,
        stall := some { seen := statusWord { s with busy := true }, left := n } })
    ∧ (s.err = false → (∀ i, decode c ≠ .ok i) →
      ∃ n v d, step s = .next { s with
        pending := rest, busy := false, response := .done, draws := d,
        err := true, errcode := 0x0B, errop := c.extractLsb' 24 8, result := v,
        stall := some { seen := statusWord { s with busy := true }, left := n } }))
  ∧ (∀ i : Instr, i.recovery = true ↔
      i = .nop ∨ i = .softReset ∨ i = .brStart ∨ i = .cfgReset ∨ i = .synReset ∨ i = .pcmClear)
  ∧ (∀ s : State,
      (∃ t, exec .softReset s = .next t ∧ t.err = false ∧ t.errcode = 0 ∧ t.errop = 0)
      ∧ (∃ t, exec .cfgReset s = .next t ∧ t.err = false ∧ t.errcode = 0 ∧ t.errop = 0)
      ∧ (∃ t, exec .brStart s = .next t ∧
          (t.err = false ∧ t.errcode = 0 ∧ t.errop = 0 ∨ t.err = true ∧ t.errcode = 0x08 ∧ t.errop = 0x10))
      ∧ ∀ i : Instr, i = .nop ∨ i = .synReset ∨ i = .pcmClear →
          ∃ t, exec i s = .next t ∧ t.err = s.err ∧ t.errcode = s.errcode ∧ t.errop = s.errop)

/-- R17, R42, R43, R44: a host write to ARG0, ARG1 or SILENT stores, a write to an RO register stores nothing, and a
read of a register returns its contents, CMD as 0; nothing else changes but the port's own answer. While the stall
after a command lasts, a STATUS read completes with the word from before the command and BUSY = 1, and uses up one of
the reads that see it; with none left, or after any other access, it returns the present STATUS. How many reads see the
stall is free (log 4). -/
def Obligations.HostRegisterAccess : Prop :=
  (∀ (s : State) (a v : Word) (rest : List HostEvent), s.pending = .write a 4 v :: rest → s.inReset = false →
    (a = 0x04 → step s = .next { s with pending := rest, arg0 := v, response := .done, stall := none })
    ∧ (a = 0x08 → step s = .next { s with pending := rest, arg1 := v, response := .done, stall := none })
    ∧ (a = 0x1C → step s = .next { s with pending := rest, silent := v, response := .done, stall := none })
    ∧ (a ∈ [0x0C, 0x10, 0x14, 0x18, 0x20, 0x24, 0x28] →
        step s = .next { s with pending := rest, response := .done, stall := none }))
  ∧ (∀ (s : State) (a v : Word) (rest : List HostEvent), s.pending = .read a 4 :: rest → s.inReset = false →
    (a, v) ∈ [((0x00 : Word), (0 : Word)), (0x04, s.arg0), (0x08, s.arg1), (0x0C, s.result),
      (0x14, BitVec.ofNat 32 s.bitpos), (0x18, BitVec.ofNat 32 s.pktlen), (0x1C, s.silent),
      (0x20, BitVec.ofNat 32 s.pcmcount), (0x24, cfginfoWord s), (0x28, lapinfoWord s)] →
    step s = .next { s with pending := rest, response := .data v, stall := none })
  ∧ (∀ (s : State) (rest : List HostEvent), s.pending = .read 0x10 4 :: rest → s.inReset = false →
    (∀ seen left, s.stall = some { seen, left := left + 1 } →
      step s = .next { s with pending := rest, response := .data seen, stall := some { seen, left } })
    ∧ ((s.stall = none ∨ ∃ seen, s.stall = some { seen, left := 0 }) →
      step s = .next { s with pending := rest, response := .data (statusWord s), stall := none }))

/-- R18, R23, R24: the fields of STATUS, CFGINFO and LAPINFO, in a state whose fields have their widths. -/
def Obligations.StatusWordFields : Prop :=
  ∀ s : State,
    (statusWord s).getLsbD 0 = s.busy ∧ (statusWord s).getLsbD 1 = s.err ∧ (statusWord s).extractLsb' 2 6 = 0
    ∧ (statusWord s).extractLsb' 8 8 = s.errcode ∧ (statusWord s).extractLsb' 16 8 = s.errop
    ∧ (statusWord s).extractLsb' 24 8 = 0
    ∧ (cfginfoWord s).extractLsb' 0 2 = (match s.cfgState with | .opened => 0 | .sealed => 1 | .broken => 2)
    ∧ (cfginfoWord s).getLsbD 2 = s.synValid ∧ (cfginfoWord s).getLsbD 3 = false
    ∧ (cfginfoWord s).extractLsb' 4 4 = s.e0 ∧ (cfginfoWord s).extractLsb' 8 4 = s.e1
    ∧ (s.cbCount ≤ 256 → ((cfginfoWord s).extractLsb' 12 9).toNat = s.cbCount)
    ∧ (s.resCount ≤ 64 → ((cfginfoWord s).extractLsb' 21 7).toNat = s.resCount)
    ∧ (cfginfoWord s).extractLsb' 28 4 = 0
    ∧ (lapinfoWord s).getLsbD 0 = s.lapValid ∧ (lapinfoWord s).extractLsb' 1 15 = 0
    ∧ (s.tailLen ≤ 4096 → ((lapinfoWord s).extractLsb' 16 16).toNat = s.tailLen)

/-- R42, R119: an access of another width than 4 bytes, not aligned, or unmapped is a bus error, and so is every access
while reset is asserted. -/
def Obligations.BusErrors : Prop :=
  ∀ (s : State) (e : HostEvent) (a : Word) (bytes : Nat) (rest : List HostEvent),
    s.pending = e :: rest → (e = .read a bytes ∨ ∃ v, e = .write a bytes v) →
    (s.inReset = true → step s = .fault (.busErrorInReset a))
    ∧ (s.inReset = false →
        (bytes ≠ 4 ∨ a.toNat % 4 ≠ 0
          ∨ (0x2C ≤ a.toNat ∧ ¬ (0x10000000 ≤ a.toNat ∧ a.toNat < 0x10000000 + s.params.pktBytes)
              ∧ ¬ (0x20000000 ≤ a.toNat ∧ a.toNat < 0x20000000 + 4 * s.params.vecWords)
              ∧ ¬ (0x30000000 ≤ a.toNat ∧ a.toNat < 0x30000000 + 4 * s.params.pcmWords))) →
        step s = .fault (.busError a))

/-- R39, R40, R41, R48: a host write of v into PKT word w sets its four bytes, little-endian, and no other byte of PKT;
a byte below PKTLEN that changes joins the bytes whose earlier value a read may still see (log 9). A host read of word
w returns its four bytes packed the same way, and is the UNWRITTEN fault when one of them was never written (log 3). -/
def Obligations.HostWriteToPacketIsLittleEndian : Prop :=
  ∀ (s : State) (w : Nat) (a : Word) (rest : List HostEvent), s.params.wf → s.inReset = false →
    a.toNat = 0x10000000 + 4 * w → 4 * w < s.params.pktBytes →
    (∀ v, s.pending = .write a 4 v :: rest → ∃ t, step s = .next t
      ∧ t = { s with pending := rest, pkt := t.pkt, raced := t.raced, response := .done, stall := none }
      ∧ t.pkt.find (4 * w) = some (v.extractLsb' 0 8) ∧ t.pkt.find (4 * w + 1) = some (v.extractLsb' 8 8)
      ∧ t.pkt.find (4 * w + 2) = some (v.extractLsb' 16 8) ∧ t.pkt.find (4 * w + 3) = some (v.extractLsb' 24 8)
      ∧ (∀ b, b < 4 * w ∨ 4 * w + 4 ≤ b → t.pkt.find b = s.pkt.find b ∧ racedValues t b = racedValues s b)
      ∧ ∀ j, j < 4 → 4 * w + j < s.pktlen → ∀ old, s.pkt.find (4 * w + j) = some old →
          old ≠ v.extractLsb' (8 * j) 8 → some old ∈ racedValues t (4 * w + j))
    ∧ (s.pending = .read a 4 :: rest →
      (∀ v : Word, (∀ j, j < 4 → s.pkt.find (4 * w + j) = some (v.extractLsb' (8 * j) 8)) →
        step s = .next { s with pending := rest, response := .data v, stall := none })
      ∧ ∀ j, j < 4 → s.pkt.find (4 * w + j) = none → step s = .fault (.unwritten .pkt (4 * w)))

/-- R37, R39, R40, R42: a host write to VEC word w stores it and touches no other word, a host write to PCM is ignored,
and a host read of a VEC or PCM word returns it, or is the UNWRITTEN fault when it was never written (log 3). -/
def Obligations.HostAccessToVecAndPcm : Prop :=
  ∀ (s : State) (w : Nat) (a : Word) (rest : List HostEvent), s.params.wf → s.inReset = false →
    (a.toNat = 0x20000000 + 4 * w → w < s.params.vecWords →
      (∀ v, s.pending = .write a 4 v :: rest → ∃ t, step s = .next t
        ∧ t = { s with pending := rest, vec := t.vec, response := .done, stall := none }
        ∧ t.vec.find w = some v ∧ ∀ u, u ≠ w → t.vec.find u = s.vec.find u)
      ∧ (∀ x, s.pending = .read a 4 :: rest → s.vec.find w = some x →
          step s = .next { s with pending := rest, response := .data x, stall := none })
      ∧ (s.pending = .read a 4 :: rest → s.vec.find w = none → step s = .fault (.unwritten .vec w)))
    ∧ (a.toNat = 0x30000000 + 4 * w → w < s.params.pcmWords →
      (∀ v, s.pending = .write a 4 v :: rest →
        step s = .next { s with pending := rest, response := .done, stall := none })
      ∧ (∀ x, s.pending = .read a 4 :: rest → s.pcm.find w = some x →
          step s = .next { s with pending := rest, response := .data x, stall := none })
      ∧ (s.pending = .read a 4 :: rest → s.pcm.find w = none → step s = .fault (.unwritten .pcm w)))

/-- R35, R119: after a reset every state is at its reset value and the RAMs are unwritten, whatever the state before; an
idle block with no host access pending stays as it is. That this happens at once when reset is ASSERTED, and that its
release changes nothing else, is the model's choice (log 13; R119 describes the state after release), as are the idle
response and the ended stall (log 19). The parameters and the draws are kept (logs 2, 5), and no TAIL word is held (log
10). -/
def Obligations.ResetInput : Prop :=
  (∀ (s : State) (rest : List HostEvent), s.pending = .reset true :: rest →
    step s = .next { State.reset with params := s.params, draws := s.draws, pending := rest, inReset := true })
  ∧ (∀ (s : State) (rest : List HostEvent), s.pending = .reset false :: rest →
    step s = .next { s with pending := rest, inReset := false })
  ∧ (∀ s : State, s.pending = [] → step s = .next s)

/-! Control commands (44_config.md) -/

/-- R87: the word 0 is NOP, NOP changes no state, it runs while ERR = 1, and the word with a nonzero bit in 23..0 is
illegal. -/
def Obligations.NopChangesNothing : Prop :=
  decode 0 = .ok .nop ∧ Instr.nop.recovery = true ∧ (∀ s, exec .nop s = .next s)
    ∧ ∀ c : Word, c.toNat < 2 ^ 24 → c ≠ 0 → decode c = .error .reservedBits

/-- R88, R90, R99, R100, R120: SOFT_RESET puts every state but the RAMs at its reset value (the parameters, the host's
pending accesses and the port's own fields are the model's, and kept), so that STATUS, CFGINFO and LAPINFO read 0;
CFG_RESET discards the configuration, the lapping state, BASIS and PCMCOUNT, clears the error, and keeps everything
else; SYN_RESET clears LAP_VALID and TAIL_LEN, and PCM_CLEAR clears PCMCOUNT, and neither anything else. That no TAIL
word is held after SOFT_RESET is the model's choice (log 10). -/
def Obligations.ResettingCommandsClearTheirState : Prop :=
  ∀ s : State,
    (∃ t, exec .softReset s = .next t
      ∧ t = { State.reset with
              pkt := s.pkt, vec := s.vec, pcm := s.pcm, params := s.params, inReset := s.inReset,
              pending := s.pending, response := s.response, stall := s.stall, draws := s.draws }
      ∧ statusWord t = 0 ∧ cfginfoWord t = 0 ∧ lapinfoWord t = 0)
    ∧ exec .cfgReset s = .next { s with
        cb := [], res := [], cbCount := 0, resCount := 0, synValid := false, e0 := 0, e1 := 0, lapValid := false,
        tailLen := 0, basis := [], pcmcount := 0, cfgState := .opened, err := false, errcode := 0, errop := 0 }
    ∧ exec .synReset s = .next { s with lapValid := false, tailLen := 0 }
    ∧ exec .pcmClear s = .next { s with pcmcount := 0 }

/-- R64: BR_START with a length that fits sets PKTLEN, BITPOS = 0, and clears the error (and ends the race on bytes of
the packet before, R48, in the model's list of them, log 9); a longer one raises RANGE and changes neither PKTLEN nor
BITPOS. -/
def Obligations.BrStartBeginsAPacket : Prop :=
  ∀ s : State,
    (s.arg0.toNat ≤ s.params.pktBytes → exec .brStart s = .next
      { s with pktlen := s.arg0.toNat, bitpos := 0, err := false, errcode := 0, errop := 0, raced := [] })
    ∧ (s.params.pktBytes < s.arg0.toNat → Raises .brStart .range s)

/-- R89: CFG_SEAL in OPEN with counts in range and every reference resolved seals with those counts and changes nothing
else; out of OPEN it raises CFGSTATE; in OPEN, a count out of range is BADCFG, and then an undefined slot or a reference
at or above ncb is BADREF, both leaving BROKEN. -/
def Obligations.CfgSealChecksAndSeals : Prop :=
  ∀ s : State,
    (s.cfgState = .opened → s.arg0.toNat ≤ 256 → s.arg1.toNat ≤ 64 → Sealable s → exec .cfgSeal s = .next
      { s with cfgState := .sealed, cbCount := s.arg0.toNat, resCount := s.arg1.toNat })
    ∧ (s.cfgState ≠ .opened → Raises .cfgSeal .cfgState s)
    ∧ (s.cfgState = .opened → 256 < s.arg0.toNat ∨ 64 < s.arg1.toNat → RaisesAndBreaks .cfgSeal .badCfg s)
    ∧ (s.cfgState = .opened → s.arg0.toNat ≤ 256 → s.arg1.toNat ≤ 64 → ¬ Sealable s →
        RaisesAndBreaks .cfgSeal .badRef s)

/-- R26, R30, R91: outside SEALED every decode command raises CFGSTATE, outside OPEN every configuration command does,
and a decode command of a slot at or above the sealed count raises BADREF, all with no other effect than R107's. -/
def Obligations.CommandsOutOfTheirStateAreRefused : Prop :=
  ∀ s : State,
    (s.cfgState ≠ .sealed → ∀ i : Instr,
      ((∃ k, i = .cbScalar k) ∨ (∃ k a, i = .cbVector k a) ∨ (∃ r n, i = .resDecode r n) ∨ (∃ w p n, i = .synBlock w p n))
      → Raises i .cfgState s)
    ∧ (s.cfgState ≠ .opened → ∀ i : Instr,
      ((∃ k, i = .cbDefine k) ∨ (∃ r, i = .resDefine r) ∨ (∃ a b, i = .synConfig a b) ∨ i = .cfgSeal)
      → Raises i .cfgState s)
    ∧ (s.cfgState = .sealed → ∀ n, s.cbCount ≤ n → Raises (.cbScalar n) .badRef s ∧ ∀ a, Raises (.cbVector n a) .badRef s)
    ∧ (s.cfgState = .sealed → ∀ r nvec, s.resCount ≤ r → Raises (.resDecode r nvec) .badRef s)

/-- R26, R27, R108: a command run in SEALED leaves the configuration as it was, unless it is CFG_RESET or SOFT_RESET. -/
def Obligations.SealedConfigurationIsImmutable : Prop :=
  ∀ (i : Instr) (s t : State), s.cfgState = .sealed → i ≠ .cfgReset → i ≠ .softReset → exec i s = .next t →
    t.cfgState = .sealed ∧ t.cb = s.cb ∧ t.res = s.res ∧ t.cbCount = s.cbCount ∧ t.resCount = s.resCount
      ∧ t.synValid = s.synValid ∧ t.e0 = s.e0 ∧ t.e1 = s.e1

/-! Errors (60_exceptions.md) -/

/-- R104, R105, R107, R108: a command that ends with ERR newly set has done the error entry and nothing else: ERRCODE is
a code of R105, ERROP is its OP, BITPOS moved only if it reads bits and within its range, CFG_STATE and a slot changed
only as R108 says, and VEC changed only in the region of a RES_DECODE. -/
def Obligations.ErrorEntryChangesNothingElse : Prop :=
  ∀ (i : Instr) (s t : State), s.err = false → exec i s = .next t → t.err = true →
    (∃ e : ErrorCode, t.errcode = e.code) ∧ t.errop = BitVec.ofNat 8 i.opcode
    ∧ t = { s with err := true, errcode := t.errcode, errop := t.errop, result := t.result, bitpos := t.bitpos,
                   draws := t.draws, cfgState := t.cfgState, cb := t.cb, res := t.res, vec := t.vec }
    ∧ (readsBits i = false → t.bitpos = s.bitpos)
    ∧ (s.bitpos ≤ 8 * s.pktlen → s.bitpos ≤ t.bitpos ∧ t.bitpos ≤ 8 * s.pktlen)
    ∧ (match i with
        | .cbDefine k => if s.cfgState = .opened then t.cfgState = .broken ∧ t.cb = s.cb.erase k ∧ t.res = s.res
            else t.cfgState = s.cfgState ∧ t.cb = s.cb ∧ t.res = s.res
        | .resDefine r => if s.cfgState = .opened then t.cfgState = .broken ∧ t.cb = s.cb ∧ t.res = s.res.erase r
            else t.cfgState = s.cfgState ∧ t.cb = s.cb ∧ t.res = s.res
        | .synConfig _ _ | .cfgSeal => (if s.cfgState = .opened then t.cfgState = .broken else t.cfgState = s.cfgState)
            ∧ t.cb = s.cb ∧ t.res = s.res
        | _ => t.cfgState = s.cfgState ∧ t.cb = s.cb ∧ t.res = s.res)
    ∧ (match i with
        | .resDecode _ nvec => ∀ w, w < s.arg0.toNat ∨ s.arg0.toNat + nvec * s.arg1.toNat ≤ w → t.vec.find w = s.vec.find w
        | _ => t.vec = s.vec)

/-- R10, R39, R104, R128: every command ends with a next state, an error included, when the packet's bytes and the VEC
words it reads are written. A command that does not is at the UNWRITTEN fault, at a byte of the packet or a word of VEC
that nothing has written; none is refused. A read of bits that meets an unwritten byte before it is full is that
fault. -/
def Obligations.EveryCommandEnds : Prop :=
  (∀ (i : Instr) (s : State),
    (PacketWritten s → VecReadable i s → ∃ t, exec i s = .next t)
    ∧ (∀ f, exec i s = .fault f →
        (∃ b, f = .unwritten .pkt b ∧ b < s.pktlen ∧ s.pkt.find b = none)
        ∨ ∃ w, f = .unwritten .vec w ∧ s.vec.find w = none)
    ∧ ∀ r, exec i s ≠ .refused r)
  ∧ ∀ (s : State) (n : Nat) (bits : List Bool), bits.length < n → packetHas s bits = true →
      s.bitpos + bits.length < 8 * s.pktlen → s.pkt.find ((s.bitpos + bits.length) / 8) = none →
      let f := Fault.unwritten .pkt ((s.bitpos + bits.length) / 8)
      exec (.brReadU n) s = .fault f ∧ exec (.brReadS n) s = .fault f ∧ (n = 32 → exec .brReadF s = .fault f)

/-! Bit reader (41_bitreader.md) -/

/-- R36, R60, R61, R65: BR_READU n with n ≥ 1 reads the n bits at BITPOS, the first one least significant. -/
def Obligations.BrReadUReadsAField : Prop :=
  ∀ (s : State) (n v : Nat), 1 ≤ n → n ≤ 32 → v < 2 ^ n → packetHas s (fieldBits n v) = true →
    exec (.brReadU n) s = .next { s with result := BitVec.ofNat 32 v, bitpos := s.bitpos + n }

/-- R62, R66: BR_READS n with n ≥ 1 reads the same bits as a two's-complement value. -/
def Obligations.BrReadSReadsASignedField : Prop :=
  ∀ (s : State) (n v : Nat), 1 ≤ n → n ≤ 32 → v < 2 ^ n → packetHas s (fieldBits n v) = true →
    exec (.brReadS n) s = .next { s with
      result := BitVec.ofInt 32 (if 2 ^ (n - 1) ≤ v then (v : Int) - 2 ^ n else v), bitpos := s.bitpos + n }

/-- R59, R61, R62: a zero-width read gives 0 and moves nothing unless the reader is at the end, by either reading of it,
and raises EOB there. -/
def Obligations.ZeroWidthReadProbesTheEnd : Prop :=
  ∀ (s : State) (i : Instr), i = .brReadU 0 ∨ i = .brReadS 0 →
    let ended := match s.params.eobProbe with
      | .allConsumed => s.bitpos = 8 * s.pktlen
      | .lastByteFetched => s.pktlen = 0 ∨ 8 * (s.pktlen - 1) < s.bitpos
    (¬ ended → exec i s = .next { s with result := 0 }) ∧ (ended → Raises i .eob s)

/-- R60, R61, R105: a read of n ≥ 1 bits with fewer than n left raises EOB, and BR_READF with fewer than 32 left. -/
def Obligations.ShortReadRaisesEob : Prop :=
  ∀ (s : State) (n : Nat), 1 ≤ n → n ≤ 32 → s.bitpos ≤ 8 * s.pktlen → PacketWritten s →
    8 * s.pktlen < s.bitpos + n →
    Raises (.brReadU n) .eob s ∧ Raises (.brReadS n) .eob s ∧ (n = 32 → Raises .brReadF .eob s)

/-- R67: BR_READF reads a 32-bit field and gives its vendor float, by the block's arithmetic. -/
def Obligations.BrReadFReadsAVendorFloat : Prop :=
  ∀ (s : State) (x : Nat), x < 2 ^ 32 → packetHas s (fieldBits 32 x) = true →
    exec .brReadF s = .next { s with result := vendorFloat s.params.f32 x, bitpos := s.bitpos + 32 }

/-- R12, R63: the vendor float of a field is +0 for mantissa 0, and else `f32round` of the exact real sign · mantissa ·
2^(exponent - 788), by any record F32. By R12's decision for F32 that is the real rounded to binary32, a zero of the
real's sign up to 2^-150 in magnitude. -/
def Obligations.VendorFloatIsTheRoundedReal : Prop :=
  ∀ x : Nat, x < 2 ^ 32 →
    let neg := decide (x / 2 ^ 31 = 1)
    let mant := x % 2 ^ 21
    let e : Int := (x / 2 ^ 21 % 2 ^ 10 : Nat) - 788
    let r := dyadicReal neg mant e
    (∀ f : F32Choice, (mant = 0 → vendorFloat f x = 0) ∧ (mant ≠ 0 → vendorFloat f x = f.round neg mant e))
    ∧ (mant ≠ 0 → RoundsTo r (vendorFloat .ieee x)
        ∧ (|r| ≤ (2 : ℝ) ^ (-150 : ℤ) → vendorFloat .ieee x = f32Pack neg 0))

/-- R11, R68: BR_ILOG gives the least number of bits that holds ARG0, and changes nothing else. -/
def Obligations.BrIlogGivesTheBitsNeeded : Prop :=
  ∀ s : State, ∃ n : Nat, exec .brIlog s = .next { s with result := BitVec.ofNat 32 n }
    ∧ n ≤ 32 ∧ s.arg0.toNat < 2 ^ n ∧ (0 < n → 2 ^ (n - 1) ≤ s.arg0.toNat)

/-- R48, R123: a bit of a PKT byte rewritten under the packet reads as that bit of the present byte or of an earlier
one, by a free choice; an earlier value that was never written may give either bit (log 9). -/
def Obligations.RewrittenPacketByteReadsOldOrNew : Prop :=
  ∀ (s : State) (now : Byte), s.bitpos < 8 * s.pktlen → s.pkt.find (s.bitpos / 8) = some now →
    ∃ v d, exec (.brReadU 1) s = .next { s with result := BitVec.ofNat 32 v, bitpos := s.bitpos + 1, draws := d }
      ∧ v < 2
      ∧ (none ∉ racedValues s (s.bitpos / 8) →
          v = (now.getLsbD (s.bitpos % 8)).toNat
            ∨ ∃ old, some old ∈ racedValues s (s.bitpos / 8) ∧ v = (old.getLsbD (s.bitpos % 8)).toNat)

/-! Binary32 (00_scope.md R12) -/

/-- R12: by R12's decision for F32, every dyadic real other than 0 rounds to the nearest binary32, ties to even, with
gradual underflow and overflow to infinity. -/
def Obligations.F32RoundIsNearestEven : Prop :=
  ∀ (neg : Bool) (m : Nat) (e : Int), m ≠ 0 → RoundsTo (dyadicReal neg m e) (F32Choice.ieee.round neg m e)

/-- R12: by R12's decision for F32, sums and products of finite words are the exact ones rounded once, with the signs
of zero of IEEE 754; with an infinity the result is an infinity of the right sign, or with no value a quiet NaN, as it
is with a NaN operand. A NaN is quiet when bit 22 is set (log 6). -/
def Obligations.F32AddAndMulAreIeee : Prop :=
  let add := F32Choice.ieee.add
  let mul := F32Choice.ieee.mul
  ∀ a b : Word,
    (f32IsFinite a = true → f32IsFinite b = true →
      RoundsTo (f32Real a + f32Real b) (add a b) ∧ RoundsTo (f32Real a * f32Real b) (mul a b)
      ∧ (f32Real a + f32Real b = 0 → add a b = f32Pack (a.getLsbD 31 && b.getLsbD 31) 0)
      ∧ (mul a b).getLsbD 31 = (a.getLsbD 31 ^^ b.getLsbD 31))
    ∧ (∀ n, f32Value a = .inf n → f32IsFinite b = true → add a b = a ∧ add b a = a)
    ∧ (∀ n m, f32Value a = .inf n → f32Value b = .inf m →
        (n = m → add a b = a) ∧ mul a b = f32Pack (n ^^ m) 0x7F800000)
    ∧ (∀ n, f32Value a = .inf n → f32IsFinite b = true → f32IsZero b = false →
        mul a b = f32Pack (n ^^ b.getLsbD 31) 0x7F800000 ∧ mul b a = f32Pack (n ^^ b.getLsbD 31) 0x7F800000)
    ∧ (f32Value a = .nan ∨ f32Value b = .nan ∨ (∃ n, f32Value a = .inf n ∧ f32Value b = .inf (!n)) →
        (add a b).toNat / 2 ^ 22 % 2 ^ 9 = 511)
    ∧ (f32Value a = .nan ∨ f32Value b = .nan ∨ (∃ n, f32Value a = .inf n ∧ f32IsZero b = true)
        ∨ (∃ n, f32Value b = .inf n ∧ f32IsZero a = true) →
        (mul a b).toNat / 2 ^ 22 % 2 ^ 9 = 511)

/-! Codebooks (42_codebook.md) -/

/-- R69: lookup1_values(E, D) is the largest R with R^D ≤ E. -/
def Obligations.Lookup1ValuesIsTheLargestRoot : Prop :=
  ∀ count dim : Nat, 1 ≤ dim →
    lookup1Values count dim ^ dim ≤ count ∧ ∀ r, r ^ dim ≤ count → r ≤ lookup1Values count dim

/-- R70: an insertion at an inner root puts the leaf at the lowest free path of its length and keeps every other leaf;
it fails only when no path of that length is free. -/
def Obligations.InsertTakesTheLeftmostFreePath : Prop :=
  ∀ (a b : Tree) (sym len : Nat), 1 ≤ len →
    (∀ t, insertCodeword (.inner a b) sym len = some t →
      ∃ p : List Bool, p.length = len ∧ pathFree (.inner a b) p
        ∧ (∀ q : List Bool, q.length = len → pathFree (.inner a b) q → pathNumber p ≤ pathNumber q)
        ∧ ∀ (q : List Bool) (x : Nat), t.nodeAt q = some (.leaf x) ↔
            ((Tree.inner a b).nodeAt q = some (.leaf x) ∨ (q = p ∧ x = sym)))
    ∧ (insertCodeword (.inner a b) sym len = none → ∀ q : List Bool, q.length = len → ¬ pathFree (.inner a b) q)

/-- R78: in the tree of a list of lengths that all insert, each used entry has exactly one codeword, of its length,
every codeword is one of these, and no codeword is a prefix of another. -/
def Obligations.CodewordsAreAPrefixCode : Prop :=
  ∀ (lens : List (Option Nat)) (t : Tree), (∀ l, some l ∈ lens → 1 ≤ l) → buildTree lens = some t →
    (∀ i l, lens[i]? = some (some l) → ∃ p : List Bool, p.length = l ∧ t.nodeAt p = some (.leaf i))
    ∧ (∀ (p : List Bool) (i : Nat), t.nodeAt p = some (.leaf i) → lens[i]? = some (some p.length))
    ∧ (∀ (p q : List Bool) (i j : Nat), t.nodeAt p = some (.leaf i) → t.nodeAt q = some (.leaf j) →
        (p <+: q → p = q) ∧ (i = j → p = q))

/-- R39, R71, R76, R105: CB_SCALAR on the bits of a codeword gives its entry and consumes exactly those bits; on bits
that lead to an empty branch it raises BADCODE; when the packet ends inside a codeword it raises EOB, and at an
unwritten byte there it is the UNWRITTEN fault. -/
def Obligations.CbScalarWalksTheTree : Prop :=
  ∀ (s : State) (k : Nat) (c : Codebook) (p : List Bool), s.cfgState = .sealed → k < s.cbCount →
    s.cb.find k = some c → packetHas s p = true →
    (∀ sym, c.tree.nodeAt p = some (.leaf sym) → exec (.cbScalar k) s = .next
      { s with result := BitVec.ofNat 32 sym, bitpos := s.bitpos + p.length })
    ∧ (c.tree.nodeAt p = some .empty → Raises (.cbScalar k) .badCode s)
    ∧ ∀ a b, c.tree.nodeAt p = some (.inner a b) →
        (s.bitpos + p.length = 8 * s.pktlen → Raises (.cbScalar k) .eob s)
        ∧ (s.bitpos + p.length < 8 * s.pktlen → s.pkt.find ((s.bitpos + p.length) / 8) = none →
            exec (.cbScalar k) s = .fault (.unwritten .pkt ((s.bitpos + p.length) / 8)))

/-- R77: CB_VECTOR on the bits of a codeword writes the entry's vector at ARG0, or adds it to what is there with one
rounding each, and touches no other VEC word. -/
def Obligations.CbVectorWritesOrAccumulates : Prop :=
  ∀ (s : State) (k : Nat) (acc : Bool) (c : Codebook) (l : Lookup) (p : List Bool) (e : Nat) (row : List Word),
    s.cfgState = .sealed → k < s.cbCount → s.cb.find k = some c → c.lookup = some l →
    s.arg0.toNat + c.dim ≤ s.params.vecWords → packetHas s p = true → c.tree.nodeAt p = some (.leaf e) →
    l.val[e]? = some row → row.length = c.dim → (acc = true → VecWritten s s.arg0.toNat c.dim) →
    ∃ t, exec (.cbVector k acc) s = .next t
      ∧ t = { s with result := BitVec.ofNat 32 e, bitpos := s.bitpos + p.length, vec := t.vec }
      ∧ (∀ d x, row[d]? = some x → t.vec.find (s.arg0.toNat + d) =
          if acc then (s.vec.find (s.arg0.toNat + d)).map fun old => s.params.f32.add old x else some x)
      ∧ ∀ w, w < s.arg0.toNat ∨ s.arg0.toNat + c.dim ≤ w → t.vec.find w = s.vec.find w

/-- R39, R77, R105, R109: before any bit is read, CB_VECTOR raises NOLOOKUP on a codebook without a value table, and
RANGE when the vector does not fit in VEC; then BADCODE on bits that lead to an empty branch, and EOB when the packet
ends inside a codeword. With ACC = 1, a destination word that nothing has written is the UNWRITTEN fault, at the
first. -/
def Obligations.CbVectorRefusals : Prop :=
  ∀ (s : State) (k : Nat) (acc : Bool) (c : Codebook), s.cfgState = .sealed → k < s.cbCount → s.cb.find k = some c →
    (c.lookup = none → Raises (.cbVector k acc) .noLookup s)
    ∧ (c.lookup ≠ none → s.params.vecWords < s.arg0.toNat + c.dim → Raises (.cbVector k acc) .range s)
    ∧ (c.lookup ≠ none → s.arg0.toNat + c.dim ≤ s.params.vecWords → ∀ p, packetHas s p = true →
        (c.tree.nodeAt p = some .empty → Raises (.cbVector k acc) .badCode s)
        ∧ (∀ a b, c.tree.nodeAt p = some (.inner a b) → s.bitpos + p.length = 8 * s.pktlen →
            Raises (.cbVector k acc) .eob s)
        ∧ ∀ e d, c.tree.nodeAt p = some (.leaf e) → d < c.dim → VecWritten s s.arg0.toNat d →
            s.vec.find (s.arg0.toNat + d) = none →
            exec (.cbVector k true) s = .fault (.unwritten .vec (s.arg0.toNat + d)))

/-- R12, R73: the value table of a codebook, by any record F32: each value is multiplicand · delta + minimum + last,
rounded in that order, with `last` the value before it when seq = 1 and +0 else; a lattice takes the digit (e div R^d)
mod R, an explicit table the multiplicand e·D + d. Multiplicands below 2^16 are exact. -/
def Obligations.ValueTableFollowsTheFormula : Prop :=
  (∀ (f : F32Choice) (kind : LookupKind) (mult : List (BitVec 16)) (delta min : Word) (seq : Bool) (count dim e d : Nat),
    e < count → d < dim →
    ∃ row x m, (buildValues f kind mult delta min seq count dim)[e]? = some row
      ∧ row.length = dim ∧ row[d]? = some x
      ∧ m = (match kind with
          | .lattice => mult.getD (e / lookup1Values count dim ^ d % lookup1Values count dim) 0
          | .explicit => mult.getD (e * dim + d) 0)
      ∧ x = f.add (f.add (f.mul (f32OfNat m.toNat) delta) min)
          (if seq ∧ 0 < d then row.getD (d - 1) 0 else 0))
  ∧ ∀ m : Nat, m < 2 ^ 16 → f32IsFinite (f32OfNat m) = true ∧ f32Real (f32OfNat m) = m

/-- R72, R75: CB_DEFINE on the bits of a header, in any length mode and any lookup kind the parameters allow, whose
lengths insert and whose tables fit, defines the slot with that header's record, consumes exactly its bits, gives E,
and changes nothing else. -/
def Obligations.CbDefineParsesTheHeader : Prop :=
  ∀ (s : State) (k : Nat) (h : CodebookHeader) (tree : Tree), s.cfgState = .opened → h.wellFormed = true →
    buildTree h.lengths.lengths = some tree → h.fits tree k s = true → packetHas s h.bits = true →
    exec (.cbDefine k) s = .next { s with
      cb := s.cb.store k [h.record s.params.f32 tree], bitpos := s.bitpos + h.bits.length, result := BitVec.ofNat 32 h.count }

/-- R72, R75, R105, R108: in OPEN, a wrong sync is BADSYNC, lengths that do not insert are INSERT, tables past their
capacity are NOSPACE, a lookup type over 2 (or 2 where the parameter says so) is UNSUPPORTED, and a value table with D =
0 is BADCFG. So is, in the ordered mode, a run past the last entry, or one that is not empty with a length over 32. A
packet that ends inside a header is EOB. Each leaves BROKEN and the slot empty. -/
def Obligations.CbDefineRefusals : Prop :=
  ∀ (s : State) (k : Nat), s.cfgState = .opened →
    let fails (e : ErrorCode) := ∃ t, exec (.cbDefine k) s = .next t ∧ ErrorFrom (.cbDefine k) e (dropCodebook k s) t
    let endsWith (bits : List Bool) := packetHas s bits = true ∧ s.bitpos + bits.length = 8 * s.pktlen
    let start (dim count : Nat) := fieldBits 24 0x564342 ++ fieldBits 16 dim ++ fieldBits 24 count
    (∀ sync, sync < 2 ^ 24 → sync ≠ 0x564342 → packetHas s (fieldBits 24 sync) = true → fails .badSync)
    ∧ (∀ (dim count : Nat) (f : LengthFields), dim < 2 ^ 16 → count < 2 ^ 24 → f.wellFormed count = true →
        let front := start dim count ++ f.bits count
        (∀ p, p <+: front → p ≠ front → endsWith p → fails .eob)
        ∧ (buildTree f.lengths = none → packetHas s front = true → fails .insert)
        ∧ ∀ (tree : Tree) (ty : Nat), buildTree f.lengths = some tree → ty < 16 →
            packetHas s (front ++ fieldBits 4 ty) = true →
            let full := s.params.nodeCap < nodesUsed s - slotNodes s k + tree.nodes
            (full → fails .noSpace)
            ∧ (¬ full → 2 < ty ∨ (ty = 2 ∧ s.params.lookup2 = .unsupported) → fails .unsupported)
            ∧ (¬ full → ty = 1 ∨ (ty = 2 ∧ s.params.lookup2 = .vorbisFormula) →
                (dim = 0 → fails .badCfg)
                ∧ (dim ≠ 0 → s.params.valCap < valsUsed s - slotVals s k + count * dim → fails .noSpace)))
    ∧ (∀ (h : CodebookHeader) (tree : Tree) (p : List Bool), h.wellFormed = true →
        buildTree h.lengths.lengths = some tree → h.fits tree k s = true → p <+: h.bits → p ≠ h.bits → endsWith p →
        fails .eob)
    ∧ ∀ (dim count first : Nat) (runs : List Nat), dim < 2 ^ 16 → count < 2 ^ 24 → 1 ≤ first → first ≤ 32 →
        runsFit count first runs = true → runs.sum < count →
        let left := count - runs.sum
        let front := start dim count ++ true :: fieldBits 5 (first - 1) ++ runBits count runs
        (∀ p, p.length < ilog left → endsWith (front ++ p) → fails .eob)
        ∧ ∀ num, num < 2 ^ ilog left → packetHas s (front ++ fieldBits (ilog left) num) = true →
            (left < num ∨ (0 < num ∧ 32 < first + runs.length)) → fails .badCfg

/-! Residues (43_residue.md) -/

/-- R79, R84, R105: RES_DEFINE on the bits of a header whose books are all defined defines the slot with that header's
record, consumes exactly its bits, gives the type, and changes nothing else; with an undefined book it raises BADREF,
leaves BROKEN and the slot empty, and so does a type over 2, as UNSUPPORTED, and a packet that ends inside a header, as
EOB. -/
def Obligations.ResDefineParsesTheHeader : Prop :=
  ∀ (s : State) (r : Nat), s.cfgState = .opened →
    let fails (e : ErrorCode) := ∃ t, exec (.resDefine r) s = .next t ∧ ErrorFrom (.resDefine r) e (dropResidue r s) t
    (∀ h : ResidueHeader, h.wellFormed = true →
      (packetHas s h.bits = true →
        (residueResolves s h.record = true → exec (.resDefine r) s = .next { s with
          res := s.res.store r [h.record], bitpos := s.bitpos + h.bits.length, result := BitVec.ofNat 32 h.type })
        ∧ (residueResolves s h.record = false → fails .badRef))
      ∧ ∀ p, p <+: h.bits → p ≠ h.bits → packetHas s p = true → s.bitpos + p.length = 8 * s.pktlen → fails .eob)
    ∧ ∀ ty, 2 < ty → ty < 2 ^ 16 → packetHas s (fieldBits 16 ty) = true → fails .unsupported

/-- R85, R86: RES_DECODE of type 2 with every vector silent, and of type 1 with every vector silent and legal bounds,
writes +0 to every element of the region, reads no bit, gives 0, and touches nothing else. -/
def Obligations.ResDecodeOfSilentVectorsGivesZeros : Prop :=
  ∀ (s : State) (r nvec : Nat) (x : Residue), s.cfgState = .sealed → r < s.resCount → s.res.find r = some x →
    s.arg0.toNat + nvec * s.arg1.toNat ≤ s.params.vecWords → (∀ v, v < nvec → s.silent.getLsbD v = true) →
    (x.type = 2 ∨ (x.type = 1 ∧ x.begin ≤ x.stop ∧ x.stop ≤ s.arg1.toNat
      ∧ ∃ c, s.cb.find x.classbook = some c ∧ 1 ≤ c.dim)) →
    ∃ t, exec (.resDecode r nvec) s = .next t ∧ t = { s with result := 0, vec := t.vec }
      ∧ (∀ w, s.arg0.toNat ≤ w → w < s.arg0.toNat + nvec * s.arg1.toNat → t.vec.find w = some 0)
      ∧ ∀ w, w < s.arg0.toNat ∨ s.arg0.toNat + nvec * s.arg1.toNat ≤ w → t.vec.find w = s.vec.find w

/-- R80, R81, R82, R83, R85, R126: what RES_DECODE reads and writes, for either type, any vectors and silent flags, any
number of partitions, passes and digits of a class codeword. If the packet holds, at every place the decode core reads
(`residueSteps`, in R81's order), codewords it can read there (`stepOk`), they are what it reads: RESULT is the number
of their bits, every VEC word of the region is +0 with the values of the vectors added in order, each partition's from
its first element on, overshoot included, and nothing outside the region changes. Type 1 decodes each vector that is
not silent; type 2 one pseudo-vector, whose element i is element i div nvec of vector i mod nvec. -/
def Obligations.ResDecodeFillsAPartition : Prop :=
  ∀ (s : State) (r nvec : Nat) (x : Residue) (cc : Codebook) (words : StepWords),
    s.cfgState = .sealed → r < s.resCount → s.res.find r = some x → x.wellFormed = true →
    s.arg0.toNat + nvec * s.arg1.toNat ≤ s.params.vecWords →
    (x.type = 1 ∨ x.type = 2 ∧ ∃ v, v < nvec ∧ s.silent.getLsbD v = false) →
    let n := s.arg1.toNat
    let active := if x.type = 2 then [0] else (List.range nvec).filter fun v => !s.silent.getLsbD v
    let lvec := if x.type = 2 then nvec * n else n
    let target := fun v i => if x.type = 2 then s.arg0.toNat + i % nvec * n + i / nvec else s.arg0.toNat + v * n + i
    let parts := (x.stop - x.begin) / x.psize
    x.begin ≤ x.stop → x.stop ≤ lvec → s.cb.find x.classbook = some cc → (0 < parts → 1 ≤ cc.dim) →
    let steps := residueSteps active cc.dim parts
    let bits := traceBits words steps
    (∀ step ∈ steps, stepOk s.cb x cc.dim lvec words step = true) → packetHas s bits = true →
    ∃ t, exec (.resDecode r nvec) s = .next t
      ∧ t = { s with result := BitVec.ofNat 32 bits.length, bitpos := s.bitpos + bits.length, vec := t.vec }
      ∧ (∀ a, s.arg0.toNat ≤ a → a < s.arg0.toNat + nvec * n → t.vec.find a = some
          (addedWord s.params.f32 (steps.flatMap (stepAdds s.cb x cc.dim target words)) a 0))
      ∧ ∀ a, a < s.arg0.toNat ∨ s.arg0.toNat + nvec * n ≤ a → t.vec.find a = s.vec.find a

/-- R80, R81, R85, R105, R107, R126: what RES_DECODE refuses, in order: a region past VEC is RANGE and a type 0
UNSUPPORTED, both with VEC unchanged (for type 0 that is the model's reading, log 11: test vector X8 puts the failure
after the zeroing). Then begin > end is BADCFG, an end past the vector RANGE, and a class book of dimension 0 with
partitions to read BADCFG. Then, at any place the decode core reads, after codewords it could read at every place
before (`stepOk`): bits that lead to an empty branch are BADCODE, a packet that ends inside a codeword is EOB, a pass
book without a value table is NOLOOKUP, and a vector with an element past the Lvec elements is RANGE. Each of these
leaves only the region unspecified. -/
def Obligations.ResDecodeRefusals : Prop :=
  ∀ (s : State) (r nvec : Nat) (x : Residue), s.cfgState = .sealed → r < s.resCount → s.res.find r = some x →
    let n := nvec * s.arg1.toNat
    let lvec := if x.type = 2 then n else s.arg1.toNat
    let active := if x.type = 2 then [0] else (List.range nvec).filter fun v => !s.silent.getLsbD v
    let parts := (x.stop - x.begin) / x.psize
    let fails (e : ErrorCode) := ∃ t v, exec (.resDecode r nvec) s = .next t
      ∧ ErrorFrom (.resDecode r nvec) e { s with vec := v } t
      ∧ ∀ w, w < s.arg0.toNat ∨ s.arg0.toNat + n ≤ w → Sparse.find v w = s.vec.find w
    (s.params.vecWords < s.arg0.toNat + n → Raises (.resDecode r nvec) .range s)
    ∧ (s.arg0.toNat + n ≤ s.params.vecWords →
        (x.type = 0 → Raises (.resDecode r nvec) .unsupported s)
        ∧ (x.type = 1 ∨ x.type = 2 ∧ (∃ v, v < nvec ∧ s.silent.getLsbD v = false) →
            (x.stop < x.begin → fails .badCfg)
            ∧ (x.begin ≤ x.stop → lvec < x.stop → fails .range)
            ∧ (x.begin ≤ x.stop → x.stop ≤ lvec → ∀ cc, s.cb.find x.classbook = some cc →
                (cc.dim = 0 → 0 < parts → fails .badCfg)
                ∧ (1 ≤ cc.dim → x.wellFormed = true →
                    ∀ (words : StepWords) (before after : List ResidueStep) (step : ResidueStep),
                    residueSteps active cc.dim parts = before ++ step :: after →
                    (∀ b ∈ before, stepOk s.cb x cc.dim lvec words b = true) →
                    let read := traceBits words before
                    let stuck (bits : List Bool) (c : Codebook) := ∀ p, packetHas s (bits ++ p) = true →
                      (c.tree.nodeAt p = some .empty → fails .badCode)
                      ∧ ∀ a b, c.tree.nodeAt p = some (.inner a b) →
                          s.bitpos + (bits ++ p).length = 8 * s.pktlen → fails .eob
                    match step with
                    | .classify _ _ => stuck read cc
                    | .fill pass p v => ∀ b c, passBook x (partitionClass x cc.dim words p v) pass = some b →
                        s.cb.find b = some c →
                        (c.lookup = none → packetHas s read = true → fails .noLookup)
                        ∧ ∀ ws, vectorsOf c ws = true → ws.length * c.dim < x.psize →
                            x.begin + p * x.psize + ws.length * c.dim ≤ lvec →
                            let bits := read ++ ws.flatMap Prod.fst
                            stuck bits c
                            ∧ ∀ w, vectorsOf c [w] = true → lvec < x.begin + p * x.psize + (ws.length + 1) * c.dim →
                                packetHas s (bits ++ w.1) = true → fails .range))))

/-- R82, R85: what RES_DECODE leaves in its region, its result and its error do not depend on what VEC held before. -/
def Obligations.ResDecodeDoesNotSeeOldVec : Prop :=
  ∀ (s : State) (r nvec : Nat) (v : Sparse Word),
    match exec (.resDecode r nvec) s, exec (.resDecode r nvec) { s with vec := v } with
    | .next t, .next u => u = { t with vec := u.vec }
        ∧ (s.err = false → t.err = false → ∀ w, s.arg0.toNat ≤ w → w < s.arg0.toNat + nvec * s.arg1.toNat →
            u.vec.find w = t.vec.find w)
    | .fault f, .fault g => f = g
    | _, _ => False

/-! Synthesis (45_synthesis.md) -/

/-- R97: SYN_CONFIG in OPEN with 6 ≤ e0 ≤ e1 ≤ 13 sets the block sizes and SYN_VALID and nothing else; in OPEN with
other exponents it raises BADCFG and leaves BROKEN, with SYN_VALID, E0 and E1 unchanged; out of OPEN it raises
CFGSTATE. -/
def Obligations.SynConfigSetsTheBlockSizes : Prop :=
  ∀ (s : State) (e0 e1 : Nat),
    (s.cfgState = .opened → 6 ≤ e0 → e0 ≤ e1 → e1 ≤ 13 → exec (.synConfig e0 e1) s = .next
      { s with e0 := BitVec.ofNat 4 e0, e1 := BitVec.ofNat 4 e1, synValid := true })
    ∧ (s.cfgState = .opened → ¬ (6 ≤ e0 ∧ e0 ≤ e1 ∧ e1 ≤ 13) → RaisesAndBreaks (.synConfig e0 e1) .badCfg s)
    ∧ (s.cfgState ≠ .opened → Raises (.synConfig e0 e1) .cfgState s)

/-- R92: for legal block sizes the tapers lie in order inside the block, a short block ignores its neighbours, and a
taper next to a short neighbour has half a short block and is centred on a quarter of the block. -/
def Obligations.GeometryOfABlock : Prop :=
  ∀ (e0 e1 : Nat) (w pw nw : Bool), 6 ≤ e0 → e0 ≤ e1 → e1 ≤ 13 →
    let g := geometry e0 e1 w pw nw
    g.n = 2 ^ (if w then e1 else e0) ∧ g.ls < g.ls + g.ln ∧ g.ls + g.ln ≤ g.n / 2 ∧ g.n / 2 ≤ g.rs
      ∧ g.rs < g.rs + g.rn ∧ g.rs + g.rn ≤ g.n
      ∧ (w = false → geometry e0 e1 w pw nw = geometry e0 e1 false false false)
      ∧ (w = true → pw = false → 2 * g.ln = 2 ^ e0 ∧ 2 * g.ls + g.ln = g.n / 2)
      ∧ (w = true → nw = false → 2 * g.rn = 2 ^ e0 ∧ 2 * g.rs + g.rn = 3 * g.n / 2)
      ∧ (w = false ∨ pw = true → g.ls = 0 ∧ 2 * g.ln = g.n)
      ∧ (w = false ∨ nw = true → 2 * g.rs = g.n ∧ 2 * g.rn = g.n)

/-- R93: every window value lies in [0, 1], the left taper rises strictly, and a left and a right taper of one width
have squares that sum to 1. -/
def Obligations.WindowIsPowerComplementary : Prop :=
  (∀ (g : Geometry) (i : Nat), 0 ≤ window g i ∧ window g i ≤ 1)
  ∧ (∀ (g : Geometry) (j : Nat), j + 1 < g.ln → window g (g.ls + j) < window g (g.ls + j + 1))
  ∧ (∀ (g h : Geometry) (j : Nat), g.ln = h.rn → Geometry.le h ≤ h.rs → j < g.ln →
      window g (g.ls + j) ^ 2 + window h (h.rs + j) ^ 2 = 1)

/-- R12, R13, R95, R98: SYN_BLOCK with its checks met and its spectrum written appends the overlap (unless it is a
first block) and the middle, keeps the right taper as the tail, adds its table to BASIS, gives the count, and changes
nothing else. The samples are SYNTH of the exact reals for a finite spectrum (a free function of the real, log 7),
zeros for an all-zero one, and free for one with a NaN or an infinity (log 5). A TAIL word that no block wrote, which
no run meets, counts as 0 (log 10). -/
def Obligations.SynBlockAppendsSamples : Prop :=
  ∀ (s : State) (w pw nw : Bool) (x : List Word), s.cfgState = .sealed → s.synValid = true → SizesOk s →
    let g := geometry s.e0.toNat s.e1.toNat w pw nw
    let le := g.ls + g.ln
    let ms := if s.lapValid = false ∧ s.params.firstMiddle = .fromCentre then max le (g.n / 2) else le
    let ov := if s.lapValid then g.ln else 0
    let count := ov + (g.rs - ms)
    s.arg0.toNat + g.n / 2 ≤ s.params.vecWords → (s.lapValid = true → s.tailLen = g.ln) →
    s.pcmcount + count ≤ s.params.pcmWords →
    x.length = g.n / 2 → (∀ k, k < g.n / 2 → s.vec.find (s.arg0.toNat + k) = x[k]?) →
    ∃ (y : Nat → Word) (t : State), exec (.synBlock w pw nw) s = .next t
      ∧ t = { s with result := BitVec.ofNat 32 count, pcmcount := s.pcmcount + count, lapValid := true, tailLen := g.rn,
                     tail := t.tail, pcm := t.pcm, basis := t.basis, draws := t.draws }
      ∧ (∀ k, k < g.rn → t.tail[k]? = some (y (g.rs + k))) ∧ t.tail.drop g.rn = s.tail.drop g.rn
      ∧ (∀ k, k < ov → t.pcm.find (s.pcmcount + k) = some (s.params.f32.add (s.tail.getD k 0) (y (g.ls + k))))
      ∧ (∀ i, ms ≤ i → i < g.rs → t.pcm.find (s.pcmcount + ov + (i - ms)) = some (y i))
      ∧ (∀ u, u < s.pcmcount ∨ s.pcmcount + count ≤ u → t.pcm.find u = s.pcm.find u)
      ∧ (∀ m, m ∈ t.basis ↔ m ∈ s.basis ∨ m = g.n / 2)
      ∧ (x.all f32IsFinite = true → ∀ i, g.ls ≤ i → i < g.rs + g.rn →
          y i = synth (exactSample s.params.imdctScale g x i) ∧ (x.all f32IsZero = true → f32IsZero (y i) = true))

/-- R13, R95 (a): if SYNTH is within SYNTH_TOL of the exact real at every sample of the block (a hypothesis here, log
7), so is every sample a SYN_BLOCK of a finite spectrum keeps as its tail or appends as its middle, first blocks
included; and each of these is a finite word. -/
def Obligations.SamplesAreWithinTheTolerance : Prop :=
  ∀ (s t : State) (w pw nw : Bool) (x : List Word), SizesOk s → s.err = false →
    let g := geometry s.e0.toNat s.e1.toNat w pw nw
    let le := g.ls + g.ln
    let ms := if s.lapValid = false ∧ s.params.firstMiddle = .fromCentre then max le (g.n / 2) else le
    let ov := if s.lapValid then g.ln else 0
    let exact := exactSample s.params.imdctScale g x
    let near (y : Word) (i : Nat) := f32IsFinite y = true ∧ |f32Real y - exact i| ≤ s.params.synthTol
    x.length = g.n / 2 → (∀ k, k < g.n / 2 → s.vec.find (s.arg0.toNat + k) = x[k]?) → x.all f32IsFinite = true →
    (∀ i, g.ls ≤ i → i < g.rs + g.rn → SynthWithin s.params.synthTol (exact i)) →
    exec (.synBlock w pw nw) s = .next t → t.err = false →
    (∀ k, k < g.rn → ∃ y, t.tail[k]? = some y ∧ near y (g.rs + k))
    ∧ ∀ i, ms ≤ i → i < g.rs → ∃ y, t.pcm.find (s.pcmcount + ov + (i - ms)) = some y ∧ near y i

/-- R39, R98, R109, R125: what SYN_BLOCK refuses, in order, each with R107's effects only: SYN_VALID = 0 is CFGSTATE, a
spectrum past VEC is RANGE, a tail of another width LAPMISMATCH, and samples that do not fit in PCM OVERFLOW (how many
there are is R98's count, not R125's bound, log 24). With these checks met, a spectrum word that nothing has written is
the UNWRITTEN fault, at the first. -/
def Obligations.SynBlockRefusals : Prop :=
  ∀ (s : State) (w pw nw : Bool), s.cfgState = .sealed →
    let i := Instr.synBlock w pw nw
    let g := geometry s.e0.toNat s.e1.toNat w pw nw
    let ms := if s.lapValid = false ∧ s.params.firstMiddle = .fromCentre then max (g.ls + g.ln) (g.n / 2) else g.ls + g.ln
    let count := (if s.lapValid then g.ln else 0) + (g.rs - ms)
    (s.synValid = false → Raises i .cfgState s)
    ∧ (s.synValid = true → s.params.vecWords < s.arg0.toNat + g.n / 2 → Raises i .range s)
    ∧ (s.synValid = true → s.arg0.toNat + g.n / 2 ≤ s.params.vecWords → s.lapValid = true → s.tailLen ≠ g.ln →
        Raises i .lapMismatch s)
    ∧ (s.synValid = true → s.arg0.toNat + g.n / 2 ≤ s.params.vecWords → (s.lapValid = true → s.tailLen = g.ln) →
        s.params.pcmWords < s.pcmcount + count → Raises i .overflow s)
    ∧ (s.synValid = true → s.arg0.toNat + g.n / 2 ≤ s.params.vecWords → (s.lapValid = true → s.tailLen = g.ln) →
        s.pcmcount + count ≤ s.params.pcmWords → ∀ k, k < g.n / 2 → VecWritten s s.arg0.toNat k →
        s.vec.find (s.arg0.toNat + k) = none → exec i s = .fault (.unwritten .vec (s.arg0.toNat + k)))

/-- R92, R98, R101: a run of SYN_BLOCK commands from LAP_VALID = 0 without an error appends the first block's middle,
and then each block's overlap and middle; with equal sizes that is half a block for every block but the first. -/
def Obligations.RunOfBlocksAppendsTheSampleCount : Prop :=
  ∀ (s t : State) (w pw nw : Bool) (rest : List (Bool × Bool × Bool)), SizesOk s → s.err = false →
    s.lapValid = false → runBlocks ((w, pw, nw) :: rest) s = some t →
    let geom := fun b : Bool × Bool × Bool => geometry s.e0.toNat s.e1.toNat b.1 b.2.1 b.2.2
    let g := geom (w, pw, nw)
    let ms := if s.params.firstMiddle = .fromCentre then max (g.ls + g.ln) (g.n / 2) else g.ls + g.ln
    t.pcmcount = s.pcmcount + (g.rs - ms)
        + (rest.map fun b => (geom b).ln + ((geom b).rs - ((geom b).ls + (geom b).ln))).sum
    ∧ ((∀ b ∈ (w, pw, nw) :: rest, b.1 = false) → t.pcmcount = s.pcmcount + rest.length * 2 ^ (s.e0.toNat - 1))
    ∧ ((∀ b ∈ (w, pw, nw) :: rest, b = (true, true, true)) →
        t.pcmcount = s.pcmcount + rest.length * 2 ^ (s.e1.toNat - 1))

/-- R33, R96: whether a basis table is present never changes what a command does to the rest of the state. -/
def Obligations.BasisIsNotObservable : Prop :=
  ∀ (i : Instr) (s : State) (b : List Nat),
    match exec i s, exec i { s with basis := b } with
    | .next t, .next u => u = { t with basis := u.basis }
    | .fault f, .fault g => f = g
    | .refused _, .refused _ => True
    | _, _ => False

/-! Frames: what each command leaves unchanged whenever it gives a next state -/

/-- R61 to R68, R76, R107: BR_READU, BR_READS, BR_READF and CB_SCALAR write RESULT and BITPOS, and the error fields when
they fail; BR_ILOG writes RESULT only. PKT, VEC, PCM and every other register and table are unchanged. -/
def Obligations.FrameOfReadingCommands : Prop :=
  ∀ (s t : State) (i : Instr),
    ((∃ n, i = .brReadU n) ∨ (∃ n, i = .brReadS n) ∨ i = .brReadF ∨ (∃ k, i = .cbScalar k) → exec i s = .next t →
      t = { s with result := t.result, bitpos := t.bitpos, err := t.err, errcode := t.errcode, errop := t.errop,
                   draws := t.draws })
    ∧ (exec .brIlog s = .next t → t = { s with result := t.result })

/-- R77, R85, R98, R126: CB_VECTOR and RES_DECODE write RESULT, BITPOS, the error fields and their region of VEC; the
region is D words at ARG0, or nvec·N words at ARG0, and every other word of VEC, all of PKT and PCM and every other
register and table are unchanged. SYN_BLOCK writes RESULT, PCMCOUNT, the lapping state, BASIS, the error fields and
the PCM words it appends. -/
def Obligations.FrameOfStoringCommands : Prop :=
  ∀ (s t : State),
    (∀ k acc, exec (.cbVector k acc) s = .next t →
      t = { s with result := t.result, bitpos := t.bitpos, err := t.err, errcode := t.errcode, errop := t.errop,
                   draws := t.draws, vec := t.vec }
      ∧ ∀ w, (∀ c, s.cb.find k = some c → w < s.arg0.toNat ∨ s.arg0.toNat + c.dim ≤ w) → t.vec.find w = s.vec.find w)
    ∧ (∀ r nvec, exec (.resDecode r nvec) s = .next t →
      t = { s with result := t.result, bitpos := t.bitpos, err := t.err, errcode := t.errcode, errop := t.errop,
                   draws := t.draws, vec := t.vec }
      ∧ ∀ w, w < s.arg0.toNat ∨ s.arg0.toNat + nvec * s.arg1.toNat ≤ w → t.vec.find w = s.vec.find w)
    ∧ (∀ w pw nw, exec (.synBlock w pw nw) s = .next t →
      t = { s with result := t.result, err := t.err, errcode := t.errcode, errop := t.errop, draws := t.draws,
                   pcmcount := t.pcmcount, lapValid := t.lapValid, tailLen := t.tailLen, tail := t.tail, pcm := t.pcm,
                   basis := t.basis }
      ∧ ∀ u, u < s.pcmcount ∨ s.pcmcount + blockCount s (blockGeometry s w pw nw) ≤ u → t.pcm.find u = s.pcm.find u)

/-- R75, R84, R89, R97, R108: CB_DEFINE and RES_DEFINE write RESULT, BITPOS, the error fields, CFG_STATE and their own
slot; CFG_SEAL writes CFG_STATE and the counts, SYN_CONFIG the block sizes and SYN_VALID, and on an error both write
the error entry's fields and CFG_STATE. PKT, VEC and PCM are unchanged. -/
def Obligations.FrameOfConfigurationCommands : Prop :=
  ∀ (s t : State),
    (∀ k, exec (.cbDefine k) s = .next t →
      t = { s with result := t.result, bitpos := t.bitpos, err := t.err, errcode := t.errcode, errop := t.errop,
                   draws := t.draws, cfgState := t.cfgState, cb := t.cb }
      ∧ ∀ j, j ≠ k → t.cb.find j = s.cb.find j)
    ∧ (∀ r, exec (.resDefine r) s = .next t →
      t = { s with result := t.result, bitpos := t.bitpos, err := t.err, errcode := t.errcode, errop := t.errop,
                   draws := t.draws, cfgState := t.cfgState, res := t.res }
      ∧ ∀ j, j ≠ r → t.res.find j = s.res.find j)
    ∧ (exec .cfgSeal s = .next t →
      t = { s with result := t.result, err := t.err, errcode := t.errcode, errop := t.errop, draws := t.draws,
                   cfgState := t.cfgState, cbCount := t.cbCount, resCount := t.resCount }
      ∧ (t.cfgState ≠ .sealed → t.cbCount = s.cbCount ∧ t.resCount = s.resCount))
    ∧ (∀ a b, exec (.synConfig a b) s = .next t →
      t = { s with result := t.result, err := t.err, errcode := t.errcode, errop := t.errop, draws := t.draws,
                   cfgState := t.cfgState, synValid := t.synValid, e0 := t.e0, e1 := t.e1 }
      ∧ (s.err = false → t.err = true → t.synValid = s.synValid ∧ t.e0 = s.e0 ∧ t.e1 = s.e1))

/-! Invariants -/

/-- R6, R13, R35: the reset state meets every invariant below, and its parameters are R6's defaults, SYNTH_TOL R13's,
which are legal (logs 2, 19). -/
def Obligations.ResetMeetsTheInvariants : Prop :=
  RegistersOk State.reset ∧ StorageOk State.reset ∧ ConfigOk State.reset ∧ LappingOk State.reset ∧ TablesOk State.reset
    ∧ State.reset.params.wf
    ∧ State.reset.params = {
        pktBytes := 262144, vecWords := 131072, pcmWords := 16384, nodeCap := 4194304, valCap := 4194304,
        eobProbe := .allConsumed, lookup2 := .vorbisFormula, firstMiddle := .full, f32 := .ieee, imdctScale := 1,
        synthTol := 1 / 10000 }

/-- R18, R19, R20, R25, R105: every step keeps the registers legal: BITPOS inside the packet, PKTLEN and PCMCOUNT inside
their RAMs, BUSY = 0 between commands, ERRCODE and ERROP 0 exactly as ERR says. No step changes the parameters. -/
def Obligations.StepKeepsTheRegistersLegal : Prop :=
  ∀ s t : State, RegistersOk s → step s = .next t → RegistersOk t ∧ t.params = s.params

/-- R27, R28, R37, R42: every step keeps the RAMs and the slots in their canonical form and inside their sizes. The
canonical form, strictly rising indices, is the model's choice (logs 3, 20); the sizes are R37's, R27's and R28's. -/
def Obligations.StepKeepsStorageCanonical : Prop :=
  ∀ s t : State, s.params.wf → StorageOk s → step s = .next t → StorageOk t

/-- R26, R29, R30, R89: every step keeps the configuration consistent: legal block sizes, counts 0 outside SEALED, and
in SEALED every slot below the counts defined and every reference resolved. -/
def Obligations.StepKeepsTheConfigurationConsistent : Prop :=
  ∀ s t : State, ConfigOk s → step s = .next t → ConfigOk t

/-- R33, R96, R103: every step keeps the lapping state and BASIS consistent: a tail only in SEALED, of half a short or
half a long block, and at most the two transform sizes in BASIS. -/
def Obligations.StepKeepsTheLappingStateConsistent : Prop :=
  ∀ s t : State, ConfigOk s → LappingOk s → step s = .next t → LappingOk t ∧ t.basis.length ≤ 2

/-- R27, R28, R31, R73: every step keeps every slot a legal record, its tree the one its lengths build and its values
the ones of R73, and NODES_USED and VALS_USED within their capacities. -/
def Obligations.StepKeepsTheTablesLegal : Prop :=
  ∀ s t : State, TablesOk s → step s = .next t → TablesOk t
end

