-- ==== Sys2Proof/Laws/Cmd.lean ====
section
/-!
SUPPORT. How pieces of commands run: one equation per combinator, and one spec lemma per shared operation, so that no
proof unfolds the monad.
-/

namespace Sys2Proof.Machine

variable {α β : Type}

@[simp] theorem pure_run (a : α) (s : State) : (pure a : Cmd α) s = .ok a s := rfl

@[simp] theorem bind_run (c : Cmd α) (f : α → Cmd β) (s : State) :
    (c >>= f) s = match c s with
      | .ok a t => f a t
      | .error e t => .error e t := by
  show EStateM.bind c f s = _
  unfold EStateM.bind
  cases c s <;> rfl

@[simp] theorem map_run (f : α → β) (c : Cmd α) (s : State) :
    (f <$> c) s = match c s with
      | .ok a t => .ok (f a) t
      | .error e t => .error e t := by
  show EStateM.map f c s = _
  unfold EStateM.map
  cases c s <;> rfl

@[simp] theorem get_run (s : State) : (get : Cmd State) s = .ok s s := rfl

@[simp] theorem modify_run (f : State → State) (s : State) : (modify f : Cmd PUnit) s = .ok ⟨⟩ (f s) := rfl

@[simp] theorem raise_run (e : ErrorCode) (s : State) : (raise e : Cmd α) s = .error (.raise e) s := rfl

@[simp] theorem stopFault_run (f : Fault) (s : State) : (stopFault f : Cmd α) s = .error (.fault f) s := rfl

@[simp] theorem raiseIf_false (e : ErrorCode) (s : State) : raiseIf false e s = .ok () s := rfl

@[simp] theorem raiseIf_true (e : ErrorCode) (s : State) : raiseIf true e s = .error (.raise e) s := rfl

theorem raiseIf_run (c : Bool) (e : ErrorCode) (s : State) :
    raiseIf c e s = if c then .error (.raise e) s else .ok () s := by cases c <;> rfl

theorem raiseIf_ok {c : Bool} {e : ErrorCode} {s t : State} {u : Unit} (h : raiseIf c e s = .ok u t) :
    c = false ∧ t = s := by cases c <;> simp_all [raiseIf]

theorem raiseIf_error {c : Bool} {e : ErrorCode} {s t : State} {x : Stop} (h : raiseIf c e s = .error x t) :
    c = true ∧ x = .raise e ∧ t = s := by cases c <;> simp_all [raiseIf]

/-- A sequence that ends went through its first part. -/
theorem bind_ok {c : Cmd α} {f : α → Cmd β} {s t : State} {b : β} (h : (c >>= f) s = .ok b t) :
    ∃ a u, c s = .ok a u ∧ f a u = .ok b t := by
  rw [bind_run] at h
  split at h
  · exact ⟨_, _, ‹_›, h⟩
  · cases h

/-- A sequence that stops did so in its first part or after it. -/
theorem bind_error {c : Cmd α} {f : α → Cmd β} {s t : State} {x : Stop} (h : (c >>= f) s = .error x t) :
    c s = .error x t ∨ ∃ a u, c s = .ok a u ∧ f a u = .error x t := by
  rw [bind_run] at h
  split at h
  · exact .inr ⟨_, _, ‹_›, h⟩
  · cases h; exact .inl ‹_›

/-- A sequence goes on from where its first part ended. -/
theorem bind_of_ok {c : Cmd α} {f : α → Cmd β} {s t : State} {a : α} (h : c s = .ok a t) : (c >>= f) s = f a t := by
  rw [bind_run, h]

theorem bind_of_error {c : Cmd α} {f : α → Cmd β} {s t : State} {x : Stop} (h : c s = .error x t) :
    (c >>= f) s = .error x t := by rw [bind_run, h]

/-- A check that finds nothing. -/
theorem bind_raiseIf_false {c : Bool} {e : ErrorCode} {f : Unit → Cmd β} {s : State} (h : c = false) :
    (raiseIf c e >>= f) s = f () s := by subst h; rfl

theorem bind_raiseIf_true {c : Bool} {e : ErrorCode} {f : Unit → Cmd β} {s : State} (h : c = true) :
    (raiseIf c e >>= f) s = .error (.raise e) s := by subst h; rfl

/-- A check that a rule went past held no reason to raise. -/
theorem bind_raiseIf_ok {c : Bool} {e : ErrorCode} {f : Unit → Cmd β} {s t : State} {b : β}
    (h : (raiseIf c e >>= f) s = .ok b t) : c = false ∧ f () s = .ok b t := by
  cases c
  · exact ⟨rfl, h⟩
  · cases h

/-- A rule that stops at a check or after it. -/
theorem bind_raiseIf_error {c : Bool} {e : ErrorCode} {f : Unit → Cmd β} {s t : State} {x : Stop}
    (h : (raiseIf c e >>= f) s = .error x t) :
    (c = true ∧ x = .raise e ∧ t = s) ∨ (c = false ∧ f () s = .error x t) := by
  cases c
  · exact .inr ⟨rfl, h⟩
  · cases h; exact .inl ⟨rfl, rfl, rfl⟩

theorem bind_get_ok {f : State → Cmd β} {s t : State} {b : β} (h : (MonadState.get >>= f) s = .ok b t) :
    f s s = .ok b t := h

theorem bind_get_error {f : State → Cmd β} {s t : State} {x : Stop} (h : (MonadState.get >>= f) s = .error x t) :
    f s s = .error x t := by
  rw [bind_run] at h; exact h

theorem onRaise_ok {fix : State → State} {c : Cmd α} {s t : State} {a : α} (h : onRaise fix c s = .ok a t) :
    c s = .ok a t := by
  unfold onRaise at h
  split at h <;> simp_all

theorem onRaise_error {fix : State → State} {c : Cmd α} {s t : State} {x : Stop} (h : onRaise fix c s = .error x t) :
    (∃ e u, c s = .error (.raise e) u ∧ x = .raise e ∧ t = fix u) ∨ (∃ f, c s = .error (.fault f) t ∧ x = .fault f) := by
  unfold onRaise at h
  split at h
  · cases h
  · cases h; exact .inl ⟨_, _, ‹_›, rfl, rfl⟩
  · cases h; exact .inr ⟨_, ‹_›, rfl⟩

@[simp] theorem onRaise_run (fix : State → State) (c : Cmd α) (s : State) :
    onRaise fix c s = match c s with
      | .ok a t => .ok a t
      | .error (.raise e) t => .error (.raise e) (fix t)
      | .error (.fault f) t => .error (.fault f) t := rfl

/-- What a command can answer: its rule ended, or it raised and took the error entry. -/
theorem runCommand_next {i : Instr} {c : Cmd Unit} {s t : State} (h : runCommand i c s = .next t) :
    c s = .ok () t ∨ ∃ e u, c s = .error (.raise e) u ∧ t = errorEntry (opByte i) (readsBits i) s.bitpos e u := by
  unfold runCommand at h
  split at h
  · simp_all
  · rename_i e u _; simp at h; exact .inr ⟨e, u, ‹_›, h.symm⟩
  · cases h

theorem runCommand_of_ok {i : Instr} {c : Cmd Unit} {s t : State} {u : Unit} (h : c s = .ok u t) :
    runCommand i c s = .next t := by simp [runCommand, h]

theorem runCommand_of_raise {i : Instr} {c : Cmd Unit} {s u : State} {e : ErrorCode} (h : c s = .error (.raise e) u) :
    runCommand i c s = .next (errorEntry (opByte i) (readsBits i) s.bitpos e u) := by simp [runCommand, h]

theorem runCommand_of_fault {i : Instr} {c : Cmd Unit} {s u : State} {f : Fault} (h : c s = .error (.fault f) u) :
    runCommand i c s = .fault f := by simp [runCommand, h]

/-- A property of two states that every piece of a command keeps from its start to where it ends or stops. -/
def Keeps (P : State → State → Prop) (c : Cmd α) : Prop :=
  ∀ s, match c s with
    | .ok _ t => P s t
    | .error _ t => P s t

theorem Keeps.ok {P : State → State → Prop} {c : Cmd α} (h : Keeps P c) {s t : State} {a : α} (r : c s = .ok a t) :
    P s t := by have := h s; rw [r] at this; exact this

theorem Keeps.error {P : State → State → Prop} {c : Cmd α} (h : Keeps P c) {s t : State} {x : Stop}
    (r : c s = .error x t) : P s t := by have := h s; rw [r] at this; exact this

section
variable {P : State → State → Prop} (refl : ∀ s, P s s) (trans : ∀ s t u, P s t → P t u → P s u)

section
include refl

theorem Keeps.pure (a : α) : Keeps P (Pure.pure a : Cmd α) := fun s => refl s
theorem Keeps.get : Keeps P (MonadState.get : Cmd State) := fun s => refl s
theorem Keeps.raise (e : ErrorCode) : Keeps P (Machine.raise e : Cmd α) := fun s => refl s
theorem Keeps.stopFault (f : Fault) : Keeps P (Machine.stopFault f : Cmd α) := fun s => refl s
theorem Keeps.raiseIf (c : Bool) (e : ErrorCode) : Keeps P (Machine.raiseIf c e) := by
  intro s; cases c <;> exact refl s

end

include trans in
theorem Keeps.bind {c : Cmd α} {f : α → Cmd β} (hc : Keeps P c) (hf : ∀ a, Keeps P (f a)) : Keeps P (c >>= f) := by
  intro s
  rw [bind_run]
  have h := hc s
  cases e : c s with
  | ok a t =>
    rw [e] at h
    have h2 := hf a t
    cases e2 : f a t with
    | ok b u => rw [e2] at h2; simp only [e2]; exact trans _ _ _ h h2
    | error x u => rw [e2] at h2; simp only [e2]; exact trans _ _ _ h h2
  | error x t => rw [e] at h; exact h

include refl trans in
theorem Keeps.repeatCmd {c : Cmd α} (hc : Keeps P c) : ∀ n, Keeps P (Machine.repeatCmd c n)
  | 0 => Keeps.pure refl _
  | n + 1 => Keeps.bind trans hc fun _ => Keeps.bind trans (Keeps.repeatCmd hc n) fun _ => Keeps.pure refl _

include refl trans in
theorem Keeps.forEach {f : α → Cmd β} (hf : ∀ a, Keeps P (f a)) : ∀ as, Keeps P (Machine.forEach f as)
  | [] => Keeps.pure refl _
  | a :: as =>
    Keeps.bind trans (hf a) fun _ => Keeps.bind trans (Keeps.forEach hf as) fun _ => Keeps.pure refl _

end

end Sys2Proof.Machine
end

