-- ==== Sys2Proof/Laws/Reader.lean ====
section
/-!
SUPPORT. What the bit reader does: the effect of reading on the state, reads of bits the packet holds, and that reads of a
written packet never fault.
-/

namespace Sys2Proof.Machine

variable {α β : Type}

/-! Effect -/

/-- All that reading changes (R19, R60): BITPOS moves forward, inside the packet, and free values may be drawn. -/
def Reads (s t : State) : Prop :=
  t = { s with bitpos := t.bitpos, draws := t.draws } ∧ s.bitpos ≤ t.bitpos ∧ t.bitpos ≤ max s.bitpos (8 * s.pktlen)

theorem Reads.refl (s : State) : Reads s s := ⟨rfl, Nat.le_refl _, Nat.le_max_left _ _⟩

theorem Reads.trans (s t u : State) (h1 : Reads s t) (h2 : Reads t u) : Reads s u := by
  obtain ⟨e1, l1, m1⟩ := h1
  obtain ⟨e2, l2, m2⟩ := h2
  have hp : t.pktlen = s.pktlen := by rw [e1]
  refine ⟨?_, by omega, by rw [hp] at m2; omega⟩
  rw [e1] at e2
  exact e2

/-- What one packet bit does, case by case: a plain bit, a raced bit, a free bit, or the fault. -/
theorem packetBit_cases (p : Nat) (s : State) :
    (s.pkt.find (p / 8) = none ∧ packetBit p s = .error (.fault (.unwritten .pkt (p / 8))) s)
    ∨ (∃ now, s.pkt.find (p / 8) = some now ∧ racedValues s (p / 8) = [] ∧
        packetBit p s = .ok (now.getLsbD (p % 8)) s)
    ∨ (∃ now b n, s.pkt.find (p / 8) = some now ∧ packetBit p s = .ok b { s with draws := n } ∧
        (none ∉ racedValues s (p / 8) →
          b = now.getLsbD (p % 8) ∨ ∃ old, some old ∈ racedValues s (p / 8) ∧ b = old.getLsbD (p % 8))) := by
  cases hf : s.pkt.find (p / 8) with
  | none => exact .inl ⟨rfl, by simp [packetBit, hf]⟩
  | some now =>
    refine .inr ?_
    cases hr : racedValues s (p / 8) with
    | nil => exact .inl ⟨now, rfl, rfl, by simp [packetBit, hf, hr]⟩
    | cons old olds =>
      refine .inr ?_
      have hk : Config.freeNat s.draws % (olds.length + 2) < (some now :: old :: olds).length :=
        Nat.mod_lt _ (by omega)
      have hm := List.getElem_mem hk
      have hd : (some now :: old :: olds).getD (Config.freeNat s.draws % (olds.length + 2)) none
          = (some now :: old :: olds)[Config.freeNat s.draws % (olds.length + 2)] := by
        rw [List.getD_eq_getElem?_getD, List.getElem?_eq_getElem hk, Option.getD_some]
      cases hv : (some now :: old :: olds)[Config.freeNat s.draws % (olds.length + 2)] with
      | none =>
        refine ⟨now, _, s.draws + 2, rfl,
          by simp only [packetBit, bind_run, get_run, hf, hr, drawNat, drawWord, hd, hv, pure_run]; rfl, fun hn => ?_⟩
        rw [hv] at hm
        rcases List.mem_cons.1 hm with h | h
        · cases h
        · exact absurd h hn
      | some b =>
        refine ⟨now, _, s.draws + 1, rfl,
          by simp only [packetBit, bind_run, get_run, hf, hr, drawNat, hd, hv, pure_run]; rfl, fun _ => ?_⟩
        rw [hv] at hm
        rcases List.mem_cons.1 hm with h | h
        · cases h; exact .inl rfl
        · exact .inr ⟨b, h, rfl⟩

theorem reads_draws (s : State) (n : Nat) : Reads s { s with draws := n } :=
  ⟨rfl, Nat.le_refl _, Nat.le_max_left _ _⟩

theorem keeps_packetBit (p : Nat) : Keeps Reads (packetBit p) := by
  intro s
  rcases packetBit_cases p s with ⟨_, h⟩ | ⟨_, _, _, h⟩ | ⟨_, _, n, _, h, _⟩ <;> rw [h]
  · exact Reads.refl _
  · exact Reads.refl _
  · exact reads_draws _ _

theorem packetBit_reads {p : Nat} {s t : State} {b : Bool} (h : packetBit p s = .ok b t) :
    t = { s with draws := t.draws } := by
  rcases packetBit_cases p s with ⟨_, e⟩ | ⟨_, _, _, e⟩ | ⟨_, _, n, _, e, _⟩ <;> rw [e] at h <;> cases h <;> rfl

theorem keeps_readBit : Keeps Reads readBit := by
  intro s
  simp only [readBit, bind_run, get_run, raiseIf_run]
  by_cases hl : 8 * s.pktlen ≤ s.bitpos
  · simp [hl, Reads.refl]
  · simp only [hl, decide_false, Bool.false_eq_true, if_false]
    cases e : packetBit s.bitpos s with
    | error x t => have := (keeps_packetBit s.bitpos).error e; simpa using this
    | ok b t =>
      have := packetBit_reads e
      simp only [modify_run, pure_run]
      refine ⟨?_, by simp, by simp; omega⟩
      rw [this]

theorem keeps_readBits : ∀ n, Keeps Reads (readBits n)
  | 0 => Keeps.pure Reads.refl _
  | n + 1 => Keeps.bind Reads.trans keeps_readBit fun _ =>
      Keeps.bind Reads.trans (keeps_readBits n) fun _ => Keeps.pure Reads.refl _

theorem keeps_readU (n : Nat) : Keeps Reads (readU n) :=
  Keeps.bind Reads.trans (Keeps.get Reads.refl) fun _ =>
    Keeps.bind Reads.trans (Keeps.raiseIf Reads.refl _ _) fun _ => keeps_readBits n

theorem keeps_readVF (f : F32Choice) : Keeps Reads (readVF f) :=
  Keeps.bind Reads.trans (keeps_readU 32) fun _ => Keeps.pure Reads.refl _

/-- A value of `ReadU(n)` fits n bits (R61). -/
theorem readBits_lt {n : Nat} {s t : State} {v : Nat} (h : readBits n s = .ok v t) : v < 2 ^ n := by
  induction n generalizing s t v with
  | zero => cases h; simp
  | succ n ih =>
    obtain ⟨b, u, _, h⟩ := bind_ok h
    obtain ⟨w, u', h2, h⟩ := bind_ok h
    cases h
    have := ih h2
    have hb : bit b ≤ 1 := by cases b <;> simp [bit]
    rw [Nat.pow_succ]; omega

theorem readU_lt {n : Nat} {s t : State} {v : Nat} (h : readU n s = .ok v t) : v < 2 ^ n := by
  obtain ⟨_, _, _, h⟩ := bind_ok h
  obtain ⟨_, _, _, h⟩ := bind_ok h
  exact readBits_lt h

/-- A successful read of n bits moves BITPOS by n. -/
theorem readBit_bitpos {s t : State} {b : Bool} (h : readBit s = .ok b t) : t.bitpos = s.bitpos + 1 := by
  obtain ⟨_, _, h1, h⟩ := bind_ok h
  cases h1
  obtain ⟨_, u, h1, h⟩ := bind_ok h
  obtain ⟨_, rfl⟩ := raiseIf_ok h1
  obtain ⟨_, _, _, h⟩ := bind_ok h
  obtain ⟨_, _, h1, h⟩ := bind_ok h
  cases h1; cases h; rfl

theorem readBits_bitpos {n : Nat} {s t : State} {v : Nat} (h : readBits n s = .ok v t) : t.bitpos = s.bitpos + n := by
  induction n generalizing s t v with
  | zero => cases h; rfl
  | succ n ih =>
    obtain ⟨b, u, h1, h⟩ := bind_ok h
    obtain ⟨w, u', h2, h⟩ := bind_ok h
    cases h
    have := ih h2; have := readBit_bitpos h1; omega

theorem readU_bitpos {n : Nat} {s t : State} {v : Nat} (h : readU n s = .ok v t) : t.bitpos = s.bitpos + n := by
  simp only [readU, bind_run, get_run, raiseIf_run] at h
  split at h
  · rename_i h1
    split at h1 <;> cases h1
    exact readBits_bitpos h
  · cases h

/-! No faults -/

/-- A piece of a command that does not fault while the packet is written. -/
def Faultless (c : Cmd α) : Prop := ∀ s, PacketWritten s → ∀ f t, c s ≠ .error (.fault f) t

/-- A written packet stays written while it is read. -/
theorem PacketWritten.of_reads {s t : State} (h : PacketWritten s) (r : Reads s t) : PacketWritten t := by
  have e := r.1
  have h1 : t.pktlen = s.pktlen := by rw [e]
  have h2 : t.pkt = s.pkt := by rw [e]
  intro b hb; rw [h2]; exact h b (by rw [← h1]; exact hb)

theorem Faultless.bind {c : Cmd α} {f : α → Cmd β} (k : Keeps Reads c) (hc : Faultless c) (hf : ∀ a, Faultless (f a)) :
    Faultless (c >>= f) := by
  intro s hs x t h
  rcases bind_error h with h | ⟨a, u, h1, h2⟩
  · exact hc s hs x t h
  · exact hf a u (hs.of_reads (k.ok h1)) x t h2

theorem Faultless.pure (a : α) : Faultless (Pure.pure a : Cmd α) := fun _ _ _ _ h => by cases h
theorem Faultless.get : Faultless (MonadState.get : Cmd State) := fun _ _ _ _ h => by cases h
theorem Faultless.raise (e : ErrorCode) : Faultless (Machine.raise e : Cmd α) := fun _ _ _ _ h => by cases h
theorem Faultless.raiseIf (c : Bool) (e : ErrorCode) : Faultless (Machine.raiseIf c e) := by
  intro s _ f t h; cases c <;> cases h

theorem Faultless.repeatCmd {c : Cmd α} (k : Keeps Reads c) (hc : Faultless c) :
    ∀ n, Faultless (Machine.repeatCmd c n)
  | 0 => Faultless.pure _
  | n + 1 => Faultless.bind k hc fun _ =>
      Faultless.bind (Keeps.repeatCmd Reads.refl Reads.trans k n) (Faultless.repeatCmd k hc n) fun _ => Faultless.pure _

theorem Faultless.forEach {f : α → Cmd β} (k : ∀ a, Keeps Reads (f a)) (hf : ∀ a, Faultless (f a)) :
    ∀ as, Faultless (Machine.forEach f as)
  | [] => Faultless.pure _
  | a :: as => Faultless.bind (k a) (hf a) fun _ =>
      Faultless.bind (Keeps.forEach Reads.refl Reads.trans k as) (Faultless.forEach k hf as) fun _ => Faultless.pure _

theorem faultless_readBit : Faultless readBit := by
  intro s hs f t h
  simp only [readBit, bind_run, get_run, raiseIf_run] at h
  by_cases hl : 8 * s.pktlen ≤ s.bitpos
  · simp [hl] at h
  · simp only [hl, decide_false, Bool.false_eq_true, if_false] at h
    have hlt : s.bitpos / 8 < s.pktlen := by omega
    obtain ⟨now, hnow⟩ := Option.isSome_iff_exists.1 (hs _ hlt)
    rcases packetBit_cases s.bitpos s with ⟨e, _⟩ | ⟨_, _, _, e⟩ | ⟨_, _, n, _, e, _⟩
    · rw [hnow] at e; cases e
    · rw [e] at h; cases h
    · rw [e] at h; cases h

theorem faultless_readBits : ∀ n, Faultless (readBits n)
  | 0 => Faultless.pure _
  | n + 1 => Faultless.bind keeps_readBit faultless_readBit fun _ =>
      Faultless.bind (keeps_readBits n) (faultless_readBits n) fun _ => Faultless.pure _

theorem faultless_readU (n : Nat) : Faultless (readU n) :=
  Faultless.bind (Keeps.get Reads.refl) Faultless.get fun _ =>
    Faultless.bind (Keeps.raiseIf Reads.refl _ _) (Faultless.raiseIf _ _) fun _ => faultless_readBits n

theorem faultless_readVF (f : F32Choice) : Faultless (readVF f) :=
  Faultless.bind (keeps_readU 32) (faultless_readU 32) fun _ => Faultless.pure _

/-! Reads of bits the packet holds -/

/-- The state with the reader n bits further. -/
def advance (s : State) (n : Nat) : State := { s with bitpos := s.bitpos + n }

@[simp] theorem advance_zero (s : State) : advance s 0 = s := rfl
@[simp] theorem advance_advance (s : State) (m n : Nat) : advance (advance s m) n = advance s (m + n) := by
  simp [advance, Nat.add_assoc]
@[simp] theorem advance_bitpos (s : State) (n : Nat) : (advance s n).bitpos = s.bitpos + n := rfl
@[simp] theorem advance_pktlen (s : State) (n : Nat) : (advance s n).pktlen = s.pktlen := rfl
@[simp] theorem advance_pkt (s : State) (n : Nat) : (advance s n).pkt = s.pkt := rfl
@[simp] theorem advance_params (s : State) (n : Nat) : (advance s n).params = s.params := rfl
@[simp] theorem advance_cb (s : State) (n : Nat) : (advance s n).cb = s.cb := rfl
@[simp] theorem advance_res (s : State) (n : Nat) : (advance s n).res = s.res := rfl
@[simp] theorem advance_vec (s : State) (n : Nat) : (advance s n).vec = s.vec := rfl
@[simp] theorem racedValues_advance (s : State) (n b : Nat) : racedValues (advance s n) b = racedValues s b := rfl

/-- One bit of the packet is b: written, and not rewritten under it. -/
def bitIs (s : State) (p : Nat) (b : Bool) : Prop :=
  ∃ now, s.pkt.find (p / 8) = some now ∧ racedValues s (p / 8) = [] ∧ now.getLsbD (p % 8) = b

theorem packetHas_iff (s : State) (bits : List Bool) :
    packetHas s bits = true ↔ s.bitpos + bits.length ≤ 8 * s.pktlen
      ∧ ∀ j, j < bits.length → bitIs s (s.bitpos + j) (bits.getD j false) := by
  unfold packetHas bitIs
  simp only [Bool.and_eq_true, decide_eq_true_eq, List.all_eq_true, List.mem_range]
  refine and_congr_right fun _ => forall_congr' fun j => imp_congr_right fun _ => ?_
  split
  · rename_i now h
    simp [h, List.isEmpty_iff]
  · rename_i h
    simp [h]

theorem bitIs_advance (s : State) (n p : Nat) (b : Bool) : bitIs (advance s n) p b ↔ bitIs s p b := Iff.rfl

@[simp] theorem packetHas_nil (s : State) : packetHas s [] = true ↔ s.bitpos ≤ 8 * s.pktlen := by
  rw [packetHas_iff]; simp

theorem packetHas_cons (s : State) (b : Bool) (bits : List Bool) :
    packetHas s (b :: bits) = true ↔
      s.bitpos < 8 * s.pktlen ∧ bitIs s s.bitpos b ∧ packetHas (advance s 1) bits = true := by
  rw [packetHas_iff, packetHas_iff]
  simp only [List.length_cons, advance_bitpos, advance_pktlen]
  constructor
  · rintro ⟨h1, h2⟩
    refine ⟨by omega, by simpa using h2 0 (by omega), by omega, fun j hj => ?_⟩
    have := h2 (j + 1) (by omega)
    rw [bitIs_advance]
    simpa [Nat.add_assoc, Nat.add_comm 1 j] using this
  · rintro ⟨h1, h2, h3, h4⟩
    refine ⟨by omega, fun j hj => ?_⟩
    cases j with
    | zero => simpa using h2
    | succ j =>
      have := h4 j (by omega)
      rw [bitIs_advance] at this
      simpa [Nat.add_assoc, Nat.add_comm 1 j] using this

theorem packetHas_append (s : State) (a b : List Bool) :
    packetHas s (a ++ b) = true ↔ packetHas s a = true ∧ packetHas (advance s a.length) b = true := by
  induction a generalizing s with
  | nil =>
    simp only [List.nil_append, List.length_nil, advance_zero, packetHas_nil]
    refine ⟨fun h => ⟨?_, h⟩, fun h => h.2⟩
    have := ((packetHas_iff _ _).1 h).1; omega
  | cons x a ih =>
    rw [List.cons_append, packetHas_cons, packetHas_cons, ih]
    simp [and_assoc, Nat.add_comm]

theorem readBit_run {s : State} {b : Bool} (hl : s.bitpos < 8 * s.pktlen) (hb : bitIs s s.bitpos b) :
    readBit s = .ok b (advance s 1) := by
  obtain ⟨now, h1, h2, h3⟩ := hb
  have hl' : ¬ 8 * s.pktlen ≤ s.bitpos := by omega
  simp [readBit, raiseIf_run, hl', packetBit, h1, h2, h3, advance]

/-- A piece of a command that reads exactly these bits, where the packet holds them, and gives a; and that raises EOB
after the bits there are when the packet ends before the last of them (R60). -/
structure Spells (c : Cmd α) (bits : List Bool) (a : α) : Prop where
  yields : ∀ s, packetHas s bits = true → c s = .ok a (advance s bits.length)
  cuts : ∀ s p, p <+: bits → p ≠ bits → packetHas s p = true → s.bitpos + p.length = 8 * s.pktlen →
    c s = .error (.raise .eob) (advance s p.length)

theorem Spells.pure (a : α) : Spells (Pure.pure a : Cmd α) [] a :=
  ⟨fun _ _ => rfl, fun _ _ h1 h2 => absurd (List.prefix_nil.1 h1) h2⟩

/-- A prefix of two strings one after the other is a proper prefix of the first, or the first and a prefix of the
second. -/
theorem prefix_append_cases {p a b : List Bool} (h : p <+: a ++ b) :
    (p <+: a ∧ p ≠ a) ∨ ∃ q, p = a ++ q ∧ q <+: b := by
  rcases List.prefix_or_prefix_of_prefix h (List.prefix_append a b) with h1 | ⟨q, rfl⟩
  · by_cases e : p = a
    · exact .inr ⟨[], by simp [e], List.nil_prefix⟩
    · exact .inl ⟨h1, e⟩
  · exact .inr ⟨q, rfl, (List.prefix_append_right_inj a).1 h⟩

theorem Spells.bind {c : Cmd α} {f : α → Cmd β} {b1 b2 : List Bool} {a : α} {r : β} (h1 : Spells c b1 a)
    (h2 : Spells (f a) b2 r) : Spells (c >>= f) (b1 ++ b2) r where
  yields s hs := by
    rw [packetHas_append] at hs
    rw [bind_run, h1.yields s hs.1]
    simp [h2.yields _ hs.2]
  cuts s p hp hn hs he := by
    rcases prefix_append_cases hp with ⟨h3, h4⟩ | ⟨q, rfl, h3⟩
    · rw [bind_of_error (h1.cuts s p h3 h4 hs he)]
    · rw [packetHas_append] at hs
      rw [List.length_append] at he
      rw [bind_of_ok (h1.yields s hs.1), h2.cuts _ q h3 (fun e => hn (by rw [e])) hs.2 (by simp; omega)]
      simp

theorem Spells.raiseIf (c : Bool) (e : ErrorCode) (h : c = false) : Spells (Machine.raiseIf c e) [] () := by
  subst h; exact Spells.pure ()

theorem fieldBits_succ (n v : Nat) : fieldBits (n + 1) v = v.testBit 0 :: fieldBits n (v / 2) := by
  simp [fieldBits, List.range_succ_eq_map, Nat.testBit_succ]

@[simp] theorem fieldBits_zero (v : Nat) : fieldBits 0 v = [] := rfl

@[simp] theorem length_fieldBits (n v : Nat) : (fieldBits n v).length = n := by simp [fieldBits]

theorem readBit_eob {s : State} (h : 8 * s.pktlen ≤ s.bitpos) : readBit s = .error (.raise .eob) s := by
  simp [readBit, h]

theorem readBit_unwritten {s : State} (h : s.bitpos < 8 * s.pktlen) (hn : s.pkt.find (s.bitpos / 8) = none) :
    readBit s = .error (.fault (.unwritten .pkt (s.bitpos / 8))) s := by
  have : ¬ 8 * s.pktlen ≤ s.bitpos := by omega
  simp [readBit, raiseIf_run, this, packetBit, hn]

theorem spells_readBit (b : Bool) : Spells readBit [b] b where
  yields s hs := by
    rw [packetHas_cons] at hs
    exact readBit_run hs.1 hs.2.1
  cuts s p hp hn _ he := by
    rcases List.prefix_cons_iff.1 hp with rfl | ⟨q, rfl, hq⟩
    · simp only [List.length_nil, Nat.add_zero] at he
      rw [readBit_eob (by omega)]; rfl
    · exact absurd (by rw [List.prefix_nil.1 hq]) hn

theorem spells_readBits {n v : Nat} (h : v < 2 ^ n) : Spells (readBits n) (fieldBits n v) v := by
  induction n generalizing v with
  | zero => have : v = 0 := by simpa using h
            subst this; exact Spells.pure 0
  | succ n ih =>
    rw [fieldBits_succ]
    have h2 : v / 2 < 2 ^ n := by rw [Nat.pow_succ] at h; omega
    have h3 : bit (v.testBit 0) + 2 * (v / 2) = v := by
      have := Nat.testBit_zero v
      rw [this]; unfold bit
      rcases Nat.mod_two_eq_zero_or_one v with h | h <;> simp [h] <;> omega
    refine Spells.bind (b1 := [v.testBit 0]) (spells_readBit _) ?_
    have := Spells.bind (f := fun w => (Pure.pure (bit (v.testBit 0) + 2 * w) : Cmd Nat)) (ih h2) (Spells.pure _)
    rw [h3, List.append_nil] at this
    exact this

theorem readU_pos {n : Nat} (hn : 1 ≤ n) : readU n = readBits n := by
  funext s
  have h0 : ¬ n = 0 := by omega
  simp only [readU, bind_run, get_run, h0, decide_false, Bool.false_and, raiseIf_false]

/-- R61: a read of n ≥ 1 bits gives the value they spell. -/
theorem spells_readU {n v : Nat} (hn : 1 ≤ n) (h : v < 2 ^ n) : Spells (readU n) (fieldBits n v) v := by
  rw [readU_pos hn]
  exact spells_readBits h

/-- R60, R61: a read of more bits than the packet still has raises EOB after these. -/
theorem readU_cut {n : Nat} {s : State} {p : List Bool} (hn : p.length < n) (hs : packetHas s p = true)
    (he : s.bitpos + p.length = 8 * s.pktlen) : readU n s = .error (.raise .eob) (advance s p.length) := by
  rw [readU_pos (by omega)]
  induction p generalizing n s with
  | nil =>
    obtain ⟨n, rfl⟩ : ∃ m, n = m + 1 := ⟨n - 1, by simp at hn; omega⟩
    rw [readBits, bind_of_error (readBit_eob (by simp at he; omega))]
    rfl
  | cons b p ih =>
    obtain ⟨n, rfl⟩ : ∃ m, n = m + 1 := ⟨n - 1, by omega⟩
    rw [packetHas_cons] at hs
    simp only [List.length_cons] at hn he
    rw [readBits, bind_of_ok (readBit_run hs.1 hs.2.1),
      bind_of_error (ih (by omega) hs.2.2 (by simp only [advance_bitpos, advance_pktlen]; omega))]
    simp [Nat.add_comm]

theorem spells_readVF (f : F32Choice) {x : Nat} (h : x < 2 ^ 32) :
    Spells (readVF f) (fieldBits 32 x) (vendorFloat f x) := by
  have := Spells.bind (f := fun x => (Pure.pure (vendorFloat f x) : Cmd Word)) (spells_readU (by omega) h) (Spells.pure _)
  simpa [readVF] using this

end Sys2Proof.Machine
end

