-- ==== Sys2Proof/Laws/Sparse.lean ====
section
/-!
SUPPORT. The laws of sparse lists: what is read after a store or an erase, and that both keep the canonical form.
-/

namespace Sys2Proof.Machine.Sparse

variable {α : Type}

@[simp] theorem find_nil (i : Nat) : Sparse.find ([] : Sparse α) i = none := rfl

theorem find_append (a b : Sparse α) (i : Nat) :
    Sparse.find (a ++ b) i = (Sparse.find a i).or (Sparse.find b i) := by
  induction a with
  | nil => simp
  | cons c a ih =>
    obtain ⟨j, x⟩ := c
    by_cases h : i = j <;> simp [Sparse.find, h, ih]

/-- Dropping cells by a test on the index leaves the cells that pass as they were. -/
theorem find_filter (p : Nat → Bool) (m : Sparse α) (i : Nat) :
    Sparse.find (m.filter fun c => p c.1) i = if p i then Sparse.find m i else none := by
  induction m with
  | nil => simp
  | cons c m ih =>
    obtain ⟨j, x⟩ := c
    by_cases hp : p j
    · by_cases h : i = j
      · subst h; simp [Sparse.find, hp]
      · simp [Sparse.find, hp, h, ih]
    · by_cases h : i = j
      · subst h; simp [hp, ih]
      · simp [Sparse.find, hp, h, ih]

theorem find_block (i : Nat) (xs : List α) (j : Nat) :
    Sparse.find (Sparse.block i xs) j = if i ≤ j then xs[j - i]? else none := by
  induction xs generalizing i with
  | nil => simp [Sparse.block]
  | cons x xs ih =>
    simp only [Sparse.block, Sparse.find, ih]
    by_cases h : j = i
    · subst h; simp
    · by_cases h2 : i ≤ j
      · have h3 : i + 1 ≤ j := by omega
        have h4 : j - i = j - (i + 1) + 1 := by omega
        simp [h, h2, h3, h4]
      · have h3 : ¬ i + 1 ≤ j := by omega
        simp [h, h2, h3]

/-- A read after a store: the stored element inside the stored range, what was there outside it. -/
theorem find_store (m : Sparse α) (i : Nat) (xs : List α) (j : Nat) :
    Sparse.find (Sparse.store m i xs) j =
      if i ≤ j ∧ j < i + xs.length then xs[j - i]? else Sparse.find m j := by
  unfold Sparse.store
  rw [find_append, find_append, find_block]
  rw [find_filter (fun a => decide (a < i)) m, find_filter (fun a => decide (i + xs.length ≤ a)) m]
  by_cases h1 : j < i
  · have h2 : ¬ i ≤ j := by omega
    have h3 : ¬ i + xs.length ≤ j := by omega
    simp [h1, h2, h3]
  · by_cases h2 : j < i + xs.length
    · have h3 : i ≤ j := by omega
      have h4 : ¬ i + xs.length ≤ j := by omega
      simp [h1, h2, h3, h4]
    · have h3 : i ≤ j := by omega
      have h4 : i + xs.length ≤ j := by omega
      have h5 : xs[j - i]? = none := by rw [List.getElem?_eq_none_iff]; omega
      simp [h1, h2, h3, h4, h5]

@[simp] theorem find_store_one_same (m : Sparse α) (i : Nat) (x : α) :
    Sparse.find (Sparse.store m i [x]) i = some x := by simp [find_store]

theorem find_store_one_other (m : Sparse α) (i : Nat) (x : α) (j : Nat) (h : j ≠ i) :
    Sparse.find (Sparse.store m i [x]) j = Sparse.find m j := by
  rw [find_store, if_neg]; simp; omega

theorem find_erase (m : Sparse α) (i j : Nat) :
    Sparse.find (Sparse.erase m i) j = if j = i then none else Sparse.find m j := by
  unfold Sparse.erase
  rw [find_filter (fun a => decide (a ≠ i)) m]
  by_cases h : j = i <;> simp [h]

@[simp] theorem wf_nil : Sparse.wf ([] : Sparse α) := List.Pairwise.nil

theorem mem_block {i : Nat} {xs : List α} {c : Nat × α} (h : c ∈ Sparse.block i xs) :
    i ≤ c.1 ∧ c.1 < i + xs.length ∧ c.2 ∈ xs := by
  induction xs generalizing i with
  | nil => simp [Sparse.block] at h
  | cons x xs ih =>
    simp only [Sparse.block, List.mem_cons] at h
    rcases h with rfl | h
    · simp
    · have := ih h; simp; refine ⟨by omega, by omega, .inr this.2.2⟩

theorem wf_block (i : Nat) (xs : List α) : (Sparse.block i xs).wf := by
  induction xs generalizing i with
  | nil => exact List.Pairwise.nil
  | cons x xs ih =>
    simp only [Sparse.block, Sparse.wf, List.map_cons, List.pairwise_cons]
    refine ⟨fun a ha => ?_, ih (i + 1)⟩
    obtain ⟨c, hc, rfl⟩ := List.mem_map.1 ha
    exact (mem_block hc).1

/-- The canonical form, cell by cell. -/
theorem wf_iff (m : Sparse α) : m.wf ↔ m.Pairwise fun a b => a.1 < b.1 := by
  simp [Sparse.wf, List.pairwise_map]

theorem wf_filter (p : Nat × α → Bool) {m : Sparse α} (h : m.wf) : Sparse.wf (m.filter p) := by
  rw [wf_iff] at *; exact h.filter p

/-- A cell of the memory after a store is one of the stored cells or one that was there. -/
theorem mem_store {m : Sparse α} {i : Nat} {xs : List α} {c : Nat × α} (h : c ∈ Sparse.store m i xs) :
    (i ≤ c.1 ∧ c.1 < i + xs.length ∧ c.2 ∈ xs) ∨ c ∈ m := by
  unfold Sparse.store at h
  rcases List.mem_append.1 h with h | h
  · rcases List.mem_append.1 h with h | h
    · exact .inr (List.mem_filter.1 h).1
    · exact .inl (mem_block h)
  · exact .inr (List.mem_filter.1 h).1

/-- A store keeps the canonical form. -/
theorem wf_store {m : Sparse α} (h : m.wf) (i : Nat) (xs : List α) : (Sparse.store m i xs).wf := by
  have hb := (wf_iff _).1 (wf_block i xs)
  have hm := (wf_iff _).1 h
  rw [wf_iff]
  unfold Sparse.store
  refine List.pairwise_append.2 ⟨List.pairwise_append.2 ⟨hm.filter _, hb, ?_⟩, hm.filter _, ?_⟩
  · intro a ha b hb'
    have h1 := (List.mem_filter.1 ha).2
    have h2 := mem_block hb'
    simp at h1; omega
  · intro a ha b hb'
    have h2 := (List.mem_filter.1 hb').2
    simp at h2
    rcases List.mem_append.1 ha with ha | ha
    · have h1 := (List.mem_filter.1 ha).2; simp at h1; omega
    · have h1 := mem_block ha; omega

/-- An erase keeps the canonical form. -/
theorem wf_erase {m : Sparse α} (h : m.wf) (i : Nat) : (Sparse.erase m i).wf := wf_filter _ h

theorem mem_of_find {m : Sparse α} {i : Nat} {x : α} (h : Sparse.find m i = some x) : (i, x) ∈ m := by
  induction m with
  | nil => simp at h
  | cons c m ih =>
    obtain ⟨j, y⟩ := c
    by_cases hj : i = j
    · subst hj; simp [Sparse.find] at h; simp [h]
    · simp [Sparse.find, hj] at h; exact List.mem_cons_of_mem _ (ih h)

/-- In a canonical memory a listed cell is what is read there. -/
theorem find_of_mem {m : Sparse α} (hm : m.wf) {i : Nat} {x : α} (h : (i, x) ∈ m) : Sparse.find m i = some x := by
  rw [wf_iff] at hm
  induction m with
  | nil => simp at h
  | cons c m ih =>
    obtain ⟨j, y⟩ := c
    rw [List.pairwise_cons] at hm
    rcases List.mem_cons.1 h with h | h
    · cases h; simp [Sparse.find]
    · have := hm.1 _ h
      have hne : i ≠ j := by simp at this; omega
      simp [Sparse.find, hne, ih hm.2 h]

/-- Two canonical memories that read the same at every index are equal data. -/
theorem ext_of_find {a b : Sparse α} (ha : a.wf) (hb : b.wf) (h : ∀ i, Sparse.find a i = Sparse.find b i) : a = b := by
  induction a generalizing b with
  | nil =>
    cases b with
    | nil => rfl
    | cons c b => have := h c.1; simp [Sparse.find] at this
  | cons c a ih =>
    obtain ⟨i, x⟩ := c
    cases b with
    | nil => have := h i; simp [Sparse.find] at this
    | cons d b =>
      obtain ⟨j, y⟩ := d
      have ha' := (wf_iff _).1 ha
      have hb' := (wf_iff _).1 hb
      rw [List.pairwise_cons] at ha' hb'
      have hij : i = j := by
        by_contra hne
        rcases Nat.lt_or_ge i j with hlt | hge
        · have h1 := h i
          simp only [Sparse.find, if_true, if_neg hne] at h1
          have := hb'.1 _ (mem_of_find h1.symm)
          simp at this; omega
        · have h1 := h j
          have hne' : ¬ j = i := fun e => hne e.symm
          simp only [Sparse.find, if_true, if_neg hne'] at h1
          have := ha'.1 _ (mem_of_find h1)
          simp at this; omega
      subst hij
      have hxy : x = y := by have := h i; simpa [Sparse.find] using this
      subst hxy
      congr 1
      refine ih ((wf_iff _).2 ha'.2) ((wf_iff _).2 hb'.2) fun k => ?_
      by_cases hk : k = i
      · subst hk
        have e1 : Sparse.find a k = none := by
          by_contra hn
          obtain ⟨z, hz⟩ := Option.ne_none_iff_exists'.1 hn
          have := ha'.1 _ (mem_of_find hz); simp at this
        have e2 : Sparse.find b k = none := by
          by_contra hn
          obtain ⟨z, hz⟩ := Option.ne_none_iff_exists'.1 hn
          have := hb'.1 _ (mem_of_find hz); simp at this
        rw [e1, e2]
      · have := h k; simpa [Sparse.find, hk] using this

/-- A sum over the cells after a store of one element: what was there goes, the new element comes. -/
theorem sum_store (f : Nat × α → Nat) (m : Sparse α) (hm : m.wf) (k : Nat) (x : α) :
    ((m.store k [x]).map f).sum = (m.map f).sum - ((m.find k).map fun y => f (k, y)).getD 0 + f (k, x)
      ∧ ((m.find k).map fun y => f (k, y)).getD 0 ≤ (m.map f).sum := by
  induction m with
  | nil => simp [Sparse.store, Sparse.block]
  | cons c m ih =>
    obtain ⟨j, y⟩ := c
    rw [wf_iff, List.pairwise_cons] at hm
    obtain ⟨h1, h2⟩ := hm
    have ih := ih ((wf_iff _).2 h2)
    have hs : ∀ l : Sparse α, l.store k [x] =
        l.filter (fun c => decide (c.1 < k)) ++ [(k, x)] ++ l.filter (fun c => decide (k + 1 ≤ c.1)) := fun l => rfl
    rcases Nat.lt_trichotomy j k with h | h | h
    · have e : Sparse.store ((j,y)::m) k [x] = (j,y) :: Sparse.store m k [x] := by
        rw [hs, hs]; rw [List.filter_cons_of_pos (by simpa using h), List.filter_cons_of_neg (by simp; omega)]; rfl
      rw [e]
      have hk : ¬ k = j := by omega
      simp only [List.map_cons, List.sum_cons, Sparse.find, hk, if_false]
      omega
    · subst h
      have e1 : m.filter (fun c => decide (c.1 < j)) = [] := by
        rw [List.filter_eq_nil_iff]; intro a ha; have := h1 a ha; simp at this ⊢; omega
      have e2 : m.filter (fun c => decide (j + 1 ≤ c.1)) = m := by
        rw [List.filter_eq_self]; intro a ha; have := h1 a ha; simp at this ⊢; omega
      rw [hs, List.filter_cons_of_neg (by simp), List.filter_cons_of_neg (by simp), e1, e2]
      simp [Sparse.find]; omega
    · have e1 : m.filter (fun c => decide (c.1 < k)) = [] := by
        rw [List.filter_eq_nil_iff]; intro a ha; have := h1 a ha; simp at this ⊢; omega
      have e2 : m.filter (fun c => decide (k + 1 ≤ c.1)) = m := by
        rw [List.filter_eq_self]; intro a ha; have := h1 a ha; simp at this ⊢; omega
      have e3 : Sparse.find m k = none := by
        by_contra hn
        obtain ⟨z, hz⟩ := Option.ne_none_iff_exists'.1 hn
        have := h1 _ (mem_of_find hz); simp at this; omega
      rw [hs, List.filter_cons_of_neg (by simp; omega), List.filter_cons_of_pos (by simp; omega), e1, e2]
      have hk : ¬ k = j := by omega
      simp [Sparse.find, hk, e3]; omega

theorem sum_erase (f : Nat × α → Nat) (m : Sparse α) (k : Nat) : ((m.erase k).map f).sum ≤ (m.map f).sum := by
  induction m with
  | nil => simp [Sparse.erase]
  | cons c m ih =>
    unfold Sparse.erase at *
    rw [List.filter_cons]
    split <;> simp only [List.map_cons, List.sum_cons] <;> omega

end Sys2Proof.Machine.Sparse
end

