-- ==== Sys2Proof/Laws/Decode.lean ====
section
/-!
SUPPORT. What the shared operations of the codebook, residue and synthesis commands change: nothing but the reader for
those that parse and walk, and the words of one region of VEC for those that store. None of them faults on a written
packet and a written region.
-/

namespace Sys2Proof.Machine

variable {α β : Type}

/-! Operations that only read -/

/-- A piece of a command that only reads, and does not fault on a written packet. -/
structure OnlyReads (c : Cmd α) : Prop where
  keeps : Keeps Reads c
  faultless : Faultless c

theorem OnlyReads.pure (a : α) : OnlyReads (Pure.pure a : Cmd α) := ⟨Keeps.pure Reads.refl _, Faultless.pure _⟩
theorem OnlyReads.get : OnlyReads (MonadState.get : Cmd State) := ⟨Keeps.get Reads.refl, Faultless.get⟩
theorem OnlyReads.raise (e : ErrorCode) : OnlyReads (Machine.raise e : Cmd α) :=
  ⟨Keeps.raise Reads.refl e, Faultless.raise e⟩
theorem OnlyReads.raiseIf (c : Bool) (e : ErrorCode) : OnlyReads (Machine.raiseIf c e) :=
  ⟨Keeps.raiseIf Reads.refl c e, Faultless.raiseIf c e⟩

theorem OnlyReads.bind {c : Cmd α} {f : α → Cmd β} (hc : OnlyReads c) (hf : ∀ a, OnlyReads (f a)) :
    OnlyReads (c >>= f) :=
  ⟨Keeps.bind Reads.trans hc.keeps fun a => (hf a).keeps, Faultless.bind hc.keeps hc.faultless fun a => (hf a).faultless⟩

theorem OnlyReads.repeatCmd {c : Cmd α} (hc : OnlyReads c) (n : Nat) : OnlyReads (Machine.repeatCmd c n) :=
  ⟨Keeps.repeatCmd Reads.refl Reads.trans hc.keeps n, Faultless.repeatCmd hc.keeps hc.faultless n⟩

theorem OnlyReads.forEach {f : α → Cmd β} (hf : ∀ a, OnlyReads (f a)) (as : List α) :
    OnlyReads (Machine.forEach f as) :=
  ⟨Keeps.forEach Reads.refl Reads.trans (fun a => (hf a).keeps) as,
    Faultless.forEach (fun a => (hf a).keeps) (fun a => (hf a).faultless) as⟩

theorem onlyReads_readBit : OnlyReads readBit := ⟨keeps_readBit, faultless_readBit⟩
theorem onlyReads_readU (n : Nat) : OnlyReads (readU n) := ⟨keeps_readU n, faultless_readU n⟩
theorem onlyReads_readVF (f : F32Choice) : OnlyReads (readVF f) := ⟨keeps_readVF f, faultless_readVF f⟩

theorem onlyReads_walk (t : Tree) : OnlyReads (walk t) := by
  induction t with
  | empty => exact .raise _
  | leaf sym => exact .pure _
  | inner a b iha ihb =>
    refine .bind onlyReads_readBit fun b1 => ?_
    cases b1
    · exact iha
    · exact ihb

theorem onlyReads_codebookAt (k : Nat) : OnlyReads (codebookAt k) := by
  constructor
  · intro s
    simp only [codebookAt, bind_run, get_run]
    cases s.cb.find k <;> exact Reads.refl _
  · intro s _ f t h
    simp only [codebookAt, bind_run, get_run] at h
    cases e : s.cb.find k <;> simp [e] at h

theorem onlyReads_residueAt (r : Nat) : OnlyReads (residueAt r) := by
  constructor
  · intro s
    simp only [residueAt, bind_run, get_run]
    cases s.res.find r <;> exact Reads.refl _
  · intro s _ f t h
    simp only [residueAt, bind_run, get_run] at h
    cases e : s.res.find r <;> simp [e] at h

theorem onlyReads_scalarDecode (k : Nat) : OnlyReads (scalarDecode k) :=
  .bind (onlyReads_codebookAt k) fun c => onlyReads_walk c.tree

theorem onlyReads_vectorDecode (k : Nat) : OnlyReads (vectorDecode k) := by
  refine .bind (onlyReads_codebookAt k) fun c => ?_
  cases c.lookup with
  | none => exact .raise _
  | some l => exact .bind (onlyReads_scalarDecode k) fun e => .pure _

theorem onlyReads_decodeGate (k : Nat) : OnlyReads (decodeGate k) :=
  .bind .get fun _ => .bind (.raiseIf _ _) fun _ => .raiseIf _ _

/-- What the gate of the decode commands lets through (R30, R91). -/
theorem decodeGate_ok {k : Nat} {s t : State} {u : Unit} (h : decodeGate k s = .ok u t) :
    t = s ∧ s.cfgState = .sealed ∧ k < s.cbCount := by
  obtain ⟨h1, h⟩ := bind_raiseIf_ok (bind_get_ok h)
  obtain ⟨h2, rfl⟩ := raiseIf_ok h
  simp at h1 h2
  exact ⟨rfl, h1, h2⟩

theorem decodeGate_error {k : Nat} {s t : State} {x : Stop} (h : decodeGate k s = .error x t) :
    t = s ∧ ((s.cfgState ≠ .sealed ∧ x = .raise .cfgState)
      ∨ (s.cfgState = .sealed ∧ s.cbCount ≤ k ∧ x = .raise .badRef)) := by
  rcases bind_raiseIf_error (bind_get_error h) with ⟨h1, rfl, rfl⟩ | ⟨h1, h⟩
  · simp at h1; exact ⟨rfl, .inl ⟨h1, rfl⟩⟩
  · obtain ⟨h2, rfl, rfl⟩ := raiseIf_error h
    simp at h1 h2
    exact ⟨rfl, .inr ⟨h1, h2, rfl⟩⟩

theorem codebookAt_run (k : Nat) (s : State) :
    codebookAt k s = match s.cb.find k with
      | some c => .ok c s
      | none => .error (.raise .badRef) s := by
  simp only [codebookAt, bind_run, get_run]
  cases s.cb.find k <;> rfl

theorem codebookAt_ok {k : Nat} {s t : State} {c : Codebook} (h : codebookAt k s = .ok c t) :
    t = s ∧ s.cb.find k = some c := by
  rw [codebookAt_run] at h
  cases e : s.cb.find k with
  | none => rw [e] at h; cases h
  | some x => rw [e] at h; cases h; exact ⟨rfl, rfl⟩

theorem codebookAt_error {k : Nat} {s t : State} {x : Stop} (h : codebookAt k s = .error x t) :
    t = s ∧ s.cb.find k = none ∧ x = .raise .badRef := by
  rw [codebookAt_run] at h
  cases e : s.cb.find k with
  | none => rw [e] at h; cases h; exact ⟨rfl, rfl, rfl⟩
  | some x => rw [e] at h; cases h

/-- A vector that `VectorDecode` gives is the D values of an entry of a slot with a value table (R74). -/
theorem vectorDecode_ok {k : Nat} {s t : State} {r : Nat × List Word} (h : vectorDecode k s = .ok r t) :
    ∃ c l, s.cb.find k = some c ∧ c.lookup = some l ∧ r.2 = entryVector c l r.1 ∧ scalarDecode k s = .ok r.1 t := by
  obtain ⟨c, u, h1, h2⟩ := bind_ok h
  obtain ⟨rfl, hc⟩ := codebookAt_ok h1
  cases hl : c.lookup with
  | none => rw [hl] at h2; cases h2
  | some l =>
    rw [hl] at h2
    obtain ⟨e, v, h3, h4⟩ := bind_ok h2
    cases h4
    exact ⟨c, l, hc, hl, rfl, h3⟩

@[simp] theorem length_entryVector (c : Codebook) (l : Lookup) (e : Nat) : (entryVector c l e).length = c.dim := by
  simp [entryVector]

theorem onlyReads_readLength (sparse : Bool) : OnlyReads (readLength sparse) := by
  have tail : ∀ used : Nat, OnlyReads (if used = 1 then do
      let l ← readU 5
      pure (some (l + 1))
    else pure none : Cmd (Option Nat)) := fun used => by
    split
    · exact .bind (onlyReads_readU 5) fun _ => .pure _
    · exact .pure _
  cases sparse
  · exact .bind (.pure _) tail
  · exact .bind (onlyReads_readU 1) tail

theorem onlyReads_readOrdered (count : Nat) : ∀ fuel cur len, OnlyReads (readOrdered count fuel cur len)
  | 0, _, _ => .raise _
  | fuel + 1, cur, len => by
    unfold readOrdered
    split
    · exact .bind (onlyReads_readU _) fun num => .bind (.raiseIf _ _) fun _ => .bind (.raiseIf _ _) fun _ =>
        .bind (onlyReads_readOrdered count fuel _ _) fun _ => .pure _
    · exact .pure _

theorem onlyReads_readLengths (count : Nat) : OnlyReads (readLengths count) := by
  refine .bind (onlyReads_readU 1) fun ordered => ?_
  split
  · exact .bind (onlyReads_readU 1) fun sparse => .repeatCmd (onlyReads_readLength _) _
  · exact .bind (onlyReads_readU 5) fun l => .bind .get fun s => onlyReads_readOrdered _ _ _ _

theorem onlyReads_readTable (k : Nat) (kind : LookupKind) (dim count : Nat) : OnlyReads (readTable k kind dim count) :=
  .bind .get fun _ => .bind (.raiseIf _ _) fun _ => .bind (.raiseIf _ _) fun _ => .bind (.raiseIf _ _) fun _ =>
    .bind (onlyReads_readVF _) fun _ => .bind (onlyReads_readVF _) fun _ => .bind (onlyReads_readU _) fun _ =>
      .bind (onlyReads_readU _) fun _ => .bind (.repeatCmd (onlyReads_readU _) _) fun _ => .pure _

theorem onlyReads_readLookup (k t dim count : Nat) : OnlyReads (readLookup k t dim count) := by
  unfold readLookup
  split
  · exact .pure _
  · exact onlyReads_readTable _ _ _ _
  · exact onlyReads_readTable _ _ _ _
  · exact .raise _

theorem onlyReads_parseCodebook (k : Nat) : OnlyReads (parseCodebook k) := by
  refine .bind (onlyReads_readU _) fun _ => .bind (.raiseIf _ _) fun _ => .bind (onlyReads_readU _) fun _ =>
    .bind (onlyReads_readU _) fun _ => .bind (onlyReads_readLengths _) fun len => ?_
  cases buildTree len with
  | none => exact .raise _
  | some tree =>
    exact .bind .get fun _ => .bind (.raiseIf _ _) fun _ => .bind (onlyReads_readU _) fun _ =>
      .bind (onlyReads_readLookup _ _ _ _) fun _ => .pure _

theorem onlyReads_readCascade : OnlyReads readCascade := by
  refine .bind (onlyReads_readU _) fun _ => .bind (onlyReads_readU _) fun flag => ?_
  split
  · exact .bind (onlyReads_readU _) fun _ => .pure _
  · exact .bind (.pure _) fun _ => .pure _

theorem onlyReads_readBooks (mask : Byte) : OnlyReads (readBooks mask) := by
  refine .forEach (fun p => ?_) _
  split
  · exact .bind (onlyReads_readU _) fun _ => .pure _
  · exact .pure _

theorem onlyReads_readResidue : OnlyReads readResidue :=
  .bind (onlyReads_readU _) fun _ => .bind (.raiseIf _ _) fun _ => .bind (onlyReads_readU _) fun _ =>
    .bind (onlyReads_readU _) fun _ => .bind (onlyReads_readU _) fun _ => .bind (onlyReads_readU _) fun _ =>
      .bind (onlyReads_readU _) fun _ => .bind (.repeatCmd onlyReads_readCascade _) fun _ =>
        .bind (.forEach onlyReads_readBooks _) fun _ => .pure _

theorem onlyReads_parseResidue : OnlyReads parseResidue :=
  .bind onlyReads_readResidue fun _ => .bind .get fun _ => .bind (.raiseIf _ _) fun _ => .bind (.raiseIf _ _) fun _ =>
    .pure _

theorem onlyReads_sealResidue (ncb r : Nat) : OnlyReads (sealResidue ncb r) := by
  have body : ∀ x : Residue, OnlyReads (do
      raiseIf (decide (ncb ≤ x.classbook)) .badRef
      raiseIf ((residueBooks x).any fun b => decide (ncb ≤ b)) .badRef) :=
    fun x => .bind (.raiseIf _ _) fun _ => .raiseIf _ _
  refine .bind .get fun s => ?_
  cases s.res.find r with
  | none => exact .raise _
  | some x => exact body x

theorem onlyReads_sealChecks (ncb nres : Nat) : OnlyReads (sealChecks ncb nres) :=
  .bind (.raiseIf _ _) fun _ => .bind (.raiseIf _ _) fun _ => .bind .get fun _ => .bind (.raiseIf _ _) fun _ =>
    .bind (.forEach (onlyReads_sealResidue ncb) _) fun _ => .pure _

theorem onlyReads_residueChecks (r nvec : Nat) : OnlyReads (residueChecks r nvec) :=
  .bind .get fun _ => .bind (.raiseIf _ _) fun _ => .bind (.raiseIf _ _) fun _ => .bind (.raiseIf _ _) fun _ =>
    .bind (onlyReads_residueAt r) fun _ => .bind (.raiseIf _ _) fun _ => .pure _

theorem residueAt_run (r : Nat) (s : State) :
    residueAt r s = match s.res.find r with
      | some x => .ok x s
      | none => .error (.raise .badRef) s := by
  simp only [residueAt, bind_run, get_run]
  cases s.res.find r <;> rfl

/-- What RES_DECODE's checks let through, and the job they set up (R85). -/
theorem residueChecks_ok {r nvec : Nat} {s t : State} {j : ResidueJob} (h : residueChecks r nvec s = .ok j t) :
    t = s ∧ s.cfgState = .sealed ∧ r < s.resCount ∧ s.arg0.toNat + nvec * s.arg1.toNat ≤ s.params.vecWords
      ∧ s.res.find r = some j.res ∧ j.res.type ≠ 0 ∧ j.base = s.arg0.toNat ∧ j.nvec = nvec ∧ j.len = s.arg1.toNat
      ∧ j.silent = s.silent ∧ j.f32 = s.params.f32 := by
  obtain ⟨h1, h⟩ := bind_raiseIf_ok (bind_get_ok h)
  obtain ⟨h2, h⟩ := bind_raiseIf_ok h
  obtain ⟨h3, h⟩ := bind_raiseIf_ok h
  obtain ⟨x, v, h4, h⟩ := bind_ok h
  rw [residueAt_run] at h4
  cases e : s.res.find r with
  | none => rw [e] at h4; cases h4
  | some x =>
    rw [e] at h4
    cases h4
    obtain ⟨h5, h⟩ := bind_raiseIf_ok h
    cases h
    simp at h1 h2 h3 h5
    exact ⟨rfl, h1, h2, h3, rfl, h5, rfl, rfl, rfl, rfl, rfl⟩

/-- RES_DECODE's checks when they find nothing (R85). -/
theorem residueChecks_run {r nvec : Nat} {s : State} {x : Residue} (h1 : s.cfgState = .sealed) (h2 : r < s.resCount)
    (h3 : s.arg0.toNat + nvec * s.arg1.toNat ≤ s.params.vecWords) (h4 : s.res.find r = some x) (h5 : x.type ≠ 0) :
    residueChecks r nvec s = .ok ⟨x, s.arg0.toNat, nvec, s.arg1.toNat, s.silent, s.params.f32⟩ s := by
  have h3 : ¬ s.params.vecWords < arg0Nat s + nvec * arg1Nat s := Nat.not_lt_of_le h3
  rw [residueChecks, bind_of_ok (get_run s), bind_raiseIf_false (by simp [h1]), bind_raiseIf_false (by simp; omega),
    bind_raiseIf_false (decide_eq_false h3),
    bind_of_ok (show residueAt r s = .ok x s by rw [residueAt_run, h4]), bind_raiseIf_false (by simpa using h5)]
  rfl

theorem residueChecks_error {r nvec : Nat} {s t : State} {x : Stop} (h : residueChecks r nvec s = .error x t) :
    t = s := by
  rcases bind_raiseIf_error (bind_get_error h) with ⟨_, _, rfl⟩ | ⟨_, h⟩
  · rfl
  rcases bind_raiseIf_error h with ⟨_, _, rfl⟩ | ⟨_, h⟩
  · rfl
  rcases bind_raiseIf_error h with ⟨_, _, rfl⟩ | ⟨_, h⟩
  · rfl
  rcases bind_error h with h4 | ⟨x, v, h4, h⟩ <;> rw [residueAt_run] at h4 <;> cases e : s.res.find r <;>
    rw [e] at h4 <;> cases h4
  · rfl
  · rcases bind_raiseIf_error h with ⟨_, _, rfl⟩ | ⟨_, h⟩
    · rfl
    · cases h

/-- What SYN_BLOCK's checks let through (R98). -/
theorem blockChecks_ok {g : Geometry} {s t : State} {u : Unit} (h : blockChecks g s = .ok u t) :
    t = s ∧ s.arg0.toNat + g.n / 2 ≤ s.params.vecWords ∧ (s.lapValid = true → s.tailLen = g.ln)
      ∧ s.pcmcount + blockCount s g ≤ s.params.pcmWords := by
  obtain ⟨h1, h⟩ := bind_raiseIf_ok (bind_get_ok h)
  obtain ⟨h2, h⟩ := bind_raiseIf_ok h
  obtain ⟨h3, rfl⟩ := raiseIf_ok h
  simp at h1 h2 h3
  exact ⟨rfl, h1, h2, h3⟩

theorem blockChecks_error {g : Geometry} {s t : State} {x : Stop} (h : blockChecks g s = .error x t) : t = s := by
  rcases bind_raiseIf_error (bind_get_error h) with ⟨_, _, rfl⟩ | ⟨_, h⟩
  · rfl
  rcases bind_raiseIf_error h with ⟨_, _, rfl⟩ | ⟨_, h⟩
  · rfl
  exact (raiseIf_error h).2.2

/-- The checks of CFG_SEAL change nothing, and they pass exactly on a configuration that may be sealed (R89). -/
theorem sealResidue_ok {ncb r : Nat} {s t : State} {u : Unit} (h : sealResidue ncb r s = .ok u t) :
    t = s ∧ ∃ x, s.res.find r = some x ∧ x.classbook < ncb ∧ ∀ b ∈ residueBooks x, b < ncb := by
  have h := bind_get_ok h
  cases e : s.res.find r with
  | none => rw [e] at h; cases h
  | some x =>
    rw [e] at h
    obtain ⟨h1, h⟩ := bind_raiseIf_ok h
    obtain ⟨h2, rfl⟩ := raiseIf_ok h
    simp at h1 h2
    exact ⟨rfl, x, rfl, h1, h2⟩

theorem sealResidue_error {ncb r : Nat} {s t : State} {x : Stop} (h : sealResidue ncb r s = .error x t) :
    t = s ∧ x = .raise .badRef
      ∧ ¬ ∃ x, s.res.find r = some x ∧ x.classbook < ncb ∧ ∀ b ∈ residueBooks x, b < ncb := by
  have h := bind_get_error h
  cases e : s.res.find r with
  | none => rw [e] at h; cases h; exact ⟨rfl, rfl, by simp⟩
  | some y =>
    rw [e] at h
    rcases bind_raiseIf_error h with ⟨h1, rfl, rfl⟩ | ⟨h1, h⟩
    · simp at h1
      exact ⟨rfl, rfl, fun ⟨x, hx, h2, _⟩ => by cases hx; omega⟩
    · obtain ⟨h2, rfl, rfl⟩ := raiseIf_error h
      simp at h2
      obtain ⟨b, hb, h2⟩ := h2
      exact ⟨rfl, rfl, fun ⟨x, hx, _, h3⟩ => by cases hx; have := h3 b hb; omega⟩

theorem forEach_sealResidue_ok {ncb : Nat} {rs : List Nat} {s t : State} {us : List Unit}
    (h : forEach (sealResidue ncb) rs s = .ok us t) :
    t = s ∧ ∀ r ∈ rs, ∃ x, s.res.find r = some x ∧ x.classbook < ncb ∧ ∀ b ∈ residueBooks x, b < ncb := by
  induction rs generalizing s t us with
  | nil => cases h; exact ⟨rfl, by simp⟩
  | cons r rs ih =>
    obtain ⟨_, _, h1, h2⟩ := bind_ok h
    obtain ⟨rfl, hr⟩ := sealResidue_ok h1
    obtain ⟨_, _, h3, h4⟩ := bind_ok h2
    obtain ⟨rfl, hrs⟩ := ih h3
    cases h4
    exact ⟨rfl, List.forall_mem_cons.2 ⟨hr, hrs⟩⟩

theorem forEach_sealResidue_error {ncb : Nat} {rs : List Nat} {s t : State} {x : Stop}
    (h : forEach (sealResidue ncb) rs s = .error x t) :
    t = s ∧ x = .raise .badRef
      ∧ ¬ ∀ r ∈ rs, ∃ x, s.res.find r = some x ∧ x.classbook < ncb ∧ ∀ b ∈ residueBooks x, b < ncb := by
  induction rs generalizing s t x with
  | nil => cases h
  | cons r rs ih =>
    rw [List.forall_mem_cons]
    rcases bind_error h with h1 | ⟨_, _, h1, h2⟩
    · obtain ⟨rfl, rfl, hr⟩ := sealResidue_error h1
      exact ⟨rfl, rfl, fun ha => hr ha.1⟩
    · obtain ⟨rfl, _⟩ := sealResidue_ok h1
      rcases bind_error h2 with h3 | ⟨_, _, _, h3⟩
      · obtain ⟨rfl, rfl, hr⟩ := ih h3
        exact ⟨rfl, rfl, fun ha => hr ha.2⟩
      · cases h3

/-- What the checks of CFG_SEAL let through (R89). -/
theorem sealChecks_ok {ncb nres : Nat} {s t : State} {u : Unit} (h : sealChecks ncb nres s = .ok u t) :
    t = s ∧ ncb ≤ nCb ∧ nres ≤ nRes ∧ (∀ k, k < ncb → (s.cb.find k).isSome = true)
      ∧ ∀ r, r < nres → ∃ x, s.res.find r = some x ∧ x.classbook < ncb ∧ ∀ b ∈ residueBooks x, b < ncb := by
  obtain ⟨h1, h⟩ := bind_raiseIf_ok h
  obtain ⟨h2, h⟩ := bind_raiseIf_ok h
  obtain ⟨h3, h⟩ := bind_raiseIf_ok (bind_get_ok h)
  obtain ⟨_, _, h4, h6⟩ := bind_ok h
  obtain ⟨rfl, h5⟩ := forEach_sealResidue_ok h4
  cases h6
  simp only [decide_eq_false_iff_not, Nat.not_lt, List.any_eq_false, List.mem_range] at h1 h2 h3 h5
  refine ⟨rfl, h1, h2, fun k hk => ?_, h5⟩
  have := h3 k hk
  cases e : t.cb.find k <;> simp [e] at this ⊢

/-- The state at an error of CFG_SEAL's checks, and which error it is (R89). -/
theorem sealChecks_error {ncb nres : Nat} {s t : State} {x : Stop} (h : sealChecks ncb nres s = .error x t) :
    t = s ∧ ((nCb < ncb ∨ nRes < nres) ∧ x = .raise .badCfg
      ∨ (ncb ≤ nCb ∧ nres ≤ nRes) ∧ x = .raise .badRef) := by
  rcases bind_raiseIf_error h with ⟨h1, rfl, rfl⟩ | ⟨h1, h⟩
  · simp at h1; exact ⟨rfl, .inl ⟨.inl h1, rfl⟩⟩
  rcases bind_raiseIf_error h with ⟨h2, rfl, rfl⟩ | ⟨h2, h⟩
  · simp at h2; exact ⟨rfl, .inl ⟨.inr h2, rfl⟩⟩
  simp at h1 h2
  rcases bind_raiseIf_error (bind_get_error h) with ⟨_, rfl, rfl⟩ | ⟨_, h⟩
  · exact ⟨rfl, .inr ⟨⟨h1, h2⟩, rfl⟩⟩
  rcases bind_error h with h | ⟨_, _, _, h⟩
  · obtain ⟨rfl, rfl, _⟩ := forEach_sealResidue_error h
    exact ⟨rfl, .inr ⟨⟨h1, h2⟩, rfl⟩⟩
  · cases h

theorem onlyReads_blockChecks (g : Geometry) : OnlyReads (blockChecks g) :=
  .bind .get fun _ => .bind (.raiseIf _ _) fun _ => .bind (.raiseIf _ _) fun _ => .raiseIf _ _

theorem onlyReads_blockSamples (p : Params) (g : Geometry) (x : List Word) : OnlyReads (blockSamples p g x) := by
  have draw : OnlyReads drawWord := ⟨fun s => reads_draws s _, fun s _ f t h => by cases h⟩
  unfold blockSamples
  simp only
  split
  · exact .pure _
  · exact .forEach (fun _ => draw) _

/-! Operations that store in a region of VEC -/

/-- All that decoding into the n words of VEC from lo changes (R77, R85): the reader and words of the region, and a word
that was written stays written. -/
def Stores (lo n : Nat) (s t : State) : Prop :=
  t = { s with bitpos := t.bitpos, draws := t.draws, vec := t.vec }
    ∧ s.bitpos ≤ t.bitpos ∧ t.bitpos ≤ max s.bitpos (8 * s.pktlen)
    ∧ (∀ w, w < lo ∨ lo + n ≤ w → t.vec.find w = s.vec.find w)
    ∧ (∀ w, (s.vec.find w).isSome = true → (t.vec.find w).isSome = true)
    ∧ (s.vec.wf → t.vec.wf)
    ∧ ∀ c ∈ t.vec, c ∈ s.vec ∨ lo ≤ c.1 ∧ c.1 < lo + n

theorem Stores.refl (lo n : Nat) (s : State) : Stores lo n s s :=
  ⟨rfl, Nat.le_refl _, Nat.le_max_left _ _, fun _ _ => rfl, fun _ h => h, fun h => h, fun _ h => .inl h⟩

theorem Stores.trans (lo n : Nat) (s t u : State) (h1 : Stores lo n s t) (h2 : Stores lo n t u) : Stores lo n s u := by
  obtain ⟨e1, l1, m1, f1, k1, w1, c1⟩ := h1
  obtain ⟨e2, l2, m2, f2, k2, w2, c2⟩ := h2
  have hp : t.pktlen = s.pktlen := by rw [e1]
  refine ⟨?_, by omega, by rw [hp] at m2; omega, fun w hw => (f2 w hw).trans (f1 w hw), fun w hw => k2 w (k1 w hw),
    fun h => w2 (w1 h), fun c hc => ?_⟩
  · rw [e1] at e2; exact e2
  · rcases c2 c hc with h | h
    · exact c1 c h
    · exact .inr h

theorem Stores.of_reads {s t : State} (lo n : Nat) (h : Reads s t) : Stores lo n s t := by
  obtain ⟨e, l, m⟩ := h
  have hv : t.vec = s.vec := by rw [e]
  refine ⟨?_, l, m, fun _ _ => by rw [hv], fun _ h => by rw [hv]; exact h, fun h => by rw [hv]; exact h,
    fun _ h => .inl (by rw [← hv]; exact h)⟩
  rw [hv]; exact e

/-- A store of words inside the region. -/
theorem Stores.of_storeVec (lo n : Nat) (s : State) (w : Nat) (xs : List Word) (h1 : lo ≤ w)
    (h2 : w + xs.length ≤ lo + n) : Stores lo n s (storeVec s w xs) := by
  refine ⟨rfl, Nat.le_refl _, Nat.le_max_left _ _, fun u hu => ?_, fun u hu => ?_, fun h => Sparse.wf_store h _ _,
    fun c hc => ?_⟩
  · simp only [storeVec, Sparse.find_store]
    rw [if_neg (by omega)]
  · simp only [storeVec, Sparse.find_store]
    split
    · rename_i h
      rw [List.getElem?_eq_getElem (by omega)]; rfl
    · exact hu
  · rcases Sparse.mem_store hc with h | h
    · exact .inr ⟨by omega, by omega⟩
    · exact .inl h

/-- A piece of a command that stores only in the region, and does not fault when the packet and the region are written. -/
structure OnlyStores (lo n : Nat) (c : Cmd α) : Prop where
  keeps : Keeps (Stores lo n) c
  faultless : ∀ s, PacketWritten s → VecWritten s lo n → ∀ f t, c s ≠ .error (.fault f) t

theorem OnlyStores.of_reads {lo n : Nat} {c : Cmd α} (h : OnlyReads c) : OnlyStores lo n c := by
  refine ⟨fun s => ?_, fun s hs _ => h.faultless s hs⟩
  have := h.keeps s
  cases e : c s with
  | ok a t => rw [e] at this; exact Stores.of_reads lo n this
  | error x t => rw [e] at this; exact Stores.of_reads lo n this

theorem PacketWritten.of_stores {lo n : Nat} {s t : State} (h : PacketWritten s) (r : Stores lo n s t) :
    PacketWritten t := by
  have e := r.1
  have h1 : t.pktlen = s.pktlen := by rw [e]
  have h2 : t.pkt = s.pkt := by rw [e]
  intro b hb; rw [h2]; exact h b (by rw [← h1]; exact hb)

theorem VecWritten.of_stores {lo n a m : Nat} {s t : State} (h : VecWritten s a m) (r : Stores lo n s t) :
    VecWritten t a m := fun k hk => r.2.2.2.2.1 _ (h k hk)

theorem OnlyStores.bind {lo n : Nat} {c : Cmd α} {f : α → Cmd β} (hc : OnlyStores lo n c)
    (hf : ∀ a, OnlyStores lo n (f a)) : OnlyStores lo n (c >>= f) := by
  refine ⟨Keeps.bind (Stores.trans lo n) hc.keeps fun a => (hf a).keeps, fun s hp hv x t h => ?_⟩
  rcases bind_error h with h | ⟨a, u, h1, h2⟩
  · exact hc.faultless s hp hv x t h
  · have r := hc.keeps.ok h1
    exact (hf a).faultless u (hp.of_stores r) (hv.of_stores r) x t h2

theorem OnlyStores.forEach {lo n : Nat} {f : α → Cmd β} (as : List α) (hf : ∀ a ∈ as, OnlyStores lo n (f a)) :
    OnlyStores lo n (Machine.forEach f as) := by
  induction as with
  | nil => exact .of_reads (.pure _)
  | cons a as ih =>
    exact .bind (hf a List.mem_cons_self) fun _ =>
      .bind (ih fun b hb => hf b (List.mem_cons_of_mem _ hb)) fun _ => .of_reads (.pure _)

theorem onlyStores_vecWrite {lo n w : Nat} {xs : List Word} (h1 : lo ≤ w) (h2 : w + xs.length ≤ lo + n) :
    OnlyStores lo n (vecWrite w xs) :=
  ⟨fun s => Stores.of_storeVec lo n s w xs h1 h2, fun _ _ _ _ _ h => by cases h⟩

theorem vecRead_run (w : Nat) (s : State) :
    vecRead w s = match s.vec.find w with
      | some x => .ok x s
      | none => .error (.fault (.unwritten .vec w)) s := by
  simp only [vecRead, bind_run, get_run]
  cases s.vec.find w <;> rfl

theorem onlyStores_vecRead {lo n w : Nat} (h1 : lo ≤ w) (h2 : w < lo + n) : OnlyStores lo n (vecRead w) := by
  constructor
  · intro s
    rw [vecRead_run]
    cases s.vec.find w <;> exact Stores.refl _ _ _
  · intro s _ hv f t h
    rw [vecRead_run] at h
    have := hv (w - lo) (by omega)
    rw [Nat.add_sub_cancel' h1] at this
    cases e : s.vec.find w with
    | none => rw [e] at this; cases this
    | some x => rw [e] at h; cases h

/-- The n words read, or the fault of the first unwritten one; nothing changes. -/
theorem vecReadBlock_ok {w n : Nat} {s : State} (h : VecWritten s w n) :
    ∃ xs, vecReadBlock w n s = .ok xs s ∧ xs.length = n ∧ ∀ k, k < n → s.vec.find (w + k) = xs[k]? := by
  induction n generalizing w with
  | zero => exact ⟨[], rfl, rfl, fun k hk => absurd hk (Nat.not_lt_zero k)⟩
  | succ n ih =>
    obtain ⟨x, hx⟩ := Option.isSome_iff_exists.1 (h 0 (by omega))
    obtain ⟨xs, h1, h2, h3⟩ := ih (w := w + 1) fun k hk => by
      have := h (k + 1) (by omega); rwa [show w + (k + 1) = w + 1 + k by omega] at this
    refine ⟨x :: xs, ?_, by simp [h2], fun k hk => ?_⟩
    · simp only [vecReadBlock, List.range'_succ, forEach, bind_run, vecRead_run, Nat.add_zero] at *
      simp only [hx, h1, pure_run]
    · cases k with
      | zero => simpa using hx
      | succ k => rw [show w + (k + 1) = w + 1 + k by omega, h3 k (by omega)]; simp

theorem vecReadBlock_error {w n : Nat} {s t : State} {x : Stop} (h : vecReadBlock w n s = .error x t) :
    t = s ∧ ∃ u, x = .fault (.unwritten .vec u) := by
  induction n generalizing w with
  | zero => cases h
  | succ n ih =>
    simp only [vecReadBlock, List.range'_succ, forEach, bind_run, vecRead_run] at h ih
    cases e : s.vec.find w with
    | none => rw [e] at h; cases h; exact ⟨rfl, _, rfl⟩
    | some y =>
      rw [e] at h
      simp only at h
      split at h
      · cases h
      · rename_i e2; cases h; exact ih e2

theorem vecReadBlock_state {w n : Nat} {s t : State} {xs : List Word} (h : vecReadBlock w n s = .ok xs t) :
    t = s ∧ xs.length = n := by
  induction n generalizing w xs with
  | zero => cases h; exact ⟨rfl, rfl⟩
  | succ n ih =>
    simp only [vecReadBlock, List.range'_succ, forEach, bind_run, vecRead_run] at h ih
    cases e : s.vec.find w with
    | none => rw [e] at h; cases h
    | some y =>
      rw [e] at h
      simp only at h
      split at h
      · rename_i e2
        cases h
        exact ⟨(ih e2).1, by simp [(ih e2).2]⟩
      · cases h

/-! Residues -/

/-- The target of an element below the vector length lies in the region (R82, R83). -/
theorem ResidueJob.target_mem (j : ResidueJob) {v i : Nat} (hv : v ∈ j.active) (hi : i < j.lvec) :
    j.base ≤ j.target v i ∧ j.target v i < j.base + j.nvec * j.len := by
  unfold ResidueJob.target ResidueJob.lvec ResidueJob.active at *
  split at hv
  · rename_i ht
    rw [if_pos ht] at hi ⊢
    have hn : 0 < j.nvec := by
      rcases Nat.eq_zero_or_pos j.nvec with h | h
      · rw [h] at hi; omega
      · exact h
    have h1 : i / j.nvec < j.len := Nat.div_lt_of_lt_mul hi
    have h2 : i % j.nvec < j.nvec := Nat.mod_lt _ hn
    have h3 : (i % j.nvec + 1) * j.len ≤ j.nvec * j.len := Nat.mul_le_mul_right _ h2
    rw [Nat.add_mul] at h3
    generalize i / j.nvec = q at h1 ⊢
    omega
  · rename_i ht
    rw [if_neg ht] at hi ⊢
    have h2 : v < j.nvec := List.mem_range.1 (List.mem_filter.1 hv).1
    have h3 : (v + 1) * j.len ≤ j.nvec * j.len := Nat.mul_le_mul_right _ h2
    rw [Nat.add_mul] at h3
    omega

section
variable (j : ResidueJob)

/-- Decoding in the job's region. -/
abbrev InRegion (c : Cmd α) : Prop := OnlyStores j.base (j.nvec * j.len) c

theorem inRegion_addValues {v : Nat} (hv : v ∈ j.active) : ∀ (xs : List Word) (i : Nat), InRegion j (addValues j v i xs)
  | [], _ => .of_reads (.pure _)
  | x :: xs, i => by
    by_cases hi : j.lvec ≤ i
    · unfold addValues
      rw [decide_eq_true hi]
      exact .of_reads ⟨fun s => Reads.refl s, fun s _ f t h => by cases h⟩
    · obtain ⟨h1, h2⟩ := j.target_mem hv (Nat.lt_of_not_le hi)
      exact .bind (.of_reads (.raiseIf _ _)) fun _ => .bind (onlyStores_vecRead h1 h2) fun _ =>
        .bind (onlyStores_vecWrite h1 (by simpa using h2)) fun _ => inRegion_addValues hv xs (i + 1)

theorem inRegion_fillPartition {v : Nat} (hv : v ∈ j.active) (bk off : Nat) :
    ∀ fuel k, InRegion j (fillPartition j bk v off fuel k)
  | 0, _ => .of_reads (.pure _)
  | fuel + 1, k => by
    unfold fillPartition
    split
    · exact .bind (.of_reads (onlyReads_vectorDecode bk)) fun _ => .bind (inRegion_addValues j hv _ _) fun _ =>
        inRegion_fillPartition hv bk off fuel _
    · exact .of_reads (.pure _)

theorem inRegion_decodePartition {v : Nat} (hv : v ∈ j.active) (bk off : Nat) :
    InRegion j (decodePartition j bk v off) :=
  .bind (.of_reads (onlyReads_codebookAt bk)) fun _ => .bind (.of_reads (.raiseIf _ _)) fun _ =>
    inRegion_fillPartition j hv bk off _ _

theorem onlyReads_classify (dc room : Nat) (cls : List (List Nat)) : OnlyReads (classify j dc room cls) :=
  .forEach (fun _ => .bind (onlyReads_scalarDecode _) fun _ => .pure _) _

theorem inRegion_decodeVectorPartition (pass p : Nat) (vk : Nat × List Nat) (hv : vk.1 ∈ j.active) :
    InRegion j (decodeVectorPartition j pass p vk) := by
  unfold decodeVectorPartition
  simp only
  split
  · split
    · exact inRegion_decodePartition j hv _ _
    · exact .of_reads (.raise _)
  · exact .of_reads (.pure _)

theorem inRegion_decodeGroup (pass : Nat) (cls : List (List Nat)) : ∀ ps, InRegion j (decodeGroup j pass cls ps)
  | [] => .of_reads (.pure _)
  | p :: ps => .bind (.forEach _ fun vk hvk => inRegion_decodeVectorPartition j pass p vk (List.of_mem_zip hvk).1) fun _ =>
      inRegion_decodeGroup pass cls ps

theorem inRegion_decodePass (dc parts pass : Nat) : ∀ fuel p cls, InRegion j (decodePass j dc parts pass fuel p cls)
  | 0, _, _ => .of_reads (.pure _)
  | fuel + 1, p, _ => by
    unfold decodePass
    split
    · have tail : ∀ cls', InRegion j (do
          decodeGroup j pass cls' (List.range' p (min dc (parts - p)))
          decodePass j dc parts pass fuel (p + dc) cls') :=
        fun cls' => .bind (inRegion_decodeGroup j pass cls' _) fun _ => inRegion_decodePass dc parts pass fuel _ _
      split
      · exact .bind (.of_reads (onlyReads_classify j _ _ _)) tail
      · exact .bind (.of_reads (.pure _)) tail
    · exact .of_reads (.pure _)

theorem inRegion_decodePasses (dc parts : Nat) : ∀ passes cls, InRegion j (decodePasses j dc parts passes cls)
  | [], _ => .of_reads (.pure _)
  | pass :: rest, _ => .bind (inRegion_decodePass j dc parts pass _ _ _) fun _ =>
      inRegion_decodePasses dc parts rest _

theorem inRegion_decodeCore : InRegion j (decodeCore j) :=
  .bind (.of_reads (onlyReads_codebookAt _)) fun _ => .bind (.of_reads (.raiseIf _ _)) fun _ =>
    inRegion_decodePasses j _ _ _ _

theorem inRegion_decodeResidue : InRegion j (decodeResidue j) := by
  refine .bind (.of_reads .get) fun s => ?_
  split
  · exact .of_reads (.pure _)
  · exact .bind (.of_reads (.raiseIf _ _)) fun _ => .bind (.of_reads (.raiseIf _ _)) fun _ =>
      .bind (inRegion_decodeCore j) fun _ => .bind (.of_reads .get) fun _ => .of_reads (.pure _)

end

end Sys2Proof.Machine
end

