-- ==== Sys2Proof/Laws/Float.lean ====
section
/-!
SUPPORT. Binary32: rounding to an integer is to the nearest, ties to even, and a packed magnitude is the real it stands
for.
-/

namespace Sys2Proof.Machine

/-- The integer k is nearest to y, and even when y lies half way. -/
def NearInt (k : Nat) (y : ℝ) : Prop := |(k : ℝ) - y| ≤ 1 / 2 ∧ (|(k : ℝ) - y| = 1 / 2 → k % 2 = 0)

theorem one_le_dist {k : Nat} {n : ℤ} (h : (k : ℤ) ≠ n) (y : ℝ) : 1 ≤ |(k : ℝ) - y| + |(n : ℝ) - y| := by
  have h1 : (1 : ℝ) ≤ |(k : ℝ) - n| := by exact_mod_cast Int.one_le_abs (sub_ne_zero.2 h)
  have h2 := abs_sub_le (k : ℝ) y n
  rw [abs_sub_comm y] at h2
  linarith

theorem NearInt.le {k : Nat} {y : ℝ} (h : NearInt k y) (n : ℤ) : |(k : ℝ) - y| ≤ |(n : ℝ) - y| := by
  by_cases hk : (k : ℤ) = n
  · have : (k : ℝ) = (n : ℝ) := by exact_mod_cast hk
    rw [this]
  · linarith [h.1, one_le_dist hk y]

theorem NearInt.even_of_tie {k : Nat} {y : ℝ} (h : NearInt k y) {n : ℤ} (hn : (n : ℝ) ≠ k)
    (he : |(n : ℝ) - y| = |(k : ℝ) - y|) : k % 2 = 0 := by
  have hk : (k : ℤ) ≠ n := fun e => hn (by exact_mod_cast e.symm)
  exact h.2 (by linarith [h.1, one_le_dist hk y])

theorem nearInt_roundShift (m k : Nat) : NearInt (roundShift m k) ((m : ℝ) / 2 ^ k) := by
  unfold roundShift
  have hp : 0 < 2 ^ k := by positivity
  generalize hP : 2 ^ k = P at *
  have hPr : ((2 : ℝ) ^ k) = (P : ℝ) := by rw [← hP]; push_cast; rfl
  rw [hPr]
  have hm := Nat.div_add_mod m P
  have hlt := Nat.mod_lt m hp
  generalize m / P = q at *
  generalize m % P = r at *
  have hpr : (0 : ℝ) < P := by exact_mod_cast hp
  have hy : (m : ℝ) / P = q + r / P := by rw [← hm]; push_cast; field_simp
  rw [hy]
  have hr0 : (0 : ℝ) ≤ r / P := by positivity
  have half : (r : ℝ) / P = 1 / 2 → 2 * r = P := fun h => by
    rw [div_eq_div_iff hpr.ne' (by norm_num)] at h
    have : (2 : ℝ) * r = P := by linarith
    exact_mod_cast this
  simp only
  split_ifs with h
  · have hh : (1 : ℝ) / 2 ≤ r / P := by
      rw [div_le_div_iff₀ (by norm_num) hpr]
      have : (P : ℝ) ≤ 2 * r := by exact_mod_cast (by omega : P ≤ 2 * r)
      linarith
    have hr1 : (r : ℝ) / P < 1 := by rw [div_lt_one hpr]; exact_mod_cast hlt
    have e : (((q + 1 : Nat) : ℝ)) - (q + r / P) = 1 - r / P := by push_cast; ring
    unfold NearInt
    rw [e, abs_of_nonneg (by linarith)]
    exact ⟨by linarith, fun ht => by have := half (by linarith); omega⟩
  · have hh : (r : ℝ) / P ≤ 1 / 2 := by
      rw [div_le_div_iff₀ hpr (by norm_num)]
      have : 2 * (r : ℝ) ≤ P := by exact_mod_cast (by omega : 2 * r ≤ P)
      linarith
    have e : (q : ℝ) - (q + r / P) = -(r / P) := by ring
    unfold NearInt
    rw [e, abs_neg, abs_of_nonneg hr0]
    exact ⟨hh, fun ht => by have := half ht; omega⟩

theorem bit_le (b : Bool) : bit b ≤ 1 := by cases b <;> decide

theorem toNat_f32Pack (neg : Bool) (x : Nat) (h : bit neg * 2 ^ 31 + x < 2 ^ 32) :
    (f32Pack neg x).toNat = bit neg * 2 ^ 31 + x := by
  unfold f32Pack
  generalize hg : bit neg * 2 ^ 31 + x = y at *
  rw [BitVec.toNat_ofNat, Nat.mod_eq_of_lt h]

theorem f32Real_of_value {w : Word} {n : Bool} {m : Nat} {e : Int} (h : f32Value w = .finite n m e) :
    f32Real w = dyadicReal n m e := by
  unfold f32Real
  simp only [h]

theorem sign_of_toNat {w : Word} {neg : Bool} {x : Nat} (h : w.toNat = bit neg * 2 ^ 31 + x) (hx : x < 2 ^ 31) :
    w.getLsbD 31 = neg := by
  rw [BitVec.getLsbD, h, Nat.testBit_eq_decide_div_mod_eq]
  have := bit_le neg
  have : (bit neg * 2 ^ 31 + x) / 2 ^ 31 % 2 = bit neg := by omega
  rw [this]
  cases neg <;> rfl

theorem fields_of_toNat {w : Word} {neg : Bool} {q k : Nat} (h : w.toNat = bit neg * 2 ^ 31 + (q * 2 ^ 23 + k))
    (hlt : q * 2 ^ 23 + k < 0x7F800000) :
    w.toNat / 2 ^ 23 % 2 ^ 8 = q + k / 2 ^ 23 ∧ w.toNat % 2 ^ 23 = k % 2 ^ 23 := by
  have := bit_le neg
  constructor <;> omega

theorem value_of_fields {w : Word} {neg : Bool} {q k : Nat} (hneg : w.getLsbD 31 = neg)
    (hexp : w.toNat / 2 ^ 23 % 2 ^ 8 = q + k / 2 ^ 23) (hfr : w.toNat % 2 ^ 23 = k % 2 ^ 23)
    (h : q + k / 2 ^ 23 < 255) :
    f32IsFinite w = true ∧ f32Value w = if q + k / 2 ^ 23 = 0 then .finite neg (k % 2 ^ 23) (-149)
      else .finite neg (2 ^ 23 + k % 2 ^ 23) (((q + k / 2 ^ 23 : Nat) : Int) - 150) := by
  constructor
  · unfold f32IsFinite
    rw [hexp, decide_eq_true_eq]
    omega
  · unfold f32Value
    simp only [hneg, hexp, hfr]
    rw [if_neg (by omega)]

/-- The carry of a rounded significand into the exponent does not change the value. -/
theorem dyadicReal_of_carry {neg : Bool} {q k : Nat} (hk : k ≤ 2 ^ 24) (hn : q = 0 ∨ 2 ^ 23 ≤ k)
    (h0 : q + k / 2 ^ 23 ≠ 0) :
    dyadicReal neg (2 ^ 23 + k % 2 ^ 23) (((q + k / 2 ^ 23 : Nat) : Int) - 150) = dyadicReal neg k ((q : ℤ) - 149) := by
  have hk3 : (k / 2 ^ 23 = 1 ∧ 2 ^ 23 + k % 2 ^ 23 = k) ∨ (k / 2 ^ 23 = 2 ∧ k % 2 ^ 23 = 0 ∧ k = 2 * 2 ^ 23) := by
    omega
  rcases hk3 with ⟨h1, h2⟩ | ⟨h1, h2, h3⟩
  · rw [h1, h2]
    congr 1
    push_cast
    ring
  · rw [h1, h2]
    unfold dyadicReal
    have : (k : ℝ) = 2 * (2 ^ 23 : ℝ) := by rw [h3]; norm_num
    rw [this, show (((q + 2 : Nat) : Int) - 150) = (q : ℤ) - 149 + 1 by push_cast; ring, zpow_add₀ (by norm_num)]
    push_cast
    ring

/-- The pattern with magnitude q·2^23 + k below infinity is the real k · 2^(q - 149), for a normalised k. -/
theorem f32Real_f32Pack (neg : Bool) {q k : Nat} (hk : k ≤ 2 ^ 24) (hn : q = 0 ∨ 2 ^ 23 ≤ k)
    (hlt : q * 2 ^ 23 + k < 0x7F800000) :
    f32IsFinite (f32Pack neg (q * 2 ^ 23 + k)) = true
      ∧ f32Real (f32Pack neg (q * 2 ^ 23 + k)) = dyadicReal neg k ((q : ℤ) - 149) := by
  have hB := bit_le neg
  have h1 : bit neg * 2 ^ 31 + (q * 2 ^ 23 + k) < 2 ^ 32 := by norm_num at hlt ⊢; linarith
  have htn := toNat_f32Pack neg _ h1
  generalize f32Pack neg (q * 2 ^ 23 + k) = w at *
  have hneg := sign_of_toNat htn (by norm_num at hlt ⊢; linarith)
  obtain ⟨hexp, hfr⟩ := fields_of_toNat htn hlt
  obtain ⟨f1, f2⟩ := value_of_fields hneg hexp hfr (by omega)
  refine ⟨f1, ?_⟩
  by_cases h0 : q + k / 2 ^ 23 = 0
  · rw [if_pos h0] at f2
    have hq0 : q = 0 := by omega
    have hk0 : k % 2 ^ 23 = k := by omega
    rw [hk0] at f2
    rw [f32Real_of_value f2, hq0, show (((0 : Nat) : ℤ) - 149) = -149 by norm_num]
  · rw [if_neg h0] at f2
    rw [f32Real_of_value f2]
    exact dyadicReal_of_carry hk hn h0

/-- Every finite word is an integer of at most 24 bits times a power of two from 2^-149 on. -/
theorem finite_form (v : Word) (h : f32IsFinite v = true) :
    ∃ (n : ℤ) (e : ℤ), -149 ≤ e ∧ |n| < 2 ^ 24 ∧ f32Real v = n * (2 : ℝ) ^ e := by
  have form : ∀ (neg : Bool) (m : Nat) (e : Int), -149 ≤ e → m < 2 ^ 24 →
      ∃ (n : ℤ) (e' : ℤ), -149 ≤ e' ∧ |n| < 2 ^ 24 ∧ dyadicReal neg m e = n * (2 : ℝ) ^ e' := by
    intro neg m e he hm
    refine ⟨(if neg then -1 else 1) * (m : ℤ), e, he, ?_, ?_⟩
    · rw [abs_mul]; split_ifs <;> simp <;> omega
    · unfold dyadicReal; push_cast; split_ifs <;> simp
  unfold f32IsFinite at h
  have h := of_decide_eq_true h
  have hlt : v.toNat / 2 ^ 23 % 2 ^ 8 < 256 := Nat.mod_lt _ (by norm_num)
  have hf : v.toNat % 2 ^ 23 < 2 ^ 23 := Nat.mod_lt _ (by norm_num)
  by_cases h0 : v.toNat / 2 ^ 23 % 2 ^ 8 = 0
  · have : f32Value v = .finite (v.getLsbD 31) (v.toNat % 2 ^ 23) (-149) := by
      unfold f32Value; simp only; rw [if_neg h, if_pos h0]
    rw [f32Real_of_value this]
    exact form _ _ _ (le_refl _) (by omega)
  · have : f32Value v
        = .finite (v.getLsbD 31) (2 ^ 23 + v.toNat % 2 ^ 23) ((v.toNat / 2 ^ 23 % 2 ^ 8 : Nat) - 150) := by
      unfold f32Value; simp only; rw [if_neg h, if_neg h0]
    rw [f32Real_of_value this]
    exact form _ _ _ (by omega) (by omega)

theorem lt_two_pow_ilog (v : Nat) : v < 2 ^ ilog v := by
  unfold ilog
  split
  · subst_vars; simp
  · exact Nat.lt_log2_self

theorem two_pow_le_of_ilog {v : Nat} (h : v ≠ 0) : 2 ^ (ilog v - 1) ≤ v ∧ 1 ≤ ilog v := by
  unfold ilog
  rw [if_neg h]
  exact ⟨by simpa using Nat.log2_self_le h, by omega⟩

theorem f32Pack_even (neg : Bool) {q k : Nat} (hk : k % 2 = 0) : (f32Pack neg (q * 2 ^ 23 + k)).getLsbD 0 = false := by
  unfold f32Pack
  rw [BitVec.getLsbD, BitVec.toNat_ofNat, Nat.testBit_eq_decide_div_mod_eq]
  simp
  omega

end Sys2Proof.Machine
end

