-- ==== Sys2Proof/Laws/Parse.lean ====
section
/-!
SUPPORT. What the header parsers answer: records in the ranges of R27 and R28, and tables within their capacities.
-/

namespace Sys2Proof.Machine

variable {α β : Type}

theorem repeatCmd_ok {c : Cmd α} {P : α → Prop} (hc : ∀ s t a, c s = .ok a t → P a) {n : Nat} {s t : State} {xs : List α}
    (h : repeatCmd c n s = .ok xs t) : xs.length = n ∧ ∀ x ∈ xs, P x := by
  induction n generalizing s xs with
  | zero => cases h; simp
  | succ n ih =>
    obtain ⟨x, u, h1, h2⟩ := bind_ok h
    obtain ⟨ys, v, h3, h4⟩ := bind_ok h2
    cases h4
    obtain ⟨h5, h6⟩ := ih h3
    exact ⟨by simp [h5], List.forall_mem_cons.2 ⟨hc _ _ _ h1, h6⟩⟩

theorem forEach_ok {f : α → Cmd β} {P : α → β → Prop} (hf : ∀ a s t b, f a s = .ok b t → P a b) {as : List α}
    {s t : State} {bs : List β} (h : forEach f as s = .ok bs t) : List.Forall₂ P as bs := by
  induction as generalizing s bs with
  | nil => cases h; exact .nil
  | cons a as ih =>
    obtain ⟨x, u, h1, h2⟩ := bind_ok h
    obtain ⟨ys, v, h3, h4⟩ := bind_ok h2
    cases h4
    exact .cons (hf _ _ _ _ h1) (ih h3)

theorem readLength_ok {sparse : Bool} {s t : State} {l : Option Nat} (h : readLength sparse s = .ok l t) :
    ∀ n, l = some n → 1 ≤ n ∧ n ≤ maxCwLen := by
  have tail : ∀ {used : Nat} {u : State}, (if used = 1 then do
      let l ← readU 5
      pure (some (l + 1))
    else pure none : Cmd (Option Nat)) u = .ok l t → ∀ n, l = some n → 1 ≤ n ∧ n ≤ maxCwLen := by
    intro used u h n hn
    split at h
    · obtain ⟨k, v, h1, h2⟩ := bind_ok h
      cases h2
      cases hn
      have := readU_lt h1
      exact ⟨by omega, by simp only [maxCwLen]; omega⟩
    · cases h; cases hn
  cases sparse
  · exact tail (used := 1) (u := s) h
  · obtain ⟨used, u, _, h2⟩ := bind_ok h
    exact tail h2

theorem readOrdered_ok {count : Nat} : ∀ {fuel cur len : Nat} {s t : State} {ls : List (Option Nat)},
    readOrdered count fuel cur len s = .ok ls t → cur ≤ count → 1 ≤ len →
    ls.length = count - cur ∧ ∀ n, some n ∈ ls → 1 ≤ n ∧ n ≤ maxCwLen
  | 0, _, _, _, _, _, h, _, _ => by cases h
  | fuel + 1, cur, len, s, t, ls, h, hc, hl => by
    unfold readOrdered at h
    split at h
    · obtain ⟨num, u, h1, h2⟩ := bind_ok h
      obtain ⟨h3, h4⟩ := bind_raiseIf_ok h2
      obtain ⟨h5, h6⟩ := bind_raiseIf_ok h4
      obtain ⟨rest, v, h7, h8⟩ := bind_ok h6
      cases h8
      simp only [decide_eq_false_iff_not, not_and, Nat.not_lt] at h3 h5
      obtain ⟨h9, h10⟩ := readOrdered_ok h7 h3 (Nat.le_add_left 1 len)
      refine ⟨by simp [h9]; omega, fun n hn => ?_⟩
      rcases List.mem_append.1 hn with hn | hn
      · obtain ⟨h11, h12⟩ := List.mem_replicate.1 hn
        cases h12
        exact ⟨hl, h5 (Nat.pos_of_ne_zero h11)⟩
      · exact h10 n hn
    · cases h
      exact ⟨by simp; omega, by simp⟩

/-- R72: the lengths part gives one length for each entry, each UNUSED or 1 to 32. -/
theorem readLengths_ok {count : Nat} {s t : State} {ls : List (Option Nat)} (h : readLengths count s = .ok ls t) :
    ls.length = count ∧ ∀ n, some n ∈ ls → 1 ≤ n ∧ n ≤ maxCwLen := by
  obtain ⟨ordered, u, _, h2⟩ := bind_ok h
  split at h2
  · obtain ⟨sparse, v, _, h4⟩ := bind_ok h2
    obtain ⟨h5, h6⟩ := repeatCmd_ok (P := fun l => ∀ n, l = some n → 1 ≤ n ∧ n ≤ maxCwLen)
      (fun _ _ _ h => readLength_ok h) h4
    exact ⟨h5, fun n hn => h6 _ hn n rfl⟩
  · obtain ⟨l, v, _, h4⟩ := bind_ok h2
    have := readOrdered_ok (bind_get_ok h4) (Nat.zero_le _) (Nat.le_add_left 1 l)
    simpa using this

/-- R75: a value-table part gives a table of its kind, with D ≥ 1, that fits VAL_CAP. -/
theorem readTable_ok {k dim count : Nat} {kind : LookupKind} {s t : State} {x : Option Lookup}
    (h : readTable k kind dim count s = .ok x t) :
    1 ≤ dim ∧ valsUsed s - slotVals s k + count * dim ≤ s.params.valCap
      ∧ ∃ l, x = some l ∧ l.kind = kind ∧ 1 ≤ l.vbits ∧ l.vbits ≤ 16
        ∧ l.mult.length = multCount kind count dim
        ∧ (∀ m ∈ l.mult, m.toNat < 2 ^ l.vbits)
        ∧ l.val = buildValues s.params.f32 l.kind l.mult l.delta l.min l.seq count dim := by
  obtain ⟨_, h2⟩ := bind_raiseIf_ok (bind_get_ok h)
  obtain ⟨h3, h4⟩ := bind_raiseIf_ok h2
  obtain ⟨h5, h6⟩ := bind_raiseIf_ok h4
  obtain ⟨min, _, _, h7⟩ := bind_ok h6
  obtain ⟨delta, _, _, h8⟩ := bind_ok h7
  obtain ⟨vb, _, hvb, h9⟩ := bind_ok h8
  obtain ⟨sq, _, _, h10⟩ := bind_ok h9
  obtain ⟨ms, _, hms, h11⟩ := bind_ok h10
  cases h11
  simp only [decide_eq_false_iff_not, Nat.not_lt] at h3 h5
  have hv := readU_lt hvb
  obtain ⟨hl, hm⟩ := repeatCmd_ok (P := fun m => m < 2 ^ (vb + 1)) (fun _ _ _ h => readU_lt h) hms
  refine ⟨by omega, h5, _, rfl, rfl, Nat.le_add_left 1 vb, by simp only; omega, by simp only [List.length_map]; cases kind <;> exact hl,
    fun m hm' => ?_, rfl⟩
  obtain ⟨m', h12, rfl⟩ := List.mem_map.1 hm'
  have := hm m' h12
  rw [BitVec.toNat_ofNat]
  exact Nat.lt_of_le_of_lt (Nat.mod_le _ _) this

/-- R27, R31, R75: a parsed codebook is one the spec describes, and it fits the capacities in its slot. -/
theorem parseCodebook_ok {k : Nat} {s t : State} {c : Codebook} (h : parseCodebook k s = .ok c t) :
    c.dim < 2 ^ 16 ∧ c.count < 2 ^ 24 ∧ c.len.length = c.count ∧ (∀ n, some n ∈ c.len → 1 ≤ n ∧ n ≤ maxCwLen)
      ∧ buildTree c.len = some c.tree ∧ nodesUsed s - slotNodes s k + c.tree.nodes ≤ s.params.nodeCap
      ∧ (c.lookup = none ∨ ∃ kind u, Reads s u ∧ readTable k kind c.dim c.count u = .ok c.lookup t) := by
  obtain ⟨sync, s1, h1, h⟩ := bind_ok h
  obtain ⟨_, h⟩ := bind_raiseIf_ok h
  obtain ⟨dim, s2, h2, h⟩ := bind_ok h
  obtain ⟨count, s3, h3, h⟩ := bind_ok h
  obtain ⟨len, s4, h4, h⟩ := bind_ok h
  have r4 : Reads s s4 := .trans _ _ _ ((keeps_readU 24).ok h1) (.trans _ _ _ ((keeps_readU 16).ok h2)
    (.trans _ _ _ ((keeps_readU 24).ok h3) ((onlyReads_readLengths count).keeps.ok h4)))
  cases hb : buildTree len with
  | none => rw [hb] at h; cases h
  | some tree =>
    rw [hb] at h
    obtain ⟨h5, h⟩ := bind_raiseIf_ok (bind_get_ok h)
    obtain ⟨ty, s5, h6, h⟩ := bind_ok h
    obtain ⟨lk, s6, h7, h⟩ := bind_ok h
    cases h
    have r5 : Reads s s5 := r4.trans _ _ _ ((keeps_readU 4).ok h6)
    obtain ⟨hl1, hl2⟩ := readLengths_ok h4
    refine ⟨readU_lt h2, readU_lt h3, hl1, hl2, hb, ?_, ?_⟩
    · have h5 : nodesUsed s4 - slotNodes s4 k + tree.nodes ≤ s4.params.nodeCap := by simpa using h5
      rw [r4.1] at h5; exact h5
    · unfold readLookup at h7
      split at h7
      · cases h7; exact .inl rfl
      · exact .inr ⟨_, s5, r5, h7⟩
      · exact .inr ⟨_, s5, r5, h7⟩
      · cases h7

theorem parseResidue_ok {s t : State} {x : Residue} (h : parseResidue s = .ok x t) : ∃ u, readResidue s = .ok x u := by
  obtain ⟨y, u, h1, h⟩ := bind_ok h
  obtain ⟨_, h⟩ := bind_raiseIf_ok (bind_get_ok h)
  obtain ⟨_, h⟩ := bind_raiseIf_ok h
  cases h
  exact ⟨_, h1⟩

end Sys2Proof.Machine
end

