-- ==== Sys2Proof/Laws/HeaderBits.lean ====
section
/-!
SUPPORT. The header parsers read back the bits that spell a header and raise EOB where a packet ends inside one, and what
the value table of a header is.
-/

namespace Sys2Proof.Machine

variable {α β γ : Type}

theorem Spells.cast {c : Cmd α} {b b' : List Bool} {a a' : α} (h : Spells c b a) (hb : b = b') (ha : a = a') :
    Spells c b' a' := by
  subst hb ha
  exact h

theorem Spells.map {c : Cmd α} {b : List Bool} {a : α} (f : α → β) (h : Spells c b a) :
    Spells (c >>= fun x => Pure.pure (f x)) b (f a) :=
  (Spells.bind h (Spells.pure (f a))).cast (List.append_nil _) rfl

theorem Spells.raiseIf_bind {c : Bool} {e : ErrorCode} {f : Unit → Cmd β} {b : List Bool} {r : β} (hc : c = false)
    (h : Spells (f ()) b r) : Spells (Machine.raiseIf c e >>= f) b r :=
  (Spells.bind (Spells.raiseIf c e hc) h).cast (List.nil_append _) rfl

/-- A repeated parser whose answers are a function of what is spelled. -/
theorem Spells.repeatCmd_map {c : Cmd α} {enc : γ → List Bool} {val : γ → α} {xs : List γ}
    (h : ∀ a ∈ xs, Spells c (enc a) (val a)) : Spells (Machine.repeatCmd c xs.length) (xs.flatMap enc) (xs.map val) := by
  induction xs with
  | nil => exact Spells.pure _
  | cons a as ih =>
    rw [List.flatMap_cons]
    exact Spells.bind (h a List.mem_cons_self)
      (Spells.map (val a :: ·) (ih fun b hb => h b (List.mem_cons_of_mem _ hb)))

/-- A parser run once per element of a list. -/
theorem Spells.forEach {f : γ → Cmd α} {enc : γ → List Bool} {val : γ → α} {xs : List γ}
    (h : ∀ a ∈ xs, Spells (f a) (enc a) (val a)) : Spells (Machine.forEach f xs) (xs.flatMap enc) (xs.map val) := by
  induction xs with
  | nil => exact Spells.pure _
  | cons a as ih =>
    rw [List.flatMap_cons]
    exact Spells.bind (h a List.mem_cons_self)
      (Spells.map (val a :: ·) (ih fun b hb => h b (List.mem_cons_of_mem _ hb)))

/-- A flag read as a number. -/
theorem spells_flag (b : Bool) : Spells (readU 1) [b] (bit b) :=
  (spells_readU (n := 1) (v := bit b) (Nat.le_refl 1) (by cases b <;> decide)).cast (by cases b <;> rfl) rfl

/-! Codeword lengths -/

theorem spells_readLength {sparse : Bool} {o : Option Nat} (h : ∀ l, o = some l → 1 ≤ l ∧ l ≤ 32)
    (hs : sparse = false → o ≠ none) :
    Spells (readLength sparse)
      ((if sparse then [o.isSome] else []) ++ match o with
        | none => []
        | some l => fieldBits 5 (l - 1)) o := by
  have used : ∀ l, o = some l → Spells (readU 5 >>= fun l => (Pure.pure (some (l + 1)) : Cmd (Option Nat)))
      (fieldBits 5 (l - 1)) o := fun l hl => by
    have := h l hl
    exact (Spells.map (fun l => some (l + 1)) (spells_readU (n := 5) (v := l - 1) (by omega) (by omega))).cast rfl
      (by rw [hl, show l - 1 + 1 = l by omega])
  cases o with
  | none =>
    cases sparse
    · exact absurd rfl (hs rfl)
    · exact Spells.bind (spells_flag false) (Spells.pure _)
  | some l =>
    cases sparse
    · exact used l rfl
    · exact Spells.bind (spells_flag true) (used l rfl)

theorem one_le_ilog {v : Nat} (h : 0 < v) : 1 ≤ ilog v := by
  unfold ilog
  rw [if_neg (by omega)]
  omega

theorem length_le_runBits (runs : List Nat) : ∀ left len, runsFit left len runs = true →
    runs.length ≤ (runBits left runs).length := by
  induction runs with
  | nil => intro _ _ _; simp [runBits]
  | cons n r ih =>
    intro left len h
    simp [runsFit] at h
    have := ih _ _ h.2
    have := one_le_ilog h.1.1
    simp [runBits]
    omega

/-- Runs that end at the entry count fit, and add up to it. -/
theorem runsFit_of_runsOk {runs : List Nat} : ∀ {left len : Nat}, runsOk left len runs = true →
    runsFit left len runs = true ∧ runs.sum = left := by
  induction runs with
  | nil => intro left len h; simp [runsOk] at h; simp [runsFit, h]
  | cons n r ih =>
    intro left len h
    simp only [runsOk, runsFit, Bool.and_eq_true, decide_eq_true_eq, List.sum_cons] at *
    have := ih h.2
    exact ⟨⟨h.1, this.1⟩, by omega⟩

/-- The ordered mode on the bits of runs that fit (R72): it gives their lengths and goes on after them. -/
theorem readOrdered_runs {count : Nat} (runs : List Nat) : ∀ {fuel cur len : Nat} {s : State}, cur ≤ count →
    runsFit (count - cur) len runs = true → runs.length < fuel →
    packetHas s (runBits (count - cur) runs) = true →
    readOrdered count fuel cur len s
      = ((runLengths len runs ++ ·) <$> readOrdered count (fuel - runs.length) (cur + runs.sum) (len + runs.length))
          (advance s (runBits (count - cur) runs).length) := by
  induction runs with
  | nil =>
    intro fuel cur len s _ _ _ _
    simp only [runBits, runLengths, List.length_nil, List.sum_nil, Nat.add_zero, Nat.sub_zero, advance_zero, map_run,
      List.nil_append]
    cases readOrdered count fuel cur len s <;> rfl
  | cons num rest ih =>
    intro fuel cur len s hc hr hf hs
    simp only [runsFit, Bool.and_eq_true, decide_eq_true_eq] at hr
    obtain ⟨⟨h1, h2, h3⟩, h4⟩ := hr
    obtain ⟨fuel, rfl⟩ : ∃ f, fuel = f + 1 := ⟨fuel - 1, by omega⟩
    have e : count - (cur + num) = count - cur - num := by omega
    rw [runBits, packetHas_append] at hs
    simp only [List.length_cons] at hf
    have hrest := ih (fuel := fuel) (cur := cur + num) (len := len + 1) (s := advance s (ilog (count - cur))) (by omega)
      (by rw [e]; exact h4) (by omega) (by rw [e]; simpa using hs.2)
    rw [readOrdered, if_pos (by omega),
      bind_of_ok ((spells_readU (one_le_ilog h1) (Nat.lt_of_le_of_lt h2 (lt_two_pow_ilog _))).yields s hs.1),
      bind_raiseIf_false (by simp; omega), bind_raiseIf_false (by simp [maxCwLen] at h3 ⊢; omega), length_fieldBits,
      bind_run, hrest, e]
    simp only [map_run, runBits, runLengths, List.length_append, length_fieldBits, advance_advance, List.length_cons,
      List.sum_cons, Nat.add_assoc, Nat.add_sub_add_right, Nat.add_comm 1]
    cases readOrdered count (fuel - rest.length) (cur + (num + rest.sum)) (len + (rest.length + 1))
      (advance s (ilog (count - cur) + (runBits (count - cur - num) rest).length)) <;> simp

/-- R72: the ordered mode where the packet ends inside the runs. Each run takes a bit or more, so `fuel` lasts. -/
theorem readOrdered_cut {count : Nat} (runs : List Nat) : ∀ {fuel cur len : Nat} {s : State} {p : List Bool},
    cur ≤ count → runsFit (count - cur) len runs = true → p.length < fuel → p <+: runBits (count - cur) runs →
    p ≠ runBits (count - cur) runs → packetHas s p = true → s.bitpos + p.length = 8 * s.pktlen →
    readOrdered count fuel cur len s = .error (.raise .eob) (advance s p.length) := by
  induction runs with
  | nil => intro fuel cur len s p _ _ _ hp hn _ _; exact absurd (List.prefix_nil.1 hp) hn
  | cons num rest ih =>
    intro fuel cur len s p hc hr hf hp hn hs he
    simp only [runsFit, Bool.and_eq_true, decide_eq_true_eq] at hr
    obtain ⟨⟨h1, h2, h3⟩, h4⟩ := hr
    obtain ⟨fuel, rfl⟩ : ∃ f, fuel = f + 1 := ⟨fuel - 1, by omega⟩
    have e : count - (cur + num) = count - cur - num := by omega
    have field := spells_readU (one_le_ilog h1) (Nat.lt_of_le_of_lt h2 (lt_two_pow_ilog _))
    rw [readOrdered, if_pos (by omega)]
    rcases prefix_append_cases hp with ⟨h5, h6⟩ | ⟨q, rfl, h5⟩
    · rw [bind_of_error (field.cuts s p h5 h6 hs he)]
    · rw [packetHas_append] at hs
      have := one_le_ilog h1
      simp only [List.length_append, length_fieldBits] at hf he hs
      rw [bind_of_ok (field.yields s hs.1), bind_raiseIf_false (by simp; omega),
        bind_raiseIf_false (by simp [maxCwLen] at h3 ⊢; omega), length_fieldBits,
        bind_of_error (ih (p := q) (by omega) (by rw [e]; exact h4) (by omega) (by rw [e]; exact h5)
          (fun h => hn (by rw [h, e]; rfl)) hs.2 (by simp only [advance_bitpos, advance_pktlen]; omega))]
      simp

/-- `ReadLengths` (R72) reads back any well-formed lengths part. -/
theorem spells_readLengths {count : Nat} {f : LengthFields} (h : f.wellFormed count = true) :
    Spells (readLengths count) (f.bits count) f.lengths := by
  cases f with
  | dense lens =>
    simp [LengthFields.wellFormed] at h
    obtain ⟨rfl, h⟩ := h
    refine Spells.bind (spells_flag false) (Spells.bind (spells_flag false) ?_)
    exact Spells.repeatCmd_map (val := some) fun l hl =>
      spells_readLength (sparse := false) (o := some l) (fun m hm => by cases hm; exact h l hl) (fun _ => by simp)
  | sparse lens =>
    simp [LengthFields.wellFormed] at h
    obtain ⟨rfl, h⟩ := h
    refine Spells.bind (spells_flag false) (Spells.bind (spells_flag true) ?_)
    refine (Spells.repeatCmd_map (c := readLength true) (val := id) fun o ho =>
      (spells_readLength (sparse := true) (o := o)
        (fun l hl => by have := h o ho; subst hl; simpa using this) (fun h => by cases h)).cast ?_ rfl).cast rfl
      (List.map_id _)
    cases o <;> rfl
  | ordered first runs =>
    simp [LengthFields.wellFormed] at h
    obtain ⟨⟨h1, h2⟩, h3⟩ := h
    obtain ⟨hfit, hsum⟩ := runsFit_of_runsOk h3
    have hl := length_le_runBits runs count first hfit
    refine Spells.bind (b1 := [true]) (spells_flag true)
      (Spells.bind (spells_readU (n := 5) (v := first - 1) (by omega) (by omega)) ⟨fun s hs => ?_, fun s p hp hn hs he => ?_⟩)
    · have hb := ((packetHas_iff _ _).1 hs).1
      rw [bind_of_ok (get_run s), show first - 1 + 1 = first by omega,
        readOrdered_runs runs (Nat.zero_le _) hfit (by simp [bitsLeft]; omega) hs, hsum]
      obtain ⟨f, hf⟩ : ∃ f, bitsLeft s + 1 - runs.length = f + 1 := ⟨bitsLeft s - runs.length, by simp [bitsLeft]; omega⟩
      simp [hf, readOrdered, LengthFields.lengths]
    · rw [bind_of_ok (get_run s), show first - 1 + 1 = first by omega]
      exact readOrdered_cut runs (Nat.zero_le _) hfit (by simp [bitsLeft]; omega) hp hn hs he

/-! The value table -/

theorem spells_readMults {n count : Nat} {mult : List Nat} (hn : 1 ≤ n) (hl : mult.length = count)
    (h : ∀ m ∈ mult, m < 2 ^ n) : Spells (repeatCmd (readU n) count) (mult.flatMap (fieldBits n)) mult := by
  subst hl
  exact (Spells.repeatCmd_map (val := id) fun m hm => spells_readU hn (h m hm)).cast rfl (List.map_id _)

theorem length_entryValues (f : F32Choice) (delta min : Word) (seq : Bool) (ms : List (BitVec 16)) :
    ∀ last, (entryValues f delta min seq last ms).length = ms.length := by
  induction ms with
  | nil => intro; rfl
  | cons m ms ih => intro l; simp [entryValues, ih]

theorem getElem?_entryValues (f : F32Choice) (delta min : Word) (seq : Bool) (ms : List (BitVec 16)) :
    ∀ (last : Word) (d : Nat) (m : BitVec 16), ms[d]? = some m → (entryValues f delta min seq last ms)[d]? = some
      (f.add (f.add (f.mul (f32OfNat m.toNat) delta) min)
        (if d = 0 then last else if seq then (entryValues f delta min seq last ms).getD (d - 1) 0 else last)) := by
  induction ms with
  | nil => intro l d m h; simp at h
  | cons m0 ms ih =>
    intro last d m h
    cases d with
    | zero => simp at h; subst h; simp [entryValues]
    | succ d =>
      simp at h
      have := ih (if seq then f.add (f.add (f.mul (f32OfNat m0.toNat) delta) min) last else last) d m h
      simp only [entryValues, List.getElem?_cons_succ]
      rw [this]
      cases d <;> cases seq <;> simp

theorem getElem?_latticeDigits (radix dim : Nat) : ∀ e d : Nat, d < dim →
    (latticeDigits radix dim e)[d]? = some (e / radix ^ d % radix) := by
  induction dim with
  | zero => intro e d h; omega
  | succ n ih =>
    intro e d h
    cases d with
    | zero => simp [latticeDigits]
    | succ d => simp [latticeDigits, ih _ d (by omega), Nat.div_div_eq_div_mul, Nat.pow_succ, Nat.mul_comm]

theorem length_latticeDigits (radix dim e : Nat) : (latticeDigits radix dim e).length = dim := by
  induction dim generalizing e with
  | zero => rfl
  | succ n ih => simp [latticeDigits, ih]

theorem length_entryMults (kind : LookupKind) (mult : List (BitVec 16)) (count dim e : Nat) :
    (entryMults kind mult count dim e).length = dim := by
  cases kind <;> simp [entryMults, length_latticeDigits]

/-- The bits of a value-table part after its lookup type (R75). -/
def TableFields.bits (t : TableFields) : List Bool :=
  fieldBits 32 t.min ++ (fieldBits 32 t.delta ++ (fieldBits 4 (t.vbits - 1)
    ++ ([t.seq] ++ t.mult.flatMap (fieldBits t.vbits))))

/-- The checks of a value-table part (R75) that the parameters allow. -/
theorem readTable_eq {s : State} {k dim count : Nat} {kind : LookupKind} (hd : 1 ≤ dim)
    (hv : valsUsed s - slotVals s k + count * dim ≤ s.params.valCap)
    (hk : kind = .explicit → s.params.lookup2 = .vorbisFormula) :
    readTable k kind dim count s = readTableFields s.params.f32 kind dim count s := by
  unfold readTable
  rw [bind_of_ok (get_run s), bind_raiseIf_false (by cases kind <;> simp_all), bind_raiseIf_false (by simp; omega),
    bind_raiseIf_false (by simp; exact hv)]

/-- The value-table part of CB_DEFINE (R75) reads back a well-formed one. -/
theorem spells_readTableFields (f : F32Choice) {dim count : Nat} {t : TableFields} (h1 : t.min < 2 ^ 32)
    (h2 : t.delta < 2 ^ 32) (h3 : 1 ≤ t.vbits) (h4 : t.vbits ≤ 16) (h5 : t.mult.length = multCount t.kind count dim)
    (h6 : ∀ m ∈ t.mult, m < 2 ^ t.vbits) :
    Spells (readTableFields f t.kind dim count) t.bits
      (some { kind := t.kind, min := vendorFloat f t.min, delta := vendorFloat f t.delta, vbits := t.vbits, seq := t.seq,
              mult := t.mult.map (BitVec.ofNat 16),
              val := buildValues f t.kind (t.mult.map (BitVec.ofNat 16)) (vendorFloat f t.delta) (vendorFloat f t.min)
                t.seq count dim }) := by
  obtain ⟨kind, min, delta, vbits, seq, mult⟩ := t
  have hvb : vbits - 1 + 1 = vbits := by simp at h3; omega
  have hsq : decide (bit seq = 1) = seq := by cases seq <;> rfl
  have last := Spells.map (fun ms => some
      ({ kind, min := vendorFloat f min, delta := vendorFloat f delta, vbits, seq, mult := ms.map (BitVec.ofNat 16),
         val := buildValues f kind (ms.map (BitVec.ofNat 16)) (vendorFloat f delta) (vendorFloat f min) seq count dim }
        : Lookup))
    (spells_readMults (count := multCount kind count dim) h3 h5 h6)
  unfold readTableFields TableFields.bits
  refine Spells.bind (spells_readVF f h1) (Spells.bind (spells_readVF f h2) (Spells.bind
    (spells_readU (n := 4) (by omega) (by simp only at h3 h4 ⊢; omega)) (Spells.bind (spells_flag seq) ?_)))
  simp only [hvb, hsq]
  exact last

/-! Residue headers -/

theorem classBooks_of_forall₂ {as : List Byte} {bs : List (List (Option Nat))}
    (h : List.Forall₂ (fun a b => classBooksOk a b = true) as bs) : (List.zipWith classBooksOk as bs).all id = true := by
  induction h with
  | nil => rfl
  | cons h _ ih => simp [h] at *; exact ih

theorem readBooks_ok {mask : Byte} {s t : State} {row : List (Option Nat)} (h : readBooks mask s = .ok row t) :
    classBooksOk mask row = true := by
  let P : Nat → Option Nat → Prop := fun p b => (match b with
    | none => !mask.getLsbD p
    | some b => mask.getLsbD p && decide (b < 256)) = true
  have key := forEach_ok (P := P) (f := fun p => if mask.getLsbD p then do
      let b ← readU 8
      pure (some b)
    else pure none) (by
      intro p s t b h
      split at h
      · obtain ⟨b', _, h1, h2⟩ := bind_ok h
        cases h2
        have := readU_lt h1
        simp only [P, Bool.and_eq_true, decide_eq_true_eq]
        exact ⟨by assumption, this⟩
      · rename_i hm
        cases h
        simp only [Bool.not_eq_true] at hm
        simp only [P, hm, Bool.not_false]) h
  have hl := key.length_eq
  simp [maxPass] at hl
  unfold classBooksOk
  rw [Bool.and_eq_true, decide_eq_true_eq, List.all_eq_true]
  refine ⟨hl.symm, fun p hp => ?_⟩
  have hp : p < 8 := List.mem_range.1 hp
  have := List.forall₂_iff_get.1 key |>.2 p (by simpa [maxPass] using hp) (by omega)
  simp only [List.get_eq_getElem, List.getElem_range, P] at this
  rw [List.getD_eq_getElem?_getD, List.getElem?_eq_getElem (show p < row.length by omega), Option.getD_some]
  revert this
  cases row[p]'(by omega) <;> exact id

theorem readResidue_ok {s t : State} {x : Residue} (h : readResidue s = .ok x t) : x.wellFormed = true := by
  obtain ⟨ty, s1, h1, h⟩ := bind_ok h
  obtain ⟨h2, h⟩ := bind_raiseIf_ok h
  obtain ⟨bg, s2, h3, h⟩ := bind_ok h
  obtain ⟨st, s3, h4, h⟩ := bind_ok h
  obtain ⟨ps, s4, h5, h⟩ := bind_ok h
  obtain ⟨cs, s5, h6, h⟩ := bind_ok h
  obtain ⟨cb, s6, h7, h⟩ := bind_ok h
  obtain ⟨cas, s7, h8, h⟩ := bind_ok h
  obtain ⟨bks, s8, h9, h⟩ := bind_ok h
  cases h
  have e3 := readU_lt h3
  have e4 := readU_lt h4
  have e5 := readU_lt h5
  have e6 := readU_lt h6
  have e7 := readU_lt h7
  have e8 := (repeatCmd_ok (P := fun _ => True) (fun _ _ _ _ => trivial) h8).1
  have e9 := forEach_ok (P := fun m r => classBooksOk m r = true) (fun m s t r h => readBooks_ok h) h9
  have e10 := e9.length_eq
  simp at h2
  simp only [Residue.wellFormed, Bool.and_eq_true, decide_eq_true_eq]
  exact ⟨by omega, classBooks_of_forall₂ e9⟩

theorem spells_readCascade {c : Nat × Option Nat} (h1 : c.1 < 8) (h2 : c.2.getD 0 < 32) :
    Spells readCascade (cascadeBits c) (cascadeMask c) := by
  obtain ⟨lo, hi⟩ := c
  refine Spells.bind (spells_readU (n := 3) (by omega) h1) ?_
  cases hi with
  | none => exact Spells.bind (spells_flag false) (Spells.pure _)
  | some hi =>
    exact Spells.bind (spells_flag true)
      (Spells.map (fun hi => BitVec.ofNat 8 (hi * 8 + lo)) (spells_readU (n := 5) (by omega) h2))

theorem spells_readBooks {mask : Byte} {row : List (Option Nat)} (h : classBooksOk mask row = true) :
    Spells (readBooks mask) (row.flatMap fun
      | none => []
      | some b => fieldBits 8 b) row := by
  unfold classBooksOk at h
  rw [Bool.and_eq_true, decide_eq_true_eq, List.all_eq_true] at h
  obtain ⟨hl, h⟩ := h
  have hrow : row = (List.range maxPass).map (row.getD · none) := by
    apply List.ext_getElem
    · simp [hl, maxPass]
    · intro i h1 h2
      simp [List.getD_eq_getElem?_getD, List.getElem?_eq_getElem h1]
  have := Spells.forEach (f := fun p => if mask.getLsbD p then do
      let b ← readU 8
      pure (some b)
    else pure none) (xs := List.range maxPass) (val := (row.getD · none))
    (enc := fun p => match row.getD p none with
      | none => []
      | some b => fieldBits 8 b) (fun p hp => by
      have := h p (by simpa [maxPass] using hp)
      cases hb : row.getD p none with
      | none =>
        rw [hb] at this
        rw [if_neg (by simpa using this)]
        exact Spells.pure _
      | some b =>
        rw [hb] at this
        rw [Bool.and_eq_true, decide_eq_true_eq] at this
        rw [if_pos this.1]
        exact Spells.map some (spells_readU (n := 8) (by omega) this.2))
  refine this.cast ?_ hrow.symm
  conv => rhs; rw [hrow, List.flatMap_map]

/-- `ReadResidue` (R79) reads back any well-formed residue header. -/
theorem spells_readResidue {h : ResidueHeader} (hw : h.wellFormed = true) : Spells readResidue h.bits h.record := by
  obtain ⟨type, begin, stop, psize, classbook, cascade, books⟩ := h
  unfold ResidueHeader.wellFormed Residue.wellFormed ResidueHeader.record at hw
  simp only [Bool.and_eq_true, decide_eq_true_eq, List.all_eq_true, List.length_map] at hw
  obtain ⟨⟨⟨h1, h2, h3, h4, h5, h6, h7, h8, -, h10⟩, h11⟩, h12⟩ := hw
  have hc : ∀ c ∈ cascade, Spells readCascade (cascadeBits c) (cascadeMask c) := fun c hc =>
    spells_readCascade (h12 c hc).1 (h12 c hc).2
  have hz : ∀ (ms : List Byte) (bs : List (List (Option Nat))), ms.length = bs.length →
      (∀ x ∈ List.zipWith classBooksOk ms bs, id x = true) →
      Spells (forEach readBooks ms) (bs.flatMap fun row => row.flatMap fun
        | none => []
        | some b => fieldBits 8 b) bs := by
    intro ms
    induction ms with
    | nil => intro bs hl _; cases bs <;> simp at hl; exact Spells.pure _
    | cons m ms ih =>
      intro bs hl hb
      cases bs with
      | nil => simp at hl
      | cons b bs =>
        rw [List.zipWith_cons_cons, List.forall_mem_cons] at hb
        rw [List.flatMap_cons]
        exact Spells.bind (spells_readBooks hb.1) (Spells.map (b :: ·) (ih bs (by simpa using hl) hb.2))
  have final := Spells.map (fun bs : List (List (Option Nat)) =>
      ({ type, begin, stop, psize := psize - 1 + 1, classes := cascade.length - 1 + 1, classbook,
         cascade := cascade.map cascadeMask, books := bs } : Residue))
    (hz (cascade.map cascadeMask) books (by simp [h10]) h11)
  have casc := Spells.repeatCmd_map hc
  refine Spells.cast (Spells.bind (spells_readU (n := 16) (v := type) (by omega) (by omega))
    (Spells.raiseIf_bind (by simpa using h1)
    (Spells.bind (spells_readU (n := 24) (v := begin) (by omega) h2)
    (Spells.bind (spells_readU (n := 24) (v := stop) (by omega) h3)
    (Spells.bind (spells_readU (n := 24) (v := psize - 1) (by omega) (by omega))
    (Spells.bind (spells_readU (n := 6) (v := cascade.length - 1) (by omega) (by omega))
    (Spells.bind (spells_readU (n := 8) (v := classbook) (by omega) (by omega))
    (Spells.bind (by rw [show cascade.length - 1 + 1 = cascade.length by omega]; exact casc) final)))))))) ?_ ?_
  · simp only [ResidueHeader.bits, List.append_assoc] <;> rfl
  · simp [ResidueHeader.record]
    omega

end Sys2Proof.Machine
end

