-- ==== Sys2Proof/Laws/Meanings.lean ====
section
/-!
SUPPORT. What each command can answer when it gives a next state: one inversion lemma per meaning, which frames and
invariants cite instead of unfolding the command.
-/

namespace Sys2Proof.Machine

variable {α : Type}

/-- A command that reads and then updates: the update of the value read, or the error entry after the reads. -/
theorem runCommand_reader {c : Cmd α} {f : α → State → State} (hc : OnlyReads c) {i : Instr} {s t : State}
  (h : runCommand i (do let a ← c; modify (f a)) s = .next t) :
  (∃ a u, c s = .ok a u ∧ Reads s u ∧ t = f a u) ∨ (∃ e u, c s = .error (.raise e) u ∧ Reads s u ∧ t = errorEntry (opByte i) (readsBits i) s.bitpos e u) := by
  rcases runCommand_next h with h' | ⟨e, u, h', rfl⟩
  · obtain ⟨a, u, h1, h2⟩ := bind_ok h'
    cases h2
    exact .inl ⟨a, u, h1, hc.keeps.ok h1, rfl⟩
  · rcases bind_error h' with h | ⟨_, _, _, h⟩
    · exact .inr ⟨e, u, h, hc.keeps.error h, rfl⟩
    · cases h

/-- CB_VECTOR (R77): the error entry after reads only, or the entry's vector stored at ARG0. -/
theorem exec_cbVector_next (k : Nat) (acc : Bool) (s t : State) (h : exec (.cbVector k acc) s = .next t) :
   (∃ e u, Reads s u ∧ t = errorEntry 0x22 true s.bitpos e u) ∨
   ∃ c l u e xs, s.cb.find k = some c ∧ c.lookup = some l ∧ Reads s u ∧ s.arg0.toNat + c.dim ≤ s.params.vecWords ∧ xs.length = c.dim ∧ t = setResult (BitVec.ofNat 32 e) (storeVec u s.arg0.toNat xs) := by
  simp only [exec, execCbVector] at h
  rcases runCommand_next h with h' | ⟨e, u, h', ht⟩
  · obtain ⟨_, _, h1, h2⟩ := bind_ok h'
    obtain ⟨rfl, _, _⟩ := decodeGate_ok h1
    obtain ⟨c, _, h3, h4⟩ := bind_ok h2
    obtain ⟨rfl, hc⟩ := codebookAt_ok h3
    obtain ⟨hl, h5⟩ := bind_raiseIf_ok h4
    obtain ⟨hr, h6⟩ := bind_raiseIf_ok h5
    obtain ⟨⟨e, v⟩, u, h7, h8⟩ := bind_ok h6
    obtain ⟨c', l, hc', hl', hv, hs⟩ := vectorDecode_ok h7
    simp only at hv; subst hv
    rw [hc] at hc'; cases hc'
    simp at hr
    refine .inr ⟨c, l, u, e, ?_⟩
    cases acc
    · cases h8
      exact ⟨_, hc, hl', (onlyReads_vectorDecode k).keeps.ok h7, hr, length_entryVector _ _ _, rfl⟩
    · obtain ⟨old, _, h9, h10⟩ := bind_ok h8
      obtain ⟨rfl, hlen⟩ := vecReadBlock_state h9
      cases h10
      refine ⟨_, hc, hl', (onlyReads_vectorDecode k).keeps.ok h7, hr, ?_, rfl⟩
      simp [hlen]
  · left
    refine ⟨e, u, ?_, ht⟩
    rcases bind_error h' with h1 | ⟨_, _, h1, h2⟩
    · rw [(decodeGate_error h1).1]; exact Reads.refl _
    obtain ⟨rfl, _, _⟩ := decodeGate_ok h1
    rcases bind_error h2 with h3 | ⟨c, _, h3, h4⟩
    · rw [(codebookAt_error h3).1]; exact Reads.refl _
    obtain ⟨rfl, hc⟩ := codebookAt_ok h3
    rcases bind_raiseIf_error h4 with ⟨_, _, rfl⟩ | ⟨_, h5⟩
    · exact Reads.refl _
    rcases bind_raiseIf_error h5 with ⟨_, _, rfl⟩ | ⟨_, h6⟩
    · exact Reads.refl _
    rcases bind_error h6 with h7 | ⟨⟨e, v⟩, s5, h7, h8⟩
    · exact (onlyReads_vectorDecode k).keeps.error h7
    cases acc
    · cases h8
    · rcases bind_error h8 with h9 | ⟨old, s6, h9, h10⟩
      · obtain ⟨_, _, h⟩ := vecReadBlock_error h9; cases h
      · cases h10

/-- RES_DECODE (R85): the error entry before the zeroing, or stores in the region and then RESULT or the error entry. -/
theorem exec_resDecode_next (r nvec : Nat) (s t : State) (h : exec (.resDecode r nvec) s = .next t) :
   (∃ e, t = errorEntry 0x31 true s.bitpos e s) ∨
   (s.arg0.toNat + nvec * s.arg1.toNat ≤ s.params.vecWords ∧ ∃ u, Stores s.arg0.toNat (nvec * s.arg1.toNat) s u ∧ 
     ((∃ v, t = setResult v u) ∨ (∃ e, t = errorEntry 0x31 true s.bitpos e u))) := by
  simp only [exec, execResDecode] at h
  rcases runCommand_next h with h' | ⟨e, u, h', ht⟩
  · obtain ⟨j, _, h1, h2⟩ := bind_ok h'
    obtain ⟨rfl, _, _, hr, _, _, hb, hn, hl, _⟩ := residueChecks_ok h1
    obtain ⟨_, u1, h3, h4⟩ := bind_ok h2
    cases h3
    obtain ⟨used, u2, h5, h6⟩ := bind_ok h4
    cases h6
    have := (inRegion_decodeResidue j).keeps.ok (onRaise_ok h5)
    right
    refine ⟨hr, u2, ?_, .inl ⟨_, rfl⟩⟩
    rw [← hb, ← hn, ← hl]
    refine Stores.trans _ _ _ _ _ (Stores.of_storeVec _ _ _ _ _ (Nat.le_refl _) (by simp)) this
  · rcases bind_error h' with h1 | ⟨j, _, h1, h2⟩
    · rw [residueChecks_error h1] at ht; exact .inl ⟨e, ht⟩
    obtain ⟨rfl, _, _, hr, _, _, hb, hn, hl, _⟩ := residueChecks_ok h1
    rcases bind_error h2 with h3 | ⟨_, u1, h3, h4⟩
    · cases h3
    cases h3
    rcases bind_error h4 with h5 | ⟨_, u2, h5, h6⟩
    · right
      refine ⟨hr, ?_⟩
      rcases onRaise_error h5 with ⟨e', u', h6, h7, rfl⟩ | ⟨f, _, h7⟩
      · cases h7
        refine ⟨_, ?_, .inr ⟨e, ht⟩⟩
        have := (inRegion_decodeResidue j).keeps.error h6
        rw [← hb, ← hn, ← hl]
        refine Stores.trans _ _ _ _ _ (Stores.trans _ _ _ _ _ (Stores.of_storeVec _ _ _ _ _ (Nat.le_refl _) (by simp)) this) ?_
        have h8 := Stores.of_storeVec j.base (j.nvec * j.len) u' j.base ((List.range (j.nvec * j.len)).map fun k => Config.freeWord (u'.draws + k)) (Nat.le_refl _) (by simp)
        obtain ⟨_, a, b, c⟩ := h8
        exact ⟨rfl, a, b, c⟩
      · cases h7
    · cases h6

/-- CB_DEFINE (R75, R108). -/
theorem exec_cbDefine_next {k : Nat} {s t : State} (h : exec (.cbDefine k) s = .next t) :
    (s.cfgState ≠ .opened ∧ t = errorEntry 0x20 true s.bitpos .cfgState s)
    ∨ (s.cfgState = .opened ∧ ∃ u, Reads s u ∧
        ((∃ c, parseCodebook k s = .ok c u ∧ t = setResult (BitVec.ofNat 32 c.count) { u with cb := u.cb.store k [c] })
        ∨ ∃ e, t = errorEntry 0x20 true s.bitpos e (dropCodebook k u))) := by
  rcases runCommand_next h with h' | ⟨e, u, h', ht⟩
  · obtain ⟨h1, h2⟩ := bind_raiseIf_ok h'
    obtain ⟨c, u, h3, h4⟩ := bind_ok h2
    cases h4
    simp at h1
    exact .inr ⟨h1, u, (onlyReads_parseCodebook k).keeps.ok (onRaise_ok h3), .inl ⟨c, onRaise_ok h3, rfl⟩⟩
  · rcases bind_raiseIf_error h' with ⟨h1, h2, rfl⟩ | ⟨h1, h2⟩
    · cases h2
      simp at h1
      exact .inl ⟨h1, ht⟩
    · simp at h1
      rcases bind_error h2 with h3 | ⟨_, _, _, h4⟩
      · rcases onRaise_error h3 with ⟨e', u', h4, h5, rfl⟩ | ⟨f, _, h5⟩
        · cases h5
          exact .inr ⟨h1, u', (onlyReads_parseCodebook k).keeps.error h4, .inr ⟨e, ht⟩⟩
        · cases h5
      · cases h4

/-- RES_DEFINE (R84, R108). -/
theorem exec_resDefine_next {r : Nat} {s t : State} (h : exec (.resDefine r) s = .next t) :
    (s.cfgState ≠ .opened ∧ t = errorEntry 0x30 true s.bitpos .cfgState s)
    ∨ (s.cfgState = .opened ∧ ∃ u, Reads s u ∧
        ((∃ x, parseResidue s = .ok x u ∧ t = setResult (BitVec.ofNat 32 x.type) { u with res := u.res.store r [x] })
        ∨ ∃ e, t = errorEntry 0x30 true s.bitpos e (dropResidue r u))) := by
  rcases runCommand_next h with h' | ⟨e, u, h', ht⟩
  · obtain ⟨h1, h2⟩ := bind_raiseIf_ok h'
    obtain ⟨c, u, h3, h4⟩ := bind_ok h2
    cases h4
    simp at h1
    exact .inr ⟨h1, u, onlyReads_parseResidue.keeps.ok (onRaise_ok h3), .inl ⟨c, onRaise_ok h3, rfl⟩⟩
  · rcases bind_raiseIf_error h' with ⟨h1, h2, rfl⟩ | ⟨h1, h2⟩
    · cases h2
      simp at h1
      exact .inl ⟨h1, ht⟩
    · simp at h1
      rcases bind_error h2 with h3 | ⟨_, _, _, h4⟩
      · rcases onRaise_error h3 with ⟨e', u', h4, h5, rfl⟩ | ⟨f, _, h5⟩
        · cases h5
          exact .inr ⟨h1, u', onlyReads_parseResidue.keeps.error h4, .inr ⟨e, ht⟩⟩
        · cases h5
      · cases h4

/-- CFG_SEAL (R89, R108). -/
theorem exec_cfgSeal_next {s t : State} (h : exec .cfgSeal s = .next t) :
    (s.cfgState ≠ .opened ∧ t = errorEntry 0x02 false s.bitpos .cfgState s)
    ∨ (s.cfgState = .opened ∧
        ((sealChecks s.arg0.toNat s.arg1.toNat s = .ok () s
            ∧ t = { s with cbCount := s.arg0.toNat, resCount := s.arg1.toNat, cfgState := .sealed })
        ∨ ∃ e, t = errorEntry 0x02 false s.bitpos e (breakConfig s))) := by
  rcases runCommand_next h with h' | ⟨e, u, h', ht⟩
  · obtain ⟨h1, h2⟩ := bind_raiseIf_ok h'
    obtain ⟨c, u, h3, h4⟩ := bind_ok h2
    have h5 := onRaise_ok h3
    obtain ⟨rfl, _⟩ := sealChecks_ok h5
    cases h4
    simp at h1
    exact .inr ⟨h1, .inl ⟨h5, rfl⟩⟩
  · rcases bind_raiseIf_error h' with ⟨h1, h2, rfl⟩ | ⟨h1, h2⟩
    · cases h2
      simp at h1
      exact .inl ⟨h1, ht⟩
    · simp at h1
      rcases bind_error h2 with h3 | ⟨_, _, _, h4⟩
      · rcases onRaise_error h3 with ⟨e', u', h4, h5, rfl⟩ | ⟨f, _, h5⟩
        · cases h5
          obtain ⟨rfl, _⟩ := sealChecks_error h4
          exact .inr ⟨h1, .inr ⟨e, ht⟩⟩
        · cases h5
      · cases h4

/-- SYN_CONFIG (R97, R108). -/
theorem exec_synConfig_next {e0 e1 : Nat} {s t : State} (h : exec (.synConfig e0 e1) s = .next t) :
    (s.cfgState ≠ .opened ∧ t = errorEntry 0x40 false s.bitpos .cfgState s)
    ∨ (s.cfgState = .opened ∧
        ((6 ≤ e0 ∧ e0 ≤ e1 ∧ e1 ≤ 13
            ∧ t = { s with e0 := BitVec.ofNat 4 e0, e1 := BitVec.ofNat 4 e1, synValid := true })
        ∨ (¬ (6 ≤ e0 ∧ e0 ≤ e1 ∧ e1 ≤ 13) ∧ t = errorEntry 0x40 false s.bitpos .badCfg (breakConfig s)))) := by
  rcases runCommand_next h with h' | ⟨e, u, h', ht⟩
  · obtain ⟨h1, h2⟩ := bind_raiseIf_ok h'
    obtain ⟨_, u, h3, h4⟩ := bind_ok h2
    obtain ⟨h5, h6⟩ := bind_raiseIf_ok (onRaise_ok h3)
    obtain ⟨h7, rfl⟩ := raiseIf_ok h6
    cases h4
    simp only [decide_eq_false_iff_not, not_not, not_or, Nat.not_lt, bsMinExp, bsMaxExp] at h1 h5 h7
    exact .inr ⟨h1, .inl ⟨h5.1, h7.1, h7.2, rfl⟩⟩
  · rcases bind_raiseIf_error h' with ⟨h1, h2, rfl⟩ | ⟨h1, h2⟩
    · cases h2
      simp at h1
      exact .inl ⟨h1, ht⟩
    · simp at h1
      rcases bind_error h2 with h3 | ⟨_, _, _, h4⟩
      · rcases onRaise_error h3 with ⟨e', u', h4, h5, rfl⟩ | ⟨f, _, h5⟩
        · cases h5
          rcases bind_raiseIf_error h4 with ⟨h6, h7, rfl⟩ | ⟨_, h4⟩
          · cases h7
            simp [bsMinExp, bsMaxExp] at h6
            exact .inr ⟨h1, .inr ⟨by omega, ht⟩⟩
          · obtain ⟨h6, h7, rfl⟩ := raiseIf_error h4
            cases h7
            simp [bsMaxExp] at h6
            exact .inr ⟨h1, .inr ⟨by omega, ht⟩⟩
        · cases h5
      · cases h4

/-- SYN_BLOCK (R98): the error entry before anything is read, or the block's samples. -/
theorem exec_synBlock_next {w pw nw : Bool} {s t : State} (h : exec (.synBlock w pw nw) s = .next t) :
    (∃ e, t = errorEntry 0x41 false s.bitpos e s)
    ∨ ∃ x ys u, s.cfgState = .sealed ∧ s.synValid = true ∧ blockChecks (blockGeometry s w pw nw) s = .ok () s
        ∧ vecReadBlock s.arg0.toNat ((blockGeometry s w pw nw).n / 2) s = .ok x s
        ∧ blockSamples s.params (blockGeometry s w pw nw) x s = .ok ys u ∧ t = blockState u (blockGeometry s w pw nw) ys := by
  rcases runCommand_next h with h' | ⟨e, u, h', ht⟩
  · obtain ⟨h1, h2⟩ := bind_raiseIf_ok h'
    obtain ⟨h3, h4⟩ := bind_raiseIf_ok h2
    obtain ⟨_, _, h5, h6⟩ := bind_ok h4
    obtain ⟨rfl, _⟩ := blockChecks_ok h5
    obtain ⟨x, _, h7, h8⟩ := bind_ok h6
    obtain ⟨rfl, _⟩ := vecReadBlock_state h7
    obtain ⟨ys, u, h9, h10⟩ := bind_ok h8
    cases h10
    simp at h1 h3
    exact .inr ⟨x, ys, u, h1, h3, h5, h7, h9, rfl⟩
  · left
    rcases bind_raiseIf_error h' with ⟨_, _, rfl⟩ | ⟨_, h2⟩
    · exact ⟨e, ht⟩
    rcases bind_raiseIf_error h2 with ⟨_, _, rfl⟩ | ⟨_, h4⟩
    · exact ⟨e, ht⟩
    rcases bind_error h4 with h5 | ⟨_, _, h5, h6⟩
    · rw [blockChecks_error h5] at ht; exact ⟨e, ht⟩
    obtain ⟨rfl, _⟩ := blockChecks_ok h5
    rcases bind_error h6 with h7 | ⟨x, _, h7, h8⟩
    · obtain ⟨_, _, h⟩ := vecReadBlock_error h7; cases h
    obtain ⟨rfl, _⟩ := vecReadBlock_state h7
    rcases bind_error h8 with h9 | ⟨ys, u, _, h10⟩
    · exfalso
      unfold blockSamples at h9
      split at h9
      · cases h9
      · revert h9
        generalize List.range' _ _ = is
        intro h9
        have : ∀ (is : List Nat) (v : State), forEach (fun _ => drawWord) is v ≠ .error (.raise e) u := by
          intro is
          induction is with
          | nil => intro v h; cases h
          | cons a is ih =>
            intro v h
            rcases bind_error h with h | ⟨_, _, _, h⟩
            · cases h
            · rcases bind_error h with h | ⟨_, _, _, h⟩
              · exact ih _ h
              · cases h
        exact this _ _ h9
    · cases h10

/-- BR_START (R64). -/
theorem exec_brStart_next {s t : State} (h : exec .brStart s = .next t) :
    (s.params.pktBytes < s.arg0.toNat ∧ t = errorEntry 0x10 false s.bitpos .range s)
    ∨ (s.arg0.toNat ≤ s.params.pktBytes
        ∧ t = { clearError s with pktlen := s.arg0.toNat, bitpos := 0, raced := [] }) := by
  rcases runCommand_next h with h' | ⟨e, u, h', ht⟩
  · obtain ⟨h1, h2⟩ := bind_raiseIf_ok h'
    cases h2
    simp at h1
    exact .inr ⟨h1, rfl⟩
  · rcases bind_raiseIf_error h' with ⟨h1, h2, rfl⟩ | ⟨_, h2⟩
    · cases h2
      simp at h1
      exact .inl ⟨h1, ht⟩
    · cases h2

/-- The four commands that read bits into RESULT (R65 to R67, R76): RESULT after reads, or the error entry after them. -/
theorem exec_reading_next {i : Instr} {s t : State}
    (hi : (∃ n, i = .brReadU n) ∨ (∃ n, i = .brReadS n) ∨ i = .brReadF ∨ ∃ k, i = .cbScalar k)
    (h : exec i s = .next t) :
    ∃ u, Reads s u ∧ ((∃ v, t = setResult v u) ∨ ∃ e, t = errorEntry (opByte i) true s.bitpos e u) := by
  rcases hi with ⟨n, rfl⟩ | ⟨n, rfl⟩ | rfl | ⟨k, rfl⟩
  · rcases runCommand_reader (f := fun u => setResult (BitVec.ofNat 32 u)) (onlyReads_readU n) h with
      ⟨a, u, _, r, rfl⟩ | ⟨e, u, _, r, rfl⟩
    · exact ⟨u, r, .inl ⟨_, rfl⟩⟩
    · exact ⟨u, r, .inr ⟨e, rfl⟩⟩
  · rcases runCommand_reader (f := fun u => setResult (signExtend32 n u)) (onlyReads_readU n) h with
      ⟨a, u, _, r, rfl⟩ | ⟨e, u, _, r, rfl⟩
    · exact ⟨u, r, .inl ⟨_, rfl⟩⟩
    · exact ⟨u, r, .inr ⟨e, rfl⟩⟩
  · rcases runCommand_reader (f := setResult) (onlyReads_readVF _) h with ⟨a, u, _, r, rfl⟩ | ⟨e, u, _, r, rfl⟩
    · exact ⟨u, r, .inl ⟨_, rfl⟩⟩
    · exact ⟨u, r, .inr ⟨e, rfl⟩⟩
  · have h' : runCommand (.cbScalar k) (do
        let e ← (do decodeGate k; scalarDecode k)
        modify (setResult (BitVec.ofNat 32 e))) s = .next t := by
      rw [← h]; simp only [exec, execCbScalar, bind_assoc]
    rcases runCommand_reader (f := fun e => setResult (BitVec.ofNat 32 e))
      (.bind (onlyReads_decodeGate k) fun _ => onlyReads_scalarDecode k) h' with ⟨a, u, _, r, rfl⟩ | ⟨e, u, _, r, rfl⟩
    · exact ⟨u, r, .inl ⟨_, rfl⟩⟩
    · exact ⟨u, r, .inr ⟨e, rfl⟩⟩

end Sys2Proof.Machine
end

