-- ==== Sys2Proof/Laws/Step.lean ====
section
/-!
SUPPORT. What one step can do: one inversion lemma for the step and one for issuing a command.
-/

namespace Sys2Proof.Machine

/-- A word in the PKT window starts inside PKT, and one in the VEC window is a VEC word (R40). -/
theorem accessTarget_pkt {p : Params} {a : Word} {n w : Nat} (h : accessTarget p a n = some (.pkt w)) :
    4 * w < p.pktBytes := by
  unfold accessTarget at h
  split at h
  · unfold targetAt at h
    split at h
    · cases e : regAt (a.toNat / 4) <;> simp [e] at h
    · split at h
      · simp at h; omega
      · split at h
        · simp at h
        · split at h <;> simp at h
  · cases h

theorem accessTarget_vec {p : Params} {a : Word} {n w : Nat} (h : accessTarget p a n = some (.vec w)) :
    w < p.vecWords := by
  unfold accessTarget at h
  split at h
  · unfold targetAt at h
    split at h
    · cases e : regAt (a.toNat / 4) <;> simp [e] at h
    · split at h
      · simp at h
      · split at h
        · simp at h; omega
        · split at h <;> simp at h
  · cases h

/-- What issuing a word can do (R106): nothing, ILLEGAL, or a command's meaning, each between BUSY = 1 and `retire`. -/
theorem issue_next {c : Word} {s t : State} (h : issue c s = .next t) :
    ∃ u, t = retire (statusWord { s with busy := true }) u ∧
      (u = { s with busy := true }
      ∨ (s.err = false ∧ u = errorEntry (opcodeByte c) false s.bitpos .illegal { s with busy := true })
      ∨ ∃ i, decode c = .ok i ∧ (s.err = false ∨ i.recovery = true) ∧ exec i { s with busy := true } = .next u) := by
  simp only [issue] at h
  cases e : gate c { s with busy := true } with
  | next u =>
    rw [e] at h
    cases h
    refine ⟨u, rfl, ?_⟩
    simp only [gate] at e
    cases d : decode c with
    | ok i =>
      rw [d] at e
      simp only at e
      split at e
      · cases e; exact .inl rfl
      · rename_i hg
        refine .inr (.inr ⟨i, rfl, ?_, e⟩)
        simp only [Bool.and_eq_true, Bool.not_eq_true', not_and, Bool.not_eq_false] at hg
        cases hs : s.err
        · exact .inl rfl
        · exact .inr (hg hs)
    | error x =>
      rw [d] at e
      simp only at e
      split at e
      · cases e; exact .inl rfl
      · rename_i hs
        cases e; exact .inr (.inl ⟨by simpa using hs, rfl⟩)
  | fault f => rw [e] at h; cases h
  | refused r => rw [e] at h; cases h

/-- What a step that gives a next state can have done with the oldest pending event (R40 to R44, R119). -/
inductive Served (s0 t : State) : Prop where
  | port (r : PortResponse) (v : Option StallView) (h : t = { s0 with response := r, stall := v })
  | registers (a0 a1 m : Word)
      (h : t = { s0 with arg0 := a0, arg1 := a1, silent := m, response := .done, stall := none })
  | packet (w : Nat) (v : Word) (hw : 4 * w < s0.params.pktBytes) (h : t = respond .done (writePktWord s0 w v))
  | vector (w : Nat) (v : Word) (hw : w < s0.params.vecWords) (h : t = respond .done (storeVec s0 w [v]))
  | command (c : Word) (h : issue c s0 = .next t)
  | reset (h : t = assertReset s0)
  | release (h : t = { s0 with inReset := false })

theorem serveRead_next {g : Target} {s t : State} (h : serveRead g s = .next t) :
    ∃ r v, t = { s with response := r, stall := v } := by
  unfold serveRead at h
  split at h
  · cases h
    unfold readStatus
    split
    · exact ⟨_, _, rfl⟩
    · exact ⟨_, _, rfl⟩
  · cases h; exact ⟨_, _, rfl⟩
  · split at h <;> cases h; exact ⟨_, _, rfl⟩
  · split at h <;> cases h; exact ⟨_, _, rfl⟩
  · split at h <;> cases h; exact ⟨_, _, rfl⟩

theorem step_next {s t : State} (h : step s = .next t) :
    (s.pending = [] ∧ t = s) ∨ ∃ e rest, s.pending = e :: rest ∧ Served { s with pending := rest } t := by
  unfold step serveNext at h
  split at h
  · cases h; exact .inl ⟨‹_›, rfl⟩
  · rename_i e rest hp
    refine .inr ⟨e, rest, hp, ?_⟩
    cases e with
    | read a n =>
      simp only [serve, serveAccess] at h
      split at h
      · cases h
      · split at h
        · obtain ⟨r, v, e⟩ := serveRead_next h
          exact .port r v e
        · cases h
    | write a n v =>
      simp only [serve, serveAccess] at h
      split at h
      · cases h
      · split at h
        · rename_i g hg
          unfold serveWrite at h
          split at h
          · exact .command _ h
          · rename_i r _
            cases h
            cases r <;> exact .registers _ _ _ rfl
          · cases h; exact .packet _ _ (accessTarget_pkt hg) rfl
          · cases h; exact .vector _ _ (accessTarget_vec hg) rfl
          · cases h; exact .port _ _ rfl
        · cases h
    | reset b =>
      cases b
      · cases h; exact .release rfl
      · cases h; exact .reset rfl

end Sys2Proof.Machine
end

