-- ==== Sys2Proof/Laws/Invariant.lean ====
section
/-!
SUPPORT. The induction over a step, packaged once: a predicate that the port's accesses, the gate and every command keep
is kept by every step.
-/

namespace Sys2Proof.Machine

/-- What a predicate must survive for `step_keeps`. The last two are the commands' part. -/
structure StepStable (P : State → Prop) : Prop where
  port : ∀ s r v n rest, P s → P { s with response := r, stall := v, draws := n, pending := rest }
  busy : ∀ s b, P s → P { s with busy := b }
  registers : ∀ s a0 a1 m, P s → P { s with arg0 := a0, arg1 := a1, silent := m }
  packet : ∀ s w v, P s → 4 * w < s.params.pktBytes → P (writePktWord s w v)
  vector : ∀ s w v, P s → w < s.params.vecWords → P (storeVec s w [v])
  reset : ∀ s, P s → P (assertReset s)
  release : ∀ s, P s → P { s with inReset := false }
  illegal : ∀ op s, P s → s.err = false → P (errorEntry op false s.bitpos .illegal s)
  command : ∀ i s t, i.wellFormed = true → P s → exec i s = .next t → P t

/-- `decoded` is the second half of the encoding's round trip: a word decodes to a well-formed command only. -/
theorem step_keeps {P : State → Prop} (hP : StepStable P) (decoded : ∀ c i, decode c = .ok i → i.wellFormed = true)
    {s t : State} (hs : P s) (h : step s = .next t) : P t := by
  rcases step_next h with ⟨_, rfl⟩ | ⟨e, rest, -, hsv⟩
  · exact hs
  have h0 : P { s with pending := rest } := hP.port s s.response s.stall s.draws rest hs
  generalize { s with pending := rest } = s0 at *
  have port : ∀ u r v, P u → P { u with response := r, stall := v } := fun u r v hu => hP.port u r v u.draws u.pending hu
  cases hsv with
  | port r v h => rw [h]; exact port _ _ _ h0
  | registers a0 a1 m h => rw [h]; exact port _ _ _ (hP.registers _ a0 a1 m h0)
  | packet w v hw h => rw [h]; exact port _ _ _ (hP.packet _ _ _ h0 hw)
  | vector w v hw h => rw [h]; exact port _ _ _ (hP.vector _ _ _ h0 hw)
  | reset h => rw [h]; exact hP.reset _ h0
  | release h => rw [h]; exact hP.release _ h0
  | command c h =>
    obtain ⟨u, rfl, hu⟩ := issue_next h
    have hb := hP.busy s0 true h0
    have : P u := by
      rcases hu with rfl | ⟨he, rfl⟩ | ⟨i, hd, -, hx⟩
      · exact hb
      · exact hP.illegal _ _ hb he
      · exact hP.command i _ _ (decoded _ _ hd) hb hx
    exact hP.port _ .done _ _ _ (hP.busy _ false this)

end Sys2Proof.Machine
end

