-- ==== Sys2Proof/Laws/PerInstr.lean ====
section
/-!
SUPPORT. Statements for all instructions, one lemma per constructor. `OpcodeByte`: bits 31..24 of a well-formed
command's word are its opcode, and bits 23..0 its payload (R51, R57).
-/

namespace Sys2Proof.Laws.OpcodeByte

/-- R51, R57: the opcode byte and the payload of an encoded command. -/
def Statement (i : Instr) : Prop :=
  i.wellFormed = true → (encode i).toNat / 2 ^ 24 = i.opcode ∧ (encode i).toNat % 2 ^ 24 = i.payload

/-- What a constructor's lemma shows of it: an opcode of one byte and a payload of 24 bits. -/
theorem of_bounds {i : Instr} (h : i.wellFormed = true → i.opcode < 2 ^ 8 ∧ i.payload < 2 ^ 24) : Statement i := by
  intro hw
  obtain ⟨h1, h2⟩ := h hw
  have e : (encode i).toNat = i.payload + 2 ^ 24 * i.opcode := by
    unfold encode
    rw [BitVec.toNat_ofNat, Nat.mod_eq_of_lt (by norm_num at h1 h2 ⊢; linarith), Nat.add_comm, Nat.mul_comm]
  rw [e, Nat.add_mul_div_left _ _ (by norm_num), Nat.add_mul_mod_self_left, Nat.div_eq_of_lt h2, Nat.mod_eq_of_lt h2]
  exact ⟨Nat.zero_add _, rfl⟩

theorem nop : Statement .nop := of_bounds fun _ => by decide
theorem softReset : Statement .softReset := of_bounds fun _ => by decide
theorem cfgSeal : Statement .cfgSeal := of_bounds fun _ => by decide
theorem cfgReset : Statement .cfgReset := of_bounds fun _ => by decide
theorem brStart : Statement .brStart := of_bounds fun _ => by decide
theorem brReadU (n : Nat) : Statement (.brReadU n) := of_bounds fun h => by
  simp [Instr.wellFormed, Instr.opcode, Instr.payload] at *
  omega
theorem brReadS (n : Nat) : Statement (.brReadS n) := of_bounds fun h => by
  simp [Instr.wellFormed, Instr.opcode, Instr.payload] at *
  omega
theorem brReadF : Statement .brReadF := of_bounds fun _ => by decide
theorem brIlog : Statement .brIlog := of_bounds fun _ => by decide
theorem cbDefine (k : Nat) : Statement (.cbDefine k) := of_bounds fun h => by
  simp [Instr.wellFormed, Instr.opcode, Instr.payload] at *
  omega
theorem cbScalar (k : Nat) : Statement (.cbScalar k) := of_bounds fun h => by
  simp [Instr.wellFormed, Instr.opcode, Instr.payload] at *
  omega
theorem cbVector (k : Nat) (acc : Bool) : Statement (.cbVector k acc) := of_bounds fun h => by
  cases acc <;> simp [Instr.wellFormed, Instr.opcode, Instr.payload] at * <;> omega
theorem resDefine (r : Nat) : Statement (.resDefine r) := of_bounds fun h => by
  simp [Instr.wellFormed, Instr.opcode, Instr.payload] at *
  omega
theorem resDecode (r nvec : Nat) : Statement (.resDecode r nvec) := of_bounds fun h => by
  simp [Instr.wellFormed, Instr.opcode, Instr.payload] at *
  omega
theorem synConfig (e0 e1 : Nat) : Statement (.synConfig e0 e1) := of_bounds fun h => by
  simp [Instr.wellFormed, Instr.opcode, Instr.payload] at *
  omega
theorem synBlock (w pw nw : Bool) : Statement (.synBlock w pw nw) := of_bounds fun _ => by
  revert w pw nw; decide
theorem synReset : Statement .synReset := of_bounds fun _ => by decide
theorem pcmClear : Statement .pcmClear := of_bounds fun _ => by decide

end Sys2Proof.Laws.OpcodeByte
end

