-- ==== Sys2Proof/Laws/Tree.lean ====
section
/-!
SUPPORT. Codeword trees: paths and their numbers, free paths, chains, and the walk on the bits of a path.
-/

namespace Sys2Proof.Machine

@[simp] theorem Tree.nodeAt_nil (t : Tree) : t.nodeAt [] = some t := by cases t <;> rfl

@[simp] theorem Tree.nodeAt_inner (a b : Tree) (x : Bool) (p : List Bool) :
    (Tree.inner a b).nodeAt (x :: p) = if x then b.nodeAt p else a.nodeAt p := rfl

@[simp] theorem Tree.nodeAt_leaf (sym : Nat) (x : Bool) (p : List Bool) : (Tree.leaf sym).nodeAt (x :: p) = none := rfl

@[simp] theorem Tree.nodeAt_empty (x : Bool) (p : List Bool) : Tree.empty.nodeAt (x :: p) = none := rfl

theorem Tree.empty_nodeAt_ne_leaf (p : List Bool) (x : Nat) : Tree.empty.nodeAt p ≠ some (.leaf x) := by
  cases p <;> simp

/-- No path goes on below a leaf. -/
theorem Tree.nodeAt_append_leaf {t : Tree} {p r : List Bool} {x y : Nat} (h : t.nodeAt p = some (.leaf x))
    (h2 : t.nodeAt (p ++ r) = some (.leaf y)) : r = [] := by
  induction p generalizing t with
  | nil =>
    rw [nodeAt_nil] at h
    cases h
    cases r <;> simp at h2 ⊢
  | cons b p ih =>
    cases t with
    | empty => simp at h
    | leaf => simp at h
    | inner a c => cases b <;> exact ih (by simpa using h) (by simpa using h2)

/-- `Chain` has one leaf, at the end of its path of zeros (R70). -/
theorem nodeAt_chain (sym d : Nat) (q : List Bool) (x : Nat) :
    (chain sym d).nodeAt q = some (.leaf x) ↔ q = List.replicate d false ∧ x = sym := by
  induction d generalizing q with
  | zero => cases q <;> simp [chain]; exact eq_comm
  | succ d ih =>
    cases q with
    | nil => simp [chain, List.replicate_succ]
    | cons b q =>
      cases b
      · simp [chain, ih, List.replicate_succ]
      · simp [chain, List.replicate_succ, Tree.empty_nodeAt_ne_leaf]

theorem pathNumber_cons (b : Bool) (p : List Bool) : pathNumber (b :: p) = bit b * 2 ^ p.length + pathNumber p := by
  have shift : ∀ (p : List Bool) (n : Nat),
      p.foldl (fun n b => 2 * n + bit b) n = n * 2 ^ p.length + p.foldl (fun n b => 2 * n + bit b) 0 := by
    intro p
    induction p with
    | nil => intro n; simp
    | cons b p ih =>
      intro n
      rw [List.foldl_cons, ih, List.foldl_cons, ih (2 * 0 + bit b)]
      simp [Nat.pow_succ]; ring
  unfold pathNumber
  rw [List.foldl_cons, shift]
  simp

theorem pathNumber_lt (p : List Bool) : pathNumber p < 2 ^ p.length := by
  induction p with
  | nil => simp [pathNumber]
  | cons b p ih => rw [pathNumber_cons]; cases b <;> simp [bit, Nat.pow_succ] <;> omega

theorem pathNumber_zeros (n : Nat) : pathNumber (List.replicate n false) = 0 := by
  induction n with
  | zero => rfl
  | succ n ih => rw [List.replicate_succ, pathNumber_cons, ih]; simp [bit]

/-- A path is free below a node exactly when its rest is free below the child. -/
theorem pathFree_cons (a b : Tree) (x : Bool) (p : List Bool) :
    pathFree (.inner a b) (x :: p) ↔ pathFree (if x then b else a) p := by
  unfold pathFree
  cases x <;> constructor
  all_goals
    rintro ⟨h1, h2⟩
    refine ⟨by simpa using h1, fun n hn sym => ?_⟩
  · simpa using h2 (n + 1) (by simp; omega) sym
  · cases n with
    | zero => simp
    | succ n => simpa using h2 n (by simp at hn; omega) sym
  · simpa using h2 (n + 1) (by simp; omega) sym
  · cases n with
    | zero => simp
    | succ n => simpa using h2 n (by simp at hn; omega) sym

theorem pathFree_empty (p : List Bool) : pathFree .empty p :=
  ⟨by cases p <;> simp, fun _ _ _ => Tree.empty_nodeAt_ne_leaf _ _⟩

theorem not_pathFree_leaf (x : Nat) (p : List Bool) : ¬ pathFree (.leaf x) p := fun h => h.2 0 (Nat.zero_le _) x (by simp)

theorem not_pathFree_inner_nil (a b : Tree) : ¬ pathFree (.inner a b) [] := by
  rintro ⟨h, _⟩; simp at h

/-- The insertion is a `placeChild` one level up. -/
theorem insertCodeword_eq (a b : Tree) (sym len : Nat) (h : 1 ≤ len) :
    insertCodeword (.inner a b) sym len = placeChild sym (.inner a b) (len + 1) := by
  simp [insertCodeword, placeChild, show 2 ≤ len + 1 by omega]

/-- A successful insertion leaves an inner root. -/
theorem inner_of_insertCodeword {a b t : Tree} {sym len : Nat} (h : insertCodeword (.inner a b) sym len = some t) :
    ∃ a' b', t = .inner a' b' := by
  simp only [insertCodeword] at h
  split at h
  · cases h; exact ⟨_, _, rfl⟩
  · cases e : placeChild sym b len with
    | none => simp [e] at h
    | some b' => simp [e] at h; exact ⟨_, _, h.symm⟩

/-- The walk on the bits of a path to a leaf reads exactly these and gives the leaf's entry (R71). -/
theorem spells_walk {p : List Bool} {sym : Nat} {t : Tree} (h : t.nodeAt p = some (.leaf sym)) :
    Spells (walk t) p sym := by
  induction p generalizing t with
  | nil => rw [Tree.nodeAt_nil] at h; cases h; exact .pure _
  | cons b p ih =>
    cases t with
    | empty => simp at h
    | leaf => simp at h
    | inner a c =>
      refine Spells.bind (b1 := [b]) (spells_readBit b) ?_
      cases b <;> exact ih (by simpa using h)

/-- The walk on the bits of a path to an empty branch raises BADCODE after them (R71). -/
theorem walk_empty {p : List Bool} {t : Tree} {s : State} (h : t.nodeAt p = some .empty) (hs : packetHas s p = true) :
    walk t s = .error (.raise .badCode) (advance s p.length) := by
  induction p generalizing t s with
  | nil => rw [Tree.nodeAt_nil] at h; cases h; rfl
  | cons b p ih =>
    cases t with
    | empty => simp at h
    | leaf => simp at h
    | inner a c =>
      rw [packetHas_cons] at hs
      have e : advance (advance s 1) p.length = advance s (b :: p).length := by simp [Nat.add_comm]
      rw [walk, bind_of_ok (readBit_run hs.1 hs.2.1), ← e]
      cases b <;> exact ih (by simpa using h) hs.2.2

/-- The walk that has come to an inner node stops there as a bit read stops (R60, R71). -/
theorem walk_inner {p : List Bool} {t a b : Tree} {s u : State} {x : Stop} (h : t.nodeAt p = some (.inner a b))
    (hs : packetHas s p = true) (hx : readBit (advance s p.length) = .error x u) : walk t s = .error x u := by
  induction p generalizing t s with
  | nil =>
    rw [Tree.nodeAt_nil] at h
    cases h
    rw [List.length_nil, advance_zero] at hx
    rw [walk, bind_of_error hx]
  | cons c p ih =>
    cases t with
    | empty => simp at h
    | leaf => simp at h
    | inner a' b' =>
      rw [packetHas_cons] at hs
      have e : advance (advance s 1) p.length = advance s (c :: p).length := by simp [Nat.add_comm]
      rw [walk, bind_of_ok (readBit_run hs.1 hs.2.1)]
      rw [← e] at hx
      cases c <;> exact ih (by simpa using h) hs.2.2 hx

/-- The walk where the packet ends inside a codeword raises EOB (R60, R71). -/
theorem walk_cut {p : List Bool} {t a b : Tree} {s : State} (h : t.nodeAt p = some (.inner a b))
    (hs : packetHas s p = true) (he : s.bitpos + p.length = 8 * s.pktlen) :
    walk t s = .error (.raise .eob) (advance s p.length) :=
  walk_inner h hs (readBit_eob (by simp only [advance_bitpos, advance_pktlen]; omega))

/-- `VectorDecode` on the bits of a codeword of a slot with a value table (R74). -/
theorem vectorDecode_run {s : State} {k e : Nat} {c : Codebook} {l : Lookup} {p : List Bool} (hc : s.cb.find k = some c)
    (hl : c.lookup = some l) (hs : packetHas s p = true) (he : c.tree.nodeAt p = some (.leaf e)) :
    vectorDecode k s = .ok (e, entryVector c l e) (advance s p.length) := by
  have := (spells_walk he).yields s hs
  simp [vectorDecode, codebookAt_run, hc, hl, scalarDecode, this]

/-- The values of an entry are its row of the table, when the row has D values. -/
theorem entryVector_eq {c : Codebook} {l : Lookup} {e : Nat} {row : List Word} (h : l.val[e]? = some row)
    (hr : row.length = c.dim) : entryVector c l e = row := by
  apply List.ext_getElem
  · simp [hr]
  · intro n h1 h2
    simp [entryVector, h, List.getD_eq_getElem?_getD, List.getElem?_eq_getElem h2]

theorem entryVector_getD {c : Codebook} {l : Lookup} {e : Nat} (h : (l.val.getD e []).length = c.dim) (hd : 1 ≤ c.dim) :
    entryVector c l e = l.val.getD e [] := by
  rw [List.getD_eq_getElem?_getD] at h ⊢
  cases hv : l.val[e]? with
  | none => rw [hv] at h; simp at h; omega
  | some row => rw [hv] at h; exact entryVector_eq hv h

end Sys2Proof.Machine
end

