-- ==== Sys2Proof/Laws/Residue.lean ====
section
/-!
SUPPORT. The decode core on the codewords of a trace (43_residue.md rules R80 and R81): it runs the places of
`residueSteps` in order, adds what they add, and stops where the first of them stops.
-/

namespace Sys2Proof.Machine

variable {α β γ : Type}

/-! Additions in VEC -/

/-- VEC after additions in order (R80). -/
def addAll (f : F32Choice) (m : Sparse Word) (adds : List (Nat × Word)) : Sparse Word :=
  adds.foldl (fun m y => m.store y.1 [f.add ((m.find y.1).getD 0) y.2]) m

theorem addAll_append (f : F32Choice) (m : Sparse Word) (a b : List (Nat × Word)) :
    addAll f m (a ++ b) = addAll f (addAll f m a) b := List.foldl_append

theorem find_store_one (m : Sparse Word) (i j : Nat) (x : Word) :
    (m.store i [x]).find j = if j = i then some x else m.find j := by
  by_cases h : j = i
  · subst h; simp [Sparse.find_store]
  · rw [if_neg h, Sparse.find_store_one_other _ _ _ _ h]

/-- A written word after additions is the word with its own additions (R80). -/
theorem find_addAll {f : F32Choice} {adds : List (Nat × Word)} {a : Nat} : ∀ {m : Sparse Word} {w : Word},
    m.find a = some w → (addAll f m adds).find a = some (addedWord f adds a w) := by
  induction adds with
  | nil => exact id
  | cons y adds ih =>
    intro m w h
    have := @ih (m.store y.1 [f.add ((m.find y.1).getD 0) y.2]) (if y.1 = a then f.add w y.2 else w) (by
      rw [find_store_one]
      by_cases e : y.1 = a
      · subst e; simp [h]
      · rw [if_neg (Ne.symm e), if_neg e, h])
    exact this

/-- Additions leave every other word alone. -/
theorem find_addAll_other {f : F32Choice} {adds : List (Nat × Word)} {a : Nat} : ∀ {m : Sparse Word},
    (∀ y ∈ adds, y.1 ≠ a) → (addAll f m adds).find a = m.find a := by
  induction adds with
  | nil => intro _ _; rfl
  | cons y adds ih =>
    intro m h
    rw [List.forall_mem_cons] at h
    exact (ih h.2).trans (Sparse.find_store_one_other _ _ _ _ (Ne.symm h.1))

/-! Runs of places -/

section
variable (j : ResidueJob) (cb : Sparse Codebook) (dc : Nat) (words : StepWords)

/-- The codebooks are these, and the job's region is written. -/
def Ready (s : State) : Prop := s.cb = cb ∧ VecWritten s j.base (j.nvec * j.len)

/-- What the decode core does at one place, where the classes are those of the trace (R80, R81). -/
def stepCmd (step : ResidueStep) : Cmd Unit :=
  match step with
  | .classify _ _ => do
    let _ ← scalarDecode j.res.classbook
    pure ()
  | .fill pass p v =>
    match passBook j.res (partitionClass j.res dc words p v) pass with
    | none => pure ()
    | some b => decodePartition j b v (j.res.begin + p * j.res.psize)

/-- What the places add, in order. -/
def tracedAdds (steps : List ResidueStep) : List (Nat × Word) :=
  steps.flatMap (stepAdds cb j.res dc j.target words)

/-- The state after the places of a trace. -/
def afterSteps (s : State) (steps : List ResidueStep) : State :=
  { advance s (traceBits words steps).length with vec := addAll j.f32 s.vec (tracedAdds j cb dc words steps) }

/-- Every place of a trace can be read. -/
def AllOk (steps : List ResidueStep) : Prop := ∀ b ∈ steps, stepOk cb j.res dc j.lvec words b = true

/-- A piece of the decode core that runs these places and gives a: on their codewords it ends after them, and it stops
as the first place stops that stops. -/
structure Runs (c : Cmd α) (steps : List ResidueStep) (a : α) : Prop where
  ok : ∀ s, Ready j cb s → AllOk j cb dc words steps → packetHas s (traceBits words steps) = true →
    c s = .ok a (afterSteps j cb dc words s steps)
  stops : ∀ s before step rest x t, steps = before ++ step :: rest → Ready j cb s → AllOk j cb dc words before →
    packetHas s (traceBits words before) = true →
    stepCmd j dc words step (afterSteps j cb dc words s before) = .error x t → c s = .error x t

end

variable {j : ResidueJob} {cb : Sparse Codebook} {dc : Nat} {words : StepWords}

theorem traceBits_append (a b : List ResidueStep) : traceBits words (a ++ b) = traceBits words a ++ traceBits words b :=
  List.flatMap_append

theorem afterSteps_nil (s : State) : afterSteps j cb dc words s [] = s := rfl

theorem afterSteps_append (s : State) (a b : List ResidueStep) :
    afterSteps j cb dc words s (a ++ b) = afterSteps j cb dc words (afterSteps j cb dc words s a) b := by
  simp [afterSteps, tracedAdds, traceBits_append, addAll_append, advance, Nat.add_assoc]

theorem packetHas_afterSteps (s : State) (a : List ResidueStep) (bits : List Bool) :
    packetHas (afterSteps j cb dc words s a) bits = packetHas (advance s (traceBits words a).length) bits := rfl

/-- Additions keep the region written. -/
theorem vecWritten_addAll {f : F32Choice} {s : State} {w n : Nat} {adds : List (Nat × Word)} (h : VecWritten s w n) :
    VecWritten { s with vec := addAll f s.vec adds } w n := by
  intro k hk
  obtain ⟨x, hx⟩ := Option.isSome_iff_exists.1 (h k hk)
  simp [find_addAll hx]

theorem Ready.afterSteps {s : State} (h : Ready j cb s) (steps : List ResidueStep) :
    Ready j cb (afterSteps j cb dc words s steps) :=
  ⟨h.1, vecWritten_addAll (s := s) h.2⟩

theorem AllOk.append {a b : List ResidueStep} :
    AllOk j cb dc words (a ++ b) ↔ AllOk j cb dc words a ∧ AllOk j cb dc words b := List.forall_mem_append

theorem Runs.pure (a : α) : Runs j cb dc words (Pure.pure a : Cmd α) [] a where
  ok _ _ _ _ := rfl
  stops _ _ _ _ _ _ h := by simp at h

theorem Runs.bind {c : Cmd α} {f : α → Cmd β} {s1 s2 : List ResidueStep} {a : α} {r : β}
    (h1 : Runs j cb dc words c s1 a) (h2 : Runs j cb dc words (f a) s2 r) :
    Runs j cb dc words (c >>= f) (s1 ++ s2) r where
  ok s hr hok hs := by
    rw [traceBits_append, packetHas_append] at hs
    obtain ⟨o1, o2⟩ := AllOk.append.1 hok
    rw [bind_of_ok (h1.ok s hr o1 hs.1), h2.ok _ (hr.afterSteps s1) o2 hs.2, afterSteps_append]
  stops s before step rest x t he hr hok hs hx := by
    rcases List.append_eq_append_iff.1 he with ⟨q, rfl, e⟩ | ⟨q, rfl, e⟩
    · rw [traceBits_append, packetHas_append] at hs
      obtain ⟨o1, o2⟩ := AllOk.append.1 hok
      rw [bind_of_ok (h1.ok s hr o1 hs.1)]
      exact h2.stops _ q step rest x t e (hr.afterSteps s1) o2 hs.2 (by rwa [afterSteps_append] at hx)
    · cases q with
      | nil =>
        rw [List.append_nil] at h1
        rw [bind_of_ok (h1.ok s hr hok hs)]
        exact h2.stops _ [] step rest x t e.symm (hr.afterSteps before) (by simp [AllOk])
          (by simpa [traceBits, packetHas_afterSteps] using ((packetHas_iff _ _).1 hs).1) hx
      | cons st q =>
        simp only [List.cons_append, List.cons.injEq] at e
        obtain ⟨rfl, e⟩ := e
        exact bind_of_error (h1.stops s before step q x t rfl hr hok hs hx)

theorem Runs.cast {c : Cmd α} {s1 s2 : List ResidueStep} {a b : α} (h : Runs j cb dc words c s1 a) (hs : s1 = s2)
    (ha : a = b) : Runs j cb dc words c s2 b := by
  subst hs ha
  exact h

theorem Runs.map (f : α → β) {c : Cmd α} {st : List ResidueStep} {a : α} (h : Runs j cb dc words c st a) :
    Runs j cb dc words (c >>= fun x => Pure.pure (f x)) st (f a) :=
  (Runs.bind h (Runs.pure (f a))).cast (List.append_nil _) rfl

theorem Runs.forEach {f : γ → Cmd α} {st : γ → List ResidueStep} {val : γ → α} {as : List γ}
    (h : ∀ a ∈ as, Runs j cb dc words (f a) (st a) (val a)) :
    Runs j cb dc words (Machine.forEach f as) (as.flatMap st) (as.map val) := by
  induction as with
  | nil => exact Runs.pure _
  | cons a as ih =>
    rw [List.flatMap_cons]
    exact Runs.bind (h a List.mem_cons_self)
      (Runs.map (val a :: ·) (ih fun b hb => h b (List.mem_cons_of_mem _ hb)))

theorem Runs.codebookAt {k : Nat} {c : Codebook} {f : Codebook → Cmd α} {st : List ResidueStep} {a : α}
    (hc : cb.find k = some c) (h : Runs j cb dc words (f c) st a) :
    Runs j cb dc words (codebookAt k >>= f) st a where
  ok s hr hok hs := by
    rw [bind_of_ok (by rw [codebookAt_run, hr.1, hc])]
    exact h.ok s hr hok hs
  stops s before step rest x t he hr hok hs hx := by
    rw [bind_of_ok (by rw [codebookAt_run, hr.1, hc])]
    exact h.stops s before step rest x t he hr hok hs hx

/-! One place -/

theorem eq_nil_of_singleton {st step : ResidueStep} {before rest : List ResidueStep}
    (h : [st] = before ++ step :: rest) : before = [] ∧ st = step := by
  cases before with
  | nil => simp at h; exact ⟨rfl, h.1⟩
  | cons b before => simp at h

/-- The entry of a class codeword. -/
def classEntry (words : StepWords) (g v : Nat) : Nat :=
  match words (.classify g v) with
  | [] => 0
  | (_, entry) :: _ => entry

/-- The classification of one vector (R81). -/
theorem runs_classify (f : Nat → β) (g v : Nat) :
    Runs j cb dc words (do let temp ← scalarDecode j.res.classbook; pure (f temp)) [.classify g v]
      (f (classEntry words g v)) where
  ok s hr hok hs := by
    have h := hok _ List.mem_cons_self
    unfold stepOk at h
    simp only at h
    cases hc : cb.find j.res.classbook with
    | none => simp [hc] at h
    | some c =>
      simp only [hc, Bool.and_eq_true, decide_eq_true_eq, codewordsOf, List.all_eq_true] at h
      obtain ⟨w, hw⟩ := List.length_eq_one_iff.1 h.1
      have hbits : traceBits words [.classify g v] = w.1 := by simp [traceBits, hw]
      rw [hbits] at hs
      have hn := h.2 w (by rw [hw]; exact List.mem_cons_self)
      have : scalarDecode j.res.classbook s = .ok w.2 (advance s w.1.length) := by
        rw [scalarDecode, bind_of_ok (by rw [codebookAt_run, hr.1, hc])]
        exact (spells_walk hn).yields s hs
      rw [bind_of_ok this]
      simp [classEntry, hw, afterSteps, tracedAdds, stepAdds, addAll, hbits, advance]
  stops s before step rest x t he hr hok hs hx := by
    obtain ⟨rfl, rfl⟩ := eq_nil_of_singleton he
    rcases bind_error hx with h | ⟨_, _, _, h⟩
    · exact bind_of_error h
    · cases h

/-- The inner loop of R80 inside the vector. -/
theorem addValues_run {v : Nat} (hv : v ∈ j.active) (xs : List Word) : ∀ {i : Nat} {s : State},
    VecWritten s j.base (j.nvec * j.len) → i + xs.length ≤ j.lvec →
    addValues j v i xs s
      = .ok () { s with vec := addAll j.f32 s.vec (xs.mapIdx fun k y => (j.target v (i + k), y)) } := by
  induction xs with
  | nil => intro i s _ _; rfl
  | cons x xs ih =>
    intro i s hw hi
    simp only [List.length_cons] at hi
    obtain ⟨h1, h2⟩ := j.target_mem hv (show i < j.lvec by omega)
    obtain ⟨old, hold⟩ := Option.isSome_iff_exists.1 (hw (j.target v i - j.base) (by omega))
    rw [show j.base + (j.target v i - j.base) = j.target v i by omega] at hold
    have hw' : VecWritten { s with vec := addAll j.f32 s.vec [(j.target v i, x)] } j.base (j.nvec * j.len) :=
      vecWritten_addAll hw
    have := ih (i := i + 1) (s := { s with vec := addAll j.f32 s.vec [(j.target v i, x)] }) hw' (by omega)
    rw [addValues, bind_raiseIf_false (by simp; omega), bind_of_ok (by rw [vecRead_run, hold])]
    simp only [List.mapIdx_cons, Nat.add_zero]
    rw [show ∀ (a : Nat × Word) (l : List (Nat × Word)), addAll j.f32 s.vec (a :: l)
      = addAll j.f32 (addAll j.f32 s.vec [a]) l from fun a l => addAll_append _ _ [a] l]
    rw [show (fun k y => (j.target v (i + (k + 1)), y)) = fun k (y : Word) => (j.target v (i + 1 + k), y) by
      funext k y; rw [Nat.add_assoc, Nat.add_comm 1 k]]
    rw [← this]
    simp [vecWrite, addAll, hold, storeVec]

/-- The inner loop of R80 where the vector ends first. -/
theorem addValues_range {v : Nat} (hv : v ∈ j.active) (xs : List Word) : ∀ {i : Nat} {s : State},
    VecWritten s j.base (j.nvec * j.len) → i ≤ j.lvec → j.lvec < i + xs.length →
    ∃ t, addValues j v i xs s = .error (.raise .range) t := by
  induction xs with
  | nil => intro i s _ h1 h2; simp at h2; omega
  | cons x xs ih =>
    intro i s hw h1 h2
    simp only [List.length_cons] at h2
    by_cases hi : j.lvec ≤ i
    · exact ⟨s, by rw [addValues, bind_raiseIf_true (by simpa using hi)]⟩
    · obtain ⟨h3, h4⟩ := j.target_mem hv (show i < j.lvec by omega)
      obtain ⟨old, hold⟩ := Option.isSome_iff_exists.1 (hw (j.target v i - j.base) (by omega))
      rw [show j.base + (j.target v i - j.base) = j.target v i by omega] at hold
      rw [addValues, bind_raiseIf_false (by simpa using hi), bind_of_ok (by rw [vecRead_run, hold])]
      have hw' : VecWritten { s with vec := addAll j.f32 s.vec [(j.target v i, x)] } j.base (j.nvec * j.len) :=
        vecWritten_addAll hw
      obtain ⟨t, ht⟩ := ih (i := i + 1) hw' (by omega) (by omega)
      exact ⟨t, by rw [← ht]; simp [vecWrite, addAll, hold, storeVec]⟩

/-- The outer loop of R80 on a full partition. -/
theorem fillPartition_full {v b off fuel k : Nat} {s : State} (h : j.res.psize ≤ k) :
    fillPartition j b v off fuel k s = .ok () s := by
  cases fuel with
  | zero => rfl
  | succ f => rw [fillPartition, if_neg (by omega)]; rfl

/-- VEC and the reader after these codewords' values are added from element i of vector v on. -/
def afterWords (j : ResidueJob) (l : Lookup) (v i : Nat) (ws : List (List Bool × Nat)) (s : State) : State :=
  { advance s (ws.flatMap Prod.fst).length with
    vec := addAll j.f32 s.vec ((ws.flatMap fun w => l.val.getD w.2 []).mapIdx fun m y => (j.target v (i + m), y)) }

/-- The outer loop of R80 on codewords that it reads: it goes on after them. -/
theorem fillPartition_words {v b off : Nat} {c : Codebook} {l : Lookup} (hv : v ∈ j.active) (hl : c.lookup = some l)
    (hd : 1 ≤ c.dim) (ws : List (List Bool × Nat)) : ∀ {fuel k : Nat} {s : State}, s.cb.find b = some c →
    VecWritten s j.base (j.nvec * j.len) → codewordsOf c ws = true →
    (∀ w ∈ ws, (l.val.getD w.2 []).length = c.dim) → ws.length ≤ fuel →
    k + ws.length * c.dim < j.res.psize + c.dim → off + k + ws.length * c.dim ≤ j.lvec →
    packetHas s (ws.flatMap Prod.fst) = true →
    fillPartition j b v off fuel k s = fillPartition j b v off (fuel - ws.length) (k + ws.length * c.dim)
      (afterWords j l v (off + k) ws s) := by
  induction ws with
  | nil => intro fuel k s _ _ _ _ _ _ _ _; simp [afterWords, addAll, advance]
  | cons w ws ih =>
    intro fuel k s hb hw hc hrow hf h1 h3 hs
    obtain ⟨fuel, rfl⟩ : ∃ f, fuel = f + 1 := ⟨fuel - 1, by simp at hf; omega⟩
    simp only [codewordsOf, List.all_cons, Bool.and_eq_true, decide_eq_true_eq] at hc
    rw [List.forall_mem_cons] at hrow
    simp only [List.length_cons, Nat.add_mul, Nat.one_mul] at hf h1 h3
    rw [List.flatMap_cons, packetHas_append] at hs
    rw [fillPartition, if_pos (by omega), bind_of_ok (vectorDecode_run hb hl hs.1 hc.1)]
    simp only [entryVector_getD hrow.1 hd]
    have hw1 : VecWritten (advance s w.1.length) j.base (j.nvec * j.len) := hw
    rw [bind_of_ok (addValues_run hv _ hw1 (by rw [hrow.1]; omega)), hrow.1]
    have := ih (fuel := fuel) (k := k + c.dim)
      (s := { advance s w.1.length with
        vec := addAll j.f32 s.vec ((l.val.getD w.2 []).mapIdx fun m y => (j.target v (off + k + m), y)) })
      hb (vecWritten_addAll (s := advance s w.1.length) hw1) hc.2 hrow.2 (by omega) (by omega) (by omega) hs.2
    refine this.trans ?_
    unfold afterWords
    rw [List.flatMap_cons, List.flatMap_cons, List.mapIdx_append, addAll_append, hrow.1]
    simp only [List.length_append, advance, Nat.add_assoc, Nat.add_comm c.dim, List.length_cons, Nat.add_mul,
      Nat.one_mul, Nat.add_sub_add_right]

/-- `DecodePartition` on codewords that do not overfill the partition (R80): it goes on after them. -/
theorem decodePartition_words {v b off : Nat} {c : Codebook} {l : Lookup} {ws : List (List Bool × Nat)} {s : State}
    (hv : v ∈ j.active) (hb : s.cb.find b = some c) (hl : c.lookup = some l) (hws : vectorsOf c ws = true)
    (hw : VecWritten s j.base (j.nvec * j.len)) (h1 : ws.length * c.dim < j.res.psize + c.dim)
    (h3 : off + ws.length * c.dim ≤ j.lvec) (hs : packetHas s (ws.flatMap Prod.fst) = true) :
    decodePartition j b v off s = fillPartition j b v off (j.res.psize - ws.length) (ws.length * c.dim)
      (afterWords j l v off ws s) := by
  simp only [vectorsOf, hl, Bool.and_eq_true, decide_eq_true_eq, List.all_eq_true] at hws
  obtain ⟨⟨hd, hcw⟩, hrow⟩ := hws
  have hlen : ws.length ≤ j.res.psize := by
    cases e : ws.length with
    | zero => omega
    | succ n =>
      rw [e, Nat.add_mul] at h1
      have : n ≤ n * c.dim := Nat.le_mul_of_pos_right _ hd
      omega
  rw [decodePartition, bind_of_ok (by rw [codebookAt_run, hb]), bind_raiseIf_false (by simp [hl]),
    fillPartition_words hv hl hd _ hb hw hcw hrow hlen (by omega) (by omega) hs, Nat.zero_add, Nat.add_zero]

/-- One partition of one vector in one pass, on the codewords of a trace (R80). -/
theorem runs_fill {pass p v : Nat} (hv : v ∈ j.active) :
    Runs j cb dc words (stepCmd j dc words (.fill pass p v)) [.fill pass p v] () where
  ok s hr hok hs := by
    have h := hok _ List.mem_cons_self
    unfold stepOk at h
    have hbits : traceBits words [.fill pass p v] = (words (.fill pass p v)).flatMap Prod.fst := by simp [traceBits]
    rw [hbits] at hs
    simp only at h
    cases hb : passBook j.res (partitionClass j.res dc words p v) pass with
    | none =>
      simp only [hb, List.isEmpty_iff] at h
      simp [stepCmd, hb, afterSteps, tracedAdds, stepAdds, hbits, h, addAll, advance]
    | some b =>
      simp only [hb] at h
      cases hc : cb.find b with
      | none => simp [hc] at h
      | some c =>
        simp only [hc, Bool.and_eq_true, decide_eq_true_eq] at h
        obtain ⟨h, h1, h2, h3⟩ := h
        cases hl : c.lookup with
        | none => simp [vectorsOf, hl] at h
        | some l =>
          have hcb : s.cb.find b = some c := by rw [hr.1, hc]
          simp only [stepCmd, hb]
          rw [decodePartition_words hv hcb hl h hr.2 h1 h3 hs, fillPartition_full h2]
          simp [afterWords, afterSteps, tracedAdds, stepAdds, hb, traceValues, hc, hl, hbits]
  stops s before step rest x t he hr hok hs hx := by
    obtain ⟨rfl, rfl⟩ := eq_nil_of_singleton he
    exact hx

/-! Groups, passes, and the core -/

/-- The digits of a class codeword, most significant first (R81). -/
theorem classDigits_eq (classes n : Nat) : ∀ (temp : Nat) (acc : List Nat),
    classDigits classes n temp acc = (List.range n).map (fun i => temp / classes ^ (n - 1 - i) % classes) ++ acc := by
  induction n with
  | zero => intro _ _; rfl
  | succ n ih =>
    intro temp acc
    rw [classDigits, ih, List.range_succ, List.map_append, List.append_assoc]
    congr 1
    · apply List.map_congr_left
      intro i hi
      have := List.mem_range.1 hi
      rw [Nat.div_div_eq_div_mul, show n + 1 - 1 - i = n - 1 - i + 1 by omega, Nat.pow_succ, Nat.mul_comm]
    · simp

/-- The classes of a vector's first n partitions (R81). -/
def classesUpTo (j : ResidueJob) (dc : Nat) (words : StepWords) (n v : Nat) : List Nat :=
  (List.range n).map fun p => partitionClass j.res dc words p v

/-- The classification of a group appends its partitions' classes (R81). -/
theorem classesUpTo_group {g v parts : Nat} (hd : 1 ≤ dc) :
    classesUpTo j dc words (min (g * dc) parts) v
      ++ (classDigits j.res.classes dc (classEntry words g v) []).take (parts - g * dc)
      = classesUpTo j dc words (min ((g + 1) * dc) parts) v := by
  rw [classDigits_eq, List.append_nil]
  have hg : (g + 1) * dc = g * dc + dc := Nat.succ_mul g dc
  rcases Nat.lt_or_ge (g * dc) parts with h | h
  · rw [Nat.min_eq_left (Nat.le_of_lt h)]
    apply List.ext_getElem
    · simp [classesUpTo]; omega
    · intro i h1 h2
      simp only [classesUpTo, List.length_map, List.length_range] at h2
      rcases Nat.lt_or_ge i (g * dc) with hi | hi
      · rw [List.getElem_append_left (by simpa [classesUpTo] using hi)]
        simp [classesUpTo]
      · rw [List.getElem_append_right (by simpa [classesUpTo] using hi)]
        obtain ⟨k, rfl⟩ := Nat.exists_eq_add_of_le hi
        have hk : k < dc := by omega
        have e1 : (g * dc + k) / dc = g := by
          rw [Nat.mul_comm, Nat.mul_add_div hd, Nat.div_eq_of_lt hk, Nat.add_zero]
        have e2 : (g * dc + k) % dc = k := by
          rw [Nat.mul_comm, Nat.mul_add_mod, Nat.mod_eq_of_lt hk]
        simp only [classesUpTo, List.length_map, List.length_range, List.getElem_take, List.getElem_map,
          List.getElem_range, partitionClass, e1, e2, Nat.add_sub_cancel_left]
        unfold classEntry
        cases words (.classify g v) <;> simp
  · rw [Nat.min_eq_right h, Nat.min_eq_right (by omega), Nat.sub_eq_zero_of_le h, List.take_zero, List.append_nil]

theorem getD_classesUpTo {n p v : Nat} (h : p < n) :
    (classesUpTo j dc words n v).getD p 0 = partitionClass j.res dc words p v := by
  simp [classesUpTo, h]

/-- A residue in the ranges of R28 has a book exactly where a cascade mask has a bit (R79). -/
theorem decodeVectorPartition_eq (hx : j.res.wellFormed = true) {pass p v : Nat} {known : List Nat}
    (hk : known.getD p 0 = partitionClass j.res dc words p v) (hp : pass < 8)
    (hc : partitionClass j.res dc words p v < j.res.classes) :
    decodeVectorPartition j pass p (v, known) = stepCmd j dc words (.fill pass p v) := by
  unfold Residue.wellFormed at hx
  simp only [Bool.and_eq_true, decide_eq_true_eq, List.all_eq_true] at hx
  obtain ⟨⟨-, -, -, -, -, -, -, -, hl1, hl2⟩, hz⟩ := hx
  unfold decodeVectorPartition stepCmd passBook
  simp only [hk]
  generalize partitionClass j.res dc words p v = c at *
  have h1 : c < j.res.cascade.length := by omega
  have h2 : c < j.res.books.length := by omega
  have hrow : classBooksOk (j.res.cascade.getD c 0) (j.res.books.getD c []) = true := by
    have := hz _ (List.getElem_mem (l := List.zipWith classBooksOk j.res.cascade j.res.books) (n := c) (by simp; omega))
    rw [List.getElem_zipWith] at this
    rw [List.getD_eq_getElem?_getD, List.getD_eq_getElem?_getD, List.getElem?_eq_getElem h1,
      List.getElem?_eq_getElem h2]
    exact this
  split
  · rename_i hbit
    cases hb : (j.res.books.getD c []).getD pass none with
    | some b => rfl
    | none =>
      exfalso
      unfold classBooksOk at hrow
      rw [Bool.and_eq_true, List.all_eq_true] at hrow
      have := hrow.2 pass (List.mem_range.2 hp)
      rw [hb] at this
      simp only [hbit, Bool.not_true, Bool.false_eq_true] at this
  · rfl

theorem partitionClass_lt (hx : j.res.wellFormed = true) (p v : Nat) :
    partitionClass j.res dc words p v < j.res.classes := by
  unfold Residue.wellFormed at hx
  simp only [Bool.and_eq_true, decide_eq_true_eq] at hx
  have : 0 < j.res.classes := by omega
  unfold partitionClass
  split
  · exact this
  · exact Nat.mod_lt _ this

/-- The partitions of one group in one pass (R81). -/
theorem runs_decodeGroup (hx : j.res.wellFormed = true) {pass : Nat} (hp : pass < 8) {known : Nat → List Nat}
    {ps : List Nat} (hk : ∀ p ∈ ps, ∀ v, (known v).getD p 0 = partitionClass j.res dc words p v) :
    Runs j cb dc words (decodeGroup j pass (j.active.map known) ps)
      (ps.flatMap fun p => j.active.map (.fill pass p)) () := by
  induction ps with
  | nil => exact Runs.pure ()
  | cons p ps ih =>
    rw [List.forall_mem_cons] at hk
    have hz : j.active.zip (j.active.map known) = j.active.map fun v => (v, known v) := by
      generalize j.active = vs
      induction vs with
      | nil => rfl
      | cons v vs ih => simp [ih]
    have one : Runs j cb dc words (forEach (decodeVectorPartition j pass p) (j.active.zip (j.active.map known)))
        (j.active.map (.fill pass p)) ((j.active.map fun v => (v, known v)).map fun _ => ()) := by
      rw [hz]
      refine (Runs.forEach (st := fun vk => [.fill pass p vk.1]) (val := fun _ => ()) fun vk hvk => ?_).cast ?_ rfl
      · obtain ⟨v, hv, rfl⟩ := List.mem_map.1 hvk
        rw [decodeVectorPartition_eq hx (hk.1 v) hp (partitionClass_lt hx p v)]
        exact runs_fill hv
      · simp [List.flatMap_map, ← List.map_eq_flatMap]
    rw [List.flatMap_cons]
    exact Runs.bind one (ih hk.2)

/-- One pass from group g on, the classes known up to there in pass 0 and all of them after it (R81). -/
theorem runs_decodePass (hx : j.res.wellFormed = true) {parts pass groups : Nat} (hp : pass < 8)
    (hd : 0 < parts → 1 ≤ dc) (hG : ∀ g, g * dc < parts ↔ g < groups) (m : Nat) : ∀ {g fuel : Nat}, g + m = groups →
    m ≤ fuel →
    Runs j cb dc words
      (decodePass j dc parts pass fuel (g * dc)
        (j.active.map (classesUpTo j dc words (if pass = 0 then min (g * dc) parts else parts))))
      ((List.range' g m).flatMap (groupSteps j.active dc parts pass))
      (j.active.map (classesUpTo j dc words parts)) := by
  induction m with
  | zero =>
    intro g fuel hg _
    have hge : ¬ g * dc < parts := fun h => by have := (hG g).1 h; omega
    have hcls : (if pass = 0 then min (g * dc) parts else parts) = parts := by split <;> omega
    rw [hcls]
    cases fuel with
    | zero => exact Runs.pure _
    | succ f => rw [decodePass, if_neg hge]; exact Runs.pure _
  | succ m ih =>
    intro g fuel hg hf
    obtain ⟨fuel, rfl⟩ : ∃ f, fuel = f + 1 := ⟨fuel - 1, by omega⟩
    have hlt : g * dc < parts := (hG g).2 (by omega)
    have hd1 := hd (by omega)
    have hs : (g + 1) * dc = g * dc + dc := Nat.succ_mul g dc
    rw [decodePass, if_pos hlt, List.range'_succ, List.flatMap_cons]
    have rest := ih (g := g + 1) (fuel := fuel) (by omega) (by omega)
    rw [hs] at rest
    have group : ∀ n, min ((g + 1) * dc) parts ≤ n → Runs j cb dc words
        (decodeGroup j pass (j.active.map (classesUpTo j dc words n)) (List.range' (g * dc) (min dc (parts - g * dc))))
        ((groupPartitions dc parts g).flatMap fun p => j.active.map (.fill pass p)) () := fun n hn =>
      runs_decodeGroup hx hp fun p hpm v => getD_classesUpTo (by
        have := List.mem_range'_1.1 hpm
        omega)
    by_cases h0 : pass = 0
    · subst h0
      simp only [if_true] at rest ⊢
      have cls : Runs j cb dc words (classify j dc (parts - g * dc) (j.active.map
            (classesUpTo j dc words (min (g * dc) parts)))) (j.active.map (.classify g))
          (j.active.map (classesUpTo j dc words (min (g * dc + dc) parts))) := by
        have key : ∀ as : List Nat, Runs j cb dc words (classify j dc (parts - g * dc) (as.map
            (classesUpTo j dc words (min (g * dc) parts)))) (as.map (.classify g))
            (as.map (classesUpTo j dc words (min (g * dc + dc) parts))) := by
          intro as
          unfold classify
          induction as with
          | nil => exact Runs.pure _
          | cons v as ih =>
            rw [List.map_cons, List.map_cons, List.map_cons, ← hs, ← classesUpTo_group hd1]
            rw [← hs] at ih
            exact Runs.bind (runs_classify (fun temp => classesUpTo j dc words (min (g * dc) parts) v
              ++ (classDigits j.res.classes dc temp []).take (parts - g * dc)) g v) (Runs.map (_ :: ·) ih)
        exact key _
      have hg0 : groupSteps j.active dc parts 0 g = j.active.map (.classify g)
          ++ (groupPartitions dc parts g).flatMap fun p => j.active.map (.fill 0 p) := rfl
      rw [hg0, List.append_assoc]
      exact Runs.bind cls (Runs.bind (group _ (by omega)) rest)
    · simp only [h0, if_false] at rest ⊢
      have hg0 : groupSteps j.active dc parts pass g = []
          ++ (groupPartitions dc parts g).flatMap fun p => j.active.map (.fill pass p) := by
        simp [groupSteps, h0]
      rw [hg0, List.append_assoc]
      exact Runs.bind (Runs.pure _) (Runs.bind (group _ (by omega)) rest)

/-- The passes of R81 after pass 0. -/
theorem runs_decodePasses (hx : j.res.wellFormed = true) {parts groups : Nat} (hd : 0 < parts → 1 ≤ dc)
    (hG : ∀ g, g * dc < parts ↔ g < groups) (hf : groups ≤ parts) (passes : List Nat) :
    (∀ pass ∈ passes, pass < 8 ∧ pass ≠ 0) →
    Runs j cb dc words (decodePasses j dc parts passes (j.active.map (classesUpTo j dc words parts)))
      (passes.flatMap fun pass => (List.range groups).flatMap (groupSteps j.active dc parts pass)) () := by
  induction passes with
  | nil => intro _; exact Runs.pure ()
  | cons pass rest ih =>
    intro h
    rw [List.forall_mem_cons] at h
    have one := runs_decodePass (cb := cb) (words := words) hx h.1.1 hd hG groups (g := 0) (fuel := parts) (by omega) hf
    simp only [h.1.2, if_false, Nat.zero_mul, ← List.range_eq_range'] at one
    rw [List.flatMap_cons]
    exact Runs.bind one (ih h.2)

/-- `DecodeCore` runs the places of `residueSteps` (R81). -/
theorem runs_decodeCore (hx : j.res.wellFormed = true) {cc : Codebook} (hcc : cb.find j.res.classbook = some cc)
    (hd : 0 < (j.res.stop - j.res.begin) / j.res.psize → 1 ≤ cc.dim) :
    Runs j cb cc.dim words (decodeCore j)
      (residueSteps j.active cc.dim ((j.res.stop - j.res.begin) / j.res.psize)) () := by
  unfold decodeCore
  generalize (j.res.stop - j.res.begin) / j.res.psize = parts at *
  simp only
  have hG : ∀ g, g * cc.dim < parts ↔ g < (parts + cc.dim - 1) / cc.dim := fun g => by
    rcases Nat.eq_zero_or_pos cc.dim with h0 | h0
    · have : parts = 0 := by omega
      simp [h0, this]
    · rw [Nat.lt_iff_add_one_le (m := g), Nat.le_div_iff_mul_le h0, Nat.add_mul]
      omega
  have hf : (parts + cc.dim - 1) / cc.dim ≤ parts := by
    by_contra h
    have := (hG parts).2 (by omega)
    rcases Nat.eq_zero_or_pos parts with h0 | h0
    · omega
    · have := Nat.le_mul_of_pos_right parts (hd h0)
      omega
  refine Runs.codebookAt hcc (Runs.cast (Runs.bind (s1 := []) (a := ()) ?_ ?_) (List.nil_append _) rfl)
  · rw [show decide (0 < parts ∧ cc.dim = 0) = false by simp; intro h; have := hd h; omega]
    exact Runs.pure ()
  have one := runs_decodePass (cb := cb) (words := words) (pass := 0) hx (by omega) hd hG _ (g := 0) (fuel := parts)
    (by omega) hf
  simp only [if_true, Nat.zero_mul, Nat.zero_min, ← List.range_eq_range'] at one
  have more := runs_decodePasses (cb := cb) (words := words) hx hd hG hf [1, 2, 3, 4, 5, 6, 7] (by decide)
  exact Runs.bind one more

end Sys2Proof.Machine
end

