-- ==== Sys2Proof/Laws/State.lean ====
section
/-!
SUPPORT. One lemma per field and per named update of State, and the canonical form of the storage under each of them.
-/

namespace Sys2Proof.Machine

/-! `setResult` -/

@[simp] theorem setResult_arg0 (v : Word) (s : State) : (setResult v s).arg0 = s.arg0 := rfl
@[simp] theorem setResult_arg1 (v : Word) (s : State) : (setResult v s).arg1 = s.arg1 := rfl
@[simp] theorem setResult_result (v : Word) (s : State) : (setResult v s).result = v := rfl
@[simp] theorem setResult_silent (v : Word) (s : State) : (setResult v s).silent = s.silent := rfl
@[simp] theorem setResult_busy (v : Word) (s : State) : (setResult v s).busy = s.busy := rfl
@[simp] theorem setResult_err (v : Word) (s : State) : (setResult v s).err = s.err := rfl
@[simp] theorem setResult_errcode (v : Word) (s : State) : (setResult v s).errcode = s.errcode := rfl
@[simp] theorem setResult_errop (v : Word) (s : State) : (setResult v s).errop = s.errop := rfl
@[simp] theorem setResult_bitpos (v : Word) (s : State) : (setResult v s).bitpos = s.bitpos := rfl
@[simp] theorem setResult_pktlen (v : Word) (s : State) : (setResult v s).pktlen = s.pktlen := rfl
@[simp] theorem setResult_pcmcount (v : Word) (s : State) : (setResult v s).pcmcount = s.pcmcount := rfl
@[simp] theorem setResult_cfgState (v : Word) (s : State) : (setResult v s).cfgState = s.cfgState := rfl
@[simp] theorem setResult_cb (v : Word) (s : State) : (setResult v s).cb = s.cb := rfl
@[simp] theorem setResult_res (v : Word) (s : State) : (setResult v s).res = s.res := rfl
@[simp] theorem setResult_cbCount (v : Word) (s : State) : (setResult v s).cbCount = s.cbCount := rfl
@[simp] theorem setResult_resCount (v : Word) (s : State) : (setResult v s).resCount = s.resCount := rfl
@[simp] theorem setResult_synValid (v : Word) (s : State) : (setResult v s).synValid = s.synValid := rfl
@[simp] theorem setResult_e0 (v : Word) (s : State) : (setResult v s).e0 = s.e0 := rfl
@[simp] theorem setResult_e1 (v : Word) (s : State) : (setResult v s).e1 = s.e1 := rfl
@[simp] theorem setResult_lapValid (v : Word) (s : State) : (setResult v s).lapValid = s.lapValid := rfl
@[simp] theorem setResult_tailLen (v : Word) (s : State) : (setResult v s).tailLen = s.tailLen := rfl
@[simp] theorem setResult_tail (v : Word) (s : State) : (setResult v s).tail = s.tail := rfl
@[simp] theorem setResult_pkt (v : Word) (s : State) : (setResult v s).pkt = s.pkt := rfl
@[simp] theorem setResult_vec (v : Word) (s : State) : (setResult v s).vec = s.vec := rfl
@[simp] theorem setResult_pcm (v : Word) (s : State) : (setResult v s).pcm = s.pcm := rfl
@[simp] theorem setResult_basis (v : Word) (s : State) : (setResult v s).basis = s.basis := rfl
@[simp] theorem setResult_params (v : Word) (s : State) : (setResult v s).params = s.params := rfl
@[simp] theorem setResult_raced (v : Word) (s : State) : (setResult v s).raced = s.raced := rfl
@[simp] theorem setResult_inReset (v : Word) (s : State) : (setResult v s).inReset = s.inReset := rfl
@[simp] theorem setResult_pending (v : Word) (s : State) : (setResult v s).pending = s.pending := rfl
@[simp] theorem setResult_response (v : Word) (s : State) : (setResult v s).response = s.response := rfl
@[simp] theorem setResult_stall (v : Word) (s : State) : (setResult v s).stall = s.stall := rfl
@[simp] theorem setResult_draws (v : Word) (s : State) : (setResult v s).draws = s.draws := rfl

/-! `storeVec` -/

@[simp] theorem storeVec_arg0 (s : State) (w : Nat) (xs : List Word) : (storeVec s w xs).arg0 = s.arg0 := rfl
@[simp] theorem storeVec_arg1 (s : State) (w : Nat) (xs : List Word) : (storeVec s w xs).arg1 = s.arg1 := rfl
@[simp] theorem storeVec_result (s : State) (w : Nat) (xs : List Word) : (storeVec s w xs).result = s.result := rfl
@[simp] theorem storeVec_silent (s : State) (w : Nat) (xs : List Word) : (storeVec s w xs).silent = s.silent := rfl
@[simp] theorem storeVec_busy (s : State) (w : Nat) (xs : List Word) : (storeVec s w xs).busy = s.busy := rfl
@[simp] theorem storeVec_err (s : State) (w : Nat) (xs : List Word) : (storeVec s w xs).err = s.err := rfl
@[simp] theorem storeVec_errcode (s : State) (w : Nat) (xs : List Word) : (storeVec s w xs).errcode = s.errcode := rfl
@[simp] theorem storeVec_errop (s : State) (w : Nat) (xs : List Word) : (storeVec s w xs).errop = s.errop := rfl
@[simp] theorem storeVec_bitpos (s : State) (w : Nat) (xs : List Word) : (storeVec s w xs).bitpos = s.bitpos := rfl
@[simp] theorem storeVec_pktlen (s : State) (w : Nat) (xs : List Word) : (storeVec s w xs).pktlen = s.pktlen := rfl
@[simp] theorem storeVec_pcmcount (s : State) (w : Nat) (xs : List Word) :
    (storeVec s w xs).pcmcount = s.pcmcount := rfl
@[simp] theorem storeVec_cfgState (s : State) (w : Nat) (xs : List Word) :
    (storeVec s w xs).cfgState = s.cfgState := rfl
@[simp] theorem storeVec_cb (s : State) (w : Nat) (xs : List Word) : (storeVec s w xs).cb = s.cb := rfl
@[simp] theorem storeVec_res (s : State) (w : Nat) (xs : List Word) : (storeVec s w xs).res = s.res := rfl
@[simp] theorem storeVec_cbCount (s : State) (w : Nat) (xs : List Word) : (storeVec s w xs).cbCount = s.cbCount := rfl
@[simp] theorem storeVec_resCount (s : State) (w : Nat) (xs : List Word) :
    (storeVec s w xs).resCount = s.resCount := rfl
@[simp] theorem storeVec_synValid (s : State) (w : Nat) (xs : List Word) :
    (storeVec s w xs).synValid = s.synValid := rfl
@[simp] theorem storeVec_e0 (s : State) (w : Nat) (xs : List Word) : (storeVec s w xs).e0 = s.e0 := rfl
@[simp] theorem storeVec_e1 (s : State) (w : Nat) (xs : List Word) : (storeVec s w xs).e1 = s.e1 := rfl
@[simp] theorem storeVec_lapValid (s : State) (w : Nat) (xs : List Word) :
    (storeVec s w xs).lapValid = s.lapValid := rfl
@[simp] theorem storeVec_tailLen (s : State) (w : Nat) (xs : List Word) : (storeVec s w xs).tailLen = s.tailLen := rfl
@[simp] theorem storeVec_tail (s : State) (w : Nat) (xs : List Word) : (storeVec s w xs).tail = s.tail := rfl
@[simp] theorem storeVec_pkt (s : State) (w : Nat) (xs : List Word) : (storeVec s w xs).pkt = s.pkt := rfl
@[simp] theorem storeVec_vec (s : State) (w : Nat) (xs : List Word) : (storeVec s w xs).vec = s.vec.store w xs := rfl
@[simp] theorem storeVec_pcm (s : State) (w : Nat) (xs : List Word) : (storeVec s w xs).pcm = s.pcm := rfl
@[simp] theorem storeVec_basis (s : State) (w : Nat) (xs : List Word) : (storeVec s w xs).basis = s.basis := rfl
@[simp] theorem storeVec_params (s : State) (w : Nat) (xs : List Word) : (storeVec s w xs).params = s.params := rfl
@[simp] theorem storeVec_raced (s : State) (w : Nat) (xs : List Word) : (storeVec s w xs).raced = s.raced := rfl
@[simp] theorem storeVec_inReset (s : State) (w : Nat) (xs : List Word) : (storeVec s w xs).inReset = s.inReset := rfl
@[simp] theorem storeVec_pending (s : State) (w : Nat) (xs : List Word) : (storeVec s w xs).pending = s.pending := rfl
@[simp] theorem storeVec_response (s : State) (w : Nat) (xs : List Word) :
    (storeVec s w xs).response = s.response := rfl
@[simp] theorem storeVec_stall (s : State) (w : Nat) (xs : List Word) : (storeVec s w xs).stall = s.stall := rfl
@[simp] theorem storeVec_draws (s : State) (w : Nat) (xs : List Word) : (storeVec s w xs).draws = s.draws := rfl

/-! `storePcm` -/

@[simp] theorem storePcm_arg0 (s : State) (w : Nat) (xs : List Word) : (storePcm s w xs).arg0 = s.arg0 := rfl
@[simp] theorem storePcm_arg1 (s : State) (w : Nat) (xs : List Word) : (storePcm s w xs).arg1 = s.arg1 := rfl
@[simp] theorem storePcm_result (s : State) (w : Nat) (xs : List Word) : (storePcm s w xs).result = s.result := rfl
@[simp] theorem storePcm_silent (s : State) (w : Nat) (xs : List Word) : (storePcm s w xs).silent = s.silent := rfl
@[simp] theorem storePcm_busy (s : State) (w : Nat) (xs : List Word) : (storePcm s w xs).busy = s.busy := rfl
@[simp] theorem storePcm_err (s : State) (w : Nat) (xs : List Word) : (storePcm s w xs).err = s.err := rfl
@[simp] theorem storePcm_errcode (s : State) (w : Nat) (xs : List Word) : (storePcm s w xs).errcode = s.errcode := rfl
@[simp] theorem storePcm_errop (s : State) (w : Nat) (xs : List Word) : (storePcm s w xs).errop = s.errop := rfl
@[simp] theorem storePcm_bitpos (s : State) (w : Nat) (xs : List Word) : (storePcm s w xs).bitpos = s.bitpos := rfl
@[simp] theorem storePcm_pktlen (s : State) (w : Nat) (xs : List Word) : (storePcm s w xs).pktlen = s.pktlen := rfl
@[simp] theorem storePcm_pcmcount (s : State) (w : Nat) (xs : List Word) :
    (storePcm s w xs).pcmcount = s.pcmcount := rfl
@[simp] theorem storePcm_cfgState (s : State) (w : Nat) (xs : List Word) :
    (storePcm s w xs).cfgState = s.cfgState := rfl
@[simp] theorem storePcm_cb (s : State) (w : Nat) (xs : List Word) : (storePcm s w xs).cb = s.cb := rfl
@[simp] theorem storePcm_res (s : State) (w : Nat) (xs : List Word) : (storePcm s w xs).res = s.res := rfl
@[simp] theorem storePcm_cbCount (s : State) (w : Nat) (xs : List Word) : (storePcm s w xs).cbCount = s.cbCount := rfl
@[simp] theorem storePcm_resCount (s : State) (w : Nat) (xs : List Word) :
    (storePcm s w xs).resCount = s.resCount := rfl
@[simp] theorem storePcm_synValid (s : State) (w : Nat) (xs : List Word) :
    (storePcm s w xs).synValid = s.synValid := rfl
@[simp] theorem storePcm_e0 (s : State) (w : Nat) (xs : List Word) : (storePcm s w xs).e0 = s.e0 := rfl
@[simp] theorem storePcm_e1 (s : State) (w : Nat) (xs : List Word) : (storePcm s w xs).e1 = s.e1 := rfl
@[simp] theorem storePcm_lapValid (s : State) (w : Nat) (xs : List Word) :
    (storePcm s w xs).lapValid = s.lapValid := rfl
@[simp] theorem storePcm_tailLen (s : State) (w : Nat) (xs : List Word) : (storePcm s w xs).tailLen = s.tailLen := rfl
@[simp] theorem storePcm_tail (s : State) (w : Nat) (xs : List Word) : (storePcm s w xs).tail = s.tail := rfl
@[simp] theorem storePcm_pkt (s : State) (w : Nat) (xs : List Word) : (storePcm s w xs).pkt = s.pkt := rfl
@[simp] theorem storePcm_vec (s : State) (w : Nat) (xs : List Word) : (storePcm s w xs).vec = s.vec := rfl
@[simp] theorem storePcm_pcm (s : State) (w : Nat) (xs : List Word) : (storePcm s w xs).pcm = s.pcm.store w xs := rfl
@[simp] theorem storePcm_basis (s : State) (w : Nat) (xs : List Word) : (storePcm s w xs).basis = s.basis := rfl
@[simp] theorem storePcm_params (s : State) (w : Nat) (xs : List Word) : (storePcm s w xs).params = s.params := rfl
@[simp] theorem storePcm_raced (s : State) (w : Nat) (xs : List Word) : (storePcm s w xs).raced = s.raced := rfl
@[simp] theorem storePcm_inReset (s : State) (w : Nat) (xs : List Word) : (storePcm s w xs).inReset = s.inReset := rfl
@[simp] theorem storePcm_pending (s : State) (w : Nat) (xs : List Word) : (storePcm s w xs).pending = s.pending := rfl
@[simp] theorem storePcm_response (s : State) (w : Nat) (xs : List Word) :
    (storePcm s w xs).response = s.response := rfl
@[simp] theorem storePcm_stall (s : State) (w : Nat) (xs : List Word) : (storePcm s w xs).stall = s.stall := rfl
@[simp] theorem storePcm_draws (s : State) (w : Nat) (xs : List Word) : (storePcm s w xs).draws = s.draws := rfl

/-! `clearError` -/

@[simp] theorem clearError_arg0 (s : State) : (clearError s).arg0 = s.arg0 := rfl
@[simp] theorem clearError_arg1 (s : State) : (clearError s).arg1 = s.arg1 := rfl
@[simp] theorem clearError_result (s : State) : (clearError s).result = s.result := rfl
@[simp] theorem clearError_silent (s : State) : (clearError s).silent = s.silent := rfl
@[simp] theorem clearError_busy (s : State) : (clearError s).busy = s.busy := rfl
@[simp] theorem clearError_err (s : State) : (clearError s).err = false := rfl
@[simp] theorem clearError_errcode (s : State) : (clearError s).errcode = 0 := rfl
@[simp] theorem clearError_errop (s : State) : (clearError s).errop = 0 := rfl
@[simp] theorem clearError_bitpos (s : State) : (clearError s).bitpos = s.bitpos := rfl
@[simp] theorem clearError_pktlen (s : State) : (clearError s).pktlen = s.pktlen := rfl
@[simp] theorem clearError_pcmcount (s : State) : (clearError s).pcmcount = s.pcmcount := rfl
@[simp] theorem clearError_cfgState (s : State) : (clearError s).cfgState = s.cfgState := rfl
@[simp] theorem clearError_cb (s : State) : (clearError s).cb = s.cb := rfl
@[simp] theorem clearError_res (s : State) : (clearError s).res = s.res := rfl
@[simp] theorem clearError_cbCount (s : State) : (clearError s).cbCount = s.cbCount := rfl
@[simp] theorem clearError_resCount (s : State) : (clearError s).resCount = s.resCount := rfl
@[simp] theorem clearError_synValid (s : State) : (clearError s).synValid = s.synValid := rfl
@[simp] theorem clearError_e0 (s : State) : (clearError s).e0 = s.e0 := rfl
@[simp] theorem clearError_e1 (s : State) : (clearError s).e1 = s.e1 := rfl
@[simp] theorem clearError_lapValid (s : State) : (clearError s).lapValid = s.lapValid := rfl
@[simp] theorem clearError_tailLen (s : State) : (clearError s).tailLen = s.tailLen := rfl
@[simp] theorem clearError_tail (s : State) : (clearError s).tail = s.tail := rfl
@[simp] theorem clearError_pkt (s : State) : (clearError s).pkt = s.pkt := rfl
@[simp] theorem clearError_vec (s : State) : (clearError s).vec = s.vec := rfl
@[simp] theorem clearError_pcm (s : State) : (clearError s).pcm = s.pcm := rfl
@[simp] theorem clearError_basis (s : State) : (clearError s).basis = s.basis := rfl
@[simp] theorem clearError_params (s : State) : (clearError s).params = s.params := rfl
@[simp] theorem clearError_raced (s : State) : (clearError s).raced = s.raced := rfl
@[simp] theorem clearError_inReset (s : State) : (clearError s).inReset = s.inReset := rfl
@[simp] theorem clearError_pending (s : State) : (clearError s).pending = s.pending := rfl
@[simp] theorem clearError_response (s : State) : (clearError s).response = s.response := rfl
@[simp] theorem clearError_stall (s : State) : (clearError s).stall = s.stall := rfl
@[simp] theorem clearError_draws (s : State) : (clearError s).draws = s.draws := rfl

/-! `breakConfig` -/

@[simp] theorem breakConfig_arg0 (s : State) : (breakConfig s).arg0 = s.arg0 := rfl
@[simp] theorem breakConfig_arg1 (s : State) : (breakConfig s).arg1 = s.arg1 := rfl
@[simp] theorem breakConfig_result (s : State) : (breakConfig s).result = s.result := rfl
@[simp] theorem breakConfig_silent (s : State) : (breakConfig s).silent = s.silent := rfl
@[simp] theorem breakConfig_busy (s : State) : (breakConfig s).busy = s.busy := rfl
@[simp] theorem breakConfig_err (s : State) : (breakConfig s).err = s.err := rfl
@[simp] theorem breakConfig_errcode (s : State) : (breakConfig s).errcode = s.errcode := rfl
@[simp] theorem breakConfig_errop (s : State) : (breakConfig s).errop = s.errop := rfl
@[simp] theorem breakConfig_bitpos (s : State) : (breakConfig s).bitpos = s.bitpos := rfl
@[simp] theorem breakConfig_pktlen (s : State) : (breakConfig s).pktlen = s.pktlen := rfl
@[simp] theorem breakConfig_pcmcount (s : State) : (breakConfig s).pcmcount = s.pcmcount := rfl
@[simp] theorem breakConfig_cfgState (s : State) : (breakConfig s).cfgState = .broken := rfl
@[simp] theorem breakConfig_cb (s : State) : (breakConfig s).cb = s.cb := rfl
@[simp] theorem breakConfig_res (s : State) : (breakConfig s).res = s.res := rfl
@[simp] theorem breakConfig_cbCount (s : State) : (breakConfig s).cbCount = s.cbCount := rfl
@[simp] theorem breakConfig_resCount (s : State) : (breakConfig s).resCount = s.resCount := rfl
@[simp] theorem breakConfig_synValid (s : State) : (breakConfig s).synValid = s.synValid := rfl
@[simp] theorem breakConfig_e0 (s : State) : (breakConfig s).e0 = s.e0 := rfl
@[simp] theorem breakConfig_e1 (s : State) : (breakConfig s).e1 = s.e1 := rfl
@[simp] theorem breakConfig_lapValid (s : State) : (breakConfig s).lapValid = s.lapValid := rfl
@[simp] theorem breakConfig_tailLen (s : State) : (breakConfig s).tailLen = s.tailLen := rfl
@[simp] theorem breakConfig_tail (s : State) : (breakConfig s).tail = s.tail := rfl
@[simp] theorem breakConfig_pkt (s : State) : (breakConfig s).pkt = s.pkt := rfl
@[simp] theorem breakConfig_vec (s : State) : (breakConfig s).vec = s.vec := rfl
@[simp] theorem breakConfig_pcm (s : State) : (breakConfig s).pcm = s.pcm := rfl
@[simp] theorem breakConfig_basis (s : State) : (breakConfig s).basis = s.basis := rfl
@[simp] theorem breakConfig_params (s : State) : (breakConfig s).params = s.params := rfl
@[simp] theorem breakConfig_raced (s : State) : (breakConfig s).raced = s.raced := rfl
@[simp] theorem breakConfig_inReset (s : State) : (breakConfig s).inReset = s.inReset := rfl
@[simp] theorem breakConfig_pending (s : State) : (breakConfig s).pending = s.pending := rfl
@[simp] theorem breakConfig_response (s : State) : (breakConfig s).response = s.response := rfl
@[simp] theorem breakConfig_stall (s : State) : (breakConfig s).stall = s.stall := rfl
@[simp] theorem breakConfig_draws (s : State) : (breakConfig s).draws = s.draws := rfl

/-! `errorEntry` -/

@[simp] theorem errorEntry_arg0 (op : Byte) (reads : Bool) (start : Nat) (e : ErrorCode) (s : State) :
    (errorEntry op reads start e s).arg0 = s.arg0 := rfl
@[simp] theorem errorEntry_arg1 (op : Byte) (reads : Bool) (start : Nat) (e : ErrorCode) (s : State) :
    (errorEntry op reads start e s).arg1 = s.arg1 := rfl
@[simp] theorem errorEntry_result (op : Byte) (reads : Bool) (start : Nat) (e : ErrorCode) (s : State) :
    (errorEntry op reads start e s).result = Config.freeWord s.draws := rfl
@[simp] theorem errorEntry_silent (op : Byte) (reads : Bool) (start : Nat) (e : ErrorCode) (s : State) :
    (errorEntry op reads start e s).silent = s.silent := rfl
@[simp] theorem errorEntry_busy (op : Byte) (reads : Bool) (start : Nat) (e : ErrorCode) (s : State) :
    (errorEntry op reads start e s).busy = s.busy := rfl
@[simp] theorem errorEntry_err (op : Byte) (reads : Bool) (start : Nat) (e : ErrorCode) (s : State) :
    (errorEntry op reads start e s).err = true := rfl
@[simp] theorem errorEntry_errcode (op : Byte) (reads : Bool) (start : Nat) (e : ErrorCode) (s : State) :
    (errorEntry op reads start e s).errcode = e.code := rfl
@[simp] theorem errorEntry_errop (op : Byte) (reads : Bool) (start : Nat) (e : ErrorCode) (s : State) :
    (errorEntry op reads start e s).errop = op := rfl
@[simp] theorem errorEntry_bitpos (op : Byte) (reads : Bool) (start : Nat) (e : ErrorCode) (s : State) :
    (errorEntry op reads start e s).bitpos = if reads then start + Config.freeNat (s.draws + 1) % (8 * s.pktlen - start + 1) else s.bitpos := rfl
@[simp] theorem errorEntry_pktlen (op : Byte) (reads : Bool) (start : Nat) (e : ErrorCode) (s : State) :
    (errorEntry op reads start e s).pktlen = s.pktlen := rfl
@[simp] theorem errorEntry_pcmcount (op : Byte) (reads : Bool) (start : Nat) (e : ErrorCode) (s : State) :
    (errorEntry op reads start e s).pcmcount = s.pcmcount := rfl
@[simp] theorem errorEntry_cfgState (op : Byte) (reads : Bool) (start : Nat) (e : ErrorCode) (s : State) :
    (errorEntry op reads start e s).cfgState = s.cfgState := rfl
@[simp] theorem errorEntry_cb (op : Byte) (reads : Bool) (start : Nat) (e : ErrorCode) (s : State) :
    (errorEntry op reads start e s).cb = s.cb := rfl
@[simp] theorem errorEntry_res (op : Byte) (reads : Bool) (start : Nat) (e : ErrorCode) (s : State) :
    (errorEntry op reads start e s).res = s.res := rfl
@[simp] theorem errorEntry_cbCount (op : Byte) (reads : Bool) (start : Nat) (e : ErrorCode) (s : State) :
    (errorEntry op reads start e s).cbCount = s.cbCount := rfl
@[simp] theorem errorEntry_resCount (op : Byte) (reads : Bool) (start : Nat) (e : ErrorCode) (s : State) :
    (errorEntry op reads start e s).resCount = s.resCount := rfl
@[simp] theorem errorEntry_synValid (op : Byte) (reads : Bool) (start : Nat) (e : ErrorCode) (s : State) :
    (errorEntry op reads start e s).synValid = s.synValid := rfl
@[simp] theorem errorEntry_e0 (op : Byte) (reads : Bool) (start : Nat) (e : ErrorCode) (s : State) :
    (errorEntry op reads start e s).e0 = s.e0 := rfl
@[simp] theorem errorEntry_e1 (op : Byte) (reads : Bool) (start : Nat) (e : ErrorCode) (s : State) :
    (errorEntry op reads start e s).e1 = s.e1 := rfl
@[simp] theorem errorEntry_lapValid (op : Byte) (reads : Bool) (start : Nat) (e : ErrorCode) (s : State) :
    (errorEntry op reads start e s).lapValid = s.lapValid := rfl
@[simp] theorem errorEntry_tailLen (op : Byte) (reads : Bool) (start : Nat) (e : ErrorCode) (s : State) :
    (errorEntry op reads start e s).tailLen = s.tailLen := rfl
@[simp] theorem errorEntry_tail (op : Byte) (reads : Bool) (start : Nat) (e : ErrorCode) (s : State) :
    (errorEntry op reads start e s).tail = s.tail := rfl
@[simp] theorem errorEntry_pkt (op : Byte) (reads : Bool) (start : Nat) (e : ErrorCode) (s : State) :
    (errorEntry op reads start e s).pkt = s.pkt := rfl
@[simp] theorem errorEntry_vec (op : Byte) (reads : Bool) (start : Nat) (e : ErrorCode) (s : State) :
    (errorEntry op reads start e s).vec = s.vec := rfl
@[simp] theorem errorEntry_pcm (op : Byte) (reads : Bool) (start : Nat) (e : ErrorCode) (s : State) :
    (errorEntry op reads start e s).pcm = s.pcm := rfl
@[simp] theorem errorEntry_basis (op : Byte) (reads : Bool) (start : Nat) (e : ErrorCode) (s : State) :
    (errorEntry op reads start e s).basis = s.basis := rfl
@[simp] theorem errorEntry_params (op : Byte) (reads : Bool) (start : Nat) (e : ErrorCode) (s : State) :
    (errorEntry op reads start e s).params = s.params := rfl
@[simp] theorem errorEntry_raced (op : Byte) (reads : Bool) (start : Nat) (e : ErrorCode) (s : State) :
    (errorEntry op reads start e s).raced = s.raced := rfl
@[simp] theorem errorEntry_inReset (op : Byte) (reads : Bool) (start : Nat) (e : ErrorCode) (s : State) :
    (errorEntry op reads start e s).inReset = s.inReset := rfl
@[simp] theorem errorEntry_pending (op : Byte) (reads : Bool) (start : Nat) (e : ErrorCode) (s : State) :
    (errorEntry op reads start e s).pending = s.pending := rfl
@[simp] theorem errorEntry_response (op : Byte) (reads : Bool) (start : Nat) (e : ErrorCode) (s : State) :
    (errorEntry op reads start e s).response = s.response := rfl
@[simp] theorem errorEntry_stall (op : Byte) (reads : Bool) (start : Nat) (e : ErrorCode) (s : State) :
    (errorEntry op reads start e s).stall = s.stall := rfl
@[simp] theorem errorEntry_draws (op : Byte) (reads : Bool) (start : Nat) (e : ErrorCode) (s : State) :
    (errorEntry op reads start e s).draws = s.draws + 2 := rfl

/-! `freeVec` -/

@[simp] theorem freeVec_arg0 (w n : Nat) (s : State) : (freeVec w n s).arg0 = s.arg0 := rfl
@[simp] theorem freeVec_arg1 (w n : Nat) (s : State) : (freeVec w n s).arg1 = s.arg1 := rfl
@[simp] theorem freeVec_result (w n : Nat) (s : State) : (freeVec w n s).result = s.result := rfl
@[simp] theorem freeVec_silent (w n : Nat) (s : State) : (freeVec w n s).silent = s.silent := rfl
@[simp] theorem freeVec_busy (w n : Nat) (s : State) : (freeVec w n s).busy = s.busy := rfl
@[simp] theorem freeVec_err (w n : Nat) (s : State) : (freeVec w n s).err = s.err := rfl
@[simp] theorem freeVec_errcode (w n : Nat) (s : State) : (freeVec w n s).errcode = s.errcode := rfl
@[simp] theorem freeVec_errop (w n : Nat) (s : State) : (freeVec w n s).errop = s.errop := rfl
@[simp] theorem freeVec_bitpos (w n : Nat) (s : State) : (freeVec w n s).bitpos = s.bitpos := rfl
@[simp] theorem freeVec_pktlen (w n : Nat) (s : State) : (freeVec w n s).pktlen = s.pktlen := rfl
@[simp] theorem freeVec_pcmcount (w n : Nat) (s : State) : (freeVec w n s).pcmcount = s.pcmcount := rfl
@[simp] theorem freeVec_cfgState (w n : Nat) (s : State) : (freeVec w n s).cfgState = s.cfgState := rfl
@[simp] theorem freeVec_cb (w n : Nat) (s : State) : (freeVec w n s).cb = s.cb := rfl
@[simp] theorem freeVec_res (w n : Nat) (s : State) : (freeVec w n s).res = s.res := rfl
@[simp] theorem freeVec_cbCount (w n : Nat) (s : State) : (freeVec w n s).cbCount = s.cbCount := rfl
@[simp] theorem freeVec_resCount (w n : Nat) (s : State) : (freeVec w n s).resCount = s.resCount := rfl
@[simp] theorem freeVec_synValid (w n : Nat) (s : State) : (freeVec w n s).synValid = s.synValid := rfl
@[simp] theorem freeVec_e0 (w n : Nat) (s : State) : (freeVec w n s).e0 = s.e0 := rfl
@[simp] theorem freeVec_e1 (w n : Nat) (s : State) : (freeVec w n s).e1 = s.e1 := rfl
@[simp] theorem freeVec_lapValid (w n : Nat) (s : State) : (freeVec w n s).lapValid = s.lapValid := rfl
@[simp] theorem freeVec_tailLen (w n : Nat) (s : State) : (freeVec w n s).tailLen = s.tailLen := rfl
@[simp] theorem freeVec_tail (w n : Nat) (s : State) : (freeVec w n s).tail = s.tail := rfl
@[simp] theorem freeVec_pkt (w n : Nat) (s : State) : (freeVec w n s).pkt = s.pkt := rfl
@[simp] theorem freeVec_vec (w n : Nat) (s : State) :
    (freeVec w n s).vec = s.vec.store w ((List.range n).map fun k => Config.freeWord (s.draws + k)) := rfl
@[simp] theorem freeVec_pcm (w n : Nat) (s : State) : (freeVec w n s).pcm = s.pcm := rfl
@[simp] theorem freeVec_basis (w n : Nat) (s : State) : (freeVec w n s).basis = s.basis := rfl
@[simp] theorem freeVec_params (w n : Nat) (s : State) : (freeVec w n s).params = s.params := rfl
@[simp] theorem freeVec_raced (w n : Nat) (s : State) : (freeVec w n s).raced = s.raced := rfl
@[simp] theorem freeVec_inReset (w n : Nat) (s : State) : (freeVec w n s).inReset = s.inReset := rfl
@[simp] theorem freeVec_pending (w n : Nat) (s : State) : (freeVec w n s).pending = s.pending := rfl
@[simp] theorem freeVec_response (w n : Nat) (s : State) : (freeVec w n s).response = s.response := rfl
@[simp] theorem freeVec_stall (w n : Nat) (s : State) : (freeVec w n s).stall = s.stall := rfl
@[simp] theorem freeVec_draws (w n : Nat) (s : State) : (freeVec w n s).draws = s.draws + n := rfl

/-! `dropCodebook` -/

@[simp] theorem dropCodebook_arg0 (k : Nat) (s : State) : (dropCodebook k s).arg0 = s.arg0 := rfl
@[simp] theorem dropCodebook_arg1 (k : Nat) (s : State) : (dropCodebook k s).arg1 = s.arg1 := rfl
@[simp] theorem dropCodebook_result (k : Nat) (s : State) : (dropCodebook k s).result = s.result := rfl
@[simp] theorem dropCodebook_silent (k : Nat) (s : State) : (dropCodebook k s).silent = s.silent := rfl
@[simp] theorem dropCodebook_busy (k : Nat) (s : State) : (dropCodebook k s).busy = s.busy := rfl
@[simp] theorem dropCodebook_err (k : Nat) (s : State) : (dropCodebook k s).err = s.err := rfl
@[simp] theorem dropCodebook_errcode (k : Nat) (s : State) : (dropCodebook k s).errcode = s.errcode := rfl
@[simp] theorem dropCodebook_errop (k : Nat) (s : State) : (dropCodebook k s).errop = s.errop := rfl
@[simp] theorem dropCodebook_bitpos (k : Nat) (s : State) : (dropCodebook k s).bitpos = s.bitpos := rfl
@[simp] theorem dropCodebook_pktlen (k : Nat) (s : State) : (dropCodebook k s).pktlen = s.pktlen := rfl
@[simp] theorem dropCodebook_pcmcount (k : Nat) (s : State) : (dropCodebook k s).pcmcount = s.pcmcount := rfl
@[simp] theorem dropCodebook_cfgState (k : Nat) (s : State) : (dropCodebook k s).cfgState = .broken := rfl
@[simp] theorem dropCodebook_cb (k : Nat) (s : State) : (dropCodebook k s).cb = s.cb.erase k := rfl
@[simp] theorem dropCodebook_res (k : Nat) (s : State) : (dropCodebook k s).res = s.res := rfl
@[simp] theorem dropCodebook_cbCount (k : Nat) (s : State) : (dropCodebook k s).cbCount = s.cbCount := rfl
@[simp] theorem dropCodebook_resCount (k : Nat) (s : State) : (dropCodebook k s).resCount = s.resCount := rfl
@[simp] theorem dropCodebook_synValid (k : Nat) (s : State) : (dropCodebook k s).synValid = s.synValid := rfl
@[simp] theorem dropCodebook_e0 (k : Nat) (s : State) : (dropCodebook k s).e0 = s.e0 := rfl
@[simp] theorem dropCodebook_e1 (k : Nat) (s : State) : (dropCodebook k s).e1 = s.e1 := rfl
@[simp] theorem dropCodebook_lapValid (k : Nat) (s : State) : (dropCodebook k s).lapValid = s.lapValid := rfl
@[simp] theorem dropCodebook_tailLen (k : Nat) (s : State) : (dropCodebook k s).tailLen = s.tailLen := rfl
@[simp] theorem dropCodebook_tail (k : Nat) (s : State) : (dropCodebook k s).tail = s.tail := rfl
@[simp] theorem dropCodebook_pkt (k : Nat) (s : State) : (dropCodebook k s).pkt = s.pkt := rfl
@[simp] theorem dropCodebook_vec (k : Nat) (s : State) : (dropCodebook k s).vec = s.vec := rfl
@[simp] theorem dropCodebook_pcm (k : Nat) (s : State) : (dropCodebook k s).pcm = s.pcm := rfl
@[simp] theorem dropCodebook_basis (k : Nat) (s : State) : (dropCodebook k s).basis = s.basis := rfl
@[simp] theorem dropCodebook_params (k : Nat) (s : State) : (dropCodebook k s).params = s.params := rfl
@[simp] theorem dropCodebook_raced (k : Nat) (s : State) : (dropCodebook k s).raced = s.raced := rfl
@[simp] theorem dropCodebook_inReset (k : Nat) (s : State) : (dropCodebook k s).inReset = s.inReset := rfl
@[simp] theorem dropCodebook_pending (k : Nat) (s : State) : (dropCodebook k s).pending = s.pending := rfl
@[simp] theorem dropCodebook_response (k : Nat) (s : State) : (dropCodebook k s).response = s.response := rfl
@[simp] theorem dropCodebook_stall (k : Nat) (s : State) : (dropCodebook k s).stall = s.stall := rfl
@[simp] theorem dropCodebook_draws (k : Nat) (s : State) : (dropCodebook k s).draws = s.draws := rfl

/-! `dropResidue` -/

@[simp] theorem dropResidue_arg0 (r : Nat) (s : State) : (dropResidue r s).arg0 = s.arg0 := rfl
@[simp] theorem dropResidue_arg1 (r : Nat) (s : State) : (dropResidue r s).arg1 = s.arg1 := rfl
@[simp] theorem dropResidue_result (r : Nat) (s : State) : (dropResidue r s).result = s.result := rfl
@[simp] theorem dropResidue_silent (r : Nat) (s : State) : (dropResidue r s).silent = s.silent := rfl
@[simp] theorem dropResidue_busy (r : Nat) (s : State) : (dropResidue r s).busy = s.busy := rfl
@[simp] theorem dropResidue_err (r : Nat) (s : State) : (dropResidue r s).err = s.err := rfl
@[simp] theorem dropResidue_errcode (r : Nat) (s : State) : (dropResidue r s).errcode = s.errcode := rfl
@[simp] theorem dropResidue_errop (r : Nat) (s : State) : (dropResidue r s).errop = s.errop := rfl
@[simp] theorem dropResidue_bitpos (r : Nat) (s : State) : (dropResidue r s).bitpos = s.bitpos := rfl
@[simp] theorem dropResidue_pktlen (r : Nat) (s : State) : (dropResidue r s).pktlen = s.pktlen := rfl
@[simp] theorem dropResidue_pcmcount (r : Nat) (s : State) : (dropResidue r s).pcmcount = s.pcmcount := rfl
@[simp] theorem dropResidue_cfgState (r : Nat) (s : State) : (dropResidue r s).cfgState = .broken := rfl
@[simp] theorem dropResidue_cb (r : Nat) (s : State) : (dropResidue r s).cb = s.cb := rfl
@[simp] theorem dropResidue_res (r : Nat) (s : State) : (dropResidue r s).res = s.res.erase r := rfl
@[simp] theorem dropResidue_cbCount (r : Nat) (s : State) : (dropResidue r s).cbCount = s.cbCount := rfl
@[simp] theorem dropResidue_resCount (r : Nat) (s : State) : (dropResidue r s).resCount = s.resCount := rfl
@[simp] theorem dropResidue_synValid (r : Nat) (s : State) : (dropResidue r s).synValid = s.synValid := rfl
@[simp] theorem dropResidue_e0 (r : Nat) (s : State) : (dropResidue r s).e0 = s.e0 := rfl
@[simp] theorem dropResidue_e1 (r : Nat) (s : State) : (dropResidue r s).e1 = s.e1 := rfl
@[simp] theorem dropResidue_lapValid (r : Nat) (s : State) : (dropResidue r s).lapValid = s.lapValid := rfl
@[simp] theorem dropResidue_tailLen (r : Nat) (s : State) : (dropResidue r s).tailLen = s.tailLen := rfl
@[simp] theorem dropResidue_tail (r : Nat) (s : State) : (dropResidue r s).tail = s.tail := rfl
@[simp] theorem dropResidue_pkt (r : Nat) (s : State) : (dropResidue r s).pkt = s.pkt := rfl
@[simp] theorem dropResidue_vec (r : Nat) (s : State) : (dropResidue r s).vec = s.vec := rfl
@[simp] theorem dropResidue_pcm (r : Nat) (s : State) : (dropResidue r s).pcm = s.pcm := rfl
@[simp] theorem dropResidue_basis (r : Nat) (s : State) : (dropResidue r s).basis = s.basis := rfl
@[simp] theorem dropResidue_params (r : Nat) (s : State) : (dropResidue r s).params = s.params := rfl
@[simp] theorem dropResidue_raced (r : Nat) (s : State) : (dropResidue r s).raced = s.raced := rfl
@[simp] theorem dropResidue_inReset (r : Nat) (s : State) : (dropResidue r s).inReset = s.inReset := rfl
@[simp] theorem dropResidue_pending (r : Nat) (s : State) : (dropResidue r s).pending = s.pending := rfl
@[simp] theorem dropResidue_response (r : Nat) (s : State) : (dropResidue r s).response = s.response := rfl
@[simp] theorem dropResidue_stall (r : Nat) (s : State) : (dropResidue r s).stall = s.stall := rfl
@[simp] theorem dropResidue_draws (r : Nat) (s : State) : (dropResidue r s).draws = s.draws := rfl

/-! `retire` -/

@[simp] theorem retire_arg0 (seen : Word) (s : State) : (retire seen s).arg0 = s.arg0 := rfl
@[simp] theorem retire_arg1 (seen : Word) (s : State) : (retire seen s).arg1 = s.arg1 := rfl
@[simp] theorem retire_result (seen : Word) (s : State) : (retire seen s).result = s.result := rfl
@[simp] theorem retire_silent (seen : Word) (s : State) : (retire seen s).silent = s.silent := rfl
@[simp] theorem retire_busy (seen : Word) (s : State) : (retire seen s).busy = false := rfl
@[simp] theorem retire_err (seen : Word) (s : State) : (retire seen s).err = s.err := rfl
@[simp] theorem retire_errcode (seen : Word) (s : State) : (retire seen s).errcode = s.errcode := rfl
@[simp] theorem retire_errop (seen : Word) (s : State) : (retire seen s).errop = s.errop := rfl
@[simp] theorem retire_bitpos (seen : Word) (s : State) : (retire seen s).bitpos = s.bitpos := rfl
@[simp] theorem retire_pktlen (seen : Word) (s : State) : (retire seen s).pktlen = s.pktlen := rfl
@[simp] theorem retire_pcmcount (seen : Word) (s : State) : (retire seen s).pcmcount = s.pcmcount := rfl
@[simp] theorem retire_cfgState (seen : Word) (s : State) : (retire seen s).cfgState = s.cfgState := rfl
@[simp] theorem retire_cb (seen : Word) (s : State) : (retire seen s).cb = s.cb := rfl
@[simp] theorem retire_res (seen : Word) (s : State) : (retire seen s).res = s.res := rfl
@[simp] theorem retire_cbCount (seen : Word) (s : State) : (retire seen s).cbCount = s.cbCount := rfl
@[simp] theorem retire_resCount (seen : Word) (s : State) : (retire seen s).resCount = s.resCount := rfl
@[simp] theorem retire_synValid (seen : Word) (s : State) : (retire seen s).synValid = s.synValid := rfl
@[simp] theorem retire_e0 (seen : Word) (s : State) : (retire seen s).e0 = s.e0 := rfl
@[simp] theorem retire_e1 (seen : Word) (s : State) : (retire seen s).e1 = s.e1 := rfl
@[simp] theorem retire_lapValid (seen : Word) (s : State) : (retire seen s).lapValid = s.lapValid := rfl
@[simp] theorem retire_tailLen (seen : Word) (s : State) : (retire seen s).tailLen = s.tailLen := rfl
@[simp] theorem retire_tail (seen : Word) (s : State) : (retire seen s).tail = s.tail := rfl
@[simp] theorem retire_pkt (seen : Word) (s : State) : (retire seen s).pkt = s.pkt := rfl
@[simp] theorem retire_vec (seen : Word) (s : State) : (retire seen s).vec = s.vec := rfl
@[simp] theorem retire_pcm (seen : Word) (s : State) : (retire seen s).pcm = s.pcm := rfl
@[simp] theorem retire_basis (seen : Word) (s : State) : (retire seen s).basis = s.basis := rfl
@[simp] theorem retire_params (seen : Word) (s : State) : (retire seen s).params = s.params := rfl
@[simp] theorem retire_raced (seen : Word) (s : State) : (retire seen s).raced = s.raced := rfl
@[simp] theorem retire_inReset (seen : Word) (s : State) : (retire seen s).inReset = s.inReset := rfl
@[simp] theorem retire_pending (seen : Word) (s : State) : (retire seen s).pending = s.pending := rfl
@[simp] theorem retire_response (seen : Word) (s : State) : (retire seen s).response = .done := rfl
@[simp] theorem retire_stall (seen : Word) (s : State) :
    (retire seen s).stall = some { seen, left := Config.freeNat s.draws } := rfl
@[simp] theorem retire_draws (seen : Word) (s : State) : (retire seen s).draws = s.draws + 1 := rfl

/-! `respond` -/

@[simp] theorem respond_arg0 (r : PortResponse) (s : State) : (respond r s).arg0 = s.arg0 := rfl
@[simp] theorem respond_arg1 (r : PortResponse) (s : State) : (respond r s).arg1 = s.arg1 := rfl
@[simp] theorem respond_result (r : PortResponse) (s : State) : (respond r s).result = s.result := rfl
@[simp] theorem respond_silent (r : PortResponse) (s : State) : (respond r s).silent = s.silent := rfl
@[simp] theorem respond_busy (r : PortResponse) (s : State) : (respond r s).busy = s.busy := rfl
@[simp] theorem respond_err (r : PortResponse) (s : State) : (respond r s).err = s.err := rfl
@[simp] theorem respond_errcode (r : PortResponse) (s : State) : (respond r s).errcode = s.errcode := rfl
@[simp] theorem respond_errop (r : PortResponse) (s : State) : (respond r s).errop = s.errop := rfl
@[simp] theorem respond_bitpos (r : PortResponse) (s : State) : (respond r s).bitpos = s.bitpos := rfl
@[simp] theorem respond_pktlen (r : PortResponse) (s : State) : (respond r s).pktlen = s.pktlen := rfl
@[simp] theorem respond_pcmcount (r : PortResponse) (s : State) : (respond r s).pcmcount = s.pcmcount := rfl
@[simp] theorem respond_cfgState (r : PortResponse) (s : State) : (respond r s).cfgState = s.cfgState := rfl
@[simp] theorem respond_cb (r : PortResponse) (s : State) : (respond r s).cb = s.cb := rfl
@[simp] theorem respond_res (r : PortResponse) (s : State) : (respond r s).res = s.res := rfl
@[simp] theorem respond_cbCount (r : PortResponse) (s : State) : (respond r s).cbCount = s.cbCount := rfl
@[simp] theorem respond_resCount (r : PortResponse) (s : State) : (respond r s).resCount = s.resCount := rfl
@[simp] theorem respond_synValid (r : PortResponse) (s : State) : (respond r s).synValid = s.synValid := rfl
@[simp] theorem respond_e0 (r : PortResponse) (s : State) : (respond r s).e0 = s.e0 := rfl
@[simp] theorem respond_e1 (r : PortResponse) (s : State) : (respond r s).e1 = s.e1 := rfl
@[simp] theorem respond_lapValid (r : PortResponse) (s : State) : (respond r s).lapValid = s.lapValid := rfl
@[simp] theorem respond_tailLen (r : PortResponse) (s : State) : (respond r s).tailLen = s.tailLen := rfl
@[simp] theorem respond_tail (r : PortResponse) (s : State) : (respond r s).tail = s.tail := rfl
@[simp] theorem respond_pkt (r : PortResponse) (s : State) : (respond r s).pkt = s.pkt := rfl
@[simp] theorem respond_vec (r : PortResponse) (s : State) : (respond r s).vec = s.vec := rfl
@[simp] theorem respond_pcm (r : PortResponse) (s : State) : (respond r s).pcm = s.pcm := rfl
@[simp] theorem respond_basis (r : PortResponse) (s : State) : (respond r s).basis = s.basis := rfl
@[simp] theorem respond_params (r : PortResponse) (s : State) : (respond r s).params = s.params := rfl
@[simp] theorem respond_raced (r : PortResponse) (s : State) : (respond r s).raced = s.raced := rfl
@[simp] theorem respond_inReset (r : PortResponse) (s : State) : (respond r s).inReset = s.inReset := rfl
@[simp] theorem respond_pending (r : PortResponse) (s : State) : (respond r s).pending = s.pending := rfl
@[simp] theorem respond_response (r : PortResponse) (s : State) : (respond r s).response = r := rfl
@[simp] theorem respond_stall (r : PortResponse) (s : State) : (respond r s).stall = none := rfl
@[simp] theorem respond_draws (r : PortResponse) (s : State) : (respond r s).draws = s.draws := rfl

/-! `writePktWord` -/

@[simp] theorem writePktWord_arg0 (s : State) (w : Nat) (v : Word) : (writePktWord s w v).arg0 = s.arg0 := rfl
@[simp] theorem writePktWord_arg1 (s : State) (w : Nat) (v : Word) : (writePktWord s w v).arg1 = s.arg1 := rfl
@[simp] theorem writePktWord_result (s : State) (w : Nat) (v : Word) : (writePktWord s w v).result = s.result := rfl
@[simp] theorem writePktWord_silent (s : State) (w : Nat) (v : Word) : (writePktWord s w v).silent = s.silent := rfl
@[simp] theorem writePktWord_busy (s : State) (w : Nat) (v : Word) : (writePktWord s w v).busy = s.busy := rfl
@[simp] theorem writePktWord_err (s : State) (w : Nat) (v : Word) : (writePktWord s w v).err = s.err := rfl
@[simp] theorem writePktWord_errcode (s : State) (w : Nat) (v : Word) : (writePktWord s w v).errcode = s.errcode := rfl
@[simp] theorem writePktWord_errop (s : State) (w : Nat) (v : Word) : (writePktWord s w v).errop = s.errop := rfl
@[simp] theorem writePktWord_bitpos (s : State) (w : Nat) (v : Word) : (writePktWord s w v).bitpos = s.bitpos := rfl
@[simp] theorem writePktWord_pktlen (s : State) (w : Nat) (v : Word) : (writePktWord s w v).pktlen = s.pktlen := rfl
@[simp] theorem writePktWord_pcmcount (s : State) (w : Nat) (v : Word) :
    (writePktWord s w v).pcmcount = s.pcmcount := rfl
@[simp] theorem writePktWord_cfgState (s : State) (w : Nat) (v : Word) :
    (writePktWord s w v).cfgState = s.cfgState := rfl
@[simp] theorem writePktWord_cb (s : State) (w : Nat) (v : Word) : (writePktWord s w v).cb = s.cb := rfl
@[simp] theorem writePktWord_res (s : State) (w : Nat) (v : Word) : (writePktWord s w v).res = s.res := rfl
@[simp] theorem writePktWord_cbCount (s : State) (w : Nat) (v : Word) : (writePktWord s w v).cbCount = s.cbCount := rfl
@[simp] theorem writePktWord_resCount (s : State) (w : Nat) (v : Word) :
    (writePktWord s w v).resCount = s.resCount := rfl
@[simp] theorem writePktWord_synValid (s : State) (w : Nat) (v : Word) :
    (writePktWord s w v).synValid = s.synValid := rfl
@[simp] theorem writePktWord_e0 (s : State) (w : Nat) (v : Word) : (writePktWord s w v).e0 = s.e0 := rfl
@[simp] theorem writePktWord_e1 (s : State) (w : Nat) (v : Word) : (writePktWord s w v).e1 = s.e1 := rfl
@[simp] theorem writePktWord_lapValid (s : State) (w : Nat) (v : Word) :
    (writePktWord s w v).lapValid = s.lapValid := rfl
@[simp] theorem writePktWord_tailLen (s : State) (w : Nat) (v : Word) : (writePktWord s w v).tailLen = s.tailLen := rfl
@[simp] theorem writePktWord_tail (s : State) (w : Nat) (v : Word) : (writePktWord s w v).tail = s.tail := rfl
@[simp] theorem writePktWord_pkt (s : State) (w : Nat) (v : Word) :
    (writePktWord s w v).pkt = s.pkt.store (4 * w) ((List.range 4).map (hostByte v)) := rfl
@[simp] theorem writePktWord_vec (s : State) (w : Nat) (v : Word) : (writePktWord s w v).vec = s.vec := rfl
@[simp] theorem writePktWord_pcm (s : State) (w : Nat) (v : Word) : (writePktWord s w v).pcm = s.pcm := rfl
@[simp] theorem writePktWord_basis (s : State) (w : Nat) (v : Word) : (writePktWord s w v).basis = s.basis := rfl
@[simp] theorem writePktWord_params (s : State) (w : Nat) (v : Word) : (writePktWord s w v).params = s.params := rfl
@[simp] theorem writePktWord_raced (s : State) (w : Nat) (v : Word) :
    (writePktWord s w v).raced = racedByWrite s w v ++ s.raced := rfl
@[simp] theorem writePktWord_inReset (s : State) (w : Nat) (v : Word) : (writePktWord s w v).inReset = s.inReset := rfl
@[simp] theorem writePktWord_pending (s : State) (w : Nat) (v : Word) : (writePktWord s w v).pending = s.pending := rfl
@[simp] theorem writePktWord_response (s : State) (w : Nat) (v : Word) :
    (writePktWord s w v).response = s.response := rfl
@[simp] theorem writePktWord_stall (s : State) (w : Nat) (v : Word) : (writePktWord s w v).stall = s.stall := rfl
@[simp] theorem writePktWord_draws (s : State) (w : Nat) (v : Word) : (writePktWord s w v).draws = s.draws := rfl

/-! Canonical form (R37, R27, R28; log 3) -/

theorem reset_wf : State.reset.pkt.wf ∧ State.reset.vec.wf ∧ State.reset.pcm.wf ∧ State.reset.cb.wf ∧ State.reset.res.wf := by
  decide

theorem storeVec_wf {s : State} (h : s.vec.wf) (w : Nat) (xs : List Word) : (storeVec s w xs).vec.wf := Sparse.wf_store h w xs

theorem storePcm_wf {s : State} (h : s.pcm.wf) (w : Nat) (xs : List Word) : (storePcm s w xs).pcm.wf := Sparse.wf_store h w xs

theorem freeVec_wf {s : State} (h : s.vec.wf) (w n : Nat) : (freeVec w n s).vec.wf := Sparse.wf_store h w _

theorem writePktWord_wf {s : State} (h : s.pkt.wf) (w : Nat) (v : Word) : (writePktWord s w v).pkt.wf := Sparse.wf_store h _ _

theorem dropCodebook_wf {s : State} (h : s.cb.wf) (k : Nat) : (dropCodebook k s).cb.wf := Sparse.wf_erase h k

theorem dropResidue_wf {s : State} (h : s.res.wf) (r : Nat) : (dropResidue r s).res.wf := Sparse.wf_erase h r

end Sys2Proof.Machine
end

