-- ==== Sys2Proof/Laws/Synthesis.lean ====
section
/-!
SUPPORT. The pieces of SYN_BLOCK: its samples, the words it appends, and the set of basis tables.
-/

namespace Sys2Proof.Machine

theorem sampleWord_eq (scale : Rat) (g : Geometry) (x : List Word) (i : Nat) :
    sampleWord scale g x i = synth (exactSample scale g x i) := rfl

/-- SYNTH(0) is a zero (R95 (a), (b)). -/
theorem synth_zero : f32IsZero (synth 0) = true := by
  unfold f32IsZero synth
  exact decide_eq_true ((Config.synth fun y => y = 0).zero rfl)

/-- A zero word stands for 0. -/
theorem f32Real_of_isZero {w : Word} (h : f32IsZero w = true) : f32Real w = 0 := by
  unfold f32IsZero at h
  have h := of_decide_eq_true h
  have h1 : w.toNat / 2 ^ 23 % 2 ^ 8 = 0 := by omega
  have h2 : w.toNat % 2 ^ 23 = 0 := by omega
  have : f32Value w = .finite (w.getLsbD 31) 0 (-149) := by
    unfold f32Value
    simp only [h1, h2]
    rfl
  unfold f32Real
  simp [this, dyadicReal]

/-- The exact samples of an all-zero spectrum are 0 (R94, R95 (b)). -/
theorem exactSample_zeros (scale : ℝ) (g : Geometry) {x : List Word} (h : x.all f32IsZero = true) (i : Nat) :
    exactSample scale g x i = 0 := by
  have hx : ∀ k, f32Real (x.getD k 0) = 0 := fun k => by
    apply f32Real_of_isZero
    rw [List.getD_eq_getElem?_getD]
    cases e : x[k]? with
    | none => decide
    | some w => exact List.all_eq_true.1 h w (List.mem_of_getElem? e)
  simp only [exactSample, imdct, hx, zero_mul, Finset.sum_const_zero, mul_zero]

/-- Computing the samples draws free values at most, gives one sample for each index from ls to re, and for a finite
spectrum these are SYNTH of the
exact reals (R95). -/
theorem blockSamples_run (p : Params) (g : Geometry) (x : List Word) (s : State) :
    ∃ ys d, blockSamples p g x s = .ok ys { s with draws := d } ∧ ys.length = Geometry.re g - g.ls
      ∧ (x.all f32IsFinite = true → ys = (List.range' g.ls (Geometry.re g - g.ls)).map (sampleWord p.imdctScale g x)) := by
  have draws : ∀ (is : List Nat) (s : State),
      ∃ ys d, forEach (fun _ => drawWord) is s = .ok ys { s with draws := d } ∧ ys.length = is.length := by
    intro is
    induction is with
    | nil => intro s; exact ⟨[], s.draws, rfl, rfl⟩
    | cons a is ih =>
      intro s
      obtain ⟨ys, d, h1, h2⟩ := ih { s with draws := s.draws + 1 }
      refine ⟨Config.freeWord s.draws :: ys, d, ?_, by simp [h2]⟩
      simp only [forEach, bind_run, drawWord] at *
      simp only [h1, pure_run]
  unfold blockSamples
  by_cases h : x.all f32IsFinite = true
  · simp only [h, if_true]; exact ⟨_, s.draws, rfl, by simp, fun _ => rfl⟩
  · obtain ⟨ys, d, h1, h2⟩ := draws (List.range' g.ls (Geometry.re g - g.ls)) s
    simp only [h]
    exact ⟨ys, d, h1, by simpa using h2, fun h' => by cases h'⟩

/-- Computing the samples changes only the count of draws. -/
theorem blockSamples_state {p : Params} {g : Geometry} {x ys : List Word} {s t : State} (h : blockSamples p g x s = .ok ys t) :
    t = { s with draws := t.draws } := by
  obtain ⟨zs, d, h1, _⟩ := blockSamples_run p g x s
  rw [h1] at h
  cases h
  rfl

/-- SYN_BLOCK appends at most the words it counts (R98). -/
theorem length_blockOutput_le (s : State) (g : Geometry) (ys : List Word) :
    (blockOutput s g ys).length ≤ blockCount s g := by
  unfold blockOutput blockCount
  rw [List.length_append]
  apply Nat.add_le_add
  · split <;> simp [tailWords]
  · simp [samplesFrom]

theorem getElem?_samplesFrom {g : Geometry} {ys : List Word} {lo hi k : Nat} (hl : g.ls ≤ lo) (h : k < hi - lo) :
    (samplesFrom g ys lo hi)[k]? = ys[lo + k - g.ls]? := by
  simp only [samplesFrom, List.getElem?_take, h, if_true, List.getElem?_drop]
  congr 1; omega

theorem length_samplesFrom {g : Geometry} {ys : List Word} {lo hi : Nat} (hl : g.ls ≤ lo) (hh : hi ≤ Geometry.re g)
    (hy : ys.length = Geometry.re g - g.ls) : (samplesFrom g ys lo hi).length = hi - lo := by
  simp [samplesFrom]; omega

theorem mem_addBasis {n m : Nat} {l : List Nat} : m ∈ addBasis n l ↔ m ∈ l ∨ m = n := by
  induction l with
  | nil => simp [addBasis]
  | cons a l ih =>
    unfold addBasis
    split
    · simp; tauto
    · split
      · subst_vars; simp; tauto
      · simp [ih]; tauto

/-- BASIS keeps rising (R96). -/
theorem pairwise_addBasis (n : Nat) {l : List Nat} (h : l.Pairwise (· < ·)) : (addBasis n l).Pairwise (· < ·) := by
  induction l with
  | nil => simp [addBasis]
  | cons a l ih =>
    have h' := List.pairwise_cons.1 h
    unfold addBasis
    split
    · refine List.pairwise_cons.2 ⟨fun b hb => ?_, h⟩
      rcases List.mem_cons.1 hb with rfl | hb
      · assumption
      · have := h'.1 b hb; omega
    · split
      · exact h
      · refine List.pairwise_cons.2 ⟨fun b hb => ?_, ih h'.2⟩
        rcases mem_addBasis.1 hb with hb | rfl
        · exact h'.1 b hb
        · omega

end Sys2Proof.Machine
end

