-- ==== Sys2Proof/Tests/Slice0.lean ====
section
/-!
SUPPORT. The model's own tests. Expected results are those of 95_test_vectors.md, by the row named in each comment, or
hand calculation from the cited rule. The last part gives, for each obligation with hypotheses, a concrete input that
meets them, clause by clause.
-/

namespace Sys2Proof.Machine.Tests

-- One evaluation at a time: many at once ask for more threads than the memory limit gives.
set_option Elab.async false

/-! Well-formedness: an ill-formed term for each check (R52, R53, R55) -/

theorem test_wf_readu_33 : (Instr.brReadU 33).wellFormed = false ∧ (Instr.brReadU 32).wellFormed = true := by decide
theorem test_wf_reads_33 : (Instr.brReadS 33).wellFormed = false ∧ (Instr.brReadS 32).wellFormed = true := by decide
theorem test_wf_cbDefine_256 : (Instr.cbDefine 256).wellFormed = false := by decide
theorem test_wf_cbScalar_256 : (Instr.cbScalar 256).wellFormed = false := by decide
theorem test_wf_cbVector_256 : (Instr.cbVector 256 true).wellFormed = false := by decide
theorem test_wf_resDefine_64 : (Instr.resDefine 64).wellFormed = false := by decide
theorem test_wf_resDecode_64 : (Instr.resDecode 64 1).wellFormed = false := by decide
theorem test_wf_resDecode_nvec : (Instr.resDecode 0 0).wellFormed = false ∧ (Instr.resDecode 0 33).wellFormed = false := by
  decide
theorem test_wf_synConfig_16 : (Instr.synConfig 16 0).wellFormed = false ∧ (Instr.synConfig 0 16).wellFormed = false := by
  decide

/-! Decoding: words written from the formats of R52 and the opcode map of R54 -/

theorem test_decode_control : decode 0x00000000 = .ok .nop ∧ decode 0x01000000 = .ok .softReset
    ∧ decode 0x02000000 = .ok .cfgSeal ∧ decode 0x03000000 = .ok .cfgReset := by decide
theorem test_decode_reader : decode 0x10000000 = .ok .brStart ∧ decode 0x11000020 = .ok (.brReadU 32)
    ∧ decode 0x12000005 = .ok (.brReadS 5) ∧ decode 0x13000000 = .ok .brReadF ∧ decode 0x14000000 = .ok .brIlog := by
  decide
theorem test_decode_codebook : decode 0x200000FF = .ok (.cbDefine 255) ∧ decode 0x21000080 = .ok (.cbScalar 128)
    ∧ decode 0x22000103 = .ok (.cbVector 3 true) ∧ decode 0x220000FE = .ok (.cbVector 254 false) := by decide
theorem test_decode_residue : decode 0x3000003F = .ok (.resDefine 63) ∧ decode 0x31001F3F = .ok (.resDecode 63 32)
    ∧ decode 0x31000100 = .ok (.resDecode 0 2) := by decide
theorem test_decode_synthesis : decode 0x400000D6 = .ok (.synConfig 6 13) ∧ decode 0x41000005 = .ok (.synBlock true false true)
    ∧ decode 0x41000002 = .ok (.synBlock false true false) ∧ decode 0x42000000 = .ok .synReset
    ∧ decode 0x43000000 = .ok .pcmClear := by decide
/-- E3, E4, E5, E7, E9, E10, E13, E14. -/
theorem test_decode_illegal : decode 0x11000021 = .error .bitCount ∧ decode 0x10000001 = .error .reservedBits
    ∧ decode 0x05000000 = .error .undefinedOpcode ∧ decode 0x22000203 = .error .reservedBits
    ∧ decode 0x3100203F = .error .reservedBits ∧ decode 0x31000040 = .error .reservedBits
    ∧ decode 0x41000008 = .error .reservedBits ∧ decode 0xFF000000 = .error .undefinedOpcode := by decide
theorem test_decode_table_word : decodeTableWord 32 0x40000086 = some (.synConfig 6 8)
    ∧ decodeTableWord 32 0x05000000 = none := by decide

/-! Small states -/

/-- What is seen of the next state; none if the outcome is another one. -/
def seen {α : Type} (o : Host.Outcome State Fault Refusal) (f : State → α) : Option α :=
  match o with
  | .next t => some (f t)
  | .fault _ | .refused _ => none

/-- The outcome is a next state. -/
def runs (o : Host.Outcome State Fault Refusal) : Bool := (seen o fun _ => ()).isSome

/-- A packet of these bytes, read up to a bit. -/
def packet (bytes : List Nat) (pos : Nat) : State :=
  { State.reset with pkt := Sparse.block 0 (bytes.map (BitVec.ofNat 8)), pktlen := bytes.length, bitpos := pos }

/-- Bits packed into bytes, first bit least significant (R36). -/
def packed (bits : List Bool) : List Nat :=
  (List.range ((bits.length + 7) / 8)).map fun b =>
    ((List.range 8).map fun j => bit (bits.getD (8 * b + j) false) * 2 ^ j).sum

/-- A packet of these bits. -/
def spelled (bits : List Bool) : State := packet (packed bits) 0

/-- A packet that ends with these bits, at the first of them. -/
def ending (bits : List Bool) : State :=
  let pad := (8 - bits.length % 8) % 8
  packet (packed (List.replicate pad false ++ bits)) pad

/-- The codebook of vector C1. -/
def bookC1 : Codebook where
  dim := 2
  count := 4
  len := [some 2, some 1, some 3, some 3]
  tree := .inner (.inner (.leaf 0) (.inner (.leaf 2) (.leaf 3))) (.leaf 1)
  lookup := some {
    kind := .lattice, min := 0xBF800000, delta := 0x3F800000, vbits := 1, seq := false, mult := [0, 1]
    val := [[0xBF800000, 0xBF800000], [0, 0xBF800000], [0xBF800000, 0], [0, 0]] }

/-- The codebook of vector C2. -/
def bookC2 : Codebook where
  dim := 1
  count := 4
  len := [some 1, some 2, some 3, some 3]
  tree := .inner (.leaf 0) (.inner (.leaf 1) (.inner (.leaf 2) (.leaf 3)))
  lookup := none

/-- The class book of section 2.4. -/
def classBook : Codebook where
  dim := 1
  count := 2
  len := [some 1, some 1]
  tree := .inner (.leaf 0) (.leaf 1)
  lookup := none

/-- A codebook with the one codeword of vector C7. -/
def bookC7 : Codebook where
  dim := 1
  count := 1
  len := [some 2]
  tree := .inner (.inner (.leaf 0) .empty) .empty
  lookup := none

/-- No pass has a book. -/
def noBooks : List (Option Nat) := List.replicate 8 none

/-- Pass 0 has book 0. -/
def firstBook : List (Option Nat) := some 0 :: List.replicate 7 none

/-- The residue of vector X1. -/
def residueX1 : Residue where
  type := 2
  begin := 0
  stop := 8
  psize := 4
  classes := 2
  classbook := 1
  cascade := [0, 1]
  books := [noBooks, firstBook]

/-- The residue of vector X4. -/
def residueX4 : Residue where
  type := 1
  begin := 0
  stop := 6
  psize := 3
  classes := 1
  classbook := 1
  cascade := [1]
  books := [firstBook]

/-- Section 2.4's codebooks and one residue, sealed. -/
def withResidue (x : Residue) (s : State) : State :=
  { s with
    cfgState := .sealed, cb := [(0, bookC1), (1, classBook)], cbCount := 2, res := [(0, x)], resCount := 1 }

/-- C1 in slot 0, sealed. -/
def withBook (c : Codebook) (s : State) : State := { s with cfgState := .sealed, cb := [(0, c)], cbCount := 1 }

/-- Sealed with block sizes 6 and 8 (P4 step 2) and 128 zeros in VEC. -/
def synth : State :=
  { State.reset with
    cfgState := .sealed, synValid := true, e0 := 6, e1 := 8, vec := Sparse.block 0 (List.replicate 128 0) }

/-- `synth` with the tail of a short block. -/
def synthLap : State := { synth with lapValid := true, tailLen := 32, tail := List.replicate 32 0 }

/-- RESULT, BITPOS and STATUS. -/
def reading (t : State) : Nat × Nat × Nat := (t.result.toNat, t.bitpos, (statusWord t).toNat)

/-! The commands -/

/-- R87: NOP with ERR = 1 and a packet. -/
theorem test_nop : exec .nop { packet [1] 3 with err := true } = .next { packet [1] 3 with err := true } := rfl
/-- K7. -/
theorem test_softReset : seen (exec .softReset { withBook bookC1 (packet [1] 3) with arg0 := 5, err := true })
    (fun t => (t.arg0, t.bitpos, t.cb.length, t.cfgState, t.err, t.pkt.length)) = some (0, 0, 0, .opened, false, 1) := by
  decide +kernel
/-- K1. -/
theorem test_cfgSeal_empty : seen (exec .cfgSeal State.reset) cfginfoWord = some 0x00000001 := by decide +kernel
/-- K2. -/
theorem test_cfgSeal_badref : seen (exec .cfgSeal { State.reset with cb := [(0, bookC1)], arg0 := 2 })
    (fun t => (cfginfoWord t, t.errcode)) = some (0x00000002, 0x06) := by decide +kernel
/-- K5. -/
theorem test_cfgReset : seen (exec .cfgReset { State.reset with cfgState := .broken, err := true, errcode := 7, errop := 2 })
    (fun t => (statusWord t, cfginfoWord t)) = some (0, 0) := by decide +kernel
/-- G4. -/
theorem test_brStart : seen (exec .brStart { packet [1, 2] 9 with err := true, errcode := 1, errop := 0x11, arg0 := 2 })
    (fun t => (statusWord t, t.pktlen, t.bitpos)) = some (0, 2, 0) := by decide +kernel
/-- D25, G6. -/
theorem test_brStart_range : seen (exec .brStart { packet [1, 2] 9 with arg0 := 262145 })
    (fun t => (statusWord t, t.pktlen, t.bitpos)) = some (0x00100802, 2, 9) := by decide +kernel
/-- D1. -/
theorem test_brReadU : seen (exec (.brReadU 3) (packet [0xA5, 0x3C] 0)) reading = some (5, 3, 0) := by decide +kernel
/-- D4. -/
theorem test_brReadU_eob : seen (exec (.brReadU 0) (packet [0xA5, 0x3C] 16)) statusWord = some 0x00110102 := by
  decide +kernel
/-- D2. -/
theorem test_brReadS : seen (exec (.brReadS 5) (packet [0xA5, 0x3C] 3)) reading = some (0xFFFFFFF4, 8, 0) := by
  decide +kernel
/-- D9b. -/
theorem test_brReadS_min : seen (exec (.brReadS 5) (packet [0x10] 0)) reading = some (0xFFFFFFF0, 5, 0) := by
  decide +kernel
/-- D14. -/
theorem test_brReadF : seen (exec .brReadF (packet [0x03, 0x00, 0xA0, 0x62] 0)) reading = some (0x40C00000, 32, 0) := by
  decide +kernel
/-- D11 to D21, by their fields. -/
theorem test_vendorFloat : [0x60100000, 0xE0100000, 0x80000000, 0x4FE00001, 0x4FC00001, 1, 0x6FFFFFFF, 0x70100000,
      0xFFFFFFFF].map (vendorFloat .ieee)
    = [0x3F800000, 0xBF800000, 0, 1, 0, 0, 0x7F7FFFF8, 0x7F800000, 0xFF800000] := by decide +kernel
/-- S1, D22, D23, D24. -/
theorem test_ilog : [0, 1, 2, 3, 4, 7, 0x80000000, 0xFFFFFFFF, 0x01000000].map ilog = [0, 1, 2, 2, 3, 3, 32, 32, 25] := by
  decide +kernel
theorem test_brIlog : seen (exec .brIlog { State.reset with arg0 := 7 }) (fun t => t.result) = some 3 := by
  decide +kernel
/-- The lookup1_values of section 2.3. -/
theorem test_lookup1 : [(4, 2), (8, 2), (9, 2), (8, 3), (81, 4), (7, 1), (0, 3)].map (fun p => lookup1Values p.1 p.2)
    = [2, 2, 3, 2, 3, 7, 0] := by decide +kernel
/-- C1, C5, C6. -/
theorem test_buildTree : buildTree bookC1.len = some bookC1.tree
    ∧ buildTree [some 3, some 1, some 2, some 3]
        = some (.inner (.inner (.inner (.leaf 0) (.leaf 3)) (.leaf 2)) (.leaf 1))
    ∧ buildTree [some 1, some 3, some 3]
        = some (.inner (.leaf 0) (.inner (.inner (.leaf 1) (.leaf 2)) .empty)) := by decide
/-- C15, entries 3 and 7. -/
theorem test_buildValues :
    (buildValues .ieee .lattice [0, 2] 0x3E800000 0x3F000000 true 8 3)[3]? = some [0x3F800000, 0x40000000, 0x40200000]
    ∧ (buildValues .ieee .lattice [0, 2] 0x3E800000 0x3F000000 true 8 3)[7]? = some [0x3F800000, 0x40000000, 0x40400000] := by
  decide +kernel
/-- C2, by its bytes. -/
theorem test_cbDefine_ordered :
    seen (exec (.cbDefine 0) (packet [0x42, 0x43, 0x56, 0x01, 0x00, 0x04, 0x00, 0x00, 0x41, 0x12, 0x00] 0))
      (fun t => (t.result, t.bitpos, t.cb)) = some (4, 81, [(0, bookC2)]) := by
  decide +kernel
/-- C9. -/
theorem test_cbDefine_badsync : seen (exec (.cbDefine 0) (packet [0x41, 0x43, 0x56] 0))
    (fun t => (statusWord t, t.cfgState)) = some (0x00200302, .broken) := by decide +kernel
/-- C16. -/
theorem test_cbScalar : seen (exec (.cbScalar 0) (withBook bookC1 (spelled [false, true, false]))) reading
    = some (2, 3, 0) := by decide +kernel
/-- C7. -/
theorem test_cbScalar_badcode : seen (exec (.cbScalar 0) (withBook bookC7 (spelled [true]))) statusWord
    = some 0x00210202 := by decide +kernel
/-- C17. -/
theorem test_cbVector : seen (exec (.cbVector 0 false) { withBook bookC1 (spelled [true]) with arg0 := 0x100 })
    (fun t => (t.result, t.bitpos, t.vec)) = some (1, 1, [(0x100, 0), (0x101, 0xBF800000)]) := by decide +kernel
/-- C18. -/
theorem test_cbVector_acc : seen (exec (.cbVector 0 true) { withBook bookC1 (spelled [false, false]) with
      arg0 := 0x100, vec := [(0x100, 0), (0x101, 0xBF800000)] })
    (fun t => (t.result, t.bitpos, t.vec)) = some (0, 2, [(0x100, 0xBF800000), (0x101, 0xC0000000)]) := by
  decide +kernel
/-- X4's header, by its bytes. -/
theorem test_resDefine :
    seen (exec (.resDefine 5) { packet [1, 0, 0, 0, 0, 6, 0, 0, 2, 0, 0, 0x40, 0x40, 0, 0] 0 with
        cb := [(0, bookC1), (1, classBook)] })
      (fun t => (t.result, t.bitpos, t.res)) = some (1, 114, [(5, residueX4)]) := by
  decide +kernel
/-- X12. -/
theorem test_resDefine_type : seen (exec (.resDefine 0) (packet [3, 0] 0)) (fun t => (statusWord t, t.cfgState, t.res))
    = some (0x00300502, .broken, []) := by decide +kernel
/-- X1. -/
theorem test_resDecode_type2 :
    seen (exec (.resDecode 0 2) { withResidue residueX1 (packet [0x0B] 0) with arg1 := 4 })
      (fun t => (t.result, t.bitpos, t.vec.map Prod.snd))
      = some (6, 6, [0, 0xBF800000, 0, 0, 0xBF800000, 0, 0, 0]) := by decide +kernel
/-- X4. -/
theorem test_resDecode_type1 :
    seen (exec (.resDecode 0 1) { withResidue residueX4 (packet [0x42, 0x06] 0) with arg1 := 8 })
      (fun t => (t.result, t.bitpos, t.vec.map Prod.snd))
      = some (11, 11, [0, 0xBF800000, 0xBF800000, 0xC0000000, 0, 0, 0, 0]) := by decide +kernel
/-- P4 step 1. -/
theorem test_synConfig : seen (exec (.synConfig 6 8) State.reset) cfginfoWord = some 0x00000864 := by decide +kernel
/-- Y7. -/
theorem test_synConfig_badcfg : seen (exec (.synConfig 6 14) State.reset) (fun t => (t.errcode, cfginfoWord t))
    = some (0x07, 2) := by decide +kernel
/-- The geometry table of section 2.6. -/
theorem test_geometry : geometry 6 8 false true false = ⟨64, 0, 32, 32, 32⟩
    ∧ geometry 6 8 true false false = ⟨256, 48, 32, 176, 32⟩ ∧ geometry 6 8 true false true = ⟨256, 48, 32, 128, 128⟩
    ∧ geometry 6 8 true true false = ⟨256, 0, 128, 176, 32⟩ ∧ geometry 6 8 true true true = ⟨256, 0, 128, 128, 128⟩ := by
  decide
/-- P4 step 4. -/
theorem test_synBlock_first : seen (exec (.synBlock true true false) synth)
    (fun t => (t.result, t.pcmcount, lapinfoWord t, t.basis)) = some (48, 48, 0x00200001, [128]) := by decide +kernel
/-- P4 steps 6 and 7, the counts and the mismatch. -/
theorem test_synBlock_later : seen (exec (.synBlock true false true) synthLap)
      (fun t => (t.result, t.pcmcount, lapinfoWord t)) = some (80, 80, 0x00800001)
    ∧ seen (exec (.synBlock false false false) { synthLap with tailLen := 128 }) statusWord = some 0x00410C02 := by
  decide +kernel
/-- P4 step 8. -/
theorem test_synReset : seen (exec .synReset synthLap) (fun t => (lapinfoWord t, t.cfgState)) = some (0, .sealed) := by
  decide +kernel
/-- P4 step 9. -/
theorem test_pcmClear : seen (exec .pcmClear { synthLap with pcmcount := 160, pcm := [(0, 0)] })
    (fun t => (t.pcmcount, t.pcm)) = some (0, [(0, 0)]) := by decide +kernel

/-! Steps -/

/-- G5. -/
theorem test_step_illegal : seen (step (State.reset.withFetchWord 32 0x05000000)) statusWord = some 0x00050B02 := by
  decide +kernel
/-- G1. -/
theorem test_step_gate : seen (step ({ State.reset with err := true, errcode := 1, errop := 0x11 }.withFetchWord 32 0x21000000))
    statusWord = some 0x00110102 := by decide +kernel
/-- P1 steps 1 and 3. -/
theorem test_step_write_pkt :
    seen (step { State.reset with pending := [.write 0x10000000 4 0x00003CA5] }) (fun t => t.pkt)
      = some [(0, 0xA5), (1, 0x3C), (2, 0), (3, 0)] := by decide +kernel
theorem test_step_command : seen (step ((packet [0xA5, 0x3C] 0).withFetchWord 32 0x11000003)) reading = some (5, 3, 0) := by
  decide +kernel

/-! Witnesses: for each obligation with hypotheses, an input that meets them, one per clause -/

/-- The host has done these and the block nothing since. -/
def waiting (s : State) (events : List HostEvent) : State := { s with pending := events }

/-- A program state with an error pending. -/
def failed : State := { packet [1, 2] 3 with err := true, errcode := 1, errop := 0x11 }

theorem witness_DecodeAndEncodeAgree : (Instr.brReadU 32).wellFormed = true
    ∧ decode 0x22000103 = .ok (.cbVector 3 true) := by decide

theorem witness_OpcodeTableRowsMatchTheDecoder :
    decode 0x31001F3F = .ok (.resDecode 63 32) ∧ decode 0x11000021 = .error .bitCount
      ∧ (∃ row ∈ opcodeTable, (0x1100003F : Word) &&& row.mask = row.pattern)
      ∧ ∃ row ∈ opcodeTable, (0x22000103 : Word) &&& row.mask = row.pattern := by decide

theorem witness_StepRunsTheDecodedCommand :
    (waiting State.reset [.write 0 4 0x11000003]).pending = .write 0 4 0x11000003 :: []
      ∧ (waiting State.reset [.write 0 4 0x11000003]).inReset = false ∧ decode 0x11000003 = .ok (.brReadU 3)
      ∧ State.reset.err = false ∧ failed.err = true ∧ decode 0x42000000 = .ok .synReset
      ∧ Instr.synReset.recovery = true := by decide +kernel

theorem witness_CommandGate :
    failed.err = true ∧ failed.inReset = false ∧ (∀ i, decode 0x21000000 = .ok i → i.recovery = false)
      ∧ (∀ i, decode 0x05000000 = .ok i → i.recovery = false)
      ∧ State.reset.err = false ∧ ∀ i, decode 0x05000000 ≠ .ok i := by
  refine ⟨rfl, rfl, ?_, ?_, rfl, ?_⟩ <;> intro i h <;> cases h
  rfl

theorem witness_HostRegisterAccess :
    (waiting State.reset [.write 0x28 4 7]).pending = .write 0x28 4 7 :: []
      ∧ (waiting State.reset [.read 0 4]).pending = .read 0 4 :: []
      ∧ ((0x28 : Word), lapinfoWord State.reset) ∈ [((0x00 : Word), (0 : Word)), (0x28, lapinfoWord State.reset)]
      ∧ { State.reset with stall := some ⟨1, 1⟩ }.stall = some { seen := 1, left := 0 + 1 }
      ∧ State.reset.stall = none ∧ { State.reset with stall := some ⟨1, 0⟩ }.stall = some { seen := 1, left := 0 } := by
  decide +kernel

theorem witness_StatusWordFields : { State.reset with cbCount := 256 }.cbCount ≤ 256
    ∧ { State.reset with resCount := 64 }.resCount ≤ 64 ∧ { State.reset with tailLen := 4096 }.tailLen ≤ 4096 := by
  decide

theorem witness_BusErrors : State.reset.inReset = false ∧ { State.reset with inReset := true }.inReset = true
    ∧ (2 : Nat) ≠ 4 ∧ (0x02 : Word).toNat % 4 ≠ 0
    ∧ ∀ a : Word, a = 0x2C ∨ a = 0x0FFFFFFC ∨ a = 0x10040000 ∨ a = 0x20080000 ∨ a = 0x30010000 →
        0x2C ≤ a.toNat ∧ ¬ (0x10000000 ≤ a.toNat ∧ a.toNat < 0x10000000 + State.reset.params.pktBytes)
          ∧ ¬ (0x20000000 ≤ a.toNat ∧ a.toNat < 0x20000000 + 4 * State.reset.params.vecWords)
          ∧ ¬ (0x30000000 ≤ a.toNat ∧ a.toNat < 0x30000000 + 4 * State.reset.params.pcmWords) := by
  refine ⟨rfl, rfl, by decide, by decide, ?_⟩
  rintro a (rfl | rfl | rfl | rfl | rfl) <;> decide

theorem witness_HostWriteToPacketIsLittleEndian : State.reset.params.wf
    ∧ (0x10000000 : Word).toNat = 0x10000000 + 4 * 0 ∧ 4 * 0 < State.reset.params.pktBytes
    ∧ (0x1003FFFC : Word).toNat = 0x10000000 + 4 * 65535 ∧ 4 * 65535 < State.reset.params.pktBytes
    ∧ 4 * 0 + 1 < (packet [1, 2] 0).pktlen ∧ Sparse.find (packet [1, 2] 0).pkt (4 * 0 + 1) = some 2
    ∧ (2 : Byte) ≠ (0x00000700 : Word).extractLsb' 8 8
    ∧ (waiting (packet [0xA5, 0x3C, 0, 9] 0) [.read 0x10000000 4]).pending = .read 0x10000000 4 :: []
    ∧ (∀ j, j < 4 → Sparse.find (packet [0xA5, 0x3C, 0, 9] 0).pkt (4 * 0 + j)
        = some ((0x09003CA5 : Word).extractLsb' (8 * j) 8))
    ∧ Sparse.find (packet [1, 2, 3] 0).pkt (4 * 0 + 3) = none := by decide +kernel

theorem witness_HostAccessToVecAndPcm : State.reset.params.wf
    ∧ (0x20000000 : Word).toNat = 0x20000000 + 4 * 0 ∧ (0x2007FFFC : Word).toNat = 0x20000000 + 4 * 131071
    ∧ 131071 < State.reset.params.vecWords ∧ Sparse.find synth.vec 127 = some 0
    ∧ (0x3000FFFC : Word).toNat = 0x30000000 + 4 * 16383 ∧ 16383 < State.reset.params.pcmWords
    ∧ Sparse.find { State.reset with pcm := [(16383, 5)] }.pcm 16383 = some 5
    ∧ (waiting State.reset [.read 0x2007FFFC 4]).pending = .read 0x2007FFFC 4 :: []
    ∧ Sparse.find State.reset.vec 131071 = none ∧ Sparse.find State.reset.pcm 16383 = none := by decide +kernel

theorem witness_ResetInput : (waiting failed [.reset true]).pending = .reset true :: []
    ∧ (waiting failed [.reset false]).pending = .reset false :: [] ∧ failed.pending = [] := by decide +kernel

theorem witness_NopChangesNothing : (1 : Word).toNat < 2 ^ 24 ∧ (1 : Word) ≠ 0 ∧ (0x00FFFFFF : Word).toNat < 2 ^ 24 := by
  decide

theorem witness_BrStartBeginsAPacket :
    ({ State.reset with arg0 := 262144 }.arg0.toNat ≤ State.reset.params.pktBytes)
      ∧ State.reset.params.pktBytes < { State.reset with arg0 := 262145 }.arg0.toNat := by decide +kernel

/-- OPEN with CB[0] defined and a residue that names it twice. -/
def openConfig (ncb nres : Word) : State :=
  { State.reset with
    cb := [(0, bookC1)], res := [(0, { residueX4 with classbook := 0 })], arg0 := ncb, arg1 := nres }

theorem witness_CfgSealChecksAndSeals : (openConfig 1 1).cfgState = .opened ∧ Sealable (openConfig 1 1)
    ∧ ¬ Sealable (openConfig 2 0) ∧ ¬ Sealable (openConfig 0 1) ∧ 256 < (openConfig 257 0).arg0.toNat
    ∧ 64 < (openConfig 0 65).arg1.toNat ∧ { State.reset with cfgState := .broken }.cfgState ≠ .opened := by
  refine ⟨rfl, ⟨by decide +kernel, fun r hr => ?_⟩, fun h => ?_, fun h => ?_, by decide, by decide, by decide⟩
  · have : r = 0 := by simpa [arg1Nat, openConfig] using hr
    subst this
    exact ⟨_, rfl, by decide +kernel, by decide +kernel⟩
  · have := h.1 1 (by decide)
    revert this
    decide +kernel
  · obtain ⟨x, -, h1, -⟩ := h.2 0 (by decide)
    exact absurd h1 (by simp [arg0Nat, openConfig])

theorem witness_CommandsOutOfTheirStateAreRefused : State.reset.cfgState ≠ .sealed ∧ synth.cfgState ≠ .opened
    ∧ synth.cfgState = .sealed ∧ synth.cbCount ≤ 0 ∧ synth.resCount ≤ 0
    ∧ (withBook bookC1 State.reset).cfgState = .sealed ∧ (withBook bookC1 State.reset).cbCount ≤ 1 := by decide

theorem witness_SealedConfigurationIsImmutable : synth.cfgState = .sealed
    ∧ runs (exec (.synConfig 6 6) synth) = true ∧ runs (exec (.synBlock true true false) synth) = true
    ∧ Instr.synConfig 6 6 ≠ .cfgReset ∧ Instr.synConfig 6 6 ≠ .softReset := by decide +kernel

theorem witness_ErrorEntryChangesNothingElse :
    State.reset.err = false
      ∧ seen (exec (.cbScalar 0) State.reset) (·.err) = some true
      ∧ seen (exec (.cbDefine 0) (packet [0x41, 0x43, 0x56] 0)) (fun t => (t.err, t.cfgState)) = some (true, .broken)
      ∧ seen (exec (.cbDefine 0) synth) (fun t => (t.err, t.cfgState)) = some (true, .sealed)
      ∧ seen (exec (.resDefine 0) (packet [3, 0] 0)) (fun t => (t.err, t.cfgState)) = some (true, .broken)
      ∧ seen (exec (.synConfig 5 8) State.reset) (fun t => (t.err, t.cfgState)) = some (true, .broken)
      ∧ seen (exec (.resDecode 0 2) { withResidue residueX1 (packet [] 0) with arg1 := 4 }) (·.err) = some true := by
  decide +kernel

/-- A packet of two bytes of which only the first is written. -/
def halfWritten : State := { packet [0xA5] 0 with pktlen := 2 }

theorem witness_EveryCommandEnds : PacketWritten (packet [1, 2] 0) ∧ VecReadable (.cbScalar 0) (packet [1, 2] 0)
    ∧ VecReadable (.synBlock true true true) synth
    ∧ VecReadable (.cbVector 0 true) (withBook bookC1 { State.reset with vec := [(0, 0), (1, 0)] })
    ∧ (∃ f, exec (.brReadU 9) halfWritten = .fault f)
    ∧ (fieldBits 8 0xA5).length < 9 ∧ packetHas halfWritten (fieldBits 8 0xA5) = true
    ∧ halfWritten.bitpos + (fieldBits 8 0xA5).length < 8 * halfWritten.pktlen
    ∧ halfWritten.pkt.find ((halfWritten.bitpos + (fieldBits 8 0xA5).length) / 8) = none := by
  refine ⟨?_, trivial, ?_, ?_, ⟨_, rfl⟩, by decide +kernel⟩
  · unfold PacketWritten; decide +kernel
  · show VecWritten synth 0 128
    unfold VecWritten; decide +kernel
  · intro c hc
    cases hc
    show VecWritten _ 0 2
    unfold VecWritten; decide +kernel

theorem witness_BrReadUReadsAField : (5 : Nat) < 2 ^ 3 ∧ packetHas (packet [0xA5, 0x3C] 0) (fieldBits 3 5) = true
    ∧ 0xFFFFFFFF < 2 ^ 32 ∧ packetHas (packet [0xFF, 0xFF, 0xFF, 0xFF] 0) (fieldBits 32 0xFFFFFFFF) = true := by
  decide +kernel

theorem witness_BrReadSReadsASignedField : (16 : Nat) < 2 ^ 5 ∧ packetHas (packet [0x10] 0) (fieldBits 5 16) = true
    ∧ (1 : Nat) < 2 ^ 1 ∧ packetHas (packet [0x01] 0) (fieldBits 1 1) = true
    ∧ packetHas (packet [0x0F] 0) (fieldBits 5 15) = true := by decide +kernel

theorem witness_ZeroWidthReadProbesTheEnd :
    (packet [0xA5, 0x3C] 15).bitpos ≠ 8 * (packet [0xA5, 0x3C] 15).pktlen
      ∧ (packet [0xA5, 0x3C] 16).bitpos = 8 * (packet [0xA5, 0x3C] 16).pktlen
      ∧ 8 * ((packet [0xA5, 0x3C] 9).pktlen - 1) < (packet [0xA5, 0x3C] 9).bitpos
      ∧ ¬ (8 * ((packet [0xA5, 0x3C] 8).pktlen - 1) < (packet [0xA5, 0x3C] 8).bitpos) := by decide +kernel

theorem witness_ShortReadRaisesEob : (packet [0xA5, 0x3C] 12).bitpos ≤ 8 * (packet [0xA5, 0x3C] 12).pktlen
    ∧ PacketWritten (packet [0xA5, 0x3C] 12) ∧ 8 * (packet [0xA5, 0x3C] 12).pktlen < (packet [0xA5, 0x3C] 12).bitpos + 5
    ∧ 8 * (packet [0xA5, 0x3C] 12).pktlen < (packet [0xA5, 0x3C] 12).bitpos + 32 := by
  unfold PacketWritten
  decide +kernel

theorem witness_BrReadFReadsAVendorFloat : 0x60100000 < 2 ^ 32
    ∧ packetHas (packet [0x00, 0x00, 0x10, 0x60] 0) (fieldBits 32 0x60100000) = true := by decide +kernel

/-- The bound at which a tie with 0 is met is D17's field. -/
theorem witness_VendorFloatIsTheRoundedReal : 0x4FC00001 < 2 ^ 32 ∧ 0x4FC00001 % 2 ^ 21 ≠ 0 ∧ 0x80000000 % 2 ^ 21 = 0
    ∧ |dyadicReal false 1 (-150)| ≤ (2 : ℝ) ^ (-150 : ℤ) := by
  refine ⟨by decide, by decide, by decide, ?_⟩
  unfold dyadicReal
  simp

/-- A packet whose first byte was rewritten from 1 to 2. -/
def rewritten : State := { packet [2] 0 with raced := [(0, some 1)] }

theorem witness_RewrittenPacketByteReadsOldOrNew : rewritten.bitpos < 8 * rewritten.pktlen
    ∧ Sparse.find rewritten.pkt (rewritten.bitpos / 8) = some 2 ∧ none ∉ racedValues rewritten (rewritten.bitpos / 8) := by
  decide +kernel

theorem witness_F32RoundIsNearestEven : (2 ^ 24 + 1 : Nat) ≠ 0 ∧ f32Round false (2 ^ 24 + 1) 0 = 0x4B800000 := by
  decide +kernel

theorem witness_Lookup1ValuesIsTheLargestRoot : (1 : Nat) ≤ 1 ∧ (1 : Nat) ≤ 65535 := by decide

theorem witness_ValueTableFollowsTheFormula : 0 < 8 ∧ 7 < 8 ∧ 0 < 3 ∧ 2 < 3 ∧ 65535 < 2 ^ 16 := by decide

theorem witness_GeometryOfABlock : (6 ≤ 6 ∧ 6 ≤ 13 ∧ 13 ≤ 13) ∧ (6 ≤ 13 ∧ 13 ≤ 13) ∧ 6 ≤ 6 := by decide

theorem witness_F32AddAndMulAreIeee : f32IsFinite 0x3F800000 = true ∧ f32Value 0x7F800000 = .inf false
    ∧ f32Value 0xFF800000 = .inf (!false) ∧ f32Value 0x7FC00000 = .nan ∧ f32IsZero 0x3F800000 = false
    ∧ f32IsZero 0x80000000 = true ∧ f32IsFinite 0x80000000 = true := by decide +kernel

theorem witness_F32AddAndMulAreIeee_zero : f32Real 0x80000000 + f32Real 0x80000000 = 0 := by
  have : f32Value 0x80000000 = .finite true 0 (-149) := by decide +kernel
  rw [f32Real_of_value this]
  simp [dyadicReal]

theorem witness_InsertTakesTheLeftmostFreePath : insertCodeword (.inner .empty .empty) 7 1 = some (.inner (.leaf 7) .empty)
    ∧ insertCodeword (.inner (.leaf 0) (.leaf 1)) 7 1 = none := by decide

theorem witness_CodewordsAreAPrefixCode : (∀ l, some l ∈ bookC1.len → 1 ≤ l) ∧ buildTree bookC1.len = some bookC1.tree
    ∧ bookC1.len[2]? = some (some 3) ∧ bookC1.tree.nodeAt [false, true, false] = some (.leaf 2) := by
  refine ⟨fun l h => ?_, by decide⟩
  simp [bookC1] at h
  omega

theorem witness_CbScalarWalksTheTree :
    (withBook bookC1 (spelled [false, true, false])).cfgState = .sealed
      ∧ 0 < (withBook bookC1 (spelled [false, true, false])).cbCount
      ∧ Sparse.find (withBook bookC1 (spelled [false, true, false])).cb 0 = some bookC1
      ∧ packetHas (withBook bookC1 (spelled [false, true, false])) [false, true, false] = true
      ∧ bookC1.tree.nodeAt [false, true, false] = some (.leaf 2)
      ∧ packetHas (withBook bookC7 (spelled [false, true])) [false, true] = true
      ∧ bookC7.tree.nodeAt [false, true] = some .empty
      ∧ packetHas (withBook bookC1 (ending [false])) [false] = true
      ∧ bookC1.tree.nodeAt [false] = some (.inner (.leaf 0) (.inner (.leaf 2) (.leaf 3)))
      ∧ (ending [false]).bitpos + [false].length = 8 * (ending [false]).pktlen
      ∧ packetHas halfWritten [] = true ∧ bookC1.tree.nodeAt [] = some bookC1.tree
      ∧ { halfWritten with bitpos := 8 }.bitpos + 0 < 8 * halfWritten.pktlen
      ∧ Sparse.find halfWritten.pkt (({ halfWritten with bitpos := 8 }.bitpos + 0) / 8) = none := by decide +kernel

theorem witness_CbVectorWritesOrAccumulates :
    let s := { withBook bookC1 (spelled [false, false]) with arg0 := 131070, vec := [(131070, 0), (131071, 0xBF800000)] }
    s.cfgState = .sealed ∧ 0 < s.cbCount ∧ s.cb.find 0 = some bookC1 ∧ bookC1.lookup.isSome = true
      ∧ s.arg0.toNat + bookC1.dim ≤ s.params.vecWords ∧ packetHas s [false, false] = true
      ∧ bookC1.tree.nodeAt [false, false] = some (.leaf 0)
      ∧ (∃ row, (bookC1.lookup.map Lookup.val).bind (·[0]?) = some row ∧ row.length = bookC1.dim)
      ∧ VecWritten s s.arg0.toNat bookC1.dim := by
  refine ⟨rfl, by decide, rfl, rfl, by decide +kernel, by decide +kernel, rfl, ⟨_, rfl, rfl⟩, ?_⟩
  unfold VecWritten
  decide +kernel

theorem witness_CbVectorRefusals : classBook.lookup = none ∧ bookC1.lookup ≠ none
    ∧ State.reset.params.vecWords < { State.reset with arg0 := 131071 }.arg0.toNat + bookC1.dim
    ∧ ({ bookC7 with lookup := bookC1.lookup } : Codebook).tree.nodeAt [true] = some .empty
    ∧ packetHas (withBook { bookC7 with lookup := bookC1.lookup } (spelled [true])) [true] = true
    ∧ packetHas (withBook bookC1 (ending [false])) [false] = true
    ∧ bookC1.tree.nodeAt [false] = some (.inner (.leaf 0) (.inner (.leaf 2) (.leaf 3)))
    ∧ (ending [false]).bitpos + [false].length = 8 * (ending [false]).pktlen
    ∧ bookC1.tree.nodeAt [true] = some (.leaf 1) ∧ 1 < bookC1.dim
    ∧ (∀ k, k < 1 → (Sparse.find { State.reset with vec := [(0, 7)] }.vec (0 + k)).isSome = true)
    ∧ Sparse.find { State.reset with vec := [(0, 7)] }.vec (0 + 1) = none := by decide +kernel

/-- The header of C1, of C2, and of a book with UNUSED entries and an explicit table. -/
def headerC1 : CodebookHeader := ⟨2, 4, .dense [2, 1, 3, 3], some ⟨.lattice, 0xE0100000, 0x60100000, 1, false, [0, 1]⟩⟩
def headerC2 : CodebookHeader := ⟨1, 4, .ordered 1 [1, 1, 2], none⟩
def headerExplicit : CodebookHeader :=
  ⟨1, 3, .sparse [some 1, none, some 1], some ⟨.explicit, 0, 0x60100000, 16, true, [0, 1, 65535]⟩⟩

theorem witness_CbDefineParsesTheHeader : headerC1.wellFormed = true ∧ headerC2.wellFormed = true
    ∧ headerExplicit.wellFormed = true ∧ buildTree headerC1.lengths.lengths = some bookC1.tree
    ∧ buildTree headerC2.lengths.lengths = some bookC2.tree
    ∧ buildTree headerExplicit.lengths.lengths = some (.inner (.leaf 0) (.leaf 2))
    ∧ headerC1.fits bookC1.tree 0 (spelled headerC1.bits) = true
    ∧ headerC2.fits bookC2.tree 255 (spelled headerC2.bits) = true
    ∧ headerExplicit.fits (.inner (.leaf 0) (.leaf 2)) 0 (spelled headerExplicit.bits) = true
    ∧ (spelled headerC1.bits).cfgState = .opened ∧ packetHas (spelled headerC1.bits) headerC1.bits = true
    ∧ packetHas (spelled headerC2.bits) headerC2.bits = true
    ∧ packetHas (spelled headerExplicit.bits) headerExplicit.bits = true := by decide +kernel

/-- The front of a codebook header, up to its lengths. -/
def front (dim count : Nat) (f : LengthFields) : List Bool :=
  fieldBits 24 0x564342 ++ fieldBits 16 dim ++ fieldBits 24 count ++ f.bits count

theorem witness_CbDefineRefusals :
    packetHas (spelled (fieldBits 24 0x564341)) (fieldBits 24 0x564341) = true
      ∧ (LengthFields.dense [1, 1, 1]).wellFormed 3 = true ∧ buildTree (LengthFields.dense [1, 1, 1]).lengths = none
      ∧ packetHas (spelled (front 1 3 (.dense [1, 1, 1]))) (front 1 3 (.dense [1, 1, 1])) = true
      ∧ (LengthFields.dense [1, 1]).wellFormed 2 = true
      ∧ buildTree (LengthFields.dense [1, 1]).lengths = some classBook.tree
      ∧ (∀ dim ty, (dim, ty) ∈ [(1, 3), (1, 2), (0, 1), (65535, 1)] →
          packetHas (spelled (front dim 2 (.dense [1, 1]) ++ fieldBits 4 ty)) (front dim 2 (.dense [1, 1]) ++ fieldBits 4 ty)
            = true)
      ∧ (let s := State.reset
         ¬ (s.params.nodeCap < nodesUsed s - slotNodes s 0 + classBook.tree.nodes)
         ∧ { Params.default with nodeCap := 2 }.nodeCap < nodesUsed s - slotNodes s 0 + classBook.tree.nodes
         ∧ { Params.default with valCap := 131069 }.valCap < valsUsed s - slotVals s 0 + 2 * 65535
         ∧ { Params.default with lookup2 := .unsupported }.lookup2 = .unsupported
         ∧ s.params.lookup2 = .vorbisFormula)
      ∧ (let p := (front 1 3 (.dense [1, 1, 1])).dropLast
         p <+: front 1 3 (.dense [1, 1, 1]) ∧ p ≠ front 1 3 (.dense [1, 1, 1]) ∧ packetHas (ending p) p = true
         ∧ (ending p).bitpos + p.length = 8 * (ending p).pktlen)
      ∧ (let p := headerC1.bits.dropLast
         p <+: headerC1.bits ∧ p ≠ headerC1.bits ∧ packetHas (ending p) p = true
         ∧ (ending p).bitpos + p.length = 8 * (ending p).pktlen ∧ headerC1.fits bookC1.tree 0 (ending p) = true) := by
  refine ⟨by decide +kernel, by decide, by decide, by decide +kernel, by decide, by decide, ?_, by decide +kernel,
    by decide +kernel, by decide +kernel⟩
  intro dim ty h
  simp at h
  rcases h with ⟨rfl, rfl⟩ | ⟨rfl, rfl⟩ | ⟨rfl, rfl⟩ | ⟨rfl, rfl⟩ <;> decide +kernel

/-- Ordered runs that fit and leave an entry: the packet ends inside the next count; a count of 3 for 2 entries left;
and a run of length 33 after one of length 32. -/
theorem witness_CbDefineRefusals_ordered :
    let bits := fun (count first : Nat) (runs : List Nat) => fieldBits 24 0x564342 ++ fieldBits 16 1 ++ fieldBits 24 count
      ++ true :: fieldBits 5 (first - 1) ++ runBits count runs
    runsFit 4 1 [1, 1] = true ∧ [1, 1].sum < 4 ∧ [true].length < ilog (4 - [1, 1].sum)
      ∧ packetHas (ending (bits 4 1 [1, 1] ++ [true])) (bits 4 1 [1, 1] ++ [true]) = true
      ∧ (ending (bits 4 1 [1, 1] ++ [true])).bitpos + (bits 4 1 [1, 1] ++ [true]).length
          = 8 * (ending (bits 4 1 [1, 1] ++ [true])).pktlen
      ∧ 3 < 2 ^ ilog (4 - [1, 1].sum) ∧ 4 - [1, 1].sum < 3
      ∧ packetHas (spelled (bits 4 1 [1, 1] ++ fieldBits 2 3)) (bits 4 1 [1, 1] ++ fieldBits 2 3) = true
      ∧ runsFit 2 32 [1] = true ∧ [1].sum < 2 ∧ 1 < 2 ^ ilog (2 - [1].sum) ∧ 0 < 1 ∧ 32 < 32 + [1].length
      ∧ packetHas (spelled (bits 2 32 [1] ++ fieldBits 1 1)) (bits 2 32 [1] ++ fieldBits 1 1) = true := by
  decide +kernel

/-- The residue header of X4. -/
def headerX4 : ResidueHeader := ⟨1, 0, 6, 3, 1, [(1, none)], [firstBook]⟩

theorem witness_ResDefineParsesTheHeader : headerX4.wellFormed = true ∧ headerX4.record = residueX4
    ∧ packetHas (spelled headerX4.bits) headerX4.bits = true ∧ (spelled headerX4.bits).cfgState = .opened
    ∧ residueResolves { spelled headerX4.bits with cb := [(0, bookC1), (1, classBook)] } headerX4.record = true
    ∧ residueResolves (spelled headerX4.bits) headerX4.record = false
    ∧ packetHas (spelled (fieldBits 16 3)) (fieldBits 16 3) = true
    ∧ packetHas (spelled (fieldBits 16 65535)) (fieldBits 16 65535) = true
    ∧ (let p := headerX4.bits.dropLast
       p <+: headerX4.bits ∧ p ≠ headerX4.bits ∧ packetHas (ending p) p = true
       ∧ (ending p).bitpos + p.length = 8 * (ending p).pktlen) := by decide +kernel

/-- X1 and X4 ready to decode, with a mask of silent vectors. -/
def readyX1 (silent : Word) : State := { withResidue residueX1 (packet [0x0B] 0) with arg1 := 4, silent }
def readyX4 (silent : Word) : State := { withResidue residueX4 (packet [0x42, 0x06] 0) with arg1 := 8, silent }

theorem witness_ResDecodeOfSilentVectorsGivesZeros :
    (readyX1 3).cfgState = .sealed ∧ 0 < (readyX1 3).resCount ∧ (readyX1 3).res.find 0 = some residueX1
      ∧ (readyX1 3).arg0.toNat + 2 * (readyX1 3).arg1.toNat ≤ (readyX1 3).params.vecWords
      ∧ (∀ v, v < 2 → (readyX1 3).silent.getLsbD v = true) ∧ residueX1.type = 2
      ∧ (readyX4 1).res.find 0 = some residueX4 ∧ (∀ v, v < 1 → (readyX4 1).silent.getLsbD v = true)
      ∧ residueX4.type = 1 ∧ residueX4.stop ≤ (readyX4 1).arg1.toNat
      ∧ (readyX4 1).cb.find residueX4.classbook = some classBook ∧ 1 ≤ classBook.dim := by
  refine ⟨by decide +kernel, by decide +kernel, by decide +kernel, by decide +kernel, by decide +kernel, ?_⟩
  decide +kernel

/-- A class book of two digits to a codeword. -/
def classBook2 : Codebook where
  dim := 2
  count := 4
  len := [some 2, some 2, some 2, some 2]
  tree := .inner (.inner (.leaf 0) (.leaf 1)) (.inner (.leaf 2) (.leaf 3))
  lookup := none

/-- Three partitions of three elements; class 0 has a book in pass 0, class 1 in passes 1 and 7. -/
def residueLong (type : Nat) : Residue where
  type := type
  begin := 0
  stop := 9
  psize := 3
  classes := 2
  classbook := 1
  cascade := [1, 0x82]
  books := [firstBook, [none, some 0, none, none, none, none, none, some 0]]

/-- Classes 0 and 1 for the first group, 1 for the last partition, and two vectors of C1 for each partition filled. -/
def wordsLong : StepWords
  | .classify 0 _ => [([false, true], 1)]
  | .classify _ _ => [([true, false], 2)]
  | .fill 0 0 _ => [([false, false], 0), ([true], 1)]
  | .fill 1 (_ + 1) _ | .fill 7 (_ + 1) _ => [([false, true, true], 3), ([false, true, false], 2)]
  | .fill _ _ _ => []

/-- A residue with these two books, sealed, and this packet. -/
def withBooks (x : Residue) (book0 book1 : Codebook) (s : State) : State :=
  { s with cfgState := .sealed, cb := [(0, book0), (1, book1)], cbCount := 2, res := [(0, x)], resCount := 1 }

/-- Type 1 with vector 1 of three silent, and type 2 with vector 0 of two silent. -/
theorem witness_ResDecodeFillsAPartition :
    let steps1 := residueSteps [0, 2] 2 3
    let steps2 := residueSteps [0] 2 3
    let s1 := { withBooks (residueLong 1) bookC1 classBook2 (spelled (traceBits wordsLong steps1)) with
      arg1 := 10, silent := 2 }
    let s2 := { withBooks (residueLong 2) bookC1 classBook2 (spelled (traceBits wordsLong steps2)) with
      arg1 := 5, silent := 1 }
    s1.res.find 0 = some (residueLong 1) ∧ s2.res.find 0 = some (residueLong 2)
      ∧ (residueLong 1).wellFormed = true ∧ (residueLong 2).wellFormed = true
      ∧ s1.arg0.toNat + 3 * s1.arg1.toNat ≤ s1.params.vecWords ∧ s2.arg0.toNat + 2 * s2.arg1.toNat ≤ s2.params.vecWords
      ∧ ((List.range 3).filter fun v => !s1.silent.getLsbD v) = [0, 2] ∧ s2.silent.getLsbD 1 = false
      ∧ ((residueLong 1).stop - (residueLong 1).begin) / (residueLong 1).psize = 3
      ∧ (residueLong 1).stop ≤ s1.arg1.toNat ∧ (residueLong 2).stop ≤ 2 * s2.arg1.toNat
      ∧ s1.cb.find (residueLong 1).classbook = some classBook2 ∧ 1 ≤ classBook2.dim
      ∧ (∀ step ∈ steps1, stepOk s1.cb (residueLong 1) 2 10 wordsLong step = true)
      ∧ (∀ step ∈ steps2, stepOk s2.cb (residueLong 2) 2 10 wordsLong step = true)
      ∧ packetHas s1 (traceBits wordsLong steps1) = true ∧ packetHas s2 (traceBits wordsLong steps2) = true
      ∧ (traceBits wordsLong steps2).length = 31 := by
  decide +kernel

theorem witness_ResDecodeRefusals :
    let s := readyX1 1
    s.cfgState = .sealed ∧ 0 < s.resCount ∧ s.res.find 0 = some residueX1
      ∧ s.params.vecWords < { s with arg0 := 131065 }.arg0.toNat + 2 * s.arg1.toNat
      ∧ { s with arg0 := 131064 }.arg0.toNat + 2 * s.arg1.toNat ≤ s.params.vecWords
      ∧ { residueX1 with type := 0 }.type = 0 ∧ residueX4.type = 1 ∧ residueX1.type = 2 ∧ s.silent.getLsbD 1 = false
      ∧ { residueX1 with begin := 9 }.stop < { residueX1 with begin := 9 }.begin
      ∧ 2 * { s with arg1 := 3 }.arg1.toNat < residueX1.stop
      ∧ ({ s with cb := [(1, { classBook with dim := 0 })] }.cb.find residueX1.classbook).map Codebook.dim = some 0
      ∧ residueX1.begin + residueX1.psize ≤ residueX1.stop ∧ residueX1.stop ≤ 2 * s.arg1.toNat := by
  decide +kernel

/-- One class, class word 0. -/
def wordsX4 : StepWords
  | .classify _ _ => [([false], 0)]
  | .fill _ _ _ => []

/-- The class codeword and the first fill of X4's residue meet an empty branch, the packet's end, a book without a
table, and an element past the vector. -/
theorem witness_ResDecodeRefusals_reading :
    residueX4.wellFormed = true ∧ residueSteps [0] 1 2 = [] ++ .classify 0 0 :: (residueSteps [0] 1 2).drop 1
      ∧ residueSteps [0] 1 2 = [.classify 0 0] ++ .fill 0 0 0 :: (residueSteps [0] 1 2).drop 2
      ∧ (residueX4.stop - residueX4.begin) / residueX4.psize = 2
      ∧ bookC7.tree.nodeAt [true] = some .empty ∧ packetHas (spelled [true]) [true] = true
      ∧ classBook.tree.nodeAt [] = some (.inner (.leaf 0) (.leaf 1)) ∧ packetHas (packet [] 0) [] = true
      ∧ (packet [] 0).bitpos + 0 = 8 * (packet [] 0).pktlen
      ∧ stepOk [(0, bookC1), (1, classBook)] residueX4 1 8 wordsX4 (.classify 0 0) = true
      ∧ traceBits wordsX4 [.classify 0 0] = [false]
      ∧ passBook residueX4 (partitionClass residueX4 1 wordsX4 0 0) 0 = some 0
      ∧ classBook.lookup = none ∧ packetHas (spelled [false]) [false] = true
      ∧ vectorsOf bookC1 [] = true ∧ 0 * bookC1.dim < residueX4.psize
      ∧ vectorsOf { bookC7 with lookup := bookC1.lookup } [] = true
      ∧ packetHas (spelled [false, true]) ([false] ++ [true]) = true
      ∧ bookC1.tree.nodeAt [false] = some (.inner (.leaf 0) (.inner (.leaf 2) (.leaf 3)))
      ∧ packetHas (ending [false, false]) ([false] ++ [false]) = true
      ∧ (ending [false, false]).bitpos + ([false] ++ [false]).length = 8 * (ending [false, false]).pktlen
      ∧ vectorsOf bookC1 [([true], 1)] = true ∧ 1 * bookC1.dim < residueX4.psize
      ∧ (let x := { residueX4 with stop := 3 }
         x.begin + 0 * x.psize + 1 * bookC1.dim ≤ 3 ∧ 3 < x.begin + 0 * x.psize + (1 + 1) * bookC1.dim)
      ∧ packetHas (spelled [false, true, true]) ([false] ++ [true] ++ [true]) = true := by
  decide +kernel

theorem witness_ResDecodeDoesNotSeeOldVec : (readyX1 0).err = false
    ∧ seen (exec (.resDecode 0 2) (readyX1 0)) (·.err) = some false := by decide +kernel

theorem witness_SynConfigSetsTheBlockSizes : State.reset.cfgState = .opened ∧ (6 ≤ 6 ∧ 6 ≤ 13 ∧ 13 ≤ 13)
    ∧ ¬ (6 ≤ 5 ∧ 5 ≤ 8 ∧ 8 ≤ 13) ∧ ¬ (6 ≤ 6 ∧ 6 ≤ 14 ∧ 14 ≤ 13) ∧ ¬ (6 ≤ 8 ∧ 8 ≤ 7 ∧ 7 ≤ 13) := by decide

theorem witness_WindowIsPowerComplementary :
    (geometry 6 8 true false true).ln = (geometry 6 8 false true true).rn
      ∧ Geometry.le (geometry 6 8 false true true) ≤ (geometry 6 8 false true true).rs
      ∧ 0 + 1 < (geometry 6 8 true false true).ln ∧ 30 + 1 < (geometry 6 8 true false true).ln := by decide

theorem witness_SynBlockAppendsSamples :
    synth.cfgState = .sealed ∧ synth.synValid = true ∧ SizesOk synth ∧ SizesOk synthLap
      ∧ synth.lapValid = false ∧ synthLap.lapValid = true ∧ synthLap.tailLen = (geometry 6 8 true false true).ln
      ∧ synth.arg0.toNat + (geometry 6 8 true false true).n / 2 ≤ synth.params.vecWords
      ∧ synthLap.pcmcount + 80 ≤ synthLap.params.pcmWords
      ∧ (∀ k, k < 128 → synth.vec.find (synth.arg0.toNat + k) = (List.replicate 128 (0 : Word))[k]?)
      ∧ (List.replicate 128 (0 : Word)).all f32IsFinite = true := by
  unfold SizesOk
  decide +kernel

/-- A zero spectrum, after another block and as a first one: the exact samples are 0, and SYNTH(0) is within the default
tolerance. -/
theorem witness_SamplesAreWithinTheTolerance :
    let x := List.replicate 128 (0 : Word)
    SizesOk synthLap ∧ synthLap.err = false ∧ synthLap.lapValid = true ∧ SizesOk synth ∧ synth.lapValid = false
      ∧ x.all f32IsFinite = true
      ∧ (∀ g i, SynthWithin synth.params.synthTol (exactSample synth.params.imdctScale g x i))
      ∧ seen (exec (.synBlock true false true) synthLap) (·.err) = some false
      ∧ seen (exec (.synBlock true true false) synth) (fun t => (t.err, t.pcmcount)) = some (false, 48) := by
  refine ⟨by unfold SizesOk; decide +kernel, rfl, rfl, by unfold SizesOk; decide +kernel, rfl, by decide +kernel, ?_,
    by decide +kernel, by decide +kernel⟩
  intro g i
  rw [exactSample_zeros _ _ (by decide +kernel)]
  refine ⟨?_, ?_⟩
  · have h := synth_zero
    unfold f32IsZero at h
    have h := of_decide_eq_true h
    unfold f32IsFinite
    exact decide_eq_true (by omega)
  · rw [f32Real_of_isZero synth_zero, sub_zero, abs_zero]
    exact_mod_cast (by decide +kernel : (0 : Rat) ≤ 1 / 10000)

theorem witness_SynBlockRefusals :
    { synth with synValid := false }.synValid = false
      ∧ synth.params.vecWords < { synth with arg0 := 131041 }.arg0.toNat + (geometry 6 8 false false false).n / 2
      ∧ { synthLap with tailLen := 128 }.tailLen ≠ (geometry 6 8 false false false).ln
      ∧ synthLap.tailLen = (geometry 6 8 false false false).ln
      ∧ synthLap.params.pcmWords < { synthLap with pcmcount := 16374 }.pcmcount + (32 + (32 - 32))
      ∧ synthLap.pcmcount + (32 + (32 - 32)) ≤ synthLap.params.pcmWords ∧ 31 < (geometry 6 8 false false false).n / 2
      ∧ (∀ k, k < 31 → (Sparse.find { synthLap with vec := Sparse.block 0 (List.replicate 31 0) }.vec (0 + k)).isSome = true)
      ∧ Sparse.find { synthLap with vec := Sparse.block 0 (List.replicate 31 0) }.vec (0 + 31) = none := by decide +kernel

theorem witness_RunOfBlocksAppendsTheSampleCount : SizesOk synth ∧ synth.err = false ∧ synth.lapValid = false
    ∧ (runBlocks [(false, false, false), (false, false, false)] synth).map (·.pcmcount) = some 32
    ∧ (runBlocks [(true, true, true), (true, true, true)] synth).map (·.pcmcount) = some 128
    ∧ (runBlocks [(true, true, false), (false, false, false), (true, false, true)] synth).map (·.pcmcount) = some 160 := by
  unfold SizesOk
  decide +kernel

theorem witness_FrameOfReadingCommands : runs (exec (.brReadU 3) (packet [0xA5] 0)) = true
    ∧ runs (exec (.brReadS 3) (packet [0xA5] 0)) = true ∧ runs (exec .brReadF (packet [1, 2, 3, 4] 0)) = true
    ∧ runs (exec (.cbScalar 0) (withBook bookC1 (spelled [true]))) = true ∧ runs (exec .brIlog State.reset) = true := by
  decide +kernel

theorem witness_FrameOfStoringCommands : runs (exec (.cbVector 0 false) (withBook bookC1 (spelled [true]))) = true
    ∧ runs (exec (.resDecode 0 2) (readyX1 0)) = true ∧ runs (exec (.synBlock true true false) synth) = true := by
  decide +kernel

theorem witness_FrameOfConfigurationCommands : runs (exec (.cbDefine 0) (packet [0x41, 0x43, 0x56] 0)) = true
    ∧ runs (exec (.resDefine 0) (packet [3, 0] 0)) = true ∧ runs (exec .cfgSeal State.reset) = true
    ∧ seen (exec .cfgSeal { State.reset with arg0 := 257 }) (·.cfgState) = some .broken
    ∧ runs (exec (.synConfig 6 8) State.reset) = true
    ∧ seen (exec (.synConfig 5 8) State.reset) (·.err) = some true := by decide +kernel

/-- The five invariants hold of a sealed, lapping state about to be given a command, and it takes a step. -/
theorem witness_StepKeeps : RegistersOk synthLap ∧ StorageOk synthLap ∧ ConfigOk synthLap ∧ LappingOk synthLap
    ∧ TablesOk synthLap ∧ synthLap.params.wf ∧ runs (step (synthLap.withFetchWord 32 0x41000005)) = true := by
  refine ⟨by unfold RegistersOk; decide +kernel, by unfold StorageOk; decide +kernel, ?_, ?_, ?_, by decide +kernel,
    by decide +kernel⟩
  · refine ⟨fun _ => by decide, fun h => absurd rfl h, by decide, by decide, fun k hk => absurd hk (Nat.not_lt_zero _),
      fun k hk => absurd hk (Nat.not_lt_zero _)⟩
  · refine ⟨fun _ => ⟨rfl, rfl, .inl rfl⟩, ?_, fun h => absurd rfl h, List.Pairwise.nil, ?_⟩
    · exact fun h => by simp [synthLap] at h
    · exact fun n h => by simp [synthLap, synth, State.reset] at h
  · unfold TablesOk
    exact ⟨List.Pairwise.nil, by simp [synthLap, synth, State.reset], by simp [synthLap, synth, State.reset],
      by decide, by decide⟩

end Sys2Proof.Machine.Tests
end

section
/-!
PROOFS. The reset state (10_state.md rule R35) meets the invariants that every step keeps.
-/

namespace Sys2Proof.Machine

theorem registersOk_reset : RegistersOk State.reset := by
  unfold RegistersOk
  decide

theorem storageOk_reset : StorageOk State.reset := by
  obtain ⟨hpkt, hvec, hpcm, hcb, hres⟩ := reset_wf
  exact ⟨hpkt, hvec, hpcm, hcb, hres, nofun, nofun, nofun, nofun, nofun⟩

theorem configOk_reset : ConfigOk State.reset :=
  ⟨nofun, fun _ => ⟨rfl, rfl⟩, Nat.zero_le _, Nat.zero_le _, nofun, nofun⟩

theorem lappingOk_reset : LappingOk State.reset :=
  ⟨nofun, fun _ => rfl, fun h => absurd rfl h, List.Pairwise.nil, nofun⟩

theorem tablesOk_reset : TablesOk State.reset := by
  obtain ⟨_, _, _, hcb, _⟩ := reset_wf
  exact ⟨hcb, nofun, nofun, Nat.zero_le _, Nat.zero_le _⟩

/-- Settles O55: nothing is stored at reset, and every flag and count is 0. -/
theorem resetMeetsTheInvariants : Obligations.ResetMeetsTheInvariants :=
  ⟨registersOk_reset, storageOk_reset, configOk_reset, lappingOk_reset, tablesOk_reset, by decide, rfl⟩

end Sys2Proof.Machine
end

section
/-!
PROOFS. Rounding to binary32 (00_scope.md rule R12): the magnitude bits are the integer nearest to the real in units of its
quantum, and no finite word is nearer; so for every dyadic real, and for the vendor float (41_bitreader.md rule R63).
-/

namespace Sys2Proof.Machine

theorem NearInt.eq_of_nat {k n : Nat} (h : NearInt k (n : ℝ)) : k = n := by
  by_contra hne
  have h1 := one_le_dist (k := k) (n := n) (by exact_mod_cast hne) (n : ℝ)
  simp at h1
  linarith [h.1]

theorem NearInt.self (n : Nat) : NearInt n (n : ℝ) := ⟨by simp, by norm_num⟩

theorem NearInt.le_add_half {k : Nat} {y : ℝ} (h : NearInt k y) : (k : ℝ) ≤ y + 1 / 2 ∧ y ≤ k + 1 / 2 := by
  have := abs_le.1 h.1
  exact ⟨by linarith, by linarith⟩

/-- Below a half the nearest integer is 0. -/
theorem NearInt.eq_zero {k : Nat} {y : ℝ} (h : NearInt k y) (hy : y ≤ 1 / 2) : k = 0 := by
  have hk : (k : ℝ) < 2 := by linarith [h.le_add_half.1]
  have hk : k < 2 := by exact_mod_cast hk
  by_contra hne
  have hk1 : k = 1 := by omega
  have hkr : (k : ℝ) = 1 := by rw [hk1, Nat.cast_one]
  have tie : |(k : ℝ) - y| = 1 / 2 := le_antisymm h.1 (by linarith [le_abs_self ((k : ℝ) - y)])
  have := h.2 tie
  omega

theorem NearInt.bounds {k q : Nat} {y : ℝ} (h : NearInt k y) (hy : y < 2 ^ 24) (hq : q = 0 ∨ 2 ^ 23 ≤ y) :
    k ≤ 2 ^ 24 ∧ (q = 0 ∨ 2 ^ 23 ≤ k) := by
  obtain ⟨h1, h2⟩ := h.le_add_half
  constructor
  · have : (k : ℝ) < (2 ^ 24 + 1 : Nat) := by push_cast; linarith
    have : k < 2 ^ 24 + 1 := by exact_mod_cast this
    omega
  · refine hq.imp_right fun hq => ?_
    have : ((2 ^ 23 : Nat) : ℝ) < (k + 1 : Nat) := by push_cast; linarith
    have : 2 ^ 23 < k + 1 := by exact_mod_cast this
    omega

/-- The nearest integer to 2^24 - 1/2 and above is 2^24: the tie goes to the even one. -/
theorem NearInt.top_iff {k : Nat} {y : ℝ} (h : NearInt k y) : 2 ^ 24 ≤ k ↔ 2 ^ 24 - 1 / 2 ≤ y := by
  obtain ⟨h1, h2⟩ := h.le_add_half
  constructor
  · intro hk
    have : ((2 ^ 24 : Nat) : ℝ) ≤ k := by exact_mod_cast hk
    push_cast at this
    linarith
  · intro hle
    by_contra hk
    have hk1 : (k : ℝ) + 1 ≤ 2 ^ 24 := by exact_mod_cast (by omega : k + 1 ≤ 2 ^ 24)
    have hk2 : (k : ℝ) + 1 = 2 ^ 24 := by linarith
    have hk3 : k + 1 = 2 ^ 24 := by exact_mod_cast hk2
    have tie : |(k : ℝ) - y| = 1 / 2 := le_antisymm h.1 (by linarith [neg_abs_le ((k : ℝ) - y)])
    have := h.2 tie
    omega

/-- A magnitude reaches the infinity pattern exactly when the real reaches R63's overflow bound. -/
theorem overflow_iff {k q : Nat} {y : ℝ} (h : NearInt k y) (hy : y < 2 ^ 24) (hq : q = 0 ∨ 2 ^ 23 ≤ y) :
    (2 : ℝ) ^ 128 * (1 - (2 : ℝ) ^ (-25 : ℤ)) ≤ y * (2 : ℝ) ^ ((q : ℤ) - 149) ↔ 0x7F800000 ≤ q * 2 ^ 23 + k := by
  obtain ⟨hk1, hk2⟩ := h.bounds hy hq
  have bound : (2 : ℝ) ^ 128 * (1 - (2 : ℝ) ^ (-25 : ℤ)) = (2 ^ 24 - 1 / 2) * (2 : ℝ) ^ (104 : ℤ) := by norm_num
  have hp : (0 : ℝ) < (2 : ℝ) ^ (104 : ℤ) := by positivity
  rw [bound]
  rcases Nat.lt_trichotomy q 253 with h253 | rfl | h253
  · have hexp : (2 : ℝ) ^ ((q : ℤ) - 149) ≤ (2 : ℝ) ^ (103 : ℤ) := zpow_le_zpow_right₀ (by norm_num) (by omega)
    have hlt : y * (2 : ℝ) ^ ((q : ℤ) - 149) < 2 ^ 24 * (2 : ℝ) ^ (103 : ℤ) :=
      mul_lt_mul hy hexp (by positivity) (by norm_num)
    refine ⟨fun hle => absurd (lt_of_le_of_lt hle hlt) (by norm_num), fun hle => by omega⟩
  · rw [show (((253 : Nat) : ℤ) - 149) = 104 by norm_num, mul_le_mul_iff_left₀ hp, ← h.top_iff]
    omega
  · have hy23 : (2 : ℝ) ^ 23 ≤ y := hq.resolve_left (by omega)
    have hexp : (2 : ℝ) ^ (105 : ℤ) ≤ (2 : ℝ) ^ ((q : ℤ) - 149) := zpow_le_zpow_right₀ (by norm_num) (by omega)
    have hle : 2 ^ 23 * (2 : ℝ) ^ (105 : ℤ) ≤ y * (2 : ℝ) ^ ((q : ℤ) - 149) :=
      mul_le_mul hy23 hexp (by positivity) (by linarith)
    exact ⟨fun _ => by omega, fun _ => le_trans (by norm_num) hle⟩

/-- No 24-bit multiple of a power of two from 2^-149 on is nearer to y, in units of the quantum 2^(q-149), than the
nearest integer k is; one as near is k itself, or k is even. -/
theorem NearInt.le_binary32 {k q : Nat} {y : ℝ} (h : NearInt k y) (hq : q = 0 ∨ 2 ^ 23 ≤ y) {n e : ℤ} (he : -149 ≤ e)
    (hn : |n| < 2 ^ 24) :
    |(k : ℝ) - y| ≤ |n * (2 : ℝ) ^ (e - ((q : ℤ) - 149)) - y|
      ∧ (|n * (2 : ℝ) ^ (e - ((q : ℤ) - 149)) - y| = |(k : ℝ) - y| → n * (2 : ℝ) ^ (e - ((q : ℤ) - 149)) ≠ k → k % 2 = 0) := by
  rcases le_or_gt ((q : ℤ) - 149) e with hge | hlt
  · obtain ⟨d, hd⟩ := Int.eq_ofNat_of_zero_le (sub_nonneg.2 hge)
    have hz : n * (2 : ℝ) ^ (e - ((q : ℤ) - 149)) = ((n * 2 ^ d : ℤ) : ℝ) := by rw [hd, zpow_natCast]; push_cast; rfl
    rw [hz]
    exact ⟨h.le _, fun ht hne => h.even_of_tie hne ht⟩
  · have hy : (2 : ℝ) ^ 23 ≤ y := hq.resolve_left (by omega)
    have hn' : (n : ℝ) < 2 ^ 24 := by exact_mod_cast lt_of_le_of_lt (le_abs_self n) hn
    have hexp : (2 : ℝ) ^ (e - ((q : ℤ) - 149)) ≤ 2 ^ (-1 : ℤ) := zpow_le_zpow_right₀ (by norm_num) (by omega)
    have hpos : (0 : ℝ) < (2 : ℝ) ^ (e - ((q : ℤ) - 149)) := by positivity
    have hz : n * (2 : ℝ) ^ (e - ((q : ℤ) - 149)) < 2 ^ 23 := by
      rw [zpow_neg_one] at hexp
      nlinarith
    have hk := h.le (2 ^ 23)
    have far : |((2 ^ 23 : ℤ) : ℝ) - y| < |n * (2 : ℝ) ^ (e - ((q : ℤ) - 149)) - y| := by
      push_cast
      rw [abs_of_nonpos (by linarith), abs_of_nonpos (by linarith)]
      linarith
    exact ⟨by linarith, fun ht => absurd ht (by linarith)⟩

/-- The real of significand z in units of the quantum 2^(q-149), with a sign. -/
noncomputable def inQuanta (neg : Bool) (q : Nat) (z : ℝ) : ℝ :=
  (if neg then -1 else 1) * (z * (2 : ℝ) ^ ((q : ℤ) - 149))

theorem abs_inQuanta_sub (neg : Bool) (q : Nat) (z y : ℝ) :
    |inQuanta neg q z - inQuanta neg q y| = |z - y| * (2 : ℝ) ^ ((q : ℤ) - 149) := by
  unfold inQuanta
  rw [← mul_sub, ← sub_mul, abs_mul, abs_mul, abs_of_pos (show (0 : ℝ) < (2 : ℝ) ^ ((q : ℤ) - 149) by positivity)]
  cases neg <;> simp

theorem abs_inQuanta (neg : Bool) (q : Nat) {y : ℝ} (h : 0 < y) :
    |inQuanta neg q y| = y * (2 : ℝ) ^ ((q : ℤ) - 149) := by
  have := abs_inQuanta_sub neg q y 0
  rwa [show inQuanta neg q 0 = 0 by simp [inQuanta], sub_zero, sub_zero, abs_of_pos h] at this

theorem inQuanta_neg_iff (neg : Bool) (q : Nat) {y : ℝ} (h : 0 < y) : decide (inQuanta neg q y < 0) = neg := by
  have hx : 0 < y * (2 : ℝ) ^ ((q : ℤ) - 149) := by positivity
  unfold inQuanta
  cases neg
  · simpa using hx.le
  · simp [hx]

/-- A finite word in units of any quantum: a 24-bit integer times a power of two. -/
theorem f32Real_inQuanta (neg : Bool) (q : Nat) {v : Word} (h : f32IsFinite v = true) :
    ∃ n e : ℤ, -149 ≤ e ∧ |n| < 2 ^ 24 ∧ f32Real v = inQuanta neg q (n * (2 : ℝ) ^ (e - ((q : ℤ) - 149))) := by
  obtain ⟨n, e, he, hn, hr⟩ := finite_form v h
  refine ⟨if neg then -n else n, e, he, by cases neg <;> simpa using hn, ?_⟩
  rw [hr, inQuanta, mul_assoc, ← zpow_add₀ two_ne_zero, sub_add_cancel]
  cases neg <;> simp

/-- A nonzero real of significand y in units of 2^(q-149), normalised to 24 bits, rounds to the pattern of its nearest
integer significand, or to infinity past the largest magnitude. -/
theorem roundsTo_f32Pack (neg : Bool) {k q : Nat} {y : ℝ} (h : NearInt k y) (h0 : 0 < y) (hy : y < 2 ^ 24)
    (hq : q = 0 ∨ 2 ^ 23 ≤ y) : RoundsTo (inQuanta neg q y) (f32Pack neg (min (q * 2 ^ 23 + k) 0x7F800000)) := by
  unfold RoundsTo
  rw [abs_inQuanta neg q h0, inQuanta_neg_iff neg q h0]
  by_cases hover : 0x7F800000 ≤ q * 2 ^ 23 + k
  · rw [if_pos ((overflow_iff h hy hq).2 hover), min_eq_right hover]
  · obtain ⟨hk1, hk2⟩ := h.bounds hy hq
    obtain ⟨hfin, hreal⟩ := f32Real_f32Pack neg hk1 hk2 (Nat.lt_of_not_le hover)
    have hw : f32Real (f32Pack neg (q * 2 ^ 23 + k)) = inQuanta neg q k := by
      rw [hreal, dyadicReal, mul_assoc, inQuanta]
    have hp : (0 : ℝ) < (2 : ℝ) ^ ((q : ℤ) - 149) := by positivity
    rw [if_neg (mt (overflow_iff h hy hq).1 hover), min_eq_left (by omega), hw, abs_inQuanta_sub]
    refine ⟨hfin, fun v hv => ?_, fun v hv ht hne => ?_⟩ <;>
      obtain ⟨n, e, he, hn, hr⟩ := f32Real_inQuanta neg q hv
    · rw [hr, abs_inQuanta_sub]
      exact mul_le_mul_of_nonneg_right (h.le_binary32 hq he hn).1 hp.le
    · rw [hr, abs_inQuanta_sub] at ht
      exact f32Pack_even neg ((h.le_binary32 hq he hn).2 (mul_right_cancel₀ hp.ne' ht) fun hz => hne (by rw [hr, hz]))

/-- The quantum exponent of m · 2^e, over 2^-149. -/
def quantumOf (m : Nat) (e : Int) : Nat := (max (e + ilog m - 24) (-149) + 149).toNat

/-- The significand of m · 2^e in units of its quantum. -/
noncomputable def significandOf (m : Nat) (e : Int) : ℝ := m * (2 : ℝ) ^ (e - ((quantumOf m e : ℤ) - 149))

theorem quantumOf_sub (m : Nat) (e : Int) : (quantumOf m e : ℤ) - 149 = max (e + ilog m - 24) (-149) := by
  unfold quantumOf
  omega

theorem significandOf_mul (m : Nat) (e : Int) :
    significandOf m e * (2 : ℝ) ^ ((quantumOf m e : ℤ) - 149) = m * (2 : ℝ) ^ e := by
  rw [significandOf, mul_assoc, ← zpow_add₀ two_ne_zero, sub_add_cancel]

theorem dyadicReal_eq_inQuanta (neg : Bool) (m : Nat) (e : Int) :
    dyadicReal neg m e = inQuanta neg (quantumOf m e) (significandOf m e) := by
  rw [inQuanta, significandOf_mul, dyadicReal, mul_assoc]

/-- The magnitude bits are the quantum and the nearest integer significand (R12). -/
theorem f32RoundMagnitude_eq (m : Nat) (e : Int) :
    ∃ k, NearInt k (significandOf m e) ∧ f32RoundMagnitude m e = min (quantumOf m e * 2 ^ 23 + k) 0x7F800000 := by
  unfold f32RoundMagnitude significandOf
  rw [quantumOf_sub]
  unfold quantumOf
  generalize max (e + ilog m - 24) (-149) = Q
  simp only
  split_ifs with h
  · obtain ⟨d, hd⟩ := Int.eq_ofNat_of_zero_le (sub_nonneg.2 h)
    refine ⟨m * 2 ^ d, ?_, by rw [hd]; rfl⟩
    rw [hd, zpow_natCast]
    exact_mod_cast NearInt.self (m * 2 ^ d)
  · obtain ⟨d, hd⟩ := Int.eq_ofNat_of_zero_le (sub_nonneg.2 (le_of_not_ge h))
    refine ⟨roundShift m d, ?_, by rw [hd]; rfl⟩
    rw [show e - Q = -(d : ℤ) by omega, zpow_neg, zpow_natCast, ← div_eq_mul_inv]
    exact nearInt_roundShift m d

theorem significandOf_lt (m : Nat) (e : Int) : significandOf m e < 2 ^ 24 := by
  have hm : (m : ℝ) < (2 : ℝ) ^ (ilog m : ℤ) := by rw [zpow_natCast]; exact_mod_cast lt_two_pow_ilog m
  have hexp : (ilog m : ℤ) + (e - ((quantumOf m e : ℤ) - 149)) ≤ 24 := by rw [quantumOf_sub]; omega
  calc significandOf m e < (2 : ℝ) ^ (ilog m : ℤ) * (2 : ℝ) ^ (e - ((quantumOf m e : ℤ) - 149)) :=
        mul_lt_mul_of_pos_right hm (by positivity)
    _ = (2 : ℝ) ^ ((ilog m : ℤ) + (e - ((quantumOf m e : ℤ) - 149))) := (zpow_add₀ two_ne_zero _ _).symm
    _ ≤ (2 : ℝ) ^ (24 : ℤ) := zpow_le_zpow_right₀ (by norm_num) hexp
    _ = 2 ^ 24 := by norm_num

theorem le_significandOf {m : Nat} (hm : m ≠ 0) (e : Int) : quantumOf m e = 0 ∨ 2 ^ 23 ≤ significandOf m e := by
  obtain ⟨h1, h2⟩ := two_pow_le_of_ilog hm
  refine or_iff_not_imp_left.2 fun hq => ?_
  have hexp : ((ilog m - 1 : Nat) : ℤ) + (e - ((quantumOf m e : ℤ) - 149)) = 23 := by
    have := quantumOf_sub m e
    omega
  have hm' : (2 : ℝ) ^ ((ilog m - 1 : Nat) : ℤ) ≤ m := by rw [zpow_natCast]; exact_mod_cast h1
  calc (2 : ℝ) ^ 23 = (2 : ℝ) ^ (((ilog m - 1 : Nat) : ℤ) + (e - ((quantumOf m e : ℤ) - 149))) := by
        rw [hexp]; norm_num
    _ = (2 : ℝ) ^ ((ilog m - 1 : Nat) : ℤ) * (2 : ℝ) ^ (e - ((quantumOf m e : ℤ) - 149)) := zpow_add₀ two_ne_zero _ _
    _ ≤ significandOf m e := mul_le_mul_of_nonneg_right hm' (by positivity)

theorem significandOf_pos {m : Nat} (hm : m ≠ 0) (e : Int) : 0 < significandOf m e :=
  mul_pos (by exact_mod_cast Nat.pos_of_ne_zero hm) (by positivity)

/-- `f32round` of a nonzero dyadic real is the real rounded to nearest even (R12). -/
theorem roundsTo_f32Round (neg : Bool) {m : Nat} (e : Int) (hm : m ≠ 0) :
    RoundsTo (dyadicReal neg m e) (f32Round neg m e) := by
  obtain ⟨k, hk, hmag⟩ := f32RoundMagnitude_eq m e
  rw [dyadicReal_eq_inQuanta, f32Round, if_neg hm, hmag]
  exact roundsTo_f32Pack neg hk (significandOf_pos hm e) (significandOf_lt m e) (le_significandOf hm e)

/-- Settles O28: the magnitude's significand is the integer nearest to the real in units of its quantum, so no finite
word is nearer to the real. -/
theorem f32RoundIsNearestEven : Obligations.F32RoundIsNearestEven :=
  fun neg _ e hm => roundsTo_f32Round neg e hm

/-- Reals up to 2^-150 in magnitude round to a zero of their sign. -/
theorem f32Round_eq_zero {neg : Bool} {m : Nat} {e : Int} (hm : m ≠ 0)
    (h : |dyadicReal neg m e| ≤ (2 : ℝ) ^ (-150 : ℤ)) : f32Round neg m e = f32Pack neg 0 := by
  obtain ⟨k, hk, hmag⟩ := f32RoundMagnitude_eq m e
  rw [dyadicReal_eq_inQuanta, abs_inQuanta neg _ (significandOf_pos hm e)] at h
  have hp : (2 : ℝ) ^ (-149 : ℤ) ≤ (2 : ℝ) ^ ((quantumOf m e : ℤ) - 149) := zpow_le_zpow_right₀ (by norm_num) (by omega)
  have hs : significandOf m e ≤ 1 / 2 := by
    have : significandOf m e * (2 : ℝ) ^ (-149 : ℤ) ≤ 1 / 2 * (2 : ℝ) ^ (-149 : ℤ) :=
      le_trans (mul_le_mul_of_nonneg_left hp (significandOf_pos hm e).le) (le_trans h (by norm_num))
    exact le_of_mul_le_mul_right this (by positivity)
  have hq : quantumOf m e = 0 := (le_significandOf hm e).resolve_right (by linarith)
  rw [f32Round, if_neg hm, hmag, hq, hk.eq_zero hs]
  rfl

/-- Settles O25, from the rounding of every nonzero dyadic real. -/
theorem vendorFloatIsTheRoundedReal : Obligations.VendorFloatIsTheRoundedReal := by
  intro x hx neg mant e r
  have hneg : decide (x / 2 ^ 31 % 2 = 1) = neg := by
    have : x / 2 ^ 31 % 2 = x / 2 ^ 31 := Nat.mod_eq_of_lt (by omega)
    rw [this]
  have hround : ∀ f : F32Choice, mant ≠ 0 → vendorFloat f x = f.round neg mant e := fun f hm => by
    rw [← hneg]
    exact if_neg hm
  refine ⟨fun f => ⟨fun hm => if_pos hm, hround f⟩, fun hm => ?_⟩
  rw [hround .ieee hm]
  exact ⟨roundsTo_f32Round neg e hm, f32Round_eq_zero hm⟩

end Sys2Proof.Machine
end

section
/-!
PROOFS. Binary32 arithmetic and the value table: sums, products and vendor floats are one rounding of the exact real
(00_scope.md rule R12; 42_codebook.md rule R73).
-/
namespace Sys2Proof.Machine

/-! The value of a word, by its exponent field -/

theorem f32Value_finite {w : Word} (h : f32IsFinite w = true) : ∃ m e, f32Value w = .finite (w.getLsbD 31) m e := by
  have h : w.toNat / 2 ^ 23 % 2 ^ 8 ≠ 255 := of_decide_eq_true h
  unfold f32Value
  simp only
  rw [if_neg h]
  split
  · exact ⟨_, _, rfl⟩
  · exact ⟨_, _, rfl⟩

/-- A word is finite, the infinity pattern of its sign, or a NaN. -/
theorem f32Value_cases (w : Word) :
    (∃ m e, f32Value w = .finite (w.getLsbD 31) m e)
      ∨ (f32Value w = .inf (w.getLsbD 31) ∧ w.toNat / 2 ^ 23 % 2 ^ 8 = 255 ∧ w.toNat % 2 ^ 23 = 0)
      ∨ f32Value w = .nan := by
  by_cases h : w.toNat / 2 ^ 23 % 2 ^ 8 = 255
  · refine .inr ?_
    unfold f32Value
    simp only
    rw [if_pos h]
    by_cases hf : w.toNat % 2 ^ 23 = 0
    · exact .inl ⟨if_pos hf, h, hf⟩
    · exact .inr (if_neg hf)
  · exact .inl (f32Value_finite (decide_eq_true h))

theorem toNat_eq_sign_add (w : Word) : w.toNat = bit (w.getLsbD 31) * 2 ^ 31 + w.toNat % 2 ^ 31 := by
  have hlt := w.isLt
  rw [BitVec.getLsbD, Nat.testBit_eq_decide_div_mod_eq]
  by_cases h : w.toNat / 2 ^ 31 % 2 = 1
  · rw [decide_eq_true h]; simp only [bit, Bool.toNat_true]; omega
  · rw [decide_eq_false h]; simp only [bit, Bool.toNat_false]; omega

/-- The word of an infinity is the infinity pattern of its sign. -/
theorem eq_f32Pack_of_inf {w : Word} {n : Bool} (h : f32Value w = .inf n) : w = f32Pack n 0x7F800000 := by
  rcases f32Value_cases w with ⟨_, _, h'⟩ | ⟨h', hexp, hfrac⟩ | h'
  · rw [h'] at h; cases h
  · rw [h'] at h
    cases h
    have hw := toNat_eq_sign_add w
    have hb := bit_le (w.getLsbD 31)
    refine BitVec.eq_of_toNat_eq ?_
    rw [toNat_f32Pack _ _ (by omega)]
    omega
  · rw [h'] at h; cases h

theorem f32Value_of_isZero {w : Word} (h : f32IsZero w = true) : ∃ n e, f32Value w = .finite n 0 e := by
  have h : w.toNat % 2 ^ 31 = 0 := of_decide_eq_true h
  refine ⟨w.getLsbD 31, -149, ?_⟩
  unfold f32Value
  simp only
  rw [if_neg (by omega), if_pos (by omega), show w.toNat % 2 ^ 23 = 0 by omega]

/-- A finite word that is no zero has a nonzero significand. -/
theorem significand_ne_zero {w : Word} {n : Bool} {m : Nat} {e : Int} (h : f32Value w = .finite n m e)
    (hz : f32IsZero w = false) : m ≠ 0 := by
  have hz : w.toNat % 2 ^ 31 ≠ 0 := of_decide_eq_false hz
  unfold f32Value at h
  simp only at h
  split_ifs at h <;> cases h
  · omega
  · omega

/-! Packed words -/

theorem getLsbD_f32Pack (neg : Bool) {x : Nat} (h : x < 2 ^ 31) : (f32Pack neg x).getLsbD 31 = neg :=
  sign_of_toNat (toNat_f32Pack neg x (by have := bit_le neg; omega)) h

theorem f32Round_sign (neg : Bool) (m : Nat) (e : Int) : (f32Round neg m e).getLsbD 31 = neg := by
  refine getLsbD_f32Pack neg ?_
  split
  · norm_num
  · exact lt_of_le_of_lt (min_le_right _ _) (by norm_num)

theorem f32Real_zero (neg : Bool) : f32IsFinite (f32Pack neg 0) = true ∧ f32Real (f32Pack neg 0) = 0 := by
  have := f32Real_f32Pack neg (q := 0) (k := 0) (by norm_num) (.inl rfl) (by norm_num)
  simpa [dyadicReal] using this

/-- A zero of either sign is the real 0 rounded. -/
theorem roundsTo_zero (neg : Bool) : RoundsTo 0 (f32Pack neg 0) := by
  obtain ⟨hfin, hreal⟩ := f32Real_zero neg
  unfold RoundsTo
  rw [if_neg (by norm_num), hreal]
  refine ⟨hfin, fun v _ => by simp, fun v _ ht hne => absurd ?_ hne⟩
  simpa using ht

/-- `f32round` of any dyadic real, 0 included, is a rounding of it. -/
theorem roundsTo_f32Round_or_zero (neg : Bool) (m : Nat) (e : Int) : RoundsTo (dyadicReal neg m e) (f32Round neg m e) := by
  by_cases hm : m = 0
  · subst hm
    have : dyadicReal neg 0 e = 0 := by simp [dyadicReal]
    rw [this]
    exact roundsTo_zero neg
  · exact roundsTo_f32Round neg e hm

theorem quietNan_quiet (b : BitVec 23) : (quietNan b).toNat / 2 ^ 22 % 2 ^ 9 = 511 := by
  have hb := bit_le (b.getLsbD 22)
  have hlt : b.toNat % 2 ^ 22 < 2 ^ 22 := Nat.mod_lt _ (by norm_num)
  unfold quietNan
  generalize b.toNat % 2 ^ 22 = p at hlt
  rw [toNat_f32Pack _ _ (by omega)]
  omega

theorem quiet_of_eq {w : Word} {b : BitVec 23} (h : w = quietNan b) : w.toNat / 2 ^ 22 % 2 ^ 9 = 511 :=
  h ▸ quietNan_quiet b

/-! Finite operands -/

theorem signedShift_mul (neg : Bool) (m : Nat) {e E : Int} (h : E ≤ e) :
    (signedShift neg m (e - E).toNat : ℝ) * (2 : ℝ) ^ E = dyadicReal neg m e := by
  obtain ⟨d, hd⟩ := Int.eq_ofNat_of_zero_le (sub_nonneg.2 h)
  obtain rfl : e = d + E := by omega
  unfold signedShift dyadicReal
  rw [show ((d : ℤ) + E - E).toNat = d by omega, zpow_add₀ two_ne_zero, zpow_natCast]
  cases neg <;> push_cast <;> simp [mul_assoc]

theorem dyadicReal_natAbs (z : ℤ) (e : Int) : dyadicReal (decide (z < 0)) z.natAbs e = z * (2 : ℝ) ^ e := by
  unfold dyadicReal
  rw [Nat.cast_natAbs]
  by_cases h : z < 0
  · simp [h, abs_of_neg h]
  · simp [h, abs_of_nonneg (not_lt.1 h)]

theorem f32AddFinite_rounds (n1 : Bool) (m1 : Nat) (e1 : Int) (n2 : Bool) (m2 : Nat) (e2 : Int) :
    RoundsTo (dyadicReal n1 m1 e1 + dyadicReal n2 m2 e2) (f32AddFinite n1 m1 e1 n2 m2 e2)
      ∧ (dyadicReal n1 m1 e1 + dyadicReal n2 m2 e2 = 0 → f32AddFinite n1 m1 e1 n2 m2 e2 = f32Pack (n1 && n2) 0) := by
  unfold f32AddFinite
  simp only
  rw [← signedShift_mul n1 m1 (min_le_left e1 e2), ← signedShift_mul n2 m2 (min_le_right e1 e2), ← add_mul,
    ← Int.cast_add]
  generalize signedShift n1 m1 _ + signedShift n2 m2 _ = sum
  split_ifs with h
  · rw [h, Int.cast_zero, zero_mul]
    exact ⟨roundsTo_zero _, fun _ => rfl⟩
  · refine ⟨?_, fun h0 => absurd ?_ h⟩
    · rw [← dyadicReal_natAbs]
      exact roundsTo_f32Round _ _ (Int.natAbs_ne_zero.2 h)
    · exact_mod_cast (mul_eq_zero.1 h0).resolve_right (by positivity)

theorem dyadicReal_mul (n1 n2 : Bool) (m1 m2 : Nat) (e1 e2 : Int) :
    dyadicReal n1 m1 e1 * dyadicReal n2 m2 e2 = dyadicReal (n1 ^^ n2) (m1 * m2) (e1 + e2) := by
  unfold dyadicReal
  rw [zpow_add₀ two_ne_zero]
  push_cast
  cases n1 <;> cases n2 <;> simp <;> ring

theorem f32Add_finite {a b : Word} {n1 n2 : Bool} {m1 m2 : Nat} {e1 e2 : Int} (ha : f32Value a = .finite n1 m1 e1)
    (hb : f32Value b = .finite n2 m2 e2) : f32Add a b = f32AddFinite n1 m1 e1 n2 m2 e2 := by
  simp [f32Add, ha, hb]

theorem f32Mul_finite {a b : Word} {n1 n2 : Bool} {m1 m2 : Nat} {e1 e2 : Int} (ha : f32Value a = .finite n1 m1 e1)
    (hb : f32Value b = .finite n2 m2 e2) : f32Mul a b = f32Round (n1 ^^ n2) (m1 * m2) (e1 + e2) := by
  simp [f32Mul, ha, hb]

/-! The clauses of R12 -/

/-- Finite operands: one rounding of the exact result, with IEEE 754's signs of zero. -/
theorem f32Arith_finite {a b : Word} (ha : f32IsFinite a = true) (hb : f32IsFinite b = true) :
    RoundsTo (f32Real a + f32Real b) (f32Add a b) ∧ RoundsTo (f32Real a * f32Real b) (f32Mul a b)
      ∧ (f32Real a + f32Real b = 0 → f32Add a b = f32Pack (a.getLsbD 31 && b.getLsbD 31) 0)
      ∧ (f32Mul a b).getLsbD 31 = (a.getLsbD 31 ^^ b.getLsbD 31) := by
  obtain ⟨m1, e1, h1⟩ := f32Value_finite ha
  obtain ⟨m2, e2, h2⟩ := f32Value_finite hb
  obtain ⟨hadd, hzero⟩ := f32AddFinite_rounds (a.getLsbD 31) m1 e1 (b.getLsbD 31) m2 e2
  rw [f32Add_finite h1 h2, f32Mul_finite h1 h2, f32Real_of_value h1, f32Real_of_value h2, dyadicReal_mul]
  exact ⟨hadd, roundsTo_f32Round_or_zero _ _ _, hzero, f32Round_sign _ _ _⟩

/-- An infinity and a finite operand add up to the infinity. -/
theorem f32Add_inf_finite {a b : Word} {n : Bool} (ha : f32Value a = .inf n) (hb : f32IsFinite b = true) :
    f32Add a b = a ∧ f32Add b a = a := by
  obtain ⟨m, e, hb⟩ := f32Value_finite hb
  simp [f32Add, ha, hb, ← eq_f32Pack_of_inf ha]

/-- Two infinities: the sum of equal ones, and the product by its sign. -/
theorem f32Arith_inf_inf {a b : Word} {n m : Bool} (ha : f32Value a = .inf n) (hb : f32Value b = .inf m) :
    (n = m → f32Add a b = a) ∧ f32Mul a b = f32Pack (n ^^ m) 0x7F800000 := by
  refine ⟨fun h => ?_, by simp [f32Mul, ha, hb]⟩
  simp [f32Add, ha, hb, h, ← eq_f32Pack_of_inf (h ▸ ha)]

/-- An infinity times a finite operand that is no zero. -/
theorem f32Mul_inf_finite {a b : Word} {n : Bool} (ha : f32Value a = .inf n) (hb : f32IsFinite b = true)
    (hz : f32IsZero b = false) :
    f32Mul a b = f32Pack (n ^^ b.getLsbD 31) 0x7F800000 ∧ f32Mul b a = f32Pack (n ^^ b.getLsbD 31) 0x7F800000 := by
  obtain ⟨m, e, hb⟩ := f32Value_finite hb
  have hm := significand_ne_zero hb hz
  simp [f32Mul, ha, hb, hm, Bool.xor_comm]

/-- A sum without a value is a quiet NaN. -/
theorem f32Add_nan {a b : Word} (h : f32Value a = .nan ∨ f32Value b = .nan
    ∨ ∃ n, f32Value a = .inf n ∧ f32Value b = .inf (!n)) : f32Add a b = quietNan (Config.nanOfAdd a b) := by
  rcases h with h | h | ⟨n, h1, h2⟩
  · unfold f32Add; rw [h]
  · unfold f32Add; rw [h]; cases f32Value a <;> rfl
  · simp [f32Add, h1, h2]

/-- A product without a value is a quiet NaN. -/
theorem f32Mul_nan {a b : Word} (h : f32Value a = .nan ∨ f32Value b = .nan
    ∨ (∃ n, f32Value a = .inf n ∧ f32IsZero b = true) ∨ (∃ n, f32Value b = .inf n ∧ f32IsZero a = true)) :
    f32Mul a b = quietNan (Config.nanOfMul a b) := by
  rcases h with h | h | ⟨n, h, hz⟩ | ⟨n, h, hz⟩
  · unfold f32Mul; rw [h]
  · unfold f32Mul; rw [h]; cases f32Value a <;> rfl
  · obtain ⟨_, _, hz⟩ := f32Value_of_isZero hz
    simp [f32Mul, h, hz]
  · obtain ⟨_, _, hz⟩ := f32Value_of_isZero hz
    simp [f32Mul, h, hz]

/-- Settles O29, clause by clause of R12: finite operands, an infinity, a NaN or no value. -/
theorem f32AddAndMulAreIeee : Obligations.F32AddAndMulAreIeee := fun _ _ =>
  ⟨f32Arith_finite, fun _ => f32Add_inf_finite, fun _ _ => f32Arith_inf_inf, fun _ => f32Mul_inf_finite,
    fun h => quiet_of_eq (f32Add_nan h), fun h => quiet_of_eq (f32Mul_nan h)⟩

/-! The value table -/

/-- Multiplicands below 2^16 are exact (R73). -/
theorem f32OfNat_exact {m : Nat} (hm : m < 2 ^ 16) :
    f32IsFinite (f32OfNat m) = true ∧ f32Real (f32OfNat m) = m := by
  by_cases h0 : m = 0
  · subst h0
    simpa [f32OfNat, f32Round] using f32Real_zero false
  · obtain ⟨k, hk, hmag⟩ := f32RoundMagnitude_eq m 0
    have hlog : ilog m ≤ 16 := by
      have := (Nat.pow_lt_pow_iff_right (by norm_num : 1 < 2)).1 (lt_of_le_of_lt (two_pow_le_of_ilog h0).1 hm)
      omega
    have hq := quantumOf_sub m 0
    -- the quantum is at most 1, so the significand is an integer
    obtain ⟨d, hd⟩ := Int.eq_ofNat_of_zero_le (show 0 ≤ 0 - ((quantumOf m 0 : ℤ) - 149) by omega)
    have hs : significandOf m 0 = ((m * 2 ^ d : Nat) : ℝ) := by
      rw [significandOf, hd, zpow_natCast]; push_cast; rfl
    obtain ⟨hk1, hk2⟩ := hk.bounds (significandOf_lt m 0) (le_significandOf h0 0)
    have hlt : quantumOf m 0 * 2 ^ 23 + k < 0x7F800000 := by omega
    rw [f32OfNat, f32Round, if_neg h0, hmag, min_eq_left hlt.le]
    obtain ⟨hfin, hreal⟩ := f32Real_f32Pack false hk1 hk2 hlt
    refine ⟨hfin, ?_⟩
    have hmul := significandOf_mul m 0
    rw [hs] at hk hmul
    rw [hreal, hk.eq_of_nat]
    simpa [dyadicReal] using hmul

/-- The multiplicand that R73 names for dimension d of entry e. -/
def entryMult (kind : LookupKind) (mult : List (BitVec 16)) (count dim e d : Nat) : BitVec 16 :=
  match kind with
  | .lattice => mult.getD (e / lookup1Values count dim ^ d % lookup1Values count dim) 0
  | .explicit => mult.getD (e * dim + d) 0

theorem getElem?_entryMults (kind : LookupKind) (mult : List (BitVec 16)) (count : Nat) {dim d : Nat} (e : Nat)
    (hd : d < dim) : (entryMults kind mult count dim e)[d]? = some (entryMult kind mult count dim e d) := by
  cases kind
  · simp [entryMults, entryMult, getElem?_latticeDigits _ _ e d hd]
  · simp [entryMults, entryMult, List.getElem?_range hd]

/-- Settles O36: a row of the table is `entryValues` of its multiplicands from `last` = +0. -/
theorem valueTableFollowsTheFormula : Obligations.ValueTableFollowsTheFormula := by
  refine ⟨fun f kind mult delta min seq count dim e d he hd => ?_, fun m => f32OfNat_exact⟩
  have hrow : (buildValues f kind mult delta min seq count dim)[e]?
      = some (entryValues f delta min seq 0 (entryMults kind mult count dim e)) := by
    simp [buildValues, List.getElem?_range he]
  have hval := getElem?_entryValues f delta min seq _ 0 d _ (getElem?_entryMults kind mult count e hd)
  refine ⟨_, _, entryMult kind mult count dim e d, hrow, by rw [length_entryValues, length_entryMults], hval,
    by cases kind <;> rfl, ?_⟩
  congr 1
  cases seq <;> cases d <;> simp

end Sys2Proof.Machine
end

section
/-!
PROOFS. SYN_BLOCK when its checks are met (45_synthesis.md rule R98): where each sample of the block goes, and that the
samples of a finite spectrum are within SYNTH's tolerance when SYNTH is (00_scope.md rule R13).
-/

namespace Sys2Proof.Machine

theorem Geometry.le_eq (g : Geometry) : Geometry.le g = g.ls + g.ln := rfl

theorem Geometry.re_eq (g : Geometry) : Geometry.re g = g.rs + g.rn := rfl

/-- The tapers of a legal block lie in their own halves of it (R92). -/
theorem geometry_order {e0 e1 : Nat} (w pw nw : Bool) (h0 : 6 ≤ e0) (h1 : e0 ≤ e1) :
    let g := geometry e0 e1 w pw nw
    Geometry.le g ≤ g.n / 2 ∧ g.n / 2 ≤ g.rs := by
  have quarter : ∀ e, 6 ≤ e → 2 ^ e = 4 * 2 ^ (e - 2) := fun e he => by
    rw [show (4 : Nat) = 2 ^ 2 by rfl, ← Nat.pow_add]; congr 1; omega
  have hs := quarter e0 h0
  have hn := quarter e1 (by omega)
  have hle : 2 ^ (e0 - 2) ≤ 2 ^ (e1 - 2) := Nat.pow_le_pow_right (by norm_num) (by omega)
  unfold geometry Geometry.le
  rw [hs]
  cases w <;> cases pw <;> cases nw <;> simp <;> omega

/-! Where the samples of a block go -/

/-- Sample i of a block whose samples are ys. -/
def sampleAt (g : Geometry) (ys : List Word) (i : Nat) : Word := ys.getD (i - g.ls) 0

/-- How many samples overlap with the tail: none in a first block (R98). -/
def overlapCount (s : State) (g : Geometry) : Nat := if s.lapValid then g.ln else 0

theorem blockCount_eq (s : State) (g : Geometry) :
    blockCount s g = overlapCount s g + (g.rs - middleStart s.params (!s.lapValid) g) := rfl

theorem middleStart_eq (s : State) (g : Geometry) : middleStart s.params (!s.lapValid) g
    = if s.lapValid = false ∧ s.params.firstMiddle = .fromCentre then max (g.ls + g.ln) (g.n / 2) else g.ls + g.ln := by
  simp [middleStart, Geometry.le]

theorem middleStart_bounds (p : Params) (first : Bool) {g : Geometry} (h1 : Geometry.le g ≤ g.n / 2) (h2 : g.n / 2 ≤ g.rs) :
    Geometry.le g ≤ middleStart p first g ∧ middleStart p first g ≤ g.rs := by
  unfold middleStart
  split <;> omega

theorem getElem?_samplesFrom_at {g : Geometry} {ys : List Word} {lo hi k : Nat} (hy : ys.length = Geometry.re g - g.ls)
    (hl : g.ls ≤ lo) (hh : hi ≤ Geometry.re g) (hk : k < hi - lo) :
    (samplesFrom g ys lo hi)[k]? = some (sampleAt g ys (lo + k)) := by
  rw [getElem?_samplesFrom hl hk, sampleAt, List.getD_eq_getElem?_getD, List.getElem?_eq_getElem (by omega),
    Option.getD_some]

/-- The overlap of the tail with the left taper (R98). -/
def overlapWords (s : State) (g : Geometry) (ys : List Word) : List Word :=
  if s.lapValid then List.zipWith s.params.f32.add (tailWords s g.ln) (samplesFrom g ys g.ls (Geometry.le g)) else []

theorem blockOutput_eq (s : State) (g : Geometry) (ys : List Word) :
    blockOutput s g ys = overlapWords s g ys ++ samplesFrom g ys (middleStart s.params (!s.lapValid) g) g.rs := rfl

section
variable {s : State} {g : Geometry} {ys : List Word} (hy : ys.length = Geometry.re g - g.ls) (hle : Geometry.le g ≤ g.n / 2)
  (hrs : g.n / 2 ≤ g.rs)
include hy hle hrs

theorem length_overlapWords : (overlapWords s g ys).length = overlapCount s g := by
  have h1 := Geometry.le_eq g
  have h2 := Geometry.re_eq g
  unfold overlapWords overlapCount
  split
  · rw [List.length_zipWith, length_samplesFrom (Nat.le_refl _) (by omega) hy]
    simp [tailWords]
    omega
  · rfl

theorem getElem?_overlapWords {k : Nat} (hk : k < overlapCount s g) :
    (overlapWords s g ys)[k]? = some (s.params.f32.add (s.tail.getD k 0) (sampleAt g ys (g.ls + k))) := by
  have h1 := Geometry.le_eq g
  have h2 := Geometry.re_eq g
  unfold overlapCount at hk
  split at hk
  · rename_i hlap
    rw [overlapWords, if_pos hlap, List.getElem?_zipWith,
      getElem?_samplesFrom_at hy (Nat.le_refl _) (by omega) (by omega)]
    simp [tailWords, List.getElem?_range hk]
  · omega

theorem length_blockOutput : (blockOutput s g ys).length = blockCount s g := by
  obtain ⟨h1, h2⟩ := middleStart_bounds s.params (!s.lapValid) hle hrs
  have h3 := Geometry.le_eq g
  have h4 := Geometry.re_eq g
  rw [blockOutput_eq, List.length_append, length_overlapWords hy hle hrs, length_samplesFrom (by omega) (by omega) hy,
    blockCount_eq]

theorem getElem?_blockOutput_overlap {k : Nat} (hk : k < overlapCount s g) :
    (blockOutput s g ys)[k]? = some (s.params.f32.add (s.tail.getD k 0) (sampleAt g ys (g.ls + k))) := by
  rw [blockOutput_eq, List.getElem?_append_left (by rwa [length_overlapWords hy hle hrs]),
    getElem?_overlapWords hy hle hrs hk]

theorem getElem?_blockOutput_middle {i : Nat} (h1 : middleStart s.params (!s.lapValid) g ≤ i) (h2 : i < g.rs) :
    (blockOutput s g ys)[overlapCount s g + (i - middleStart s.params (!s.lapValid) g)]? = some (sampleAt g ys i) := by
  obtain ⟨h3, _⟩ := middleStart_bounds s.params (!s.lapValid) hle hrs
  have h4 := Geometry.le_eq g
  have h5 := Geometry.re_eq g
  rw [blockOutput_eq, List.getElem?_append_right (by rw [length_overlapWords hy hle hrs]; omega),
    length_overlapWords hy hle hrs, Nat.add_sub_cancel_left,
    getElem?_samplesFrom_at hy (by omega) (by omega) (by omega), Nat.add_sub_cancel' h1]

/-- PCM after a block: its words from PCMCOUNT on, what was there elsewhere (R98). -/
theorem find_blockState_pcm (j : Nat) :
    (blockState s g ys).pcm.find j = if s.pcmcount ≤ j ∧ j < s.pcmcount + blockCount s g
      then (blockOutput s g ys)[j - s.pcmcount]? else s.pcm.find j := by
  show Sparse.find (s.pcm.store s.pcmcount (blockOutput s g ys)) j = _
  rw [Sparse.find_store, length_blockOutput hy hle hrs]

theorem find_blockState_pcm_overlap {k : Nat} (hk : k < overlapCount s g) :
    (blockState s g ys).pcm.find (s.pcmcount + k)
      = some (s.params.f32.add (s.tail.getD k 0) (sampleAt g ys (g.ls + k))) := by
  have := blockCount_eq s g
  rw [find_blockState_pcm hy hle hrs, if_pos (by omega), Nat.add_sub_cancel_left,
    getElem?_blockOutput_overlap hy hle hrs hk]

theorem find_blockState_pcm_middle {i : Nat} (h1 : middleStart s.params (!s.lapValid) g ≤ i) (h2 : i < g.rs) :
    (blockState s g ys).pcm.find (s.pcmcount + overlapCount s g + (i - middleStart s.params (!s.lapValid) g))
      = some (sampleAt g ys i) := by
  have := blockCount_eq s g
  rw [find_blockState_pcm hy hle hrs, if_pos (by omega), Nat.add_assoc, Nat.add_sub_cancel_left,
    getElem?_blockOutput_middle hy hle hrs h1 h2]

/-- TAIL after a block: the right taper, and past it what was there (R98). -/
theorem blockState_tail :
    (∀ k, k < g.rn → (blockState s g ys).tail[k]? = some (sampleAt g ys (g.rs + k)))
      ∧ (blockState s g ys).tail.drop g.rn = s.tail.drop g.rn := by
  have h1 := Geometry.le_eq g
  have h2 := Geometry.re_eq g
  have hlen : (samplesFrom g ys g.rs (Geometry.re g)).length = g.rn := by
    rw [length_samplesFrom (by omega) (Nat.le_refl _) hy]; omega
  have htail : (blockState s g ys).tail = samplesFrom g ys g.rs (Geometry.re g) ++ s.tail.drop g.rn := rfl
  rw [htail]
  refine ⟨fun k hk => ?_, List.drop_left' hlen⟩
  rw [List.getElem?_append_left (by omega), getElem?_samplesFrom_at hy (by omega) (Nat.le_refl _) (by omega)]

end

/-! The command -/

theorem vecReadBlock_run {s : State} {w n : Nat} {x : List Word} (hn : x.length = n)
    (hx : ∀ k, k < n → s.vec.find (w + k) = x[k]?) : vecReadBlock w n s = .ok x s := by
  have hw : VecWritten s w n := fun k hk => by rw [hx k hk, List.getElem?_eq_getElem (by omega)]; rfl
  obtain ⟨xs, hrun, hlen, hxs⟩ := vecReadBlock_ok hw
  have : xs = x := List.ext_getElem? fun k => by
    by_cases hk : k < n
    · rw [← hxs k hk, hx k hk]
    · rw [List.getElem?_eq_none (by omega), List.getElem?_eq_none (by omega)]
  rw [hrun, this]

theorem blockChecks_run {s : State} {g : Geometry} (h1 : s.arg0.toNat + g.n / 2 ≤ s.params.vecWords)
    (h2 : s.lapValid = true → s.tailLen = g.ln) (h3 : s.pcmcount + blockCount s g ≤ s.params.pcmWords) :
    blockChecks g s = .ok () s := by
  have h1 : ¬ s.params.vecWords < arg0Nat s + g.n / 2 := Nat.not_lt_of_le h1
  rw [blockChecks, bind_of_ok (get_run s), bind_raiseIf_false (decide_eq_false h1),
    bind_raiseIf_false (by simpa using h2), decide_eq_false (Nat.not_lt_of_le h3), raiseIf_false]

theorem exec_synBlock_run {s u : State} {w pw nw : Bool} {x ys : List Word} (h1 : s.cfgState = .sealed)
    (h2 : s.synValid = true) (hc : blockChecks (blockGeometry s w pw nw) s = .ok () s)
    (hx : vecReadBlock s.arg0.toNat ((blockGeometry s w pw nw).n / 2) s = .ok x s)
    (hy : blockSamples s.params (blockGeometry s w pw nw) x s = .ok ys u) :
    exec (.synBlock w pw nw) s = .next (blockState u (blockGeometry s w pw nw) ys) := by
  refine runCommand_of_ok (u := ()) ?_
  rw [bind_raiseIf_false (by simp [h1]), bind_raiseIf_false (by simp [h2]), bind_of_ok hc,
    bind_of_ok (show vecReadBlock (arg0Nat s) _ s = .ok x s from hx), bind_of_ok hy, modify_run]

/-- A sample of a finite spectrum is SYNTH of its exact real (R95 (a)). -/
theorem sampleAt_map (scale : Rat) (g : Geometry) (x : List Word) {i : Nat} (h1 : g.ls ≤ i) (h2 : i < Geometry.re g) :
    sampleAt g ((List.range' g.ls (Geometry.re g - g.ls)).map (sampleWord scale g x)) i = synth (exactSample scale g x i) := by
  rw [sampleAt, List.getD_eq_getElem?_getD, List.getElem?_map, List.getElem?_range' (by omega), ← sampleWord_eq]
  simp [Nat.add_sub_cancel' h1]

/-- Settles O47: the samples are `blockSamples`, and each word of PCM and TAIL is read back from the stored lists. -/
theorem synBlockAppendsSamples : Obligations.SynBlockAppendsSamples := by
  intro s w pw nw x hsealed hsyn hsizes g le ms ov count hvec hlap hpcm hlen hx
  obtain ⟨h0, h1, _⟩ := hsizes
  obtain ⟨hle, hrs⟩ : Geometry.le g ≤ g.n / 2 ∧ g.n / 2 ≤ g.rs := geometry_order w pw nw h0 h1
  have hms : middleStart s.params (!s.lapValid) g = ms := middleStart_eq s g
  have hcount : blockCount s g = count := by rw [blockCount_eq, hms]; rfl
  obtain ⟨ys, d, hrun, hy, hfin⟩ := blockSamples_run s.params g x s
  refine ⟨sampleAt g ys, _, exec_synBlock_run hsealed hsyn
    (blockChecks_run hvec hlap (by rw [← hcount] at hpcm; exact hpcm)) (vecReadBlock_run hlen hx) hrun, ?_⟩
  generalize hu : ({ s with draws := d } : State) = u
  have hgeo : blockGeometry s w pw nw = g := rfl
  rw [hgeo]
  obtain ⟨htail, hdrop⟩ := blockState_tail (s := u) hy hle hrs
  subst hu
  refine ⟨?_, htail, hdrop, fun k hk => find_blockState_pcm_overlap hy hle hrs hk, fun i hi1 hi2 => ?_, fun j hj => ?_,
    fun m => mem_addBasis, fun hxf i hi1 hi2 => ?_⟩
  · rw [← hcount]; rfl
  · rw [← hms] at hi1 ⊢
    exact find_blockState_pcm_middle (s := { s with draws := d }) hy hle hrs hi1 hi2
  · rw [find_blockState_pcm hy hle hrs, if_neg]
    show ¬ (s.pcmcount ≤ j ∧ j < s.pcmcount + blockCount s g)
    omega
  · have hs := sampleAt_map s.params.imdctScale g x hi1 hi2
    rw [← hfin hxf] at hs
    refine ⟨hs, fun hz => ?_⟩
    rw [hs, exactSample_zeros _ _ hz]
    exact synth_zero

/-- Settles O48: a SYN_BLOCK without an error has met its checks, so its tail and middle are O47's samples, SYNTH of
the exact reals. -/
theorem samplesAreWithinTheTolerance : Obligations.SamplesAreWithinTheTolerance := by
  intro s t w pw nw x hsizes herr g le ms ov exact near hlen hx hfin hwithin hexec hterr
  obtain ⟨h0, h1, _⟩ := hsizes
  obtain ⟨hle, hrs⟩ : Geometry.le g ≤ g.n / 2 ∧ g.n / 2 ≤ g.rs := geometry_order w pw nw h0 h1
  rcases exec_synBlock_next hexec with ⟨e, rfl⟩ | ⟨_, _, _, hsealed, hsyn, hchecks, _⟩
  · cases hterr
  obtain ⟨_, hvec, hlap, hpcm⟩ := blockChecks_ok hchecks
  have hms : middleStart s.params (!s.lapValid) g = ms := middleStart_eq s g
  have hpcm : s.pcmcount + (ov + (g.rs - ms)) ≤ s.params.pcmWords := by rw [← hms]; exact hpcm
  obtain ⟨y, t', hrun, _, htail, _, _, hmiddle, _, _, hsynth⟩ :=
    synBlockAppendsSamples s w pw nw x hsealed hsyn ⟨h0, h1, by assumption⟩ hvec hlap hpcm hlen hx
  obtain rfl : t = t' := by rw [hexec] at hrun; cases hrun; rfl
  have hnear : ∀ i, g.ls ≤ i → i < g.rs + g.rn → near (y i) i := fun i hi1 hi2 => by
    rw [(hsynth hfin i hi1 hi2).1]
    exact hwithin i hi1 hi2
  have hmsb := middleStart_bounds s.params (!s.lapValid) hle hrs
  rw [hms] at hmsb
  have hge := Geometry.le_eq g
  exact ⟨fun k hk => ⟨_, htail k hk, hnear (g.rs + k) (by omega) (by omega)⟩,
    fun i hi1 hi2 => ⟨_, hmiddle i hi1 hi2, hnear i (by omega) (by omega)⟩⟩

end Sys2Proof.Machine
end

section
/-!
PROOFS. How a command can fail to end (20_memory.md rule R39, 60_exceptions.md rule R104): only at a byte of the packet or
a word of VEC that nothing has written. The pieces of commands stop, if they fault, at an unwritten packet byte; the two
places that read VEC before it is written, CB_VECTOR with ACC = 1 and SYN_BLOCK, are the only others.
-/

namespace Sys2Proof.Machine

variable {α β : Type} {lo n : Nat}

/-- The UNWRITTEN fault at a byte of the packet that nothing has written (R39). -/
def PacketFault (s : State) (f : Fault) : Prop := ∃ b, f = .unwritten .pkt b ∧ b < s.pktlen ∧ s.pkt.find b = none

/-- A piece of a command whose only faults, where n words of VEC from lo are written, are at unwritten packet bytes. -/
def FaultsAtPacket (lo n : Nat) (c : Cmd α) : Prop :=
  ∀ s, VecWritten s lo n → ∀ f t, c s = .error (.fault f) t → PacketFault s f

/-- Such a piece that, besides, stores only in this region. -/
structure StopsAtPacket (lo n : Nat) (c : Cmd α) : Prop where
  keeps : Keeps (Stores lo n) c
  faults : FaultsAtPacket lo n c

theorem PacketFault.of_stores {s t : State} {f : Fault} (h : PacketFault t f) (r : Stores lo n s t) :
    PacketFault s f := by
  have e := r.1
  have h1 : t.pktlen = s.pktlen := by rw [e]
  have h2 : t.pkt = s.pkt := by rw [e]
  unfold PacketFault at h
  rwa [h1, h2] at h

theorem not_packetFault {s : State} {f : Fault} (hs : PacketWritten s) : ¬ PacketFault s f := by
  rintro ⟨b, _, hb, hnone⟩
  have := hs b hb
  rw [hnone] at this
  cases this

theorem vecWritten_zero (s : State) (lo : Nat) : VecWritten s lo 0 := fun k hk => absurd hk (Nat.not_lt_zero k)

/-! Sequences -/

theorem FaultsAtPacket.bind {c : Cmd α} {f : α → Cmd β} (hc : StopsAtPacket lo n c)
    (hf : ∀ a, FaultsAtPacket lo n (f a)) : FaultsAtPacket lo n (c >>= f) := by
  intro s hv x t h
  rcases bind_error h with h | ⟨a, u, h1, h2⟩
  · exact hc.faults s hv x t h
  · have r := hc.keeps.ok h1
    exact (hf a u (hv.of_stores r) x t h2).of_stores r

theorem FaultsAtPacket.onRaise {fix : State → State} {c : Cmd α} (hc : FaultsAtPacket lo n c) :
    FaultsAtPacket lo n (Machine.onRaise fix c) := by
  intro s hv f t h
  rcases onRaise_error h with ⟨_, _, _, h, _⟩ | ⟨_, h1, h2⟩
  · cases h
  · cases h2
    exact hc s hv f t h1

/-- The update at the end of a command never faults. -/
theorem FaultsAtPacket.bind_modify {c : Cmd α} {g : α → State → State} (hc : FaultsAtPacket lo n c) :
    FaultsAtPacket lo n (c >>= fun a => modify (g a)) := by
  intro s hv f t h
  rcases bind_error h with h | ⟨_, _, _, h⟩
  · exact hc s hv f t h
  · cases h

theorem StopsAtPacket.bind {c : Cmd α} {f : α → Cmd β} (hc : StopsAtPacket lo n c)
    (hf : ∀ a, StopsAtPacket lo n (f a)) : StopsAtPacket lo n (c >>= f) :=
  ⟨Keeps.bind (Stores.trans lo n) hc.keeps fun a => (hf a).keeps, .bind hc fun a => (hf a).faults⟩

/-- A piece that only reads and never faults. -/
theorem StopsAtPacket.of_never {c : Cmd α} (hr : OnlyReads c) (h : ∀ s f t, c s ≠ .error (.fault f) t) :
    StopsAtPacket lo n c :=
  ⟨(OnlyStores.of_reads hr).keeps, fun s _ f t e => absurd e (h s f t)⟩

theorem StopsAtPacket.pure (a : α) : StopsAtPacket lo n (Pure.pure a : Cmd α) := .of_never (.pure a) fun _ _ _ => nofun

theorem StopsAtPacket.get : StopsAtPacket lo n (MonadState.get : Cmd State) := .of_never .get fun _ _ _ => nofun

theorem StopsAtPacket.raise (e : ErrorCode) : StopsAtPacket lo n (Machine.raise e : Cmd α) :=
  .of_never (.raise e) fun _ _ _ => nofun

theorem StopsAtPacket.raiseIf (c : Bool) (e : ErrorCode) : StopsAtPacket lo n (Machine.raiseIf c e) :=
  .of_never (.raiseIf c e) fun _ _ _ h => by cases (raiseIf_error h).2.1

theorem StopsAtPacket.forEach {f : α → Cmd β} (as : List α) (hf : ∀ a ∈ as, StopsAtPacket lo n (f a)) :
    StopsAtPacket lo n (Machine.forEach f as) := by
  induction as with
  | nil => exact .pure _
  | cons a as ih =>
    exact .bind (hf a List.mem_cons_self) fun _ =>
      .bind (ih fun b hb => hf b (List.mem_cons_of_mem _ hb)) fun _ => .pure _

theorem StopsAtPacket.repeatCmd {c : Cmd α} (hc : StopsAtPacket lo n c) : ∀ k, StopsAtPacket lo n (Machine.repeatCmd c k)
  | 0 => .pure _
  | k + 1 => .bind hc fun _ => .bind (.repeatCmd hc k) fun _ => .pure _

/-! The bit reader -/

/-- A bit read faults only at an unwritten byte of the packet (R39, R60). -/
theorem stops_readBit : StopsAtPacket lo n readBit := by
  refine ⟨(OnlyStores.of_reads onlyReads_readBit).keeps, fun s _ f t h => ?_⟩
  rcases bind_raiseIf_error (bind_get_error h) with ⟨_, h, _⟩ | ⟨hl, h⟩
  · cases h
  have hl : s.bitpos < 8 * s.pktlen := Nat.lt_of_not_le (of_decide_eq_false hl)
  rcases bind_error h with h | ⟨_, _, _, h⟩
  · rcases packetBit_cases s.bitpos s with ⟨hnone, e⟩ | ⟨_, _, _, e⟩ | ⟨_, _, _, _, e, _⟩ <;> rw [e] at h <;> cases h
    exact ⟨_, rfl, by omega, hnone⟩
  · rcases bind_error h with h | ⟨_, _, _, h⟩ <;> cases h

theorem stops_readBits : ∀ k, StopsAtPacket lo n (readBits k)
  | 0 => .pure _
  | k + 1 => .bind stops_readBit fun _ => .bind (stops_readBits k) fun _ => .pure _

theorem stops_readU (k : Nat) : StopsAtPacket lo n (readU k) :=
  .bind .get fun _ => .bind (.raiseIf _ _) fun _ => stops_readBits k

theorem stops_readVF (f : F32Choice) : StopsAtPacket lo n (readVF f) := .bind (stops_readU 32) fun _ => .pure _

/-! Codebooks -/

theorem stops_codebookAt (k : Nat) : StopsAtPacket lo n (codebookAt k) :=
  .of_never (onlyReads_codebookAt k) fun _ _ _ h => by cases (codebookAt_error h).2.2

theorem stops_walk (t : Tree) : StopsAtPacket lo n (walk t) := by
  induction t with
  | empty => exact .raise _
  | leaf sym => exact .pure _
  | inner a b iha ihb =>
    refine .bind stops_readBit fun b1 => ?_
    cases b1
    · exact iha
    · exact ihb

theorem stops_scalarDecode (k : Nat) : StopsAtPacket lo n (scalarDecode k) :=
  .bind (stops_codebookAt k) fun c => stops_walk c.tree

theorem stops_vectorDecode (k : Nat) : StopsAtPacket lo n (vectorDecode k) := by
  refine .bind (stops_codebookAt k) fun c => ?_
  cases c.lookup with
  | none => exact .raise _
  | some l => exact .bind (stops_scalarDecode k) fun _ => .pure _

theorem stops_decodeGate (k : Nat) : StopsAtPacket lo n (decodeGate k) :=
  .bind .get fun _ => .bind (.raiseIf _ _) fun _ => .raiseIf _ _

theorem stops_readLength (sparse : Bool) : StopsAtPacket lo n (readLength sparse) := by
  have tail : ∀ used : Nat, StopsAtPacket lo n (if used = 1 then do
      let l ← readU 5
      pure (some (l + 1))
    else pure none : Cmd (Option Nat)) := fun used => by
    split
    · exact .bind (stops_readU 5) fun _ => .pure _
    · exact .pure _
  cases sparse
  · exact .bind (.pure _) tail
  · exact .bind (stops_readU 1) tail

theorem stops_readOrdered (count : Nat) : ∀ fuel cur len, StopsAtPacket lo n (readOrdered count fuel cur len)
  | 0, _, _ => .raise _
  | fuel + 1, cur, len => by
    unfold readOrdered
    split
    · exact .bind (stops_readU _) fun _ => .bind (.raiseIf _ _) fun _ => .bind (.raiseIf _ _) fun _ =>
        .bind (stops_readOrdered count fuel _ _) fun _ => .pure _
    · exact .pure _

theorem stops_readLengths (count : Nat) : StopsAtPacket lo n (readLengths count) := by
  refine .bind (stops_readU 1) fun ordered => ?_
  split
  · exact .bind (stops_readU 1) fun _ => .repeatCmd (stops_readLength _) _
  · exact .bind (stops_readU 5) fun _ => .bind .get fun _ => stops_readOrdered _ _ _ _

theorem stops_readTable (k : Nat) (kind : LookupKind) (dim count : Nat) :
    StopsAtPacket lo n (readTable k kind dim count) :=
  .bind .get fun _ => .bind (.raiseIf _ _) fun _ => .bind (.raiseIf _ _) fun _ => .bind (.raiseIf _ _) fun _ =>
    .bind (stops_readVF _) fun _ => .bind (stops_readVF _) fun _ => .bind (stops_readU _) fun _ =>
      .bind (stops_readU _) fun _ => .bind (.repeatCmd (stops_readU _) _) fun _ => .pure _

theorem stops_readLookup (k t dim count : Nat) : StopsAtPacket lo n (readLookup k t dim count) := by
  unfold readLookup
  split
  · exact .pure _
  · exact stops_readTable _ _ _ _
  · exact stops_readTable _ _ _ _
  · exact .raise _

theorem stops_parseCodebook (k : Nat) : StopsAtPacket lo n (parseCodebook k) := by
  refine .bind (stops_readU _) fun _ => .bind (.raiseIf _ _) fun _ => .bind (stops_readU _) fun _ =>
    .bind (stops_readU _) fun _ => .bind (stops_readLengths _) fun len => ?_
  cases buildTree len with
  | none => exact .raise _
  | some tree =>
    exact .bind .get fun _ => .bind (.raiseIf _ _) fun _ => .bind (stops_readU _) fun _ =>
      .bind (stops_readLookup _ _ _ _) fun _ => .pure _

/-! Residue headers and checks -/

theorem stops_readCascade : StopsAtPacket lo n readCascade := by
  refine .bind (stops_readU _) fun _ => .bind (stops_readU _) fun flag => ?_
  split
  · exact .bind (stops_readU _) fun _ => .pure _
  · exact .bind (.pure _) fun _ => .pure _

theorem stops_readBooks (mask : Byte) : StopsAtPacket lo n (readBooks mask) := by
  refine .forEach _ fun p _ => ?_
  split
  · exact .bind (stops_readU _) fun _ => .pure _
  · exact .pure _

theorem stops_readResidue : StopsAtPacket lo n readResidue :=
  .bind (stops_readU _) fun _ => .bind (.raiseIf _ _) fun _ => .bind (stops_readU _) fun _ =>
    .bind (stops_readU _) fun _ => .bind (stops_readU _) fun _ => .bind (stops_readU _) fun _ =>
      .bind (stops_readU _) fun _ => .bind (.repeatCmd stops_readCascade _) fun _ =>
        .bind (.forEach _ fun mask _ => stops_readBooks mask) fun _ => .pure _

theorem stops_parseResidue : StopsAtPacket lo n parseResidue :=
  .bind stops_readResidue fun _ => .bind .get fun _ => .bind (.raiseIf _ _) fun _ => .bind (.raiseIf _ _) fun _ => .pure _

theorem stops_residueAt (r : Nat) : StopsAtPacket lo n (residueAt r) :=
  .of_never (onlyReads_residueAt r) fun s _ _ h => by
    rw [residueAt_run] at h
    cases e : s.res.find r <;> rw [e] at h <;> cases h

theorem stops_residueChecks (r nvec : Nat) : StopsAtPacket lo n (residueChecks r nvec) :=
  .bind .get fun _ => .bind (.raiseIf _ _) fun _ => .bind (.raiseIf _ _) fun _ => .bind (.raiseIf _ _) fun _ =>
    .bind (stops_residueAt r) fun _ => .bind (.raiseIf _ _) fun _ => .pure _

theorem stops_sealChecks (ncb nres : Nat) : StopsAtPacket lo n (sealChecks ncb nres) :=
  .of_never (onlyReads_sealChecks ncb nres) fun _ _ _ h => by
    rcases (sealChecks_error h).2 with ⟨_, h⟩ | ⟨_, h⟩ <;> cases h

/-! The residue decode core, in a written region -/

theorem stops_vecRead {w : Nat} (h1 : lo ≤ w) (h2 : w < lo + n) : StopsAtPacket lo n (vecRead w) := by
  refine ⟨(onlyStores_vecRead h1 h2).keeps, fun s hv f t h => ?_⟩
  have hw := hv (w - lo) (by omega)
  rw [Nat.add_sub_cancel' h1] at hw
  rw [vecRead_run] at h
  cases e : s.vec.find w <;> rw [e] at h hw
  · cases hw
  · cases h

theorem stops_vecWrite {w : Nat} {xs : List Word} (h1 : lo ≤ w) (h2 : w + xs.length ≤ lo + n) :
    StopsAtPacket lo n (vecWrite w xs) :=
  ⟨(onlyStores_vecWrite h1 h2).keeps, fun _ _ _ _ => nofun⟩

section
variable (j : ResidueJob)

/-- A piece of the decode core that faults at the packet only, in the job's region. -/
abbrev StopsInRegion (c : Cmd α) : Prop := StopsAtPacket j.base (j.nvec * j.len) c

theorem stops_addValues {v : Nat} (hv : v ∈ j.active) : ∀ (xs : List Word) (i : Nat),
    StopsInRegion j (addValues j v i xs)
  | [], _ => .pure _
  | x :: xs, i => by
    unfold addValues
    by_cases hi : j.lvec ≤ i
    · rw [decide_eq_true hi]
      exact .of_never ⟨fun s => Reads.refl s, fun _ _ _ _ => nofun⟩ fun _ _ _ => nofun
    · obtain ⟨h1, h2⟩ := j.target_mem hv (Nat.lt_of_not_le hi)
      exact .bind (.raiseIf _ _) fun _ => .bind (stops_vecRead h1 h2) fun _ =>
        .bind (stops_vecWrite h1 (by simpa using h2)) fun _ => stops_addValues hv xs (i + 1)

theorem stops_fillPartition {v : Nat} (hv : v ∈ j.active) (bk off : Nat) :
    ∀ fuel k, StopsInRegion j (fillPartition j bk v off fuel k)
  | 0, _ => .pure _
  | fuel + 1, k => by
    unfold fillPartition
    split
    · exact .bind (stops_vectorDecode bk) fun _ => .bind (stops_addValues j hv _ _) fun _ =>
        stops_fillPartition hv bk off fuel _
    · exact .pure _

theorem stops_decodePartition {v : Nat} (hv : v ∈ j.active) (bk off : Nat) :
    StopsInRegion j (decodePartition j bk v off) :=
  .bind (stops_codebookAt bk) fun _ => .bind (.raiseIf _ _) fun _ => stops_fillPartition j hv bk off _ _

theorem stops_classify (dc room : Nat) (cls : List (List Nat)) : StopsInRegion j (classify j dc room cls) :=
  .forEach _ fun _ _ => .bind (stops_scalarDecode _) fun _ => .pure _

theorem stops_decodeVectorPartition (pass p : Nat) (vk : Nat × List Nat) (hv : vk.1 ∈ j.active) :
    StopsInRegion j (decodeVectorPartition j pass p vk) := by
  unfold decodeVectorPartition
  simp only
  split
  · split
    · exact stops_decodePartition j hv _ _
    · exact .raise _
  · exact .pure _

theorem stops_decodeGroup (pass : Nat) (cls : List (List Nat)) : ∀ ps, StopsInRegion j (decodeGroup j pass cls ps)
  | [] => .pure _
  | p :: ps => .bind (.forEach _ fun vk hvk => stops_decodeVectorPartition j pass p vk (List.of_mem_zip hvk).1) fun _ =>
      stops_decodeGroup pass cls ps

theorem stops_decodePass (dc parts pass : Nat) : ∀ fuel p cls, StopsInRegion j (decodePass j dc parts pass fuel p cls)
  | 0, _, _ => .pure _
  | fuel + 1, p, _ => by
    unfold decodePass
    split
    · have tail : ∀ cls', StopsInRegion j (do
          decodeGroup j pass cls' (List.range' p (min dc (parts - p)))
          decodePass j dc parts pass fuel (p + dc) cls') :=
        fun cls' => .bind (stops_decodeGroup j pass cls' _) fun _ => stops_decodePass dc parts pass fuel _ _
      split
      · exact .bind (stops_classify j _ _ _) tail
      · exact .bind (.pure _) tail
    · exact .pure _

theorem stops_decodePasses (dc parts : Nat) : ∀ passes cls, StopsInRegion j (decodePasses j dc parts passes cls)
  | [], _ => .pure _
  | _ :: rest, _ => .bind (stops_decodePass j dc parts _ _ _ _) fun _ => stops_decodePasses dc parts rest _

theorem stops_decodeResidue : StopsInRegion j (decodeResidue j) := by
  refine .bind .get fun s => ?_
  split
  · exact .pure _
  · exact .bind (.raiseIf _ _) fun _ => .bind (.raiseIf _ _) fun _ =>
      .bind (.bind (stops_codebookAt _) fun _ => .bind (.raiseIf _ _) fun _ => stops_decodePasses j _ _ _ _) fun _ =>
        .bind .get fun _ => .pure _

end

/-! Commands -/

theorem runCommand_fault {i : Instr} {c : Cmd Unit} {s : State} {f : Fault} (h : runCommand i c s = .fault f) :
    ∃ t, c s = .error (.fault f) t := by
  unfold runCommand at h
  split at h <;> cases h
  exact ⟨_, ‹_›⟩

theorem runCommand_ne_refused (i : Instr) (c : Cmd Unit) (s : State) (r : Refusal) : runCommand i c s ≠ .refused r := by
  unfold runCommand
  split <;> exact nofun

theorem exec_ne_refused (i : Instr) (s : State) (r : Refusal) : exec i s ≠ .refused r := by
  cases i with
  | nop | softReset | cfgReset | brIlog | synReset | pcmClear => exact nofun
  | cfgSeal | brStart | brReadU | brReadS | brReadF | cbDefine | cbScalar | cbVector | resDefine | resDecode | synConfig
  | synBlock => exact runCommand_ne_refused _ _ _ _

/-- A command whose rule faults at the packet only, wherever VEC is written. -/
theorem packetFault_of_runCommand {i : Instr} {c : Cmd Unit} {s : State} {f : Fault} (hc : FaultsAtPacket 0 0 c)
    (h : runCommand i c s = .fault f) : PacketFault s f := by
  obtain ⟨t, h⟩ := runCommand_fault h
  exact hc s (vecWritten_zero s 0) f t h

/-- A block read of VEC faults at an unwritten word of the block. -/
theorem vecReadBlock_fault {w n : Nat} {s t : State} {x : Stop} (h : vecReadBlock w n s = .error x t) :
    (∃ u, x = .fault (.unwritten .vec u) ∧ s.vec.find u = none) ∧ ¬ VecWritten s w n := by
  refine ⟨?_, fun hw => ?_⟩
  · induction n generalizing w with
    | zero => cases h
    | succ n ih =>
      rcases bind_error (f := fun y => do let ys ← vecReadBlock (w + 1) n; pure (y :: ys)) h with h | ⟨_, _, h1, h2⟩
      · rw [vecRead_run] at h
        cases e : s.vec.find w <;> rw [e] at h <;> cases h
        exact ⟨w, rfl, e⟩
      · rw [vecRead_run] at h1
        cases e : s.vec.find w <;> rw [e] at h1 <;> cases h1
        rcases bind_error h2 with h2 | ⟨_, _, _, h2⟩
        · exact ih h2
        · cases h2
  · obtain ⟨xs, hrun, _⟩ := vecReadBlock_ok hw
    rw [hrun] at h
    cases h

/-- What a fault of command i in s is: at an unwritten packet byte, or at a word of VEC that i had to find written. -/
def FaultCause (i : Instr) (s : State) (f : Fault) : Prop :=
  PacketFault s f ∨ ∃ w, f = .unwritten .vec w ∧ s.vec.find w = none ∧ ¬ VecReadable i s

/-- RES_DECODE zeroes its region before it reads there, so it faults at the packet only (R85). -/
theorem exec_resDecode_fault {r nvec : Nat} {s : State} {f : Fault} (h : exec (.resDecode r nvec) s = .fault f) :
    PacketFault s f := by
  obtain ⟨t, hrule⟩ := runCommand_fault h
  rcases bind_error hrule with hstop | ⟨j, u, hchecks, hrest⟩
  · exact (stops_residueChecks r nvec).faults s (vecWritten_zero s 0) f t hstop
  obtain ⟨rfl, _⟩ := residueChecks_ok hchecks
  rcases bind_error hrest with hstop | ⟨_, v, hzero, hdecode⟩
  · cases hstop
  cases hzero
  have hv : VecWritten (storeVec u j.base (List.replicate (j.nvec * j.len) 0)) j.base (j.nvec * j.len) := fun k hk => by
    simp [storeVec, Sparse.find_store, hk]
  exact (stops_decodeResidue j).faults.onRaise.bind_modify _ hv f t hdecode

/-- CB_VECTOR (R77): at the packet, or with ACC = 1 at an unwritten destination word. -/
theorem exec_cbVector_fault {k : Nat} {acc : Bool} {s : State} {f : Fault} (h : exec (.cbVector k acc) s = .fault f) :
    FaultCause (.cbVector k acc) s f := by
  obtain ⟨t, h⟩ := runCommand_fault h
  have hv := vecWritten_zero s 0
  rcases bind_error h with h | ⟨_, _, hgate, h⟩
  · exact .inl ((stops_decodeGate k).faults s hv f t h)
  obtain ⟨rfl, _⟩ := decodeGate_ok hgate
  rcases bind_error h with h | ⟨c, _, hbook, h⟩
  · exact .inl ((stops_codebookAt k).faults _ hv f t h)
  obtain ⟨rfl, hc⟩ := codebookAt_ok hbook
  rcases bind_raiseIf_error h with ⟨_, h, _⟩ | ⟨_, h⟩
  · cases h
  rcases bind_raiseIf_error h with ⟨_, h, _⟩ | ⟨_, h⟩
  · cases h
  rcases bind_error h with h | ⟨⟨e, v⟩, u, hvec, h⟩
  · exact .inl ((stops_vectorDecode k).faults _ hv f t h)
  cases acc with
  | false => cases h
  | true =>
    obtain ⟨c', l, hc', _, hvals, _⟩ := vectorDecode_ok hvec
    obtain rfl : c = c' := by rw [hc] at hc'; cases hc'; rfl
    have hlen : v.length = c.dim := by rw [show v = entryVector c l e from hvals, length_entryVector]
    have hu := ((onlyReads_vectorDecode k).keeps.ok hvec).1
    rcases bind_error h with h | ⟨_, _, _, h⟩
    · obtain ⟨⟨w, hw, hnone⟩, hnot⟩ := vecReadBlock_fault h
      cases hw
      rw [hu] at hnone hnot
      exact .inr ⟨w, rfl, hnone, fun hread => hnot (hlen ▸ hread c hc)⟩
    · cases h

/-- SYN_BLOCK (R98): at an unwritten word of its spectrum. -/
theorem exec_synBlock_fault {w pw nw : Bool} {s : State} {f : Fault} (h : exec (.synBlock w pw nw) s = .fault f) :
    FaultCause (.synBlock w pw nw) s f := by
  obtain ⟨t, h⟩ := runCommand_fault h
  rcases bind_raiseIf_error h with ⟨_, h, _⟩ | ⟨_, h⟩
  · cases h
  rcases bind_raiseIf_error h with ⟨_, h, _⟩ | ⟨_, h⟩
  · cases h
  rcases bind_error h with h | ⟨_, _, hchecks, h⟩
  · have checks : FaultsAtPacket 0 0 (blockChecks (blockGeometry s w pw nw)) :=
      .bind .get fun _ => .bind (.raiseIf _ _) fun _ => .bind (.raiseIf _ _) fun _ => (StopsAtPacket.raiseIf _ _).faults
    exact .inl (checks s (vecWritten_zero s 0) f t h)
  obtain ⟨rfl, _⟩ := blockChecks_ok hchecks
  rcases bind_error h with h | ⟨x, _, _, h⟩
  · obtain ⟨⟨u, hu, hnone⟩, hnot⟩ := vecReadBlock_fault h
    cases hu
    exact .inr ⟨u, rfl, hnone, hnot⟩
  · rcases bind_error h with h | ⟨_, _, _, h⟩
    · obtain ⟨ys, d, hrun, _⟩ := blockSamples_run (State.params _) (blockGeometry _ w pw nw) x _
      rw [hrun] at h
      cases h
    · cases h

/-- R39, R104: a command that does not end is at the UNWRITTEN fault of something it reads. -/
theorem exec_fault {i : Instr} {s : State} {f : Fault} (h : exec i s = .fault f) : FaultCause i s f := by
  cases i with
  | nop | softReset | cfgReset | brIlog | synReset | pcmClear => cases h
  | cfgSeal =>
    exact .inl (packetFault_of_runCommand (.bind (.raiseIf _ _) fun _ => (stops_sealChecks _ _).faults.onRaise.bind_modify) h)
  | brStart => exact .inl (packetFault_of_runCommand (StopsAtPacket.raiseIf _ _).faults.bind_modify h)
  | brReadU k => exact .inl (packetFault_of_runCommand (stops_readU k).faults.bind_modify h)
  | brReadS k => exact .inl (packetFault_of_runCommand (stops_readU k).faults.bind_modify h)
  | brReadF => exact .inl (packetFault_of_runCommand (stops_readVF _).faults.bind_modify h)
  | cbDefine k =>
    exact .inl (packetFault_of_runCommand (.bind (.raiseIf _ _) fun _ => (stops_parseCodebook k).faults.onRaise.bind_modify) h)
  | cbScalar k =>
    exact .inl (packetFault_of_runCommand (.bind (stops_decodeGate k) fun _ => (stops_scalarDecode k).faults.bind_modify) h)
  | cbVector k acc => exact exec_cbVector_fault h
  | resDefine r =>
    exact .inl (packetFault_of_runCommand (.bind (.raiseIf _ _) fun _ => stops_parseResidue.faults.onRaise.bind_modify) h)
  | resDecode r nvec => exact .inl (exec_resDecode_fault h)
  | synConfig e0 e1 =>
    refine .inl (packetFault_of_runCommand (.bind (.raiseIf _ _) fun _ => FaultsAtPacket.bind_modify
      (.onRaise (.bind (.raiseIf _ _) fun _ => (StopsAtPacket.raiseIf _ _).faults))) h)
  | synBlock w pw nw => exact exec_synBlock_fault h

/-! A read of bits that meets an unwritten byte -/

/-- A read of more bits than these stops after them as the next bit read stops. -/
theorem readU_stop {n : Nat} {s u : State} {p : List Bool} {x : Stop} (hn : p.length < n) (hs : packetHas s p = true)
    (hx : readBit (advance s p.length) = .error x u) : readU n s = .error x u := by
  rw [readU_pos (by omega)]
  induction p generalizing n s with
  | nil =>
    obtain ⟨n, rfl⟩ : ∃ m, n = m + 1 := ⟨n - 1, by simp at hn; omega⟩
    rw [readBits, bind_of_error (by simpa using hx)]
  | cons b p ih =>
    obtain ⟨n, rfl⟩ : ∃ m, n = m + 1 := ⟨n - 1, by omega⟩
    rw [packetHas_cons] at hs
    obtain ⟨hlt, hb, hs⟩ := hs
    simp only [List.length_cons] at hn
    rw [readBits, bind_of_ok (readBit_run hlt hb),
      bind_of_error (ih (by omega) hs (by simpa [Nat.add_comm] using hx))]

theorem readU_unwritten {n : Nat} {s : State} {p : List Bool} (hn : p.length < n) (hs : packetHas s p = true)
    (hlt : s.bitpos + p.length < 8 * s.pktlen) (hnone : s.pkt.find ((s.bitpos + p.length) / 8) = none) :
    readU n s = .error (.fault (.unwritten .pkt ((s.bitpos + p.length) / 8))) (advance s p.length) :=
  readU_stop hn hs (readBit_unwritten hlt hnone)

/-- Settles O19: a fault has a cause in what the command reads (`exec_fault`), and the three commands that read a field
fault as their read does. -/
theorem everyCommandEnds : Obligations.EveryCommandEnds := by
  refine ⟨fun i s => ⟨fun hp hv => ?_, fun f h => ?_, exec_ne_refused i s⟩, fun s n bits hn hs hlt hnone => ?_⟩
  · cases h : exec i s with
    | next t => exact ⟨t, rfl⟩
    | fault f =>
      rcases exec_fault h with hf | ⟨_, _, _, hf⟩
      · exact absurd hf (not_packetFault hp)
      · exact absurd hv hf
    | refused r => exact absurd h (exec_ne_refused i s r)
  · exact (exec_fault h).imp id fun ⟨w, hw, hnone, _⟩ => ⟨w, hw, hnone⟩
  · have hread := readU_unwritten hn hs hlt hnone
    refine ⟨runCommand_of_fault (bind_of_error hread), runCommand_of_fault (bind_of_error hread), fun h32 => ?_⟩
    subst h32
    exact runCommand_of_fault (bind_of_error (bind_of_error hread))

end Sys2Proof.Machine
end

section
/-!
PROOFS. What a command can do, said once for all commands: the decoder gives well-formed commands only, and a command that
gives a next state has one of the effects listed here. The invariants below are shown over these effects.
-/

namespace Sys2Proof.Machine

/-! A decoded command is well formed (30_encoding.md rules R52, R53, R55) -/

theorem fieldsF0_ok {p : Nat} {j i : Instr} (h : fieldsF0 p j = .ok i) : i = j := by
  unfold fieldsF0 at h
  split at h <;> cases h
  rfl

theorem fieldsFB_ok {p : Nat} {f : Nat → Instr} {i : Instr} (h : fieldsFB p f = .ok i) : ∃ n, n ≤ 32 ∧ i = f n := by
  unfold fieldsFB at h
  split at h
  · split at h <;> cases h
    exact ⟨p, ‹_›, rfl⟩
  · cases h

theorem fieldsByte_ok {p : Nat} {f : Nat → Instr} {i : Instr} (h : fieldsByte p f = .ok i) :
    ∃ k, k < 256 ∧ i = f k := by
  unfold fieldsByte at h
  split at h <;> cases h
  exact ⟨p, ‹_›, rfl⟩

theorem fieldsFKV_ok {p : Nat} {f : Nat → Bool → Instr} {i : Instr} (h : fieldsFKV p f = .ok i) :
    ∃ k a, k < 256 ∧ i = f k a := by
  unfold fieldsFKV at h
  split at h <;> cases h
  exact ⟨p % 256, _, Nat.mod_lt _ (by decide), rfl⟩

theorem fieldsFR_ok {p : Nat} {f : Nat → Instr} {i : Instr} (h : fieldsFR p f = .ok i) : ∃ r, r < 64 ∧ i = f r := by
  unfold fieldsFR at h
  split at h <;> cases h
  exact ⟨p, ‹_›, rfl⟩

theorem fieldsFRD_ok {p : Nat} {f : Nat → Nat → Instr} {i : Instr} (h : fieldsFRD p f = .ok i) :
    ∃ r v, r < 64 ∧ 1 ≤ v ∧ v ≤ 32 ∧ i = f r v := by
  unfold fieldsFRD at h
  split at h <;> cases h
  exact ⟨p % 64, p / 256 + 1, Nat.mod_lt _ (by decide), by omega, by omega, rfl⟩

theorem fieldsFSB_ok {p : Nat} {f : Bool → Bool → Bool → Instr} {i : Instr} (h : fieldsFSB p f = .ok i) :
    ∃ w pw nw, i = f w pw nw := by
  unfold fieldsFSB at h
  split at h <;> cases h
  exact ⟨_, _, _, rfl⟩

/-- The decoder gives well-formed commands only (R53, R55): one case for the arms of `decodeParts` of each format, in its
order, and F0 for the rest. -/
theorem wellFormed_of_decode {c : Word} {i : Instr} (h : decode c = .ok i) : i.wellFormed = true := by
  unfold decode decodeParts at h
  split at h
  case h_6 | h_7 => obtain ⟨n, hn, rfl⟩ := fieldsFB_ok h; simpa [Instr.wellFormed] using hn
  case h_10 | h_11 => obtain ⟨k, hk, rfl⟩ := fieldsByte_ok h; simpa [Instr.wellFormed] using hk
  case h_12 => obtain ⟨k, a, hk, rfl⟩ := fieldsFKV_ok h; simpa [Instr.wellFormed] using hk
  case h_13 => obtain ⟨r, hr, rfl⟩ := fieldsFR_ok h; simpa [Instr.wellFormed] using hr
  case h_14 =>
    obtain ⟨r, v, hr, hv, hv', rfl⟩ := fieldsFRD_ok h
    simp [Instr.wellFormed, hr, hv, hv']
  case h_15 =>
    obtain ⟨b, hb, rfl⟩ := fieldsByte_ok h
    simp only [Instr.wellFormed, Bool.and_eq_true, decide_eq_true_eq]
    omega
  case h_16 => obtain ⟨w, pw, nw, rfl⟩ := fieldsFSB_ok h; rfl
  case h_19 => cases h
  all_goals
    cases fieldsF0_ok h
    rfl

/-- A predicate that the port, the gate and every command keep is kept by every step. -/
theorem StepStable.step {P : State → Prop} (hP : StepStable P) {s t : State} (hs : P s) (h : step s = .next t) : P t :=
  step_keeps hP (fun _ _ => wellFormed_of_decode) hs h

/-! Effects -/

/-- What a command that gives a next state can have done. `result` and `failed` are the ends of the commands that read and
store; a configuration command in OPEN has an effect of its own, on success and on an error (R108). -/
inductive Effect (i : Instr) (s t : State) : Prop where
  | nothing (h : t = s)
  | result (lo n : Nat) (u : State) (v : Word) (hu : Stores lo n s u) (hn : lo + n ≤ s.params.vecWords)
      (h : t = setResult v u)
  | failed (lo n : Nat) (u : State) (op : Byte) (reads : Bool) (e : ErrorCode) (hu : Stores lo n s u)
      (hn : lo + n ≤ s.params.vecWords) (h : t = errorEntry op reads s.bitpos e u)
  | broke (op : Byte) (e : ErrorCode) (ho : s.cfgState = .opened) (h : t = errorEntry op false s.bitpos e (breakConfig s))
  | definedCodebook (k : Nat) (u : State) (c : Codebook) (hi : i = .cbDefine k) (ho : s.cfgState = .opened)
      (hu : Reads s u) (hc : parseCodebook k s = .ok c u)
      (h : t = setResult (BitVec.ofNat 32 c.count) { u with cb := u.cb.store k [c] })
  | droppedCodebook (k : Nat) (u : State) (e : ErrorCode) (ho : s.cfgState = .opened) (hu : Reads s u)
      (h : t = errorEntry 0x20 true s.bitpos e (dropCodebook k u))
  | definedResidue (r : Nat) (u : State) (x : Residue) (hi : i = .resDefine r) (ho : s.cfgState = .opened)
      (hu : Reads s u) (hx : parseResidue s = .ok x u)
      (h : t = setResult (BitVec.ofNat 32 x.type) { u with res := u.res.store r [x] })
  | droppedResidue (r : Nat) (u : State) (e : ErrorCode) (ho : s.cfgState = .opened) (hu : Reads s u)
      (h : t = errorEntry 0x30 true s.bitpos e (dropResidue r u))
  | sealed (ho : s.cfgState = .opened) (hc : sealChecks s.arg0.toNat s.arg1.toNat s = .ok () s)
      (h : t = { s with cbCount := s.arg0.toNat, resCount := s.arg1.toNat, cfgState := .sealed })
  | sized (e0 e1 : Nat) (ho : s.cfgState = .opened) (h0 : 6 ≤ e0) (h1 : e0 ≤ e1) (h2 : e1 ≤ 13)
      (h : t = { s with e0 := BitVec.ofNat 4 e0, e1 := BitVec.ofNat 4 e1, synValid := true })
  | block (w pw nw : Bool) (ys : List Word) (d : Nat) (hs : s.cfgState = .sealed) (hv : s.synValid = true)
      (hc : blockChecks (blockGeometry s w pw nw) s = .ok () s)
      (h : t = blockState { s with draws := d } (blockGeometry s w pw nw) ys)
  | packet (hl : s.arg0.toNat ≤ s.params.pktBytes)
      (h : t = { clearError s with pktlen := s.arg0.toNat, bitpos := 0, raced := [] })
  | softReset (hi : i = .softReset) (h : t = softResetState s)
  | cfgReset (hi : i = .cfgReset) (h : t = cfgResetState s)
  | synReset (h : t = { s with lapValid := false, tailLen := 0 })
  | pcmClear (h : t = { s with pcmcount := 0 })

section
variable {i : Instr} {s t u : State}

/-- RESULT after reads only. -/
theorem Effect.of_reads_result (hu : Reads s u) (v : Word) : Effect i s (setResult v u) :=
  .result 0 0 u v (.of_reads 0 0 hu) (Nat.zero_le _) rfl

/-- The error entry after reads only. -/
theorem Effect.of_reads_error (hu : Reads s u) (op : Byte) (reads : Bool) (e : ErrorCode) :
    Effect i s (errorEntry op reads s.bitpos e u) :=
  .failed 0 0 u op reads e (.of_reads 0 0 hu) (Nat.zero_le _) rfl

/-- The error entry before anything is read. -/
theorem Effect.of_error (op : Byte) (reads : Bool) (e : ErrorCode) : Effect i s (errorEntry op reads s.bitpos e s) :=
  .of_reads_error (Reads.refl s) op reads e

theorem exec_reading_effect
    (hi : (∃ n, i = .brReadU n) ∨ (∃ n, i = .brReadS n) ∨ i = .brReadF ∨ ∃ k, i = .cbScalar k)
    (h : exec i s = .next t) : Effect i s t := by
  obtain ⟨u, hu, ⟨v, rfl⟩ | ⟨e, rfl⟩⟩ := exec_reading_next hi h
  · exact .of_reads_result hu v
  · exact .of_reads_error hu _ _ e

/-- What each command can have done, from its own inversion lemma. -/
theorem exec_effect (h : exec i s = .next t) : Effect i s t := by
  cases i with
  | nop => cases h; exact .nothing rfl
  | softReset => cases h; exact .softReset rfl rfl
  | cfgReset => cases h; exact .cfgReset rfl rfl
  | synReset => cases h; exact .synReset rfl
  | pcmClear => cases h; exact .pcmClear rfl
  | brIlog => cases h; exact .of_reads_result (Reads.refl s) _
  | brReadU n => exact exec_reading_effect (.inl ⟨n, rfl⟩) h
  | brReadS n => exact exec_reading_effect (.inr (.inl ⟨n, rfl⟩)) h
  | brReadF => exact exec_reading_effect (.inr (.inr (.inl rfl))) h
  | cbScalar k => exact exec_reading_effect (.inr (.inr (.inr ⟨k, rfl⟩))) h
  | brStart =>
    obtain ⟨_, rfl⟩ | ⟨hl, rfl⟩ := exec_brStart_next h
    · exact .of_error _ _ _
    · exact .packet hl rfl
  | cfgSeal =>
    obtain ⟨_, rfl⟩ | ⟨ho, ⟨hc, rfl⟩ | ⟨e, rfl⟩⟩ := exec_cfgSeal_next h
    · exact .of_error _ _ _
    · exact .sealed ho hc rfl
    · exact .broke _ e ho rfl
  | synConfig e0 e1 =>
    obtain ⟨_, rfl⟩ | ⟨ho, ⟨h0, h1, h2, rfl⟩ | ⟨_, rfl⟩⟩ := exec_synConfig_next h
    · exact .of_error _ _ _
    · exact .sized e0 e1 ho h0 h1 h2 rfl
    · exact .broke _ _ ho rfl
  | cbDefine k =>
    obtain ⟨_, rfl⟩ | ⟨ho, u, hu, ⟨c, hc, rfl⟩ | ⟨e, rfl⟩⟩ := exec_cbDefine_next h
    · exact .of_error _ _ _
    · exact .definedCodebook k u c rfl ho hu hc rfl
    · exact .droppedCodebook k u e ho hu rfl
  | resDefine r =>
    obtain ⟨_, rfl⟩ | ⟨ho, u, hu, ⟨x, hx, rfl⟩ | ⟨e, rfl⟩⟩ := exec_resDefine_next h
    · exact .of_error _ _ _
    · exact .definedResidue r u x rfl ho hu hx rfl
    · exact .droppedResidue r u e ho hu rfl
  | cbVector k acc =>
    obtain ⟨e, u, hu, rfl⟩ | ⟨c, l, u, e, xs, _, _, hu, hn, hxs, rfl⟩ := exec_cbVector_next k acc s t h
    · exact .of_reads_error hu _ _ e
    · exact .result _ c.dim _ _ (.trans _ _ _ u _ (.of_reads _ _ hu)
        (.of_storeVec _ _ _ _ _ (Nat.le_refl _) (by rw [hxs]))) hn rfl
  | resDecode r nvec =>
    obtain ⟨e, rfl⟩ | ⟨hn, u, hu, ⟨v, rfl⟩ | ⟨e, rfl⟩⟩ := exec_resDecode_next r nvec s t h
    · exact .of_error _ _ _
    · exact .result _ _ u v hu hn rfl
    · exact .failed _ _ u _ _ e hu hn rfl
  | synBlock w pw nw =>
    obtain ⟨e, rfl⟩ | ⟨x, ys, u, hs, hv, hc, _, hys, rfl⟩ := exec_synBlock_next h
    · exact .of_error _ _ _
    · rw [blockSamples_state hys]
      exact .block w pw nw ys _ hs hv hc rfl

end

end Sys2Proof.Machine
end

section
/-!
PROOFS. Every step keeps the registers legal (10_state.md rules R18 to R20, R25; 60_exceptions.md rule R105).
-/

namespace Sys2Proof.Machine

/-- The legal registers, but for BUSY, which is 1 while a command runs. -/
def RunningOk (s : State) : Prop :=
  s.bitpos ≤ 8 * s.pktlen ∧ s.pktlen ≤ s.params.pktBytes ∧ s.pcmcount ≤ s.params.pcmWords
    ∧ (s.err = false → s.errcode = 0 ∧ s.errop = 0) ∧ (s.err = true → 1 ≤ s.errcode.toNat ∧ s.errcode.toNat ≤ 14)

theorem registersOk_iff (s : State) : RegistersOk s ↔ RunningOk s ∧ s.busy = false := by
  unfold RegistersOk RunningOk
  tauto

/-- Every code of R105 is 1 to 14. -/
theorem ErrorCode.code_bounds (e : ErrorCode) : 1 ≤ e.code.toNat ∧ e.code.toNat ≤ 14 := by
  cases e <;> decide

section
variable {i : Instr} {s t u : State}

theorem RunningOk.of_stores {lo n : Nat} (hs : RunningOk s) (h : Stores lo n s u) : RunningOk u := by
  obtain ⟨hu, _, hmax, _⟩ := h
  obtain ⟨hbit, hrest⟩ := hs
  have hle : u.bitpos ≤ 8 * s.pktlen := by omega
  rw [hu]
  exact ⟨hle, hrest⟩

theorem RunningOk.of_reads (hs : RunningOk s) (h : Reads s u) : RunningOk u := hs.of_stores (.of_reads 0 0 h)

/-- The error entry's draw of BITPOS stays inside the packet (R107), and its code is one of R105. -/
theorem RunningOk.errorEntry {start : Nat} (hs : RunningOk s) (hstart : start ≤ 8 * s.pktlen) (op : Byte) (reads : Bool)
    (e : ErrorCode) : RunningOk (errorEntry op reads start e s) := by
  obtain ⟨hbit, hlen, hpcm, -, -⟩ := hs
  refine ⟨?_, hlen, hpcm, nofun, fun _ => e.code_bounds⟩
  rw [errorEntry_bitpos, errorEntry_pktlen]
  cases reads
  · exact hbit
  · have := Nat.mod_lt (Config.freeNat (s.draws + 1)) (Nat.add_one_pos (8 * s.pktlen - start))
    simp only [if_true]
    omega

/-- With the reader, the samples and the error at their reset values. -/
theorem RunningOk.of_zero (h1 : s.bitpos = 0) (h2 : s.pktlen = 0) (h3 : s.pcmcount = 0) (h4 : s.err = false)
    (h5 : s.errcode = 0) (h6 : s.errop = 0) : RunningOk s := by
  refine ⟨?_, ?_, ?_, fun _ => ⟨h5, h6⟩, fun h => ?_⟩
  · omega
  · omega
  · omega
  · rw [h4] at h; cases h

theorem Stores.params {lo n : Nat} (h : Stores lo n s u) : u.params = s.params := by rw [h.1]

theorem Reads.params (h : Reads s u) : u.params = s.params := by rw [h.1]

/-- No command changes the parameters (R6). -/
theorem Effect.params (h : Effect i s t) : t.params = s.params := by
  cases h with
  | result lo n u v hu hn h => rw [h, setResult_params, hu.params]
  | failed lo n u op rd e hu hn h => rw [h, errorEntry_params, hu.params]
  | definedCodebook k u c hi ho hu hc h => rw [h, setResult_params]; exact hu.params
  | droppedCodebook k u e ho hu h => rw [h, errorEntry_params, dropCodebook_params, hu.params]
  | definedResidue r u x hi ho hu hx h => rw [h, setResult_params]; exact hu.params
  | droppedResidue r u e ho hu h => rw [h, errorEntry_params, dropResidue_params, hu.params]
  | nothing h | broke _ _ _ h | sealed _ _ h | sized _ _ _ _ _ _ h | block _ _ _ _ _ _ _ _ h | packet _ h
  | softReset _ h | cfgReset _ h | synReset h | pcmClear h => subst h; rfl

/-- Every command keeps the registers legal. -/
theorem Effect.runningOk (h : Effect i s t) (hs : RunningOk s) : RunningOk t := by
  obtain ⟨hbit, hlen, hpcm, hok, herr⟩ := id hs
  cases h with
  | nothing h => subst h; exact hs
  | result lo n u v hu hn h => have hu := hs.of_stores hu; subst h; exact hu
  | failed lo n u op rd e hu hn h =>
    subst h
    exact (hs.of_stores hu).errorEntry (by rw [hu.1]; exact hbit) op rd e
  | broke op e ho h => subst h; exact RunningOk.errorEntry (s := breakConfig s) hs hbit op false e
  | definedCodebook k u c hi ho hu hc h => have hu := hs.of_reads hu; subst h; exact hu
  | droppedCodebook k u e ho hu h =>
    have hdrop : RunningOk (dropCodebook k u) := show RunningOk u from hs.of_reads hu
    subst h
    exact hdrop.errorEntry (by rw [dropCodebook_pktlen, hu.1]; exact hbit) _ _ e
  | definedResidue r u x hi ho hu hx h => have hu := hs.of_reads hu; subst h; exact hu
  | droppedResidue r u e ho hu h =>
    have hdrop : RunningOk (dropResidue r u) := show RunningOk u from hs.of_reads hu
    subst h
    exact hdrop.errorEntry (by rw [dropResidue_pktlen, hu.1]; exact hbit) _ _ e
  | sealed ho hc h => subst h; exact hs
  | sized e0 e1 ho h0 h1 h2 h => subst h; exact hs
  | block w pw nw ys d hsl hv hc h =>
    obtain ⟨_, _, _, hroom⟩ := blockChecks_ok hc
    subst h
    exact ⟨hbit, hlen, hroom, hok, herr⟩
  | packet hl h => subst h; exact ⟨Nat.zero_le _, hl, hpcm, fun _ => ⟨rfl, rfl⟩, nofun⟩
  | softReset hi h => subst h; exact .of_zero rfl rfl rfl rfl rfl rfl
  | cfgReset hi h => subst h; exact ⟨hbit, hlen, Nat.zero_le _, fun _ => ⟨rfl, rfl⟩, nofun⟩
  | synReset h => subst h; exact hs
  | pcmClear h => subst h; exact ⟨hbit, hlen, Nat.zero_le _, hok, herr⟩

theorem stepStable_params (p : Params) : StepStable fun s => s.params = p where
  port _ _ _ _ _ h := h
  busy _ _ h := h
  registers _ _ _ _ h := h
  packet _ _ _ h _ := h
  vector _ _ _ h _ := h
  reset _ h := h
  release _ h := h
  illegal _ _ h _ := h
  command _ _ _ _ hs h := (exec_effect h).params.trans hs

theorem stepStable_runningOk : StepStable RunningOk where
  port _ _ _ _ _ h := h
  busy _ _ h := h
  registers _ _ _ _ h := h
  packet _ _ _ h _ := h
  vector _ _ _ h _ := h
  reset _ _ := .of_zero rfl rfl rfl rfl rfl rfl
  release _ h := h
  illegal op _ h _ := h.errorEntry h.1 op false .illegal
  command _ _ _ _ hs h := (exec_effect h).runningOk hs

theorem step_params (h : step s = .next t) : t.params = s.params :=
  (stepStable_params s.params).step rfl h

/-- BUSY is 0 again after a command (R44, R45), and nothing else sets it. -/
theorem step_busy (hs : s.busy = false) (h : step s = .next t) : t.busy = false := by
  obtain ⟨_, rfl⟩ | ⟨e, rest, _, hserved⟩ := step_next h
  · exact hs
  cases hserved with
  | command c h =>
    obtain ⟨u, rfl, _⟩ := issue_next h
    exact retire_busy _ u
  | reset h => subst h; rfl
  | port _ _ h | registers _ _ _ h | packet _ _ _ h | vector _ _ _ h | release h => subst h; exact hs

end

/-- Settles O56: every command's effect keeps the registers legal, and BUSY falls at its end. -/
theorem stepKeepsTheRegistersLegal : Obligations.StepKeepsTheRegistersLegal := by
  intro s t hs h
  obtain ⟨hrun, hbusy⟩ := (registersOk_iff s).1 hs
  exact ⟨(registersOk_iff t).2 ⟨stepStable_runningOk.step hrun h, step_busy hbusy h⟩, step_params h⟩

end Sys2Proof.Machine
end

section
/-!
PROOFS. Every step keeps the RAMs and the slots canonical and inside their sizes (20_memory.md rule R37; 10_state.md rules
R27, R28; logs 3, 20).
-/

namespace Sys2Proof.Machine

/-- A canonical sparse list with every index below n. -/
def Sparse.Within {α : Type} (m : Sparse α) (n : Nat) : Prop := m.wf ∧ ∀ c ∈ m, c.1 < n

section
variable {α : Type} {m : Sparse α} {n : Nat}

theorem Sparse.Within.nil (n : Nat) : Sparse.Within ([] : Sparse α) n := ⟨Sparse.wf_nil, nofun⟩

theorem Sparse.Within.store (h : m.Within n) {i : Nat} {xs : List α} (hn : i + xs.length ≤ n) :
    (Sparse.store m i xs).Within n := by
  refine ⟨Sparse.wf_store h.1 i xs, fun c hc => ?_⟩
  obtain ⟨_, hlt, _⟩ | hold := Sparse.mem_store hc
  · omega
  · exact h.2 c hold

theorem Sparse.Within.erase (h : m.Within n) (i : Nat) : (Sparse.erase m i).Within n :=
  ⟨Sparse.wf_erase h.1 i, fun c hc => h.2 c (List.mem_filter.1 hc).1⟩

end

theorem storageOk_iff (s : State) : StorageOk s ↔ s.pkt.Within s.params.pktBytes ∧ s.vec.Within s.params.vecWords
    ∧ s.pcm.Within s.params.pcmWords ∧ s.cb.Within nCb ∧ s.res.Within nRes := by
  unfold StorageOk Sparse.Within
  tauto

section
variable {i : Instr} {s t u : State}

/-- Stores in a region inside VEC keep the storage. -/
theorem StorageOk.of_stores {lo n : Nat} (hs : StorageOk s) (h : Stores lo n s u) (hn : lo + n ≤ s.params.vecWords) :
    StorageOk u := by
  obtain ⟨hpkt, ⟨hwf, hlt⟩, hrest⟩ := (storageOk_iff s).1 hs
  obtain ⟨hu, _, _, _, _, hwf', hmem⟩ := h
  have hvec : u.vec.Within s.params.vecWords := by
    refine ⟨hwf' hwf, fun c hc => ?_⟩
    obtain hold | ⟨_, hin⟩ := hmem c hc
    · exact hlt c hold
    · omega
  rw [storageOk_iff, hu]
  exact ⟨hpkt, hvec, hrest⟩

theorem StorageOk.of_reads (hs : StorageOk s) (h : Reads s u) : StorageOk u :=
  hs.of_stores (.of_reads 0 0 h) (Nat.zero_le _)

/-- Every well-formed command keeps the storage: its operand is a slot number, its region lies in the RAM. -/
theorem Effect.storageOk (h : Effect i s t) (hi : i.wellFormed = true) (hs : StorageOk s) : StorageOk t := by
  obtain ⟨hpkt, hvec, hpcm, hcb, hres⟩ := (storageOk_iff s).1 hs
  cases h with
  | result lo n u v hu hn h => have hu := hs.of_stores hu hn; subst h; exact hu
  | failed lo n u op rd e hu hn h => have hu := hs.of_stores hu hn; subst h; exact hu
  | definedCodebook k u c hk ho hu hc h =>
    have hk : k < nCb := by subst hk; simpa [Instr.wellFormed] using hi
    obtain ⟨hpkt, hvec, hpcm, hcb, hres⟩ := (storageOk_iff u).1 (hs.of_reads hu)
    subst h
    exact (storageOk_iff _).2 ⟨hpkt, hvec, hpcm, hcb.store hk, hres⟩
  | definedResidue r u x hr ho hu hx h =>
    have hr : r < nRes := by subst hr; simpa [Instr.wellFormed] using hi
    obtain ⟨hpkt, hvec, hpcm, hcb, hres⟩ := (storageOk_iff u).1 (hs.of_reads hu)
    subst h
    exact (storageOk_iff _).2 ⟨hpkt, hvec, hpcm, hcb, hres.store hr⟩
  | droppedCodebook k u e ho hu h =>
    obtain ⟨hpkt, hvec, hpcm, hcb, hres⟩ := (storageOk_iff u).1 (hs.of_reads hu)
    subst h
    exact (storageOk_iff _).2 ⟨hpkt, hvec, hpcm, hcb.erase k, hres⟩
  | droppedResidue r u e ho hu h =>
    obtain ⟨hpkt, hvec, hpcm, hcb, hres⟩ := (storageOk_iff u).1 (hs.of_reads hu)
    subst h
    exact (storageOk_iff _).2 ⟨hpkt, hvec, hpcm, hcb, hres.erase r⟩
  | block w pw nw ys d hsl hv hc h =>
    obtain ⟨_, _, _, hroom⟩ := blockChecks_ok hc
    have hlen := length_blockOutput_le { s with draws := d } (blockGeometry s w pw nw) ys
    have hroom : s.pcmcount + (blockOutput { s with draws := d } (blockGeometry s w pw nw) ys).length ≤ s.params.pcmWords :=
      (Nat.add_le_add_left hlen _).trans hroom
    subst h
    exact (storageOk_iff _).2 ⟨hpkt, hvec, hpcm.store hroom, hcb, hres⟩
  | softReset _ h | cfgReset _ h => subst h; exact (storageOk_iff _).2 ⟨hpkt, hvec, hpcm, .nil _, .nil _⟩
  | nothing h | broke _ _ _ h | sealed _ _ h | sized _ _ _ _ _ _ h | packet _ h | synReset h | pcmClear h =>
    subst h; exact hs

/-- A host write to a PKT word stays inside PKT, whose size is a multiple of 4 (R6, R41). -/
theorem StorageOk.writePktWord (hp : s.params.wf) (hs : StorageOk s) {w : Nat} (hw : 4 * w < s.params.pktBytes) (v : Word) :
    StorageOk (writePktWord s w v) := by
  obtain ⟨hpkt, hrest⟩ := (storageOk_iff s).1 hs
  obtain ⟨hmul, _⟩ := hp
  have hin : 4 * w + ((List.range 4).map (hostByte v)).length ≤ s.params.pktBytes := by
    rw [List.length_map, List.length_range]
    omega
  exact (storageOk_iff _).2 ⟨hpkt.store hin, hrest⟩

theorem StorageOk.storeVec (hs : StorageOk s) {w : Nat} (hw : w < s.params.vecWords) (v : Word) :
    StorageOk (storeVec s w [v]) := by
  obtain ⟨hpkt, hvec, hrest⟩ := (storageOk_iff s).1 hs
  exact (storageOk_iff _).2 ⟨hpkt, hvec.store hw, hrest⟩

theorem storageOk_assertReset (s : State) : StorageOk (assertReset s) :=
  (storageOk_iff _).2 ⟨.nil _, .nil _, .nil _, .nil _, .nil _⟩

end

theorem stepStable_storageOk : StepStable fun s => s.params.wf ∧ StorageOk s where
  port _ _ _ _ _ h := h
  busy _ _ h := h
  registers _ _ _ _ h := h
  packet _ _ v h hw := ⟨h.1, h.2.writePktWord h.1 hw v⟩
  vector _ _ v h hw := ⟨h.1, h.2.storeVec hw v⟩
  reset s h := ⟨h.1, storageOk_assertReset s⟩
  release _ h := h
  illegal _ _ h _ := h
  command _ _ _ hi hs h := ⟨(exec_effect h).params ▸ hs.1, (exec_effect h).storageOk hi hs.2⟩

/-- Settles O57: a store inside a region of a RAM, and a store or an erase at a slot number, keep `Sparse.Within`. -/
theorem stepKeepsStorageCanonical : Obligations.StepKeepsStorageCanonical := fun _ _ hp hs h =>
  (stepStable_storageOk.step ⟨hp, hs⟩ h).2

end Sys2Proof.Machine
end

section
/-!
PROOFS. Every step keeps the configuration consistent (10_state.md rules R26, R29, R30; 44_config.md rule R89), and with it
the lapping state and BASIS (10_state.md rule R33; 45_synthesis.md rules R96, R103).
-/

namespace Sys2Proof.Machine

section
variable {i : Instr} {s t u : State}

/-- The counts are 0, so a configuration is consistent once its block sizes are legal. -/
theorem ConfigOk.of_unsealed (hsizes : s.synValid = true → SizesOk s) (hcb : s.cbCount = 0) (hres : s.resCount = 0) :
    ConfigOk s := by
  refine ⟨hsizes, fun _ => ⟨hcb, hres⟩, ?_, ?_, fun k hk => ?_, fun r hr => ?_⟩
  · omega
  · omega
  · omega
  · omega

theorem ConfigOk.sizes (h : ConfigOk s) : s.synValid = true → SizesOk s := h.1

theorem ConfigOk.counts (h : ConfigOk s) (ho : s.cfgState = .opened) : s.cbCount = 0 ∧ s.resCount = 0 :=
  h.2.1 (by rw [ho]; decide)

theorem ConfigOk.of_stores {lo n : Nat} (hs : ConfigOk s) (h : Stores lo n s u) : ConfigOk u := by
  rw [h.1]
  exact hs

/-- The block sizes that SYN_CONFIG accepts are the ones it sets (R97). -/
theorem sizesOk_of_synConfig {e0 e1 : Nat} (h0 : 6 ≤ e0) (h1 : e0 ≤ e1) (h2 : e1 ≤ 13) :
    SizesOk { s with e0 := BitVec.ofNat 4 e0, e1 := BitVec.ofNat 4 e1, synValid := true } := by
  simp only [SizesOk, BitVec.toNat_ofNat]
  omega

/-- Every command keeps the configuration consistent: in OPEN the counts are 0, and CFG_SEAL has checked the slots. -/
theorem Effect.configOk (h : Effect i s t) (hs : ConfigOk s) : ConfigOk t := by
  cases h with
  | result lo n u v hu hn h => have hu := hs.of_stores hu; subst h; exact hu
  | failed lo n u op rd e hu hn h => have hu := hs.of_stores hu; subst h; exact hu
  | broke op e ho h => subst h; exact .of_unsealed hs.sizes (hs.counts ho).1 (hs.counts ho).2
  | definedCodebook k u c hi ho hu hc h =>
    rw [h, hu.1]; exact .of_unsealed hs.sizes (hs.counts ho).1 (hs.counts ho).2
  | droppedCodebook k u e ho hu h =>
    rw [h, hu.1]; exact .of_unsealed hs.sizes (hs.counts ho).1 (hs.counts ho).2
  | definedResidue r u x hi ho hu hx h =>
    rw [h, hu.1]; exact .of_unsealed hs.sizes (hs.counts ho).1 (hs.counts ho).2
  | droppedResidue r u e ho hu h =>
    rw [h, hu.1]; exact .of_unsealed hs.sizes (hs.counts ho).1 (hs.counts ho).2
  | sized e0 e1 ho h0 h1 h2 h =>
    subst h; exact .of_unsealed (fun _ => sizesOk_of_synConfig h0 h1 h2) (hs.counts ho).1 (hs.counts ho).2
  | sealed ho hc h =>
    obtain ⟨_, hncb, hnres, hcb, hres⟩ := sealChecks_ok hc
    subst h
    exact ⟨hs.sizes, fun hne => absurd rfl hne, hncb, hnres, hcb, hres⟩
  | softReset _ h | cfgReset _ h => subst h; exact .of_unsealed nofun rfl rfl
  | nothing h | block _ _ _ _ _ _ _ _ h | packet _ h | synReset h | pcmClear h => subst h; exact hs

theorem configOk_assertReset (s : State) : ConfigOk (assertReset s) := .of_unsealed nofun rfl rfl

theorem stepStable_configOk : StepStable ConfigOk where
  port _ _ _ _ _ h := h
  busy _ _ h := h
  registers _ _ _ _ h := h
  packet _ _ _ h _ := h
  vector _ _ _ h _ := h
  reset s _ := configOk_assertReset s
  release _ h := h
  illegal _ _ h _ := h
  command _ _ _ _ hs h := (exec_effect h).configOk hs

end

/-- Settles O58: `ConfigOk` is inductive by itself, since CFG_SEAL checks what it seals. -/
theorem stepKeepsTheConfigurationConsistent : Obligations.StepKeepsTheConfigurationConsistent :=
  fun _ _ hs h => stepStable_configOk.step hs h

/-! The lapping state -/

section
variable {i : Instr} {s t u : State}

/-- No tail is held and BASIS is empty. -/
theorem LappingOk.of_empty (hlap : s.lapValid = false) (htail : s.tailLen = 0) (hbasis : s.basis = []) : LappingOk s := by
  refine ⟨fun h => ?_, fun _ => htail, fun h => absurd hbasis h, ?_, fun n hn => ?_⟩
  · rw [hlap] at h; cases h
  · rw [hbasis]; exact .nil
  · rw [hbasis] at hn; cases hn

/-- Out of SEALED no tail is held and BASIS is empty. -/
theorem LappingOk.unsealed (h : LappingOk s) (ho : s.cfgState ≠ .sealed) :
    s.lapValid = false ∧ s.tailLen = 0 ∧ s.basis = [] := by
  obtain ⟨hlap, htail, hbasis, _⟩ := h
  have hlap : s.lapValid = false := Bool.eq_false_iff.2 fun hl => ho (hlap hl).1
  exact ⟨hlap, htail hlap, Classical.not_not.1 fun hb => ho (hbasis hb)⟩

/-- Whatever a command does in OPEN but to the lapping state and BASIS leaves these empty. -/
theorem LappingOk.of_opened (hs : LappingOk s) (ho : s.cfgState = .opened) (hlap : t.lapValid = s.lapValid)
    (htail : t.tailLen = s.tailLen) (hbasis : t.basis = s.basis) : LappingOk t := by
  obtain ⟨h1, h2, h3⟩ := hs.unsealed (by rw [ho]; decide)
  exact .of_empty (hlap.trans h1) (htail.trans h2) (hbasis.trans h3)

theorem LappingOk.of_stores {lo n : Nat} (hs : LappingOk s) (h : Stores lo n s u) : LappingOk u := by
  rw [h.1]
  exact hs

/-- Half a block is half a short or half a long block, and so is the part of it that laps (R92). -/
theorem geometry_halves {e0 e1 : Nat} (w pw nw : Bool) (h0 : 1 ≤ e0) (h1 : 1 ≤ e1) :
    ((geometry e0 e1 w pw nw).rn = 2 ^ (e0 - 1) ∨ (geometry e0 e1 w pw nw).rn = 2 ^ (e1 - 1))
      ∧ ((geometry e0 e1 w pw nw).n / 2 = 2 ^ (e0 - 1) ∨ (geometry e0 e1 w pw nw).n / 2 = 2 ^ (e1 - 1)) := by
  have half : ∀ {e : Nat}, 1 ≤ e → 2 ^ e / 2 = 2 ^ (e - 1) := fun h => Nat.pow_div h (by decide)
  have h0 := half h0
  have h1 := half h1
  cases w <;> cases nw <;> simp [geometry, h0, h1]

/-- SYN_BLOCK holds a tail of half a block and adds a transform size of half a block (R96, R98). -/
theorem lappingOk_blockState {w pw nw : Bool} (ys : List Word) (d : Nat) (hs : LappingOk s) (hsl : s.cfgState = .sealed)
    (hv : s.synValid = true) (hsz : SizesOk s) :
    LappingOk (blockState { s with draws := d } (blockGeometry s w pw nw) ys) := by
  obtain ⟨_, _, _, hrise, hsizes⟩ := hs
  obtain ⟨h6, h01, _⟩ := hsz
  obtain ⟨hrn, hn⟩ := geometry_halves (e0 := s.e0.toNat) (e1 := s.e1.toNat) w pw nw (by omega) (by omega)
  refine ⟨fun _ => ⟨hsl, hv, hrn⟩, nofun, fun _ => hsl, pairwise_addBasis _ hrise, fun m hm => ?_⟩
  obtain hm | rfl := mem_addBasis.1 hm
  · exact hsizes m hm
  · exact hn

/-- Every command keeps the lapping state consistent. -/
theorem Effect.lappingOk (h : Effect i s t) (hc : ConfigOk s) (hs : LappingOk s) : LappingOk t := by
  cases h with
  | result lo n u v hu hn h => have hu := hs.of_stores hu; subst h; exact hu
  | failed lo n u op rd e hu hn h => have hu := hs.of_stores hu; subst h; exact hu
  | definedCodebook k u c hi ho hu hc h => rw [h, hu.1]; exact hs.of_opened ho rfl rfl rfl
  | droppedCodebook k u e ho hu h => rw [h, hu.1]; exact hs.of_opened ho rfl rfl rfl
  | definedResidue r u x hi ho hu hx h => rw [h, hu.1]; exact hs.of_opened ho rfl rfl rfl
  | droppedResidue r u e ho hu h => rw [h, hu.1]; exact hs.of_opened ho rfl rfl rfl
  | broke _ _ ho h | sealed ho _ h | sized _ _ ho _ _ _ h => subst h; exact hs.of_opened ho rfl rfl rfl
  | block w pw nw ys d hsl hv _ h => subst h; exact lappingOk_blockState ys d hs hsl hv (hc.sizes hv)
  | softReset _ h | cfgReset _ h => subst h; exact .of_empty rfl rfl rfl
  | synReset h =>
    obtain ⟨_, _, hbasis⟩ := hs
    subst h
    exact ⟨nofun, fun _ => rfl, hbasis⟩
  | nothing h | packet _ h | pcmClear h => subst h; exact hs

theorem stepStable_lappingOk : StepStable fun s => ConfigOk s ∧ LappingOk s where
  port _ _ _ _ _ h := h
  busy _ _ h := h
  registers _ _ _ _ h := h
  packet _ _ _ h _ := h
  vector _ _ _ h _ := h
  reset s _ := ⟨configOk_assertReset s, .of_empty rfl rfl rfl⟩
  release _ h := h
  illegal _ _ h _ := h
  command _ _ _ _ hs h := ⟨(exec_effect h).configOk hs.1, (exec_effect h).lappingOk hs.1 hs.2⟩

/-- A rising list of at most two values has at most two elements. -/
theorem length_le_two_of_rising {l : List Nat} {a b : Nat} (h : l.Pairwise (· < ·)) (hab : ∀ n ∈ l, n = a ∨ n = b) :
    l.length ≤ 2 := by
  have hsub : l ⊆ [a, b] := fun n hn => by simpa using hab n hn
  exact (List.subperm_of_subset (h.imp Nat.ne_of_lt) hsub).length_le

theorem LappingOk.basis_length (h : LappingOk s) : s.basis.length ≤ 2 := by
  obtain ⟨_, _, _, hrise, hsizes⟩ := h
  exact length_le_two_of_rising hrise hsizes

end

/-- Settles O59: only SYN_BLOCK sets a tail or adds a table, in SEALED and with legal block sizes. -/
theorem stepKeepsTheLappingStateConsistent : Obligations.StepKeepsTheLappingStateConsistent := fun _ _ hc hs h =>
  have ht := (stepStable_lappingOk.step ⟨hc, hs⟩ h).2
  ⟨ht, ht.basis_length⟩

end Sys2Proof.Machine
end

section
/-!
PROOFS. Every step keeps the codebooks and residues legal and within capacity (10_state.md rules R27, R28, R31; 42_codebook.md
rule R73).
-/

namespace Sys2Proof.Machine

section
variable {i : Instr} {s t u : State}

/-- A parsed codebook is a legal record (R27, R73) that fits the capacities in its slot (R31, R75). -/
theorem parseCodebook_fits {k : Nat} {c : Codebook} (h : parseCodebook k s = .ok c t) :
    codebookOk s.params.f32 c ∧ nodesUsed s - slotNodes s k + c.nodes ≤ s.params.nodeCap
      ∧ (c.vals = 0 ∨ valsUsed s - slotVals s k + c.vals ≤ s.params.valCap) := by
  obtain ⟨hdim, hcount, hlen, hlens, htree, hnodes, htable⟩ := parseCodebook_ok h
  have record : (∀ l, c.lookup = some l → 1 ≤ c.dim ∧ 1 ≤ l.vbits ∧ l.vbits ≤ 16
      ∧ l.mult.length = multCount l.kind c.count c.dim ∧ (∀ m ∈ l.mult, m.toNat < 2 ^ l.vbits)
      ∧ l.val = buildValues s.params.f32 l.kind l.mult l.delta l.min l.seq c.count c.dim) → codebookOk s.params.f32 c :=
    fun hl => ⟨hdim, hcount, hlen, hlens, htree, hl⟩
  obtain hnone | ⟨kind, u, hu, htable⟩ := htable
  · refine ⟨record fun l hl => ?_, hnodes, .inl (by rw [Codebook.vals, hnone])⟩
    rw [hnone] at hl
    cases hl
  · obtain ⟨hd, hvals, l, hl, rfl, hv1, hv16, hmult, hmlt, hval⟩ := readTable_ok htable
    rw [hu.1] at hvals hval
    refine ⟨record fun l' hl' => ?_, hnodes, .inr (by rw [Codebook.vals, hl]; exact hvals)⟩
    obtain rfl : l = l' := Option.some.inj (hl.symm.trans hl')
    exact ⟨hd, hv1, hv16, hmult, hmlt, hval⟩

theorem TablesOk.of_stores {lo n : Nat} (hs : TablesOk s) (h : Stores lo n s u) : TablesOk u := by
  rw [h.1]
  exact hs

theorem TablesOk.of_reads (hs : TablesOk s) (h : Reads s u) : TablesOk u := hs.of_stores (.of_reads 0 0 h)

/-- A legal record that fits is stored in its slot. -/
theorem TablesOk.store_codebook {k : Nat} {c : Codebook} (hs : TablesOk s) (hc : codebookOk s.params.f32 c)
    (hnodes : nodesUsed s - slotNodes s k + c.nodes ≤ s.params.nodeCap)
    (hvals : c.vals = 0 ∨ valsUsed s - slotVals s k + c.vals ≤ s.params.valCap) :
    TablesOk { s with cb := s.cb.store k [c] } := by
  obtain ⟨hwf, hcb, hres, hn, hv⟩ := hs
  obtain ⟨hnsum, -⟩ := Sparse.sum_store (fun c => c.2.nodes) s.cb hwf k c
  obtain ⟨hvsum, -⟩ := Sparse.sum_store (fun c => c.2.vals) s.cb hwf k c
  refine ⟨Sparse.wf_store hwf k [c], fun x hx => ?_, hres, hnsum.trans_le hnodes, hvsum.trans_le ?_⟩
  · obtain ⟨_, _, hnew⟩ | hold := Sparse.mem_store hx
    · rw [List.mem_singleton.1 hnew]; exact hc
    · exact hcb x hold
  · obtain h0 | hvals := hvals
    · simp only [h0]
      exact (Nat.sub_le _ _).trans hv
    · exact hvals

/-- Emptying a slot frees its nodes and values. -/
theorem TablesOk.dropCodebook (hs : TablesOk s) (k : Nat) : TablesOk (dropCodebook k s) := by
  obtain ⟨hwf, hcb, hres, hn, hv⟩ := hs
  exact ⟨dropCodebook_wf hwf k, fun x hx => hcb x (List.mem_filter.1 hx).1, hres,
    (Sparse.sum_erase _ _ _).trans hn, (Sparse.sum_erase _ _ _).trans hv⟩

theorem TablesOk.store_residue {r : Nat} {x : Residue} (hs : TablesOk s) (hx : x.wellFormed = true) :
    TablesOk { s with res := s.res.store r [x] } := by
  obtain ⟨hwf, hcb, hres, hcaps⟩ := hs
  refine ⟨hwf, hcb, fun y hy => ?_, hcaps⟩
  obtain ⟨_, _, hnew⟩ | hold := Sparse.mem_store hy
  · rw [List.mem_singleton.1 hnew]; exact hx
  · exact hres y hold

theorem TablesOk.dropResidue (hs : TablesOk s) (r : Nat) : TablesOk (dropResidue r s) := by
  obtain ⟨hwf, hcb, hres, hcaps⟩ := hs
  exact ⟨hwf, hcb, fun x hx => hres x (List.mem_filter.1 hx).1, hcaps⟩

theorem TablesOk.of_empty (hcb : s.cb = []) (hres : s.res = []) : TablesOk s := by
  unfold TablesOk nodesUsed valsUsed
  rw [hcb, hres]
  exact ⟨Sparse.wf_nil, nofun, nofun, Nat.zero_le _, Nat.zero_le _⟩

/-- Every command keeps the tables legal. -/
theorem Effect.tablesOk (h : Effect i s t) (hs : TablesOk s) : TablesOk t := by
  cases h with
  | result lo n u v hu hn h => have hu := hs.of_stores hu; subst h; exact hu
  | failed lo n u op rd e hu hn h => have hu := hs.of_stores hu; subst h; exact hu
  | definedCodebook k u c hi ho hu hc h =>
    obtain ⟨hrec, hnodes, hvals⟩ := parseCodebook_fits hc
    rw [h, hu.1]
    exact hs.store_codebook hrec hnodes hvals
  | droppedCodebook k u e ho hu h =>
    have hdrop := (hs.of_reads hu).dropCodebook k
    subst h; exact hdrop
  | definedResidue r u x hi ho hu hx h =>
    obtain ⟨_, hread⟩ := parseResidue_ok hx
    rw [h, hu.1]
    exact hs.store_residue (readResidue_ok hread)
  | droppedResidue r u e ho hu h =>
    have hdrop := (hs.of_reads hu).dropResidue r
    subst h; exact hdrop
  | softReset _ h | cfgReset _ h => subst h; exact .of_empty rfl rfl
  | nothing h | broke _ _ _ h | sealed _ _ h | sized _ _ _ _ _ _ h | block _ _ _ _ _ _ _ _ h | packet _ h | synReset h
  | pcmClear h => subst h; exact hs

theorem stepStable_tablesOk : StepStable TablesOk where
  port _ _ _ _ _ h := h
  busy _ _ h := h
  registers _ _ _ _ h := h
  packet _ _ _ h _ := h
  vector _ _ _ h _ := h
  reset _ _ := .of_empty rfl rfl
  release _ h := h
  illegal _ _ h _ := h
  command _ _ _ _ hs h := (exec_effect h).tablesOk hs

end

/-- Settles O60: a define command stores a record its parse found legal and within capacity, or empties its slot. -/
theorem stepKeepsTheTablesLegal : Obligations.StepKeepsTheTablesLegal := fun _ _ hs h => stepStable_tablesOk.step hs h

end Sys2Proof.Machine
end

section
/-!
PROOFS. The host port's register accesses (20_memory.md rules R42 to R44), the reset input (70_reset_and_hazards.md rule
R119), and the fields of the register words that are views of other state (10_state.md rules R18, R23, R24).
-/

namespace Sys2Proof.Machine

/-! Register accesses -/

section
variable {s : State} {a : Word} {rest : List HostEvent} {g : Target}

theorem step_of_pending {e : HostEvent} (hp : s.pending = e :: rest) : step s = serve e { s with pending := rest } := by
  simp only [step, serveNext, hp]

/-- A read of a mapped target out of reset is served. -/
theorem step_read (hp : s.pending = .read a 4 :: rest) (hr : s.inReset = false) (hg : accessTarget s.params a 4 = some g) :
    step s = serveRead g { s with pending := rest } := by
  simp [step_of_pending hp, serve, serveAccess, hr, hg]

/-- A write to a mapped target out of reset is served. -/
theorem step_write {v : Word} (hp : s.pending = .write a 4 v :: rest) (hr : s.inReset = false)
    (hg : accessTarget s.params a 4 = some g) : step s = serveWrite g v { s with pending := rest } := by
  simp [step_of_pending hp, serve, serveAccess, hr, hg]

/-- The register window (R17, R40): an aligned address below 0x2C names a register, whatever the RAM sizes. -/
theorem accessTarget_reg (p : Params) {a : Word} (ha : a.toNat % 4 = 0) (hlt : a.toNat < 0x2C) :
    accessTarget p a 4 = (regAt (a.toNat / 4)).map .reg := by
  simp [accessTarget, targetAt, ha, hlt]

theorem step_write_reg {v : Word} {r : Reg} (hp : s.pending = .write a 4 v :: rest) (hr : s.inReset = false)
    (ha : a.toNat % 4 = 0 ∧ a.toNat < 0x2C ∧ regAt (a.toNat / 4) = some r) (hcmd : r ≠ .cmd) :
    step s = .next (respond .done (writeReg r v { s with pending := rest })) := by
  obtain ⟨halign, hlt, hreg⟩ := ha
  rw [step_write hp hr (by rw [accessTarget_reg _ halign hlt, hreg]; rfl)]
  cases r with
  | cmd => exact absurd rfl hcmd
  | arg0 | arg1 | result | status | bitpos | pktlen | silent | pcmcount | cfginfo | lapinfo => rfl

/-- The registers a host write leaves as they are (R17, R42). -/
def readOnlyRegs : List Reg := [.result, .status, .bitpos, .pktlen, .pcmcount, .cfginfo, .lapinfo]

theorem readOnlyRegs_of_addr : ∀ a ∈ ([0x0C, 0x10, 0x14, 0x18, 0x20, 0x24, 0x28] : List Word), ∃ r ∈ readOnlyRegs,
    a.toNat % 4 = 0 ∧ a.toNat < 0x2C ∧ regAt (a.toNat / 4) = some r := by
  simp only [List.forall_mem_cons, List.not_mem_nil, false_imp_iff, forall_const, and_true]
  exact ⟨⟨.result, by decide⟩, ⟨.status, by decide⟩, ⟨.bitpos, by decide⟩, ⟨.pktlen, by decide⟩, ⟨.pcmcount, by decide⟩,
    ⟨.cfginfo, by decide⟩, ⟨.lapinfo, by decide⟩⟩

theorem writeReg_readOnly {r : Reg} (hr : r ∈ readOnlyRegs) (v : Word) (s : State) : r ≠ .cmd ∧ writeReg r v s = s := by
  cases r with
  | cmd | arg0 | arg1 | silent => exact absurd hr (by decide)
  | result | status | bitpos | pktlen | pcmcount | cfginfo | lapinfo => exact ⟨nofun, rfl⟩

theorem step_read_reg {r : Reg} (hp : s.pending = .read a 4 :: rest) (hr : s.inReset = false)
    (ha : a.toNat % 4 = 0 ∧ a.toNat < 0x2C ∧ regAt (a.toNat / 4) = some r) :
    step s = serveRead (.reg r) { s with pending := rest } := by
  obtain ⟨halign, hlt, hreg⟩ := ha
  exact step_read hp hr (by rw [accessTarget_reg _ halign hlt, hreg]; rfl)

end

/-- Settles O6: each address of the register window names its register (R17), and the port serves it at once. -/
theorem hostRegisterAccess : Obligations.HostRegisterAccess := by
  refine ⟨fun s a v rest hp hr => ⟨?_, ?_, ?_, fun ha => ?_⟩, fun s a v rest hp hr hav => ?_,
    fun s rest hp hr => ⟨fun seen left hst => ?_, fun hst => ?_⟩⟩
  · rintro rfl; exact step_write_reg (r := .arg0) hp hr (by decide) (by decide)
  · rintro rfl; exact step_write_reg (r := .arg1) hp hr (by decide) (by decide)
  · rintro rfl; exact step_write_reg (r := .silent) hp hr (by decide) (by decide)
  · obtain ⟨r, hmem, haddr⟩ := readOnlyRegs_of_addr a ha
    obtain ⟨hcmd, hkeep⟩ := writeReg_readOnly hmem v { s with pending := rest }
    rw [step_write_reg hp hr haddr hcmd, hkeep]
    rfl
  · simp only [List.mem_cons, List.not_mem_nil, or_false, Prod.mk.injEq] at hav
    obtain ⟨rfl, rfl⟩ | ⟨rfl, rfl⟩ | ⟨rfl, rfl⟩ | ⟨rfl, rfl⟩ | ⟨rfl, rfl⟩ | ⟨rfl, rfl⟩ | ⟨rfl, rfl⟩ | ⟨rfl, rfl⟩
      | ⟨rfl, rfl⟩ | ⟨rfl, rfl⟩ := hav
    · exact step_read_reg (r := .cmd) hp hr (by decide)
    · exact step_read_reg (r := .arg0) hp hr (by decide)
    · exact step_read_reg (r := .arg1) hp hr (by decide)
    · exact step_read_reg (r := .result) hp hr (by decide)
    · exact step_read_reg (r := .bitpos) hp hr (by decide)
    · exact step_read_reg (r := .pktlen) hp hr (by decide)
    · exact step_read_reg (r := .silent) hp hr (by decide)
    · exact step_read_reg (r := .pcmcount) hp hr (by decide)
    · exact step_read_reg (r := .cfginfo) hp hr (by decide)
    · exact step_read_reg (r := .lapinfo) hp hr (by decide)
  · rw [step_read_reg (r := .status) hp hr (by decide)]
    simp only [serveRead, readStatus, hst]
  · rw [step_read_reg (r := .status) hp hr (by decide)]
    obtain hst | ⟨seen, hst⟩ := hst <;> simp only [serveRead, readStatus, hst] <;> rfl

/-! The reset input -/

/-- Settles O11: the edges of the reset input are host events of their own, and with no event nothing happens. -/
theorem resetInput : Obligations.ResetInput := by
  refine ⟨fun s rest hp => step_of_pending hp, fun s rest hp => step_of_pending hp, fun s hp => ?_⟩
  simp only [step, serveNext, hp]

/-! Fields of register words -/

section
variable {x : Nat} (hx : x < 2 ^ 32)
include hx

/-- A field of a word given as a number. -/
theorem toNat_extractLsb'_ofNat (lo n : Nat) : ((BitVec.ofNat 32 x).extractLsb' lo n).toNat = x / 2 ^ lo % 2 ^ n := by
  rw [BitVec.extractLsb'_toNat, BitVec.toNat_ofNat, Nat.mod_eq_of_lt hx, Nat.shiftRight_eq_div_pow]

theorem extractLsb'_ofNat {lo n : Nat} {v : BitVec n} (h : x / 2 ^ lo % 2 ^ n = v.toNat) :
    (BitVec.ofNat 32 x).extractLsb' lo n = v :=
  BitVec.eq_of_toNat_eq ((toNat_extractLsb'_ofNat hx lo n).trans h)

theorem extractLsb'_ofNat_zero {lo n : Nat} (h : x / 2 ^ lo % 2 ^ n = 0) : (BitVec.ofNat 32 x).extractLsb' lo n = 0 :=
  extractLsb'_ofNat hx (h.trans BitVec.toNat_zero.symm)

/-- A flag of a word given as a number. -/
theorem getLsbD_ofNat {k : Nat} {b : Bool} (h : x / 2 ^ k % 2 = bit b) : (BitVec.ofNat 32 x).getLsbD k = b := by
  rw [BitVec.getLsbD, BitVec.toNat_ofNat, Nat.mod_eq_of_lt hx, Nat.testBit_eq_decide_div_mod_eq, h]
  cases b <;> rfl

end

theorem CfgState.code_lt (c : CfgState) : c.code < 3 := by cases c <;> decide

/-- STATUS (R18). -/
theorem statusWord_fields (s : State) :
    (statusWord s).getLsbD 0 = s.busy ∧ (statusWord s).getLsbD 1 = s.err ∧ (statusWord s).extractLsb' 2 6 = 0
      ∧ (statusWord s).extractLsb' 8 8 = s.errcode ∧ (statusWord s).extractLsb' 16 8 = s.errop
      ∧ (statusWord s).extractLsb' 24 8 = 0 := by
  have hb := bit_le s.busy
  have he := bit_le s.err
  have hc := s.errcode.isLt
  have ho := s.errop.isLt
  have hx : bit s.busy + 2 * bit s.err + 2 ^ 8 * s.errcode.toNat + 2 ^ 16 * s.errop.toNat < 2 ^ 32 := by omega
  refine ⟨getLsbD_ofNat hx ?_, getLsbD_ofNat hx ?_, extractLsb'_ofNat_zero hx ?_, extractLsb'_ofNat hx ?_,
    extractLsb'_ofNat hx ?_, extractLsb'_ofNat_zero hx ?_⟩ <;> omega

/-- CFGINFO (R23). -/
theorem cfginfoWord_fields (s : State) :
    ((cfginfoWord s).extractLsb' 0 2).toNat = s.cfgState.code
      ∧ (cfginfoWord s).getLsbD 2 = s.synValid ∧ (cfginfoWord s).getLsbD 3 = false
      ∧ (cfginfoWord s).extractLsb' 4 4 = s.e0 ∧ (cfginfoWord s).extractLsb' 8 4 = s.e1
      ∧ ((cfginfoWord s).extractLsb' 12 9).toNat = s.cbCount % 2 ^ 9
      ∧ ((cfginfoWord s).extractLsb' 21 7).toNat = s.resCount % 2 ^ 7
      ∧ (cfginfoWord s).extractLsb' 28 4 = 0 := by
  have hc := s.cfgState.code_lt
  have hv := bit_le s.synValid
  have hfalse : bit false = 0 := rfl
  have h0 := s.e0.isLt
  have h1 := s.e1.isLt
  have hx : s.cfgState.code + 4 * bit s.synValid + 2 ^ 4 * s.e0.toNat + 2 ^ 8 * s.e1.toNat
      + 2 ^ 12 * (s.cbCount % 2 ^ 9) + 2 ^ 21 * (s.resCount % 2 ^ 7) < 2 ^ 32 := by omega
  refine ⟨(toNat_extractLsb'_ofNat hx _ _).trans ?_, getLsbD_ofNat hx ?_, getLsbD_ofNat hx ?_, extractLsb'_ofNat hx ?_,
    extractLsb'_ofNat hx ?_, (toNat_extractLsb'_ofNat hx _ _).trans ?_, (toNat_extractLsb'_ofNat hx _ _).trans ?_,
    extractLsb'_ofNat_zero hx ?_⟩ <;> omega

/-- LAPINFO (R24). -/
theorem lapinfoWord_fields (s : State) :
    (lapinfoWord s).getLsbD 0 = s.lapValid ∧ (lapinfoWord s).extractLsb' 1 15 = 0
      ∧ ((lapinfoWord s).extractLsb' 16 16).toNat = s.tailLen % 2 ^ 16 := by
  have hv := bit_le s.lapValid
  have hx : bit s.lapValid + 2 ^ 16 * (s.tailLen % 2 ^ 16) < 2 ^ 32 := by omega
  refine ⟨getLsbD_ofNat hx ?_, extractLsb'_ofNat_zero hx ?_, (toNat_extractLsb'_ofNat hx _ _).trans ?_⟩ <;> omega

/-- Settles O7: each word is the sum of its fields, each below the next field's weight. -/
theorem statusWordFields : Obligations.StatusWordFields := by
  intro s
  obtain ⟨hbusy, herr, hres1, hcode, hop, hres2⟩ := statusWord_fields s
  obtain ⟨hcfg, hsyn, hres3, he0, he1, hcb, hres, hres4⟩ := cfginfoWord_fields s
  obtain ⟨hlap, hres5, htail⟩ := lapinfoWord_fields s
  refine ⟨hbusy, herr, hres1, hcode, hop, hres2, BitVec.eq_of_toNat_eq (hcfg.trans ?_), hsyn, hres3, he0, he1,
    fun h => by omega, fun h => by omega, hres4, hlap, hres5, fun h => by omega⟩
  cases s.cfgState <;> rfl

end Sys2Proof.Machine
end

section
/-!
PROOFS. Commands out of their configuration state are refused, and no command but a reset changes a sealed configuration
(10_state.md rules R26, R27, R30; 44_config.md rule R91).
-/

namespace Sys2Proof.Machine

section
variable {i : Instr} {e : ErrorCode} {c : Cmd Unit} {s : State}

/-- A command whose rule raises before it changes anything raises with the effects of R107 only. -/
theorem raises_of_stop (hi : exec i s = runCommand i c s) (h : c s = .error (.raise e) s) : Raises i e s := by
  refine ⟨_, hi.trans (runCommand_of_raise h), rfl, fun hr => ?_, fun hb => ?_⟩
  · rw [errorEntry_bitpos, if_neg (by simp [hr])]
  · rw [errorEntry_bitpos]
    have := Nat.mod_lt (Config.freeNat (s.draws + 1)) (Nat.add_one_pos (8 * s.pktlen - s.bitpos))
    split <;> omega

/-- A command whose rule starts with a check that fails. -/
theorem raises_of_check {b : Bool} {f : Unit → Cmd Unit} (hi : exec i s = runCommand i (raiseIf b e >>= f) s)
    (h : b = true) : Raises i e s :=
  raises_of_stop hi (bind_raiseIf_true h)

theorem decodeGate_unsealed {k : Nat} (h : s.cfgState ≠ .sealed) : decodeGate k s = .error (.raise .cfgState) s := by
  rw [decodeGate, bind_of_ok (get_run s), bind_raiseIf_true (decide_eq_true h)]

/-- R30: a slot at or above the count. -/
theorem decodeGate_badRef {k : Nat} (h : s.cfgState = .sealed) (hk : s.cbCount ≤ k) :
    decodeGate k s = .error (.raise .badRef) s := by
  rw [decodeGate, bind_of_ok (get_run s), bind_raiseIf_false (by simp [h]), decide_eq_true hk, raiseIf_true]

theorem residueChecks_unsealed {r nvec : Nat} (h : s.cfgState ≠ .sealed) :
    residueChecks r nvec s = .error (.raise .cfgState) s := by
  rw [residueChecks, bind_of_ok (get_run s), bind_raiseIf_true (decide_eq_true h)]

theorem residueChecks_badRef {r nvec : Nat} (h : s.cfgState = .sealed) (hr : s.resCount ≤ r) :
    residueChecks r nvec s = .error (.raise .badRef) s := by
  rw [residueChecks, bind_of_ok (get_run s), bind_raiseIf_false (by simp [h]), bind_raiseIf_true (decide_eq_true hr)]

end

/-- Settles O16: these commands check CFG_STATE first, and the decode commands their slot next (R109). -/
theorem commandsOutOfTheirStateAreRefused : Obligations.CommandsOutOfTheirStateAreRefused := by
  refine fun s => ⟨fun hs i hi => ?_, fun ho i hi => ?_, fun hs n hn => ⟨?_, fun acc => ?_⟩, fun hs r nvec hr => ?_⟩
  · obtain ⟨k, rfl⟩ | ⟨k, acc, rfl⟩ | ⟨r, n, rfl⟩ | ⟨w, p, n, rfl⟩ := hi
    · exact raises_of_stop rfl (bind_of_error (decodeGate_unsealed hs))
    · exact raises_of_stop rfl (bind_of_error (decodeGate_unsealed hs))
    · exact raises_of_stop rfl (bind_of_error (residueChecks_unsealed hs))
    · exact raises_of_check rfl (decide_eq_true hs)
  · obtain ⟨k, rfl⟩ | ⟨r, rfl⟩ | ⟨a, b, rfl⟩ | rfl := hi <;> exact raises_of_check rfl (decide_eq_true ho)
  · exact raises_of_stop rfl (bind_of_error (decodeGate_badRef hs hn))
  · exact raises_of_stop rfl (bind_of_error (decodeGate_badRef hs hn))
  · exact raises_of_stop rfl (bind_of_error (residueChecks_badRef hs hr))

/-! A sealed configuration -/

/-- The configuration (R26 to R30, R97) is the same in both states. -/
def SameConfig (s t : State) : Prop :=
  t.cfgState = s.cfgState ∧ t.cb = s.cb ∧ t.res = s.res ∧ t.cbCount = s.cbCount ∧ t.resCount = s.resCount
    ∧ t.synValid = s.synValid ∧ t.e0 = s.e0 ∧ t.e1 = s.e1

section
variable {i : Instr} {s t u : State}

theorem SameConfig.refl (s : State) : SameConfig s s := ⟨rfl, rfl, rfl, rfl, rfl, rfl, rfl, rfl⟩

theorem SameConfig.of_stores {lo n : Nat} (h : Stores lo n s u) : SameConfig s u := by
  rw [h.1]
  exact .refl s

/-- Out of OPEN, only the two resets change the configuration. -/
theorem Effect.sameConfig (h : Effect i s t) (ho : s.cfgState ≠ .opened) (hc : i ≠ .cfgReset) (hr : i ≠ .softReset) :
    SameConfig s t := by
  cases h with
  | result lo n u v hu hn h => have hu := SameConfig.of_stores hu; subst h; exact hu
  | failed lo n u op rd e hu hn h => have hu := SameConfig.of_stores hu; subst h; exact hu
  | definedCodebook _ _ _ _ ho' | droppedCodebook _ _ _ ho' | definedResidue _ _ _ _ ho' | droppedResidue _ _ _ ho'
  | broke _ _ ho' | sealed ho' | sized _ _ ho' => exact absurd ho' ho
  | softReset hi => exact absurd hi hr
  | cfgReset hi => exact absurd hi hc
  | nothing h | block _ _ _ _ _ _ _ _ h | packet _ h | synReset h | pcmClear h => subst h; exact .refl _

end

/-- Settles O17: every other effect on the configuration happens in OPEN. -/
theorem sealedConfigurationIsImmutable : Obligations.SealedConfigurationIsImmutable := by
  intro i s t hs hc hr h
  have hsame := (exec_effect h).sameConfig (by rw [hs]; decide) hc hr
  unfold SameConfig at hsame
  rwa [hs] at hsame

end Sys2Proof.Machine
end

section
/-!
PROOFS. Whether a basis table is present changes no result (10_state.md rule R33; 45_synthesis.md rule R96): run in two states
that differ in BASIS only, every piece of a command ends or stops alike, in states that differ in BASIS only.
-/

namespace Sys2Proof.Machine

variable {α β : Type}

/-- The state with another BASIS. -/
def withBasis (b : List Nat) (s : State) : State := { s with basis := b }

/-- Two ends of a rule that differ in BASIS only. -/
inductive SameEnd : EStateM.Result Stop State α → EStateM.Result Stop State α → Prop where
  | ok (a : α) (t : State) (b : List Nat) : SameEnd (.ok a t) (.ok a (withBasis b t))
  | error (x : Stop) (t : State) (b : List Nat) : SameEnd (.error x t) (.error x (withBasis b t))

/-- A piece of a command that does not see BASIS. -/
def BasisBlind (c : Cmd α) : Prop := ∀ s b, SameEnd (c s) (c (withBasis b s))

theorem BasisBlind.pure (a : α) : BasisBlind (Pure.pure a : Cmd α) := fun s b => .ok a s b

theorem BasisBlind.raise (e : ErrorCode) : BasisBlind (Machine.raise e : Cmd α) := fun s b => .error _ s b

theorem BasisBlind.raiseIf (c : Bool) (e : ErrorCode) : BasisBlind (Machine.raiseIf c e) := by
  cases c
  · exact .pure ()
  · exact .raise e

theorem BasisBlind.stopFault (f : Fault) : BasisBlind (Machine.stopFault f : Cmd α) := fun s b => .error _ s b

theorem BasisBlind.drawNat : BasisBlind Machine.drawNat := fun s b => .ok _ { s with draws := s.draws + 1 } b

theorem BasisBlind.drawWord : BasisBlind Machine.drawWord := fun s b => .ok _ { s with draws := s.draws + 1 } b

theorem BasisBlind.bind {c : Cmd α} {f : α → Cmd β} (hc : BasisBlind c) (hf : ∀ a, BasisBlind (f a)) :
    BasisBlind (c >>= f) := by
  intro s b
  rw [bind_run, bind_run]
  have h := hc s b
  generalize c s = x, c (withBasis b s) = y at h
  cases h with
  | ok a t b => exact hf a t b
  | error x t b => exact .error x t b

/-- What follows a look at the state uses other fields than BASIS. -/
theorem BasisBlind.get_bind {f : State → Cmd β} (hf : ∀ s b, f (withBasis b s) = f s) (hb : ∀ s, BasisBlind (f s)) :
    BasisBlind (MonadState.get >>= f) := by
  intro s b
  rw [bind_of_ok (get_run s), bind_of_ok (get_run _), hf]
  exact hb s s b

/-- An update that may set BASIS, and sets the rest without looking at it. -/
def UpdatesBlind (f : State → State) : Prop := ∀ s b, ∃ b', f (withBasis b s) = withBasis b' (f s)

theorem UpdatesBlind.of_modify {f : State → State} (h : UpdatesBlind f) : BasisBlind (modify f : Cmd PUnit) := by
  intro s b
  obtain ⟨b', h⟩ := h s b
  rw [modify_run, modify_run, h]
  exact .ok _ _ _

theorem BasisBlind.onRaise {fix : State → State} {c : Cmd α} (hfix : UpdatesBlind fix) (hc : BasisBlind c) :
    BasisBlind (Machine.onRaise fix c) := by
  intro s b
  rw [onRaise_run, onRaise_run]
  have h := hc s b
  generalize c s = x, c (withBasis b s) = y at h
  cases h with
  | ok a t b => exact .ok a t b
  | error x t b =>
    cases x with
    | raise e =>
      obtain ⟨b', h⟩ := hfix t b
      simp only [h]
      exact .error _ _ _
    | fault f => exact .error _ _ _

theorem BasisBlind.repeatCmd {c : Cmd α} (hc : BasisBlind c) : ∀ n, BasisBlind (Machine.repeatCmd c n)
  | 0 => .pure _
  | n + 1 => .bind hc fun _ => .bind (BasisBlind.repeatCmd hc n) fun _ => .pure _

theorem BasisBlind.forEach {f : α → Cmd β} (hf : ∀ a, BasisBlind (f a)) : ∀ as, BasisBlind (Machine.forEach f as)
  | [] => .pure _
  | a :: as => .bind (hf a) fun _ => .bind (BasisBlind.forEach hf as) fun _ => .pure _

/-! The bit reader -/

theorem blind_packetBit (p : Nat) : BasisBlind (packetBit p) := by
  refine .get_bind (fun _ _ => rfl) fun s => ?_
  split
  · exact .stopFault _
  · split
    · exact .pure _
    · refine .bind .drawNat fun k => ?_
      split
      · exact .pure _
      · exact .bind .drawWord fun _ => .pure _

theorem blind_readBit : BasisBlind readBit :=
  .get_bind (fun _ _ => rfl) fun _ => .bind (.raiseIf _ _) fun _ => .bind (blind_packetBit _) fun _ =>
    .bind (UpdatesBlind.of_modify fun _ b => ⟨b, rfl⟩) fun _ => .pure _

theorem blind_readBits : ∀ n, BasisBlind (readBits n)
  | 0 => .pure _
  | n + 1 => .bind blind_readBit fun _ => .bind (blind_readBits n) fun _ => .pure _

theorem blind_readU (n : Nat) : BasisBlind (readU n) :=
  .get_bind (fun _ _ => rfl) fun _ => .bind (.raiseIf _ _) fun _ => blind_readBits n

theorem blind_readVF (f : F32Choice) : BasisBlind (readVF f) := .bind (blind_readU 32) fun _ => .pure _

/-! Codebooks -/

theorem blind_codebookAt (k : Nat) : BasisBlind (codebookAt k) := by
  refine .get_bind (fun _ _ => rfl) fun s => ?_
  split
  · exact .pure _
  · exact .raise _

theorem blind_walk (t : Tree) : BasisBlind (walk t) := by
  induction t with
  | empty => exact .raise _
  | leaf sym => exact .pure _
  | inner a b iha ihb =>
    refine .bind blind_readBit fun b1 => ?_
    split
    · exact ihb
    · exact iha

theorem blind_scalarDecode (k : Nat) : BasisBlind (scalarDecode k) :=
  .bind (blind_codebookAt k) fun c => blind_walk c.tree

theorem blind_vectorDecode (k : Nat) : BasisBlind (vectorDecode k) := by
  refine .bind (blind_codebookAt k) fun c => ?_
  split
  · exact .raise _
  · exact .bind (blind_scalarDecode k) fun _ => .pure _

theorem blind_decodeGate (k : Nat) : BasisBlind (decodeGate k) :=
  .get_bind (fun _ _ => rfl) fun _ => .bind (.raiseIf _ _) fun _ => .raiseIf _ _

theorem blind_readLength (sparse : Bool) : BasisBlind (readLength sparse) := by
  have tail : ∀ used : Nat, BasisBlind (if used = 1 then do
      let l ← readU 5
      pure (some (l + 1))
    else pure none : Cmd (Option Nat)) := fun used => by
    split
    · exact .bind (blind_readU 5) fun _ => .pure _
    · exact .pure _
  cases sparse
  · exact .bind (.pure _) tail
  · exact .bind (blind_readU 1) tail

theorem blind_readOrdered (count : Nat) : ∀ fuel cur len, BasisBlind (readOrdered count fuel cur len)
  | 0, _, _ => .raise _
  | fuel + 1, _, _ => by
    unfold readOrdered
    split
    · exact .bind (blind_readU _) fun _ => .bind (.raiseIf _ _) fun _ => .bind (.raiseIf _ _) fun _ =>
        .bind (blind_readOrdered count fuel _ _) fun _ => .pure _
    · exact .pure _

theorem blind_readLengths (count : Nat) : BasisBlind (readLengths count) := by
  refine .bind (blind_readU 1) fun ordered => ?_
  split
  · exact .bind (blind_readU 1) fun _ => .repeatCmd (blind_readLength _) _
  · exact .bind (blind_readU 5) fun _ => .get_bind (fun _ _ => rfl) fun _ => blind_readOrdered _ _ _ _

theorem blind_readTableFields (f : F32Choice) (kind : LookupKind) (dim count : Nat) :
    BasisBlind (readTableFields f kind dim count) :=
  .bind (blind_readVF _) fun _ => .bind (blind_readVF _) fun _ => .bind (blind_readU _) fun _ =>
    .bind (blind_readU _) fun _ => .bind (.repeatCmd (blind_readU _) _) fun _ => .pure _

theorem blind_readTable (k : Nat) (kind : LookupKind) (dim count : Nat) : BasisBlind (readTable k kind dim count) :=
  .get_bind (fun _ _ => rfl) fun _ => .bind (.raiseIf _ _) fun _ => .bind (.raiseIf _ _) fun _ =>
    .bind (.raiseIf _ _) fun _ => blind_readTableFields _ _ _ _

theorem blind_readLookup (k t dim count : Nat) : BasisBlind (readLookup k t dim count) := by
  unfold readLookup
  split
  · exact .pure _
  · exact blind_readTable _ _ _ _
  · exact blind_readTable _ _ _ _
  · exact .raise _

theorem blind_parseCodebook (k : Nat) : BasisBlind (parseCodebook k) := by
  refine .bind (blind_readU _) fun _ => .bind (.raiseIf _ _) fun _ => .bind (blind_readU _) fun _ =>
    .bind (blind_readU _) fun _ => .bind (blind_readLengths _) fun len => ?_
  split
  · exact .raise _
  · exact .get_bind (fun _ _ => rfl) fun _ => .bind (.raiseIf _ _) fun _ => .bind (blind_readU _) fun _ =>
      .bind (blind_readLookup _ _ _ _) fun _ => .pure _

/-! Residue headers and checks -/

theorem blind_readCascade : BasisBlind readCascade := by
  refine .bind (blind_readU _) fun _ => .bind (blind_readU _) fun flag => ?_
  split
  · exact .bind (blind_readU _) fun _ => .pure _
  · exact .bind (.pure _) fun _ => .pure _

theorem blind_readBooks (mask : Byte) : BasisBlind (readBooks mask) := by
  refine .forEach (fun p => ?_) _
  split
  · exact .bind (blind_readU _) fun _ => .pure _
  · exact .pure _

theorem blind_readResidue : BasisBlind readResidue :=
  .bind (blind_readU _) fun _ => .bind (.raiseIf _ _) fun _ => .bind (blind_readU _) fun _ =>
    .bind (blind_readU _) fun _ => .bind (blind_readU _) fun _ => .bind (blind_readU _) fun _ =>
      .bind (blind_readU _) fun _ => .bind (.repeatCmd blind_readCascade _) fun _ =>
        .bind (.forEach blind_readBooks _) fun _ => .pure _

theorem blind_parseResidue : BasisBlind parseResidue :=
  .bind blind_readResidue fun _ => .get_bind (fun _ _ => rfl) fun _ => .bind (.raiseIf _ _) fun _ =>
    .bind (.raiseIf _ _) fun _ => .pure _

theorem blind_residueAt (r : Nat) : BasisBlind (residueAt r) := by
  refine .get_bind (fun _ _ => rfl) fun s => ?_
  split
  · exact .pure _
  · exact .raise _

theorem blind_residueChecks (r nvec : Nat) : BasisBlind (residueChecks r nvec) :=
  .get_bind (fun _ _ => rfl) fun _ => .bind (.raiseIf _ _) fun _ => .bind (.raiseIf _ _) fun _ =>
    .bind (.raiseIf _ _) fun _ => .bind (blind_residueAt r) fun _ => .bind (.raiseIf _ _) fun _ => .pure _

theorem blind_sealResidue (ncb r : Nat) : BasisBlind (sealResidue ncb r) := by
  refine .get_bind (fun _ _ => rfl) fun s => ?_
  split
  · exact .raise _
  · exact .bind (.raiseIf _ _) fun _ => .raiseIf _ _

theorem blind_sealChecks (ncb nres : Nat) : BasisBlind (sealChecks ncb nres) :=
  .bind (.raiseIf _ _) fun _ => .bind (.raiseIf _ _) fun _ => .get_bind (fun _ _ => rfl) fun _ =>
    .bind (.raiseIf _ _) fun _ => .bind (.forEach (blind_sealResidue ncb) _) fun _ => .pure _

/-! VEC and the residue decode core -/

theorem blind_vecRead (w : Nat) : BasisBlind (vecRead w) := by
  refine .get_bind (fun _ _ => rfl) fun s => ?_
  split
  · exact .pure _
  · exact .stopFault _

theorem blind_vecReadBlock (w n : Nat) : BasisBlind (vecReadBlock w n) := .forEach blind_vecRead _

theorem blind_vecWrite (w : Nat) (xs : List Word) : BasisBlind (vecWrite w xs) :=
  UpdatesBlind.of_modify fun _ b => ⟨b, rfl⟩

section
variable (j : ResidueJob)

theorem blind_addValues (v : Nat) : ∀ (xs : List Word) (i : Nat), BasisBlind (addValues j v i xs)
  | [], _ => .pure _
  | _ :: xs, i => .bind (.raiseIf _ _) fun _ => .bind (blind_vecRead _) fun _ => .bind (blind_vecWrite _ _) fun _ =>
      blind_addValues v xs (i + 1)

theorem blind_fillPartition (bk v off : Nat) : ∀ fuel k, BasisBlind (fillPartition j bk v off fuel k)
  | 0, _ => .pure _
  | fuel + 1, k => by
    unfold fillPartition
    split
    · exact .bind (blind_vectorDecode bk) fun _ => .bind (blind_addValues j _ _ _) fun _ =>
        blind_fillPartition bk v off fuel _
    · exact .pure _

theorem blind_decodePartition (bk v off : Nat) : BasisBlind (decodePartition j bk v off) :=
  .bind (blind_codebookAt bk) fun _ => .bind (.raiseIf _ _) fun _ => blind_fillPartition j bk v off _ _

theorem blind_classify (dc room : Nat) (cls : List (List Nat)) : BasisBlind (classify j dc room cls) :=
  .forEach (fun _ => .bind (blind_scalarDecode _) fun _ => .pure _) _

theorem blind_decodeVectorPartition (pass p : Nat) (vk : Nat × List Nat) :
    BasisBlind (decodeVectorPartition j pass p vk) := by
  unfold decodeVectorPartition
  simp only
  split
  · split
    · exact blind_decodePartition j _ _ _
    · exact .raise _
  · exact .pure _

theorem blind_decodeGroup (pass : Nat) (cls : List (List Nat)) : ∀ ps, BasisBlind (decodeGroup j pass cls ps)
  | [] => .pure _
  | p :: ps => .bind (.forEach (blind_decodeVectorPartition j pass p) _) fun _ => blind_decodeGroup pass cls ps

theorem blind_decodePass (dc parts pass : Nat) : ∀ fuel p cls, BasisBlind (decodePass j dc parts pass fuel p cls)
  | 0, _, _ => .pure _
  | fuel + 1, p, _ => by
    unfold decodePass
    split
    · have tail : ∀ cls', BasisBlind (do
          decodeGroup j pass cls' (List.range' p (min dc (parts - p)))
          decodePass j dc parts pass fuel (p + dc) cls') :=
        fun cls' => .bind (blind_decodeGroup j pass cls' _) fun _ => blind_decodePass dc parts pass fuel _ _
      split
      · exact .bind (blind_classify j _ _ _) tail
      · exact .bind (.pure _) tail
    · exact .pure _

theorem blind_decodePasses (dc parts : Nat) : ∀ passes cls, BasisBlind (decodePasses j dc parts passes cls)
  | [], _ => .pure _
  | _ :: rest, _ => .bind (blind_decodePass j dc parts _ _ _ _) fun _ => blind_decodePasses dc parts rest _

theorem blind_decodeCore : BasisBlind (decodeCore j) :=
  .bind (blind_codebookAt _) fun _ => .bind (.raiseIf _ _) fun _ => blind_decodePasses j _ _ _ _

theorem blind_decodeResidue : BasisBlind (decodeResidue j) := by
  refine .get_bind (fun _ _ => rfl) fun s => ?_
  split
  · exact .pure _
  · exact .bind (.raiseIf _ _) fun _ => .bind (.raiseIf _ _) fun _ => .bind (blind_decodeCore j) fun _ =>
      .get_bind (fun _ _ => rfl) fun _ => .pure _

end

/-! Synthesis -/

theorem blind_blockChecks (g : Geometry) : BasisBlind (blockChecks g) :=
  .get_bind (fun _ _ => rfl) fun _ => .bind (.raiseIf _ _) fun _ => .bind (.raiseIf _ _) fun _ => .raiseIf _ _

theorem blind_blockSamples (p : Params) (g : Geometry) (x : List Word) : BasisBlind (blockSamples p g x) := by
  unfold blockSamples
  simp only
  split
  · exact .pure _
  · exact .forEach (fun _ => .drawWord) _

/-! Commands -/

/-- Two outcomes of a command that differ in BASIS only. -/
inductive SameOutcome : Host.Outcome State Fault Refusal → Host.Outcome State Fault Refusal → Prop where
  | next (t : State) (b : List Nat) : SameOutcome (.next t) (.next (withBasis b t))
  | fault (f : Fault) : SameOutcome (.fault f) (.fault f)

/-- A command whose rule does not see BASIS; the rule may depend on the other fields of the state it starts in. -/
theorem sameOutcome_of_rule {i : Instr} {c : State → Cmd Unit} (hi : ∀ s, exec i s = runCommand i (c s) s)
    (hc : ∀ s b, c (withBasis b s) = c s)
    (hb : ∀ s, BasisBlind (c s)) {s : State} {b : List Nat} :
    SameOutcome (exec i s) (exec i (withBasis b s)) := by
  rw [hi, hi, hc]
  have h := hb s s b
  unfold runCommand
  generalize c s s = x, c s (withBasis b s) = y at h
  cases h with
  | ok a t b => exact .next t b
  | error x t b =>
    cases x with
    | raise e => exact .next (errorEntry _ _ s.bitpos e t) b
    | fault f => exact .fault f

section
variable (s : State) (b : List Nat)

theorem sameOutcome_cbVector (k : Nat) (acc : Bool) :
    SameOutcome (exec (.cbVector k acc) s) (exec (.cbVector k acc) (withBasis b s)) := by
  refine sameOutcome_of_rule (fun _ => rfl) (fun _ _ => rfl) (fun _ => .bind (blind_decodeGate k) fun _ =>
    .bind (blind_codebookAt k) fun _ => .bind (.raiseIf _ _) fun _ => .bind (.raiseIf _ _) fun _ =>
      .bind (blind_vectorDecode k) fun _ => ?_)
  cases acc
  · exact .bind (blind_vecWrite _ _) fun _ => UpdatesBlind.of_modify fun _ b => ⟨b, rfl⟩
  · exact .bind (blind_vecReadBlock _ _) fun _ => .bind (blind_vecWrite _ _) fun _ =>
      UpdatesBlind.of_modify fun _ b => ⟨b, rfl⟩

/-- Every command runs alike whatever BASIS holds. -/
theorem sameOutcome_exec (i : Instr) : SameOutcome (exec i s) (exec i (withBasis b s)) := by
  have update : ∀ {f : State → State}, (∀ s b, f (withBasis b s) = withBasis b (f s)) →
      BasisBlind (modify f : Cmd PUnit) := fun h => UpdatesBlind.of_modify fun s b => ⟨b, h s b⟩
  cases i with
  | nop => exact .next s b
  | softReset => exact .next (softResetState s) []
  | cfgReset => exact .next (cfgResetState s) []
  | synReset => exact .next { s with lapValid := false, tailLen := 0 } b
  | pcmClear => exact .next { s with pcmcount := 0 } b
  | brIlog => exact .next (setResult _ s) b
  | brStart =>
    exact sameOutcome_of_rule (fun _ => rfl) (fun _ _ => rfl) (fun _ => .bind (.raiseIf _ _) fun _ => update fun _ _ => rfl)
  | brReadU n =>
    exact sameOutcome_of_rule (fun _ => rfl) (fun _ _ => rfl) (fun _ => .bind (blind_readU n) fun _ => update fun _ _ => rfl)
  | brReadS n =>
    exact sameOutcome_of_rule (fun _ => rfl) (fun _ _ => rfl) (fun _ => .bind (blind_readU n) fun _ => update fun _ _ => rfl)
  | brReadF =>
    exact sameOutcome_of_rule (fun _ => rfl) (fun _ _ => rfl) (fun _ => .bind (blind_readVF _) fun _ => update fun _ _ => rfl)
  | cbScalar k =>
    exact sameOutcome_of_rule (fun _ => rfl) (fun _ _ => rfl) (fun _ => .bind (blind_decodeGate k) fun _ =>
      .bind (blind_scalarDecode k) fun _ => update fun _ _ => rfl)
  | cbVector k acc => exact sameOutcome_cbVector s b k acc
  | cfgSeal =>
    exact sameOutcome_of_rule (fun _ => rfl) (fun _ _ => rfl) (fun _ => .bind (.raiseIf _ _) fun _ =>
      .bind (.onRaise (fun _ b => ⟨b, rfl⟩) (blind_sealChecks _ _)) fun _ => update fun _ _ => rfl)
  | cbDefine k =>
    exact sameOutcome_of_rule (fun _ => rfl) (fun _ _ => rfl) (fun _ => .bind (.raiseIf _ _) fun _ =>
      .bind (.onRaise (fun _ b => ⟨b, rfl⟩) (blind_parseCodebook k)) fun _ => update fun _ _ => rfl)
  | resDefine r =>
    exact sameOutcome_of_rule (fun _ => rfl) (fun _ _ => rfl) (fun _ => .bind (.raiseIf _ _) fun _ =>
      .bind (.onRaise (fun _ b => ⟨b, rfl⟩) blind_parseResidue) fun _ => update fun _ _ => rfl)
  | resDecode r nvec =>
    exact sameOutcome_of_rule (fun _ => rfl) (fun _ _ => rfl) (fun _ => .bind (blind_residueChecks r nvec) fun j =>
      .bind (blind_vecWrite _ _) fun _ => .bind (.onRaise (fun _ b => ⟨b, rfl⟩) (blind_decodeResidue j)) fun _ =>
        update fun _ _ => rfl)
  | synConfig e0 e1 =>
    exact sameOutcome_of_rule (fun _ => rfl) (fun _ _ => rfl) (fun _ => .bind (.raiseIf _ _) fun _ =>
      .bind (.onRaise (fun _ b => ⟨b, rfl⟩) (.bind (.raiseIf _ _) fun _ => .raiseIf _ _)) fun _ => update fun _ _ => rfl)
  | synBlock w pw nw =>
    exact sameOutcome_of_rule (fun _ => rfl) (fun _ _ => rfl) (fun _ => .bind (.raiseIf _ _) fun _ =>
      .bind (.raiseIf _ _) fun _ => .bind (blind_blockChecks _) fun _ => .bind (blind_vecReadBlock _ _) fun _ =>
        .bind (blind_blockSamples _ _ _) fun _ => UpdatesBlind.of_modify fun _ _ => ⟨_, rfl⟩)

end

/-- Settles O51: BASIS is looked at only to add a size to it (`sameOutcome_exec`). -/
theorem basisIsNotObservable : Obligations.BasisIsNotObservable := by
  intro i s b
  have h := sameOutcome_exec s b i
  unfold withBasis at h
  generalize exec i s = x, exec i { s with basis := b } = y at h
  cases h with
  | next t b => rfl
  | fault f => rfl

end Sys2Proof.Machine
end

section
/-!
PROOFS. The host port's accesses to the RAM windows and its bus errors (20_memory.md rules R37 to R42, R48;
70_reset_and_hazards.md rule R119), and the command that a write to CMD runs (rules R44, R45; 60_exceptions.md rule R106).
-/

namespace Sys2Proof.Machine

/-! Addresses -/

section
variable {p : Params} {a : Word} {w : Nat}

theorem accessTarget_of_aligned (h : a.toNat % 4 = 0) : accessTarget p a 4 = targetAt p a.toNat := if_pos ⟨rfl, h⟩

/-- Word w of the PKT window (R40). -/
theorem accessTarget_pktBase (ha : a.toNat = pktBase + 4 * w) (hw : 4 * w < p.pktBytes) :
    accessTarget p a 4 = some (.pkt w) := by
  unfold pktBase at ha
  rw [accessTarget_of_aligned (by omega), targetAt, if_neg (by omega), if_pos (by unfold pktBase; omega)]
  simp [ha, pktBase]

/-- Word w of the VEC window (R40); the PKT window ends before it. -/
theorem accessTarget_vecBase (hp : p.wf) (ha : a.toNat = vecBase + 4 * w) (hw : w < p.vecWords) :
    accessTarget p a 4 = some (.vec w) := by
  obtain ⟨-, hpkt, -, -⟩ := hp
  unfold vecBase at ha
  rw [accessTarget_of_aligned (by omega), targetAt, if_neg (by omega), if_neg (by unfold pktBase; omega),
    if_pos (by unfold vecBase; omega)]
  simp [ha, vecBase]

/-- Word w of the PCM window (R40); the other windows end before it. -/
theorem accessTarget_pcmBase (hp : p.wf) (ha : a.toNat = pcmBase + 4 * w) (hw : w < p.pcmWords) :
    accessTarget p a 4 = some (.pcm w) := by
  obtain ⟨-, hpkt, hvec, -⟩ := hp
  unfold pcmBase at ha
  rw [accessTarget_of_aligned (by omega), targetAt, if_neg (by omega), if_neg (by unfold pktBase; omega),
    if_neg (by unfold vecBase; omega), if_pos (by unfold pcmBase; omega)]
  simp [ha, pcmBase]

/-- Addresses outside the register window and the three RAM windows name nothing (R40, R42). -/
theorem targetAt_unmapped {a : Nat} (hreg : 0x2C ≤ a) (hpkt : ¬ (pktBase ≤ a ∧ a < pktBase + p.pktBytes))
    (hvec : ¬ (vecBase ≤ a ∧ a < vecBase + 4 * p.vecWords)) (hpcm : ¬ (pcmBase ≤ a ∧ a < pcmBase + 4 * p.pcmWords)) :
    targetAt p a = none := by
  rw [targetAt, if_neg (by omega), if_neg hpkt, if_neg hvec, if_neg hpcm]

end

/-! Bus errors -/

section
variable {s : State} {e : HostEvent} {a : Word} {bytes : Nat} {rest : List HostEvent}

/-- A read or write of the host port is `serveAccess` of its address and width, whatever it does to a target. -/
theorem step_access (hp : s.pending = e :: rest) (he : e = .read a bytes ∨ ∃ v, e = .write a bytes v) :
    ∃ f, step s = serveAccess a bytes f { s with pending := rest } := by
  rw [step_of_pending hp]
  obtain rfl | ⟨v, rfl⟩ := he
  · exact ⟨_, rfl⟩
  · exact ⟨_, rfl⟩

end

/-- Settles O8: reads and writes are `serveAccess` of their address, which looks at the reset input and the address map
before anything else. -/
theorem busErrors : Obligations.BusErrors := by
  intro s e a bytes rest hp he
  obtain ⟨f, hstep⟩ := step_access hp he
  rw [hstep, serveAccess]
  refine ⟨fun hr => if_pos hr, fun hr hbad => ?_⟩
  have hnone : accessTarget s.params a bytes = none := by
    unfold accessTarget
    split
    · obtain ⟨hbytes, halign⟩ := ‹_›
      obtain h | h | ⟨hreg, hpkt, hvec, hpcm⟩ := hbad
      · exact absurd hbytes h
      · exact absurd halign h
      · exact targetAt_unmapped hreg hpkt hvec hpcm
    · rfl
  simp only [hr, hnone, Bool.false_eq_true, if_false]

/-! PKT -/

theorem mem_racedValues {s : State} {b : Nat} {x : Option Byte} : x ∈ racedValues s b ↔ (b, x) ∈ s.raced := by
  simp [racedValues]

section
variable (s : State) (w : Nat) (v : Word)

/-- The bytes of a written PKT word are the value's, and every other byte is as it was (R41). -/
theorem find_writePktWord_pkt (b : Nat) : (writePktWord s w v).pkt.find b
    = if 4 * w ≤ b ∧ b < 4 * w + 4 then some (hostByte v (b - 4 * w)) else s.pkt.find b := by
  rw [writePktWord_pkt, Sparse.find_store, List.length_map, List.length_range]
  split
  · rw [List.getElem?_map, List.getElem?_range (by omega), Option.map_some]
  · rfl

theorem find_writePktWord_byte {j : Nat} (hj : j < 4) :
    (writePktWord s w v).pkt.find (4 * w + j) = some (hostByte v j) := by
  rw [find_writePktWord_pkt, if_pos (by omega), Nat.add_sub_cancel_left]

theorem mem_racedByWrite (c : Nat × Option Byte) : c ∈ racedByWrite s w v ↔
    ∃ j, (j < 4 ∧ 4 * w + j < s.pktlen ∧ s.pkt.find (4 * w + j) ≠ some (hostByte v j))
      ∧ (4 * w + j, s.pkt.find (4 * w + j)) = c := by
  simp only [racedByWrite, List.mem_map, List.mem_filter, List.mem_range, decide_eq_true_eq]

/-- The earlier values of the other bytes of PKT are as they were (R48). -/
theorem racedValues_writePktWord_other {b : Nat} (hb : b < 4 * w ∨ 4 * w + 4 ≤ b) :
    racedValues (writePktWord s w v) b = racedValues s b := by
  have hnew : (racedByWrite s w v).filter (fun c => decide (c.1 = b)) = [] := by
    refine List.filter_eq_nil_iff.2 fun c hc => ?_
    obtain ⟨j, ⟨hj, -⟩, rfl⟩ := (mem_racedByWrite s w v c).1 hc
    simp only [decide_eq_true_eq]
    omega
  rw [racedValues, writePktWord_raced, List.filter_append, hnew, List.nil_append, racedValues]

/-- A byte below PKTLEN that a write changes leaves its earlier value to later reads (R48). -/
theorem mem_racedValues_writePktWord {j : Nat} {old : Byte} (hj : j < 4) (hlen : 4 * w + j < s.pktlen)
    (hold : s.pkt.find (4 * w + j) = some old) (hne : old ≠ hostByte v j) :
    some old ∈ racedValues (writePktWord s w v) (4 * w + j) := by
  rw [mem_racedValues, writePktWord_raced]
  exact List.mem_append_left _ ((mem_racedByWrite s w v _).2 ⟨j, ⟨hj, hlen, by simpa [hold] using hne⟩, by rw [hold]⟩)

/-- A word is its four bytes, least significant first (R41). -/
theorem hostWord_hostByte : hostWord (hostByte v 0) (hostByte v 1) (hostByte v 2) (hostByte v 3) = v := by
  simp only [hostWord, hostByte]
  rw [BitVec.extractLsb'_append_extractLsb'_eq_extractLsb' (by decide),
    BitVec.extractLsb'_append_extractLsb'_eq_extractLsb' (by decide),
    BitVec.extractLsb'_append_extractLsb'_eq_extractLsb' (by decide)]
  exact BitVec.extractLsb'_eq_self

end

section
variable {s : State} {w : Nat}

theorem serveRead_pkt {v : Word} (h : ∀ j, j < 4 → s.pkt.find (4 * w + j) = some (hostByte v j)) :
    serveRead (.pkt w) s = .next (respond (.data v) s) := by
  have h0 := h 0 (by decide)
  rw [Nat.add_zero] at h0
  simp only [serveRead, h0, h 1 (by decide), h 2 (by decide), h 3 (by decide), hostWord_hostByte]

/-- A host read of a PKT word with an unwritten byte is UNWRITTEN (R39). -/
theorem serveRead_pkt_unwritten {j : Nat} (hj : j < 4) (h : s.pkt.find (4 * w + j) = none) :
    serveRead (.pkt w) s = .fault (.unwritten .pkt (4 * w)) := by
  unfold serveRead
  simp only
  split
  · obtain rfl | rfl | rfl | rfl : j = 0 ∨ j = 1 ∨ j = 2 ∨ j = 3 := by omega
    all_goals simp_all
  · rfl

end

/-- Settles O9: a write stores the four `hostByte`s of the value, and a read packs four bytes by `hostWord`. -/
theorem hostWriteToPacketIsLittleEndian : Obligations.HostWriteToPacketIsLittleEndian := by
  intro s w a rest _ hr ha hw
  have htarget : accessTarget s.params a 4 = some (.pkt w) := accessTarget_pktBase ha hw
  refine ⟨fun v hp => ?_, fun hp => ?_⟩
  · have hbyte := fun j hj => find_writePktWord_byte { s with pending := rest } w v (j := j) hj
    refine ⟨_, step_write hp hr htarget, rfl, hbyte 0 (by decide), hbyte 1 (by decide), hbyte 2 (by decide),
      hbyte 3 (by decide), fun b hb => ⟨?_, racedValues_writePktWord_other { s with pending := rest } w v hb⟩,
      fun j hj hlen old hold hne => mem_racedValues_writePktWord { s with pending := rest } w v hj hlen hold hne⟩
    rw [respond_pkt, find_writePktWord_pkt, if_neg (by omega)]
  · rw [step_read hp hr htarget]
    exact ⟨fun v hv => serveRead_pkt hv, fun j hj hnone => serveRead_pkt_unwritten hj hnone⟩

/-! VEC and PCM -/

/-- Settles O10: a VEC or PCM window address names its word, and each access is one store or one look-up. -/
theorem hostAccessToVecAndPcm : Obligations.HostAccessToVecAndPcm := by
  intro s w a rest hwf hr
  refine ⟨fun ha hw => ?_, fun ha hw => ?_⟩
  · have htarget : accessTarget s.params a 4 = some (.vec w) := accessTarget_vecBase hwf ha hw
    refine ⟨fun v hp => ⟨_, step_write hp hr htarget, rfl, ?_, fun u hu => ?_⟩, fun x hp hx => ?_, fun hp hnone => ?_⟩
    · exact Sparse.find_store_one_same s.vec w v
    · exact Sparse.find_store_one_other s.vec w v u hu
    · rw [step_read hp hr htarget]
      simp only [serveRead, hx]
      rfl
    · rw [step_read hp hr htarget]
      simp only [serveRead, hnone]
  · have htarget : accessTarget s.params a 4 = some (.pcm w) := accessTarget_pcmBase hwf ha hw
    refine ⟨fun v hp => step_write hp hr htarget, fun x hp hx => ?_, fun hp hnone => ?_⟩
    · rw [step_read hp hr htarget]
      simp only [serveRead, hx]
      rfl
    · rw [step_read hp hr htarget]
      simp only [serveRead, hnone]

/-! CMD -/

section
variable {s : State} {c : Word} {i : Instr}

/-- The gate lets a decoded command through when ERR = 0 or it is in the recovery set (R106). -/
theorem gate_of_decode (hd : decode c = .ok i) (h : s.err = false ∨ i.recovery = true) : gate c s = exec i s := by
  simp only [gate, hd]
  refine if_neg ?_
  obtain h | h := h <;> simp [h]

end

/-- Settles O4: CMD is at offset 0, and issuing a word is its gate between BUSY = 1 and `retire`. -/
theorem stepRunsTheDecodedCommand : Obligations.StepRunsTheDecodedCommand := by
  intro s c i rest hp hr hd hgate
  have hstep : step s = issue c { s with pending := rest } := step_write (g := .reg .cmd) hp hr rfl
  have hexec : gate c { s with pending := rest, busy := true } = exec i { s with pending := rest, busy := true } :=
    gate_of_decode hd hgate
  rw [hstep]
  simp only [issue, hexec]
  cases exec i { s with pending := rest, busy := true } with
  | next t => exact ⟨_, rfl⟩
  | fault f => rfl
  | refused r => rfl

end Sys2Proof.Machine
end

section
/-!
PROOFS. Commands that read the packet or VEC (20_memory.md rules R36, R39, R48): the field BR_READU reads and the byte
rewritten under it, the codeword of CB_SCALAR and CB_VECTOR, and what CB_VECTOR and SYN_BLOCK refuse, each up to the
UNWRITTEN fault.
-/

namespace Sys2Proof.Machine

/-! BR_READU -/

section
variable {s t : State} {n v : Nat}

/-- BR_READU gives in RESULT what `ReadU` reads (R65). -/
theorem exec_brReadU_run (h : readU n s = .ok v t) : exec (.brReadU n) s = .next (setResult (BitVec.ofNat 32 v) t) :=
  runCommand_of_ok (u := ()) (by rw [bind_of_ok h, modify_run])

end

/-- Settles O20: `ReadU` reads the bits its value spells. -/
theorem brReadUReadsAField : Obligations.BrReadUReadsAField := by
  intro s n v hn _ hv hs
  rw [exec_brReadU_run ((spells_readU hn hv).yields s hs), length_fieldBits]
  rfl

section
variable {s : State} {p d : Nat} {b : Bool}

/-- A written byte gives a bit: the present byte's or an earlier one's, or a free one where an earlier value was never
written (R48). -/
theorem packetBit_written {now : Byte} (h : s.pkt.find (p / 8) = some now) :
    ∃ b d, packetBit p s = .ok b { s with draws := d }
      ∧ (none ∉ racedValues s (p / 8) →
          b = now.getLsbD (p % 8) ∨ ∃ old, some old ∈ racedValues s (p / 8) ∧ b = old.getLsbD (p % 8)) := by
  obtain ⟨hnone, -⟩ | ⟨now', hnow, -, hrun⟩ | ⟨now', b, d, hnow, hrun, hold⟩ := packetBit_cases p s
  · rw [h] at hnone
    cases hnone
  · cases h.symm.trans hnow
    exact ⟨_, s.draws, hrun, fun _ => .inl rfl⟩
  · cases h.symm.trans hnow
    exact ⟨b, d, hrun, hold⟩

/-- One bit read inside the packet (R60, R61). -/
theorem readU_one (hlt : s.bitpos < 8 * s.pktlen) (h : packetBit s.bitpos s = .ok b { s with draws := d }) :
    readU 1 s = .ok b.toNat { s with bitpos := s.bitpos + 1, draws := d } := by
  have hbit : readBit s = .ok b { s with bitpos := s.bitpos + 1, draws := d } := by
    rw [readBit, bind_of_ok (get_run s), bind_raiseIf_false (decide_eq_false (by omega)), bind_of_ok h]
    rfl
  rw [readU_pos (Nat.le_refl 1), readBits, bind_of_ok hbit]
  rfl

end

/-- Settles O27: the one bit read is a `packetBit` of a written byte. -/
theorem rewrittenPacketByteReadsOldOrNew : Obligations.RewrittenPacketByteReadsOldOrNew := by
  intro s now hlt hnow
  obtain ⟨b, d, hrun, hraced⟩ := packetBit_written hnow
  refine ⟨b.toNat, d, exec_brReadU_run (readU_one hlt hrun), b.toNat_lt, fun hnone => ?_⟩
  obtain rfl | ⟨old, hold, rfl⟩ := hraced hnone
  · exact .inl rfl
  · exact .inr ⟨old, hold, rfl⟩

/-! Codewords -/

section
variable {i : Instr} {e : ErrorCode} {r : Cmd Unit} {s : State} {n : Nat}

/-- A command that raises after it has read some bits of the packet raises with the effects of R107 only. -/
theorem raises_after_bits (hi : exec i s = runCommand i r s) (hr : readsBits i = true)
    (h : r s = .error (.raise e) (advance s n)) : Raises i e s := by
  refine ⟨_, hi.trans (runCommand_of_raise h), rfl, fun hno => ?_, fun hb => ?_⟩
  · rw [hr] at hno
    cases hno
  · rw [errorEntry_bitpos, if_pos hr, advance_pktlen]
    have := Nat.mod_lt (Config.freeNat ((advance s n).draws + 1)) (Nat.add_one_pos (8 * s.pktlen - s.bitpos))
    omega

end

section
variable {s t : State} {k : Nat} {c : Codebook} {x : Stop}

theorem decodeGate_run (h : s.cfgState = .sealed) (hk : k < s.cbCount) : decodeGate k s = .ok () s := by
  rw [decodeGate, bind_of_ok (get_run s), bind_raiseIf_false (by simp [h]), decide_eq_false (by omega), raiseIf_false]

theorem codebookAt_find (hc : s.cb.find k = some c) : codebookAt k s = .ok c s := by rw [codebookAt_run, hc]

theorem scalarDecode_eq_walk (hc : s.cb.find k = some c) : scalarDecode k s = walk c.tree s := by
  rw [scalarDecode, bind_of_ok (codebookAt_find hc)]

/-- `VectorDecode` stops where the walk of the tree does (R74). -/
theorem vectorDecode_stop {l : Lookup} (hc : s.cb.find k = some c) (hl : c.lookup = some l)
    (h : walk c.tree s = .error x t) : vectorDecode k s = .error x t := by
  rw [vectorDecode, bind_of_ok (codebookAt_find hc), hl]
  exact bind_of_error ((scalarDecode_eq_walk hc).trans h)

/-- The walk that has come to an inner node stops at an unwritten byte (R39, R71). -/
theorem walk_unwritten {a b tree : Tree} {p : List Bool} (h : tree.nodeAt p = some (.inner a b))
    (hs : packetHas s p = true) (hlt : s.bitpos + p.length < 8 * s.pktlen)
    (hnone : s.pkt.find ((s.bitpos + p.length) / 8) = none) :
    walk tree s = .error (.fault (.unwritten .pkt ((s.bitpos + p.length) / 8))) (advance s p.length) :=
  walk_inner h hs (readBit_unwritten hlt hnone)

end

/-- Settles O33: past its gate, CB_SCALAR is the walk of the slot's tree, which ends or stops where the bits lead. -/
theorem cbScalarWalksTheTree : Obligations.CbScalarWalksTheTree := by
  intro s k c p hsealed hk hc hs
  have hgate : decodeGate k s = .ok () s := decodeGate_run hsealed hk
  have hwalk : scalarDecode k s = walk c.tree s := scalarDecode_eq_walk hc
  refine ⟨fun sym hleaf => ?_, fun hempty => ?_, fun a b hinner => ⟨fun hend => ?_, fun hlt hnone => ?_⟩⟩
  · have hrun : scalarDecode k s = .ok sym (advance s p.length) := hwalk.trans ((spells_walk hleaf).yields s hs)
    exact runCommand_of_ok (u := ()) (by rw [bind_of_ok hgate, bind_of_ok hrun]; rfl)
  · exact raises_after_bits rfl rfl (by rw [bind_of_ok hgate, bind_of_error (hwalk.trans (walk_empty hempty hs))])
  · exact raises_after_bits rfl rfl (by rw [bind_of_ok hgate, bind_of_error (hwalk.trans (walk_cut hinner hs hend))])
  · exact runCommand_of_fault (by
      rw [bind_of_ok hgate, bind_of_error (hwalk.trans (walk_unwritten hinner hs hlt hnone))])

/-! Unwritten words of VEC -/

theorem vecReadBlock_succ (w n : Nat) :
    vecReadBlock w (n + 1) = vecRead w >>= fun x => vecReadBlock (w + 1) n >>= fun xs => pure (x :: xs) := rfl

/-- A block read of VEC stops at its first unwritten word (R39). -/
theorem vecReadBlock_unwritten {s : State} {w n k : Nat} (hk : k < n) (hw : VecWritten s w k)
    (hnone : s.vec.find (w + k) = none) :
    vecReadBlock w n s = .error (.fault (.unwritten .vec (w + k))) s := by
  induction k generalizing w n with
  | zero =>
    obtain ⟨n, rfl⟩ := Nat.exists_eq_succ_of_ne_zero (Nat.ne_of_gt hk)
    have hread : vecRead w s = .error (.fault (.unwritten .vec w)) s := by
      rw [vecRead_run, show s.vec.find w = none from hnone]
    rw [vecReadBlock_succ, bind_of_error hread, Nat.add_zero]
  | succ k ih =>
    obtain ⟨n, rfl⟩ := Nat.exists_eq_succ_of_ne_zero (Nat.ne_zero_of_lt hk)
    obtain ⟨x, hx⟩ := Option.isSome_iff_exists.1 (hw 0 (Nat.succ_pos k))
    have hread : vecRead w s = .ok x s := by rw [vecRead_run, show s.vec.find w = some x from hx]
    have hshift : ∀ j, w + (j + 1) = w + 1 + j := by omega
    have hrest := ih (Nat.lt_of_succ_lt_succ hk) (fun j hj => by rw [← hshift]; exact hw (j + 1) (by omega))
      (by rw [← hshift]; exact hnone)
    rw [vecReadBlock_succ, bind_of_ok hread, bind_of_error hrest, hshift k]

/-- Settles O35: the checks before the first bit, then `VectorDecode`, which stops where the walk does, then the read
of the destination. -/
theorem cbVectorRefusals : Obligations.CbVectorRefusals := by
  intro s k acc c hsealed hk hc
  have hgate : decodeGate k s = .ok () s := decodeGate_run hsealed hk
  have hbook : codebookAt k s = .ok c s := codebookAt_find hc
  refine ⟨fun hl => ?_, fun hl hroom => ?_, fun hl hroom p hs => ?_⟩
  · refine raises_of_stop rfl ?_
    rw [bind_of_ok hgate, bind_of_ok hbook, bind_raiseIf_true (by rw [hl]; rfl)]
  · have hlook : c.lookup.isNone = false := Option.isNone_eq_false_iff.2 (Option.isSome_iff_ne_none.2 hl)
    refine raises_of_stop rfl ?_
    rw [bind_of_ok hgate, bind_of_ok hbook, bind_raiseIf_false hlook]
    exact bind_raiseIf_true (decide_eq_true hroom)
  · obtain ⟨l, hl⟩ := Option.ne_none_iff_exists'.1 hl
    have hlook : c.lookup.isNone = false := by rw [hl]; rfl
    have hfits : decide (s.params.vecWords < arg0Nat s + c.dim) = false := decide_eq_false (Nat.not_lt.2 hroom)
    have hdecode : ∀ {e n}, vectorDecode k s = .error (.raise e) (advance s n) → Raises (.cbVector k acc) e s := fun h =>
      raises_after_bits rfl rfl (by
        rw [bind_of_ok hgate, bind_of_ok hbook, bind_raiseIf_false hlook, bind_raiseIf_false hfits, bind_of_error h])
    refine ⟨fun hempty => ?_, fun a b hinner hend => ?_, fun e d hleaf hd hw hnone => ?_⟩
    · exact hdecode (vectorDecode_stop hc hl (walk_empty hempty hs))
    · exact hdecode (vectorDecode_stop hc hl (walk_cut hinner hs hend))
    · have hread : vecReadBlock (arg0Nat s) (entryVector c l e).length (advance s p.length)
          = .error (.fault (.unwritten .vec (s.arg0.toNat + d))) (advance s p.length) :=
        vecReadBlock_unwritten (by rwa [length_entryVector]) hw hnone
      refine runCommand_of_fault (u := advance s p.length) ?_
      rw [bind_of_ok hgate, bind_of_ok hbook, bind_raiseIf_false hlook, bind_raiseIf_false hfits,
        bind_of_ok (vectorDecode_run hc hl hs hleaf)]
      exact bind_of_error hread

/-! SYN_BLOCK -/

section
variable {s : State} {w pw nw : Bool} {g : Geometry}

theorem blockChecks_range (h : s.params.vecWords < s.arg0.toNat + g.n / 2) :
    blockChecks g s = .error (.raise .range) s := by
  have h : s.params.vecWords < arg0Nat s + g.n / 2 := h
  rw [blockChecks, bind_of_ok (get_run s), bind_raiseIf_true (decide_eq_true h)]

theorem blockChecks_lapMismatch (h1 : s.arg0.toNat + g.n / 2 ≤ s.params.vecWords) (h2 : s.lapValid = true)
    (h3 : s.tailLen ≠ g.ln) : blockChecks g s = .error (.raise .lapMismatch) s := by
  have h1 : ¬ s.params.vecWords < arg0Nat s + g.n / 2 := Nat.not_lt_of_le h1
  rw [blockChecks, bind_of_ok (get_run s), bind_raiseIf_false (decide_eq_false h1),
    bind_raiseIf_true (by simpa [h2] using h3)]

theorem blockChecks_overflow (h1 : s.arg0.toNat + g.n / 2 ≤ s.params.vecWords) (h2 : s.lapValid = true → s.tailLen = g.ln)
    (h3 : s.params.pcmWords < s.pcmcount + blockCount s g) : blockChecks g s = .error (.raise .overflow) s := by
  have h1 : ¬ s.params.vecWords < arg0Nat s + g.n / 2 := Nat.not_lt_of_le h1
  rw [blockChecks, bind_of_ok (get_run s), bind_raiseIf_false (decide_eq_false h1),
    bind_raiseIf_false (by simpa using h2), decide_eq_true h3, raiseIf_true]

/-- A SYN_BLOCK whose checks raise changes nothing else (R98, R107). -/
theorem raises_of_blockChecks {e : ErrorCode} (hsealed : s.cfgState = .sealed) (hsyn : s.synValid = true)
    (h : blockChecks (blockGeometry s w pw nw) s = .error (.raise e) s) : Raises (.synBlock w pw nw) e s := by
  refine raises_of_stop rfl ?_
  rw [bind_raiseIf_false (by simp [hsealed]), bind_raiseIf_false (by simp [hsyn]), bind_of_error h]

end

/-- Settles O49: each check of `blockChecks` where those before it find nothing, and the block read of the spectrum. -/
theorem synBlockRefusals : Obligations.SynBlockRefusals := by
  intro s w pw nw hsealed i g ms count
  have hcount : blockCount s g = count := by rw [blockCount_eq, middleStart_eq]; rfl
  refine ⟨fun hsyn => ?_, fun hsyn hvec => ?_, fun hsyn hvec hlap htail => ?_, fun hsyn hvec htail hpcm => ?_,
    fun hsyn hvec htail hpcm k hk hw hnone => ?_⟩
  · refine raises_of_stop rfl ?_
    rw [bind_raiseIf_false (by simp [hsealed]), bind_raiseIf_true (by simp [hsyn])]
  · exact raises_of_blockChecks hsealed hsyn (blockChecks_range hvec)
  · exact raises_of_blockChecks hsealed hsyn (blockChecks_lapMismatch hvec hlap htail)
  · exact raises_of_blockChecks hsealed hsyn (blockChecks_overflow hvec htail (hcount ▸ hpcm))
  · have hchecks : blockChecks (blockGeometry s w pw nw) s = .ok () s := blockChecks_run hvec htail (hcount ▸ hpcm)
    have hread : vecReadBlock (arg0Nat s) (g.n / 2) s = .error (.fault (.unwritten .vec (s.arg0.toNat + k))) s :=
      vecReadBlock_unwritten hk hw hnone
    refine runCommand_of_fault (u := s) ?_
    rw [bind_raiseIf_false (by simp [hsealed]), bind_raiseIf_false (by simp [hsyn]), bind_of_ok hchecks]
    exact bind_of_error hread

end Sys2Proof.Machine
end

section
/-!
PROOFS. The encoding (30_encoding.md rules R52 to R57): each format read and written, the round trip of a command and its
word, and the rows of the opcode table as the first two tests of the decoding procedure.
-/

namespace Sys2Proof

/-! What each format makes of a payload (R52, R55) -/

section
variable {p : Nat} {i : Instr}

/-- Every format but FB is one test of the reserved bits. -/
theorem ite_reservedBits_eq_ok_iff {P : Prop} [Decidable P] {j : Instr} :
    (if P then Except.ok j else .error Illegal.reservedBits) = .ok i ↔ P ∧ j = i := by
  split <;> simp [*]

theorem ite_reservedBits_ne_bitCount {P : Prop} [Decidable P] {j : Instr} :
    (if P then Except.ok j else .error Illegal.reservedBits) ≠ .error .bitCount := by
  split <;> simp

theorem fieldsF0_eq_ok_iff {j : Instr} : fieldsF0 p j = .ok i ↔ p = 0 ∧ j = i :=
  ite_reservedBits_eq_ok_iff

theorem fieldsByte_eq_ok_iff {f : Nat → Instr} : fieldsByte p f = .ok i ↔ p < 256 ∧ f p = i :=
  ite_reservedBits_eq_ok_iff

theorem fieldsFKV_eq_ok_iff {f : Nat → Bool → Instr} :
    fieldsFKV p f = .ok i ↔ p < 512 ∧ f (p % 256) (decide (p / 256 = 1)) = i :=
  ite_reservedBits_eq_ok_iff

theorem fieldsFR_eq_ok_iff {f : Nat → Instr} : fieldsFR p f = .ok i ↔ p < 64 ∧ f p = i :=
  ite_reservedBits_eq_ok_iff

theorem fieldsFRD_eq_ok_iff {f : Nat → Nat → Instr} :
    fieldsFRD p f = .ok i ↔ (p < 8192 ∧ p / 64 % 4 = 0) ∧ f (p % 64) (p / 256 + 1) = i :=
  ite_reservedBits_eq_ok_iff

theorem fieldsFSB_eq_ok_iff {f : Bool → Bool → Bool → Instr} :
    fieldsFSB p f = .ok i ↔
      p < 8 ∧ f (decide (p % 2 = 1)) (decide (p / 2 % 2 = 1)) (decide (p / 4 = 1)) = i :=
  ite_reservedBits_eq_ok_iff

theorem fieldsFB_eq_ok_iff {f : Nat → Instr} : fieldsFB p f = .ok i ↔ p ≤ 32 ∧ f p = i := by
  unfold fieldsFB
  split
  · split <;> simp [*]
  · simp
    omega

theorem fieldsFB_eq_bitCount_iff {f : Nat → Instr} : fieldsFB p f = .error .bitCount ↔ 32 < p ∧ p < 64 := by
  unfold fieldsFB
  split
  · split <;> simp <;> omega
  · simp
    omega

end

/-! A bit as a number (R57) and a number's low digit as a bit (R52) -/

theorem toNat_decide_eq_one {b : Nat} (h : b < 2) : (decide (b = 1)).toNat = b := by
  interval_cases b <;> rfl

theorem decide_eq_one_of_eq_toNat {n : Nat} {b : Bool} (h : n = b.toNat) : decide (n = 1) = b := by
  cases b <;> simp [h]

/-! The round trip -/

section
variable {op p : Nat} {i : Instr} {c : Word}

/-- A command keeps the opcode and the payload it was decoded from: one case for the arms of `decodeParts` of each format,
in its order, and F0 for the rest. -/
theorem opcode_payload_of_decodeParts (h : decodeParts op p = .ok i) : i.opcode = op ∧ i.payload = p := by
  unfold decodeParts at h
  split at h
  case h_6 | h_7 => obtain ⟨-, rfl⟩ := fieldsFB_eq_ok_iff.mp h; exact ⟨rfl, rfl⟩
  case h_10 | h_11 => obtain ⟨-, rfl⟩ := fieldsByte_eq_ok_iff.mp h; exact ⟨rfl, rfl⟩
  case h_12 =>
    obtain ⟨hp, rfl⟩ := fieldsFKV_eq_ok_iff.mp h
    refine ⟨rfl, ?_⟩
    simp only [Instr.payload, toNat_decide_eq_one (show p / 256 < 2 by omega)]
    omega
  case h_13 => obtain ⟨-, rfl⟩ := fieldsFR_eq_ok_iff.mp h; exact ⟨rfl, rfl⟩
  case h_14 =>
    obtain ⟨hp, rfl⟩ := fieldsFRD_eq_ok_iff.mp h
    refine ⟨rfl, ?_⟩
    simp only [Instr.payload]
    omega
  case h_15 =>
    obtain ⟨-, rfl⟩ := fieldsByte_eq_ok_iff.mp h
    exact ⟨rfl, Nat.div_add_mod' p 16⟩
  case h_16 =>
    obtain ⟨hp, rfl⟩ := fieldsFSB_eq_ok_iff.mp h
    refine ⟨rfl, ?_⟩
    simp only [Instr.payload, toNat_decide_eq_one (show p % 2 < 2 by omega),
      toNat_decide_eq_one (show p / 2 % 2 < 2 by omega), toNat_decide_eq_one (show p / 4 < 2 by omega)]
    omega
  case h_19 => cases h
  all_goals
    obtain ⟨rfl, rfl⟩ := fieldsF0_eq_ok_iff.mp h
    exact ⟨rfl, rfl⟩

/-- The decoder gives back a well-formed command from its opcode and payload: one case per constructor, by its format. -/
theorem decodeParts_opcode_payload (h : i.wellFormed = true) : decodeParts i.opcode i.payload = .ok i := by
  cases i with
  | brReadU n | brReadS n => exact fieldsFB_eq_ok_iff.mpr ⟨of_decide_eq_true h, rfl⟩
  | cbDefine k | cbScalar k => exact fieldsByte_eq_ok_iff.mpr ⟨of_decide_eq_true h, rfl⟩
  | cbVector k acc =>
    have hk : k < 256 := of_decide_eq_true h
    have hacc := acc.toNat_lt
    refine fieldsFKV_eq_ok_iff.mpr ⟨by simp only [Instr.payload]; omega, ?_⟩
    congr 1
    · simp only [Instr.payload]; omega
    · exact decide_eq_one_of_eq_toNat (by simp only [Instr.payload]; omega)
  | resDefine r => exact fieldsFR_eq_ok_iff.mpr ⟨of_decide_eq_true h, rfl⟩
  | resDecode r nvec =>
    simp only [Instr.wellFormed, Bool.and_eq_true, decide_eq_true_eq] at h
    refine fieldsFRD_eq_ok_iff.mpr ⟨by simp only [Instr.payload]; omega, ?_⟩
    simp only [Instr.payload, Instr.resDecode.injEq]
    omega
  | synConfig e0 e1 =>
    simp only [Instr.wellFormed, Bool.and_eq_true, decide_eq_true_eq] at h
    refine (fieldsByte_eq_ok_iff (f := fun b => .synConfig (b % 16) (b / 16))).mpr ⟨?_, ?_⟩
    · simp only [Instr.payload]
      omega
    · simp only [Instr.payload, Instr.synConfig.injEq]
      omega
  | synBlock w pw nw => revert w pw nw; decide
  | nop | softReset | cfgSeal | cfgReset | brStart | brReadF | brIlog | synReset | pcmClear => rfl

/-- `Laws.OpcodeByte` for every command: the two parts of an encoded word. -/
theorem opcodeByte_statement (i : Instr) : Laws.OpcodeByte.Statement i := by
  cases i with
  | nop => exact Laws.OpcodeByte.nop
  | softReset => exact Laws.OpcodeByte.softReset
  | cfgSeal => exact Laws.OpcodeByte.cfgSeal
  | cfgReset => exact Laws.OpcodeByte.cfgReset
  | brStart => exact Laws.OpcodeByte.brStart
  | brReadU n => exact Laws.OpcodeByte.brReadU n
  | brReadS n => exact Laws.OpcodeByte.brReadS n
  | brReadF => exact Laws.OpcodeByte.brReadF
  | brIlog => exact Laws.OpcodeByte.brIlog
  | cbDefine k => exact Laws.OpcodeByte.cbDefine k
  | cbScalar k => exact Laws.OpcodeByte.cbScalar k
  | cbVector k acc => exact Laws.OpcodeByte.cbVector k acc
  | resDefine r => exact Laws.OpcodeByte.resDefine r
  | resDecode r nvec => exact Laws.OpcodeByte.resDecode r nvec
  | synConfig e0 e1 => exact Laws.OpcodeByte.synConfig e0 e1
  | synBlock w pw nw => exact Laws.OpcodeByte.synBlock w pw nw
  | synReset => exact Laws.OpcodeByte.synReset
  | pcmClear => exact Laws.OpcodeByte.pcmClear

theorem decode_encode (h : i.wellFormed = true) : decode (encode i) = .ok i := by
  obtain ⟨hop, hpayload⟩ := opcodeByte_statement i h
  rw [decode, hop, hpayload, decodeParts_opcode_payload h]

theorem encode_of_decode (h : decode c = .ok i) : encode i = c := by
  obtain ⟨hop, hpayload⟩ := opcode_payload_of_decodeParts h
  rw [encode, hop, hpayload, Nat.div_add_mod', BitVec.ofNat_toNat, BitVec.setWidth_eq]

end

/-- Settles O1: `decodeParts` and the pair of `opcode` and `payload` are inverse to each other, and a word is its pair. -/
theorem decodeAndEncodeAgree : Obligations.DecodeAndEncodeAgree :=
  ⟨fun _ => decode_encode, fun _ _ h => ⟨Machine.wellFormed_of_decode h, encode_of_decode h⟩⟩

/-! The rows of the opcode table (R54, R56) -/

/-- The width of the low bits that hold a format's fields (R52). -/
def Instr.fieldWidth : Instr → Nat
  | .brReadU _ | .brReadS _ | .resDefine _ => 6
  | .cbDefine _ | .cbScalar _ | .synConfig _ _ => 8
  | .cbVector _ _ => 9
  | .resDecode _ _ => 13
  | .synBlock _ _ _ => 3
  | .nop | .softReset | .cfgSeal | .cfgReset | .brStart | .brReadF | .brIlog | .synReset | .pcmClear => 0

/-- The opcode and the reserved bits (R52): what is above the fields, and in FRD bits 7..6, between its two fields. -/
def Instr.fixedBits (i : Instr) : Word :=
  match i with
  | .resDecode _ _ => BitVec.allOnes 32 <<< i.fieldWidth ||| 0xC0
  | _ => BitVec.allOnes 32 <<< i.fieldWidth

/-- The opcode table's row of a command, whatever its operands (`opcodeTable_eq_map_row`). -/
def Instr.row (i : Instr) : TableRow := ⟨i.mnemonic, BitVec.ofNat 32 (i.opcode * 2 ^ 24), i.fixedBits⟩

/-- The second test of R56 on a payload: the reserved bits of the command's format are 0. -/
def Instr.ReservedZero (i : Instr) (p : Nat) : Prop :=
  match i with
  | .resDecode _ _ => p < 2 ^ i.fieldWidth ∧ p / 64 % 4 = 0
  | _ => p < 2 ^ i.fieldWidth

/-- One command of each row, in the table's order. -/
def commandOfEachRow : List Instr :=
  [.nop, .softReset, .cfgSeal, .cfgReset, .brStart, .brReadU 0, .brReadS 0, .brReadF, .brIlog, .cbDefine 0, .cbScalar 0,
    .cbVector 0 false, .resDefine 0, .resDecode 0 1, .synConfig 0 0, .synBlock false false false, .synReset, .pcmClear]

theorem opcodeTable_eq_map_row : opcodeTable = commandOfEachRow.map Instr.row := by decide

theorem exists_commandOfEachRow_row_eq (i : Instr) : ∃ j ∈ commandOfEachRow, j.row = i.row := by
  cases i with
  | brReadU n => exact ⟨.brReadU 0, by decide, rfl⟩
  | brReadS n => exact ⟨.brReadS 0, by decide, rfl⟩
  | cbDefine k => exact ⟨.cbDefine 0, by decide, rfl⟩
  | cbScalar k => exact ⟨.cbScalar 0, by decide, rfl⟩
  | cbVector k acc => exact ⟨.cbVector 0 false, by decide, rfl⟩
  | resDefine r => exact ⟨.resDefine 0, by decide, rfl⟩
  | resDecode r nvec => exact ⟨.resDecode 0 1, by decide, rfl⟩
  | synConfig e0 e1 => exact ⟨.synConfig 0 0, by decide, rfl⟩
  | synBlock w pw nw => exact ⟨.synBlock false false false, by decide, rfl⟩
  | nop | softReset | cfgSeal | cfgReset | brStart | brReadF | brIlog | synReset | pcmClear =>
    exact ⟨_, by decide, rfl⟩

theorem row_mem_opcodeTable (i : Instr) : i.row ∈ opcodeTable := by
  obtain ⟨j, hj, hrow⟩ := exists_commandOfEachRow_row_eq i
  rw [opcodeTable_eq_map_row, ← hrow]
  exact List.mem_map_of_mem hj

theorem exists_row_of_mem_opcodeTable {row : TableRow} (h : row ∈ opcodeTable) : ∃ i : Instr, i.row = row := by
  rw [opcodeTable_eq_map_row] at h
  obtain ⟨i, -, hi⟩ := List.mem_map.mp h
  exact ⟨i, hi⟩

section
variable {c : Word} {i : Instr}

theorem toNat_and_allOnes_shiftLeft (c : Word) (k : Nat) :
    (c &&& BitVec.allOnes 32 <<< k).toNat = c.toNat / 2 ^ k * 2 ^ k := by
  rw [← BitVec.shiftLeft_ushiftRight, BitVec.toNat_shiftLeft, BitVec.toNat_ushiftRight, Nat.shiftLeft_eq,
    Nat.shiftRight_eq_div_pow, Nat.mod_eq_of_lt (Nat.lt_of_le_of_lt (Nat.div_mul_le_self ..) c.isLt)]

/-- The match of every format but FRD. With the width and the opcode as numerals it is linear arithmetic. -/
theorem and_fieldWidth_eq_iff (i : Instr) (c : Word) :
    c &&& BitVec.allOnes 32 <<< i.fieldWidth = BitVec.ofNat 32 (i.opcode * 2 ^ 24) ↔
      c.toNat / 2 ^ 24 = i.opcode ∧ c.toNat % 2 ^ 24 < 2 ^ i.fieldWidth := by
  rw [← BitVec.toNat_inj, toNat_and_allOnes_shiftLeft, BitVec.toNat_ofNat]
  cases i <;> simp only [Instr.fieldWidth, Instr.opcode] <;> omega

/-- Bits 7..6 are those of the low byte with its lowest six bits cleared. -/
theorem and_0xC0_eq_zero_iff (c : Word) : c &&& (0xC0 : Word) = 0 ↔ c.toNat / 64 % 4 = 0 := by
  have hbyte : (c &&& (0xFF : Word)).toNat = c.toNat % 256 := by
    rw [BitVec.toNat_and]
    exact Nat.and_two_pow_sub_one_eq_mod c.toNat 8
  have hbits : c &&& (0xC0 : Word) = c &&& (0xFF : Word) &&& BitVec.allOnes 32 <<< 6 := by
    rw [BitVec.and_assoc]
    rfl
  rw [hbits, ← BitVec.toNat_inj, toNat_and_allOnes_shiftLeft, hbyte]
  change _ = 0 ↔ _
  omega

/-- A mask in two parts, where the pattern lies in the first part and outside the second. -/
theorem and_or_eq_iff {m g x : Word} (hm : x &&& m = x) (hg : x &&& g = 0) :
    c &&& (m ||| g) = x ↔ c &&& m = x ∧ c &&& g = 0 := by
  constructor
  · intro h
    have hleft : (m ||| g) &&& m = m := by ext; simp +contextual
    have hright : (m ||| g) &&& g = g := by ext; simp +contextual
    exact ⟨by rw [← hleft, ← BitVec.and_assoc, h, hm], by rw [← hright, ← BitVec.and_assoc, h, hg]⟩
  · rintro ⟨hcm, hcg⟩
    rw [BitVec.and_or_distrib_left, hcm, hcg]
    exact BitVec.or_zero

/-- A row matches a word exactly when the opcode is the row's and the reserved bits are 0: the first two tests of R56. -/
theorem row_matches_iff (i : Instr) (c : Word) : c &&& i.row.mask = i.row.pattern ↔
    c.toNat / 2 ^ 24 = i.opcode ∧ i.ReservedZero (c.toNat % 2 ^ 24) := by
  cases i with
  | resDecode r nvec =>
    have hbits : c.toNat % 2 ^ 24 / 64 % 4 = c.toNat / 64 % 4 := by omega
    simp only [Instr.ReservedZero, hbits, ← and_assoc]
    rw [← and_0xC0_eq_zero_iff, ← and_fieldWidth_eq_iff]
    exact and_or_eq_iff (x := BitVec.ofNat 32 (0x31 * 2 ^ 24)) (m := BitVec.allOnes 32 <<< 13) (by decide) (by decide)
  | _ => exact and_fieldWidth_eq_iff _ c

/-- A well-formed command's payload passes the second test of R56. -/
theorem reservedZero_payload (h : i.wellFormed = true) : i.ReservedZero i.payload := by
  cases i with
  | cbVector k acc =>
    have hacc := acc.toNat_lt
    simp only [Instr.ReservedZero, Instr.fieldWidth, Instr.payload, Instr.wellFormed, decide_eq_true_eq] at h ⊢
    omega
  | synBlock w pw nw =>
    have hw := w.toNat_lt
    have hpw := pw.toNat_lt
    have hnw := nw.toNat_lt
    simp only [Instr.ReservedZero, Instr.fieldWidth, Instr.payload]
    omega
  | _ =>
    simp only [Instr.ReservedZero, Instr.fieldWidth, Instr.payload, Instr.wellFormed, Bool.and_eq_true,
      decide_eq_true_eq] at h ⊢
    omega

/-- After the first two tests of R56 the decoder gives a command of the opcode's row, unless FB's bit count is over 32. -/
theorem decodeParts_of_reservedZero {p : Nat} (h : i.ReservedZero p) :
    (∃ j, decodeParts i.opcode p = .ok j ∧ j.mnemonic = i.mnemonic)
      ∨ decodeParts i.opcode p = .error .bitCount ∧ 32 < p % 64 := by
  cases i with
  | brReadU n | brReadS n =>
    obtain hp | hp := Nat.lt_or_ge 32 p
    · exact .inr ⟨fieldsFB_eq_bitCount_iff.mpr ⟨hp, h⟩, (Nat.mod_eq_of_lt h).symm ▸ hp⟩
    · exact .inl ⟨_, fieldsFB_eq_ok_iff.mpr ⟨hp, rfl⟩, rfl⟩
  | cbDefine k | cbScalar k => exact .inl ⟨_, fieldsByte_eq_ok_iff.mpr ⟨h, rfl⟩, rfl⟩
  | synConfig e0 e1 =>
    exact .inl ⟨_, (fieldsByte_eq_ok_iff (f := fun b => .synConfig (b % 16) (b / 16))).mpr ⟨h, rfl⟩, rfl⟩
  | cbVector k acc => exact .inl ⟨_, fieldsFKV_eq_ok_iff.mpr ⟨h, rfl⟩, rfl⟩
  | resDefine r => exact .inl ⟨_, fieldsFR_eq_ok_iff.mpr ⟨h, rfl⟩, rfl⟩
  | resDecode r nvec => exact .inl ⟨_, fieldsFRD_eq_ok_iff.mpr ⟨h, rfl⟩, rfl⟩
  | synBlock w pw nw => exact .inl ⟨_, fieldsFSB_eq_ok_iff.mpr ⟨h, rfl⟩, rfl⟩
  | nop | softReset | cfgSeal | cfgReset | brStart | brReadF | brIlog | synReset | pcmClear =>
    exact .inl ⟨_, fieldsF0_eq_ok_iff.mpr ⟨Nat.lt_one_iff.mp h, rfl⟩, rfl⟩

/-- Only the two FB commands have an illegal bit count (R55 (c)). -/
theorem opcode_payload_of_bitCount {op p : Nat} (h : decodeParts op p = .error .bitCount) :
    (op = 0x11 ∨ op = 0x12) ∧ 32 < p ∧ p < 64 := by
  unfold decodeParts at h
  split at h
  case h_6 => exact ⟨.inl rfl, fieldsFB_eq_bitCount_iff.mp h⟩
  case h_7 => exact ⟨.inr rfl, fieldsFB_eq_bitCount_iff.mp h⟩
  case h_19 => cases h
  all_goals exact absurd h ite_reservedBits_ne_bitCount

theorem row_matches_of_decode (h : decode c = .ok i) : c &&& i.row.mask = i.row.pattern := by
  obtain ⟨hop, hpayload⟩ := opcode_payload_of_decodeParts h
  exact (row_matches_iff i c).mpr ⟨hop.symm, hpayload ▸ reservedZero_payload (Machine.wellFormed_of_decode h)⟩

end

/-- Settles O2: the table's rows are the commands' (`opcodeTable_eq_map_row`), and a row's match is the first two tests of
R56 (`row_matches_iff`). -/
theorem opcodeTableRowsMatchTheDecoder : Obligations.OpcodeTableRowsMatchTheDecoder := by
  intro c
  have hmod : c.toNat % 2 ^ 24 % 64 = c.toNat % 64 := Nat.mod_mod_of_dvd _ (by decide)
  refine ⟨fun i hd => ⟨i.row, row_mem_opcodeTable i, rfl, row_matches_of_decode hd⟩, fun hd => ?_,
    fun row hrow hmatch => ?_⟩
  · obtain ⟨hop, hlow, hhigh⟩ := opcode_payload_of_bitCount hd
    have hcount : 32 < c.toNat % 64 := by omega
    obtain hop | hop := hop
    · exact ⟨_, row_mem_opcodeTable (.brReadU 0), .inl rfl, (row_matches_iff _ c).mpr ⟨hop, hhigh⟩, hcount⟩
    · exact ⟨_, row_mem_opcodeTable (.brReadS 0), .inr rfl, (row_matches_iff _ c).mpr ⟨hop, hhigh⟩, hcount⟩
  · obtain ⟨i, rfl⟩ := exists_row_of_mem_opcodeTable hrow
    obtain ⟨hop, hzero⟩ := (row_matches_iff i c).mp hmatch
    rw [decode, hop, ← hmod]
    exact decodeParts_of_reservedZero hzero

/-- Settles O3: R57's examples are the words of their commands, and so are those of the test vectors; the illegal ones fail
a test of R56 each. -/
theorem workedWordsDecode : Obligations.WorkedWordsDecode :=
  ⟨decode_encode (i := .brReadU 5) rfl, decode_encode (i := .cbVector 3 true) rfl, decode_encode (i := .resDecode 0 2) rfl,
    decode_encode (i := .synConfig 6 8) rfl, decode_encode (i := .synBlock true true false) rfl,
    decode_encode (i := .resDecode 63 32) rfl, rfl, rfl, rfl⟩

end Sys2Proof
end

section
/-!
PROOFS. The bit reader's commands (41_bitreader.md rules R59 to R68): the packet BR_START begins, the fields BR_READS and
BR_READF read, the zero-width probe of the end, reads that run past it, BR_ILOG, and what the reading commands leave
unchanged.
-/

namespace Sys2Proof.Machine

/-- Settles O14: BR_START is one check of the length and one update. -/
theorem brStartBeginsAPacket : Obligations.BrStartBeginsAPacket := fun _ =>
  ⟨fun hfits => runCommand_of_ok (u := ()) (bind_raiseIf_false (decide_eq_false (Nat.not_lt.2 hfits))),
    fun hlong => raises_of_check rfl (decide_eq_true hlong)⟩

/-! Effects of reads only -/

section
variable {s u : State}

/-- What reads and then RESULT leave unchanged. -/
theorem setResult_reads_frame (hu : Reads s u) (v : Word) :
    setResult v u = { s with result := v, bitpos := u.bitpos, draws := u.draws } := by
  rw [hu.1]
  rfl

/-- What reads and then the error entry leave unchanged (R107). -/
theorem errorEntry_reads_frame (hu : Reads s u) (op : Byte) (reads : Bool) (start : Nat) (e : ErrorCode) :
    let t := errorEntry op reads start e u
    t = { s with err := true, errcode := e.code, errop := op, result := t.result, bitpos := t.bitpos, draws := t.draws } := by
  rw [hu.1]
  rfl

end

/-! BR_READS and BR_READF -/

section
variable {s t : State} {n v : Nat}

/-- BR_READS gives in RESULT the sign extension of what `ReadU` reads (R66). -/
theorem exec_brReadS_run (h : readU n s = .ok v t) : exec (.brReadS n) s = .next (setResult (signExtend32 n v) t) :=
  runCommand_of_ok (u := ()) (by rw [bind_of_ok h, modify_run])

/-- BR_READF gives in RESULT what `ReadVF` reads (R67). -/
theorem exec_brReadF_run {x : Word} (h : readVF s.params.f32 s = .ok x t) : exec .brReadF s = .next (setResult x t) :=
  runCommand_of_ok (u := ()) (by rw [bind_of_ok h, modify_run])

/-- `sext_32` of an n-bit value is its two's-complement value (R8, R62). -/
theorem signExtend32_eq_ofInt (hn : 1 ≤ n) (h32 : n ≤ 32) :
    signExtend32 n v = BitVec.ofInt 32 (if 2 ^ (n - 1) ≤ v then (v : Int) - 2 ^ n else v) := by
  unfold signExtend32
  by_cases hneg : 2 ^ (n - 1) ≤ v
  · rw [if_pos ⟨hn, hneg⟩, if_pos hneg]
    have hpow : 2 ^ n ≤ 2 ^ 32 := Nat.pow_le_pow_right (by omega) h32
    have hcast : (v : Int) - 2 ^ n = v - (2 ^ n : Nat) := by push_cast; rfl
    rw [hcast]
    generalize 2 ^ n = p at hpow
    apply BitVec.eq_of_toNat_eq
    rw [BitVec.toNat_ofNat, BitVec.toNat_ofInt]
    omega
  · rw [if_neg fun h => hneg h.2, if_neg hneg, BitVec.ofInt_natCast]

end

/-- Settles O21: `ReadU` reads the bits its value spells, and `sext_32` gives their signed value. -/
theorem brReadSReadsASignedField : Obligations.BrReadSReadsASignedField := by
  intro s n v hn h32 hv hs
  rw [exec_brReadS_run ((spells_readU hn hv).yields s hs), length_fieldBits, signExtend32_eq_ofInt hn h32]
  rfl

/-- Settles O24: `ReadVF` gives the vendor float of the bits it reads. -/
theorem brReadFReadsAVendorFloat : Obligations.BrReadFReadsAVendorFloat := by
  intro s x hx hs
  rw [exec_brReadF_run ((spells_readVF s.params.f32 hx).yields s hs), length_fieldBits]
  rfl

/-! The end of the packet -/

section
variable {s : State}

/-- `at_end()` by the reading ALL_CONSUMED (R59). -/
theorem atEnd_allConsumed (h : s.params.eobProbe = .allConsumed) : atEnd s = true ↔ s.bitpos = 8 * s.pktlen := by
  rw [atEnd, h, decide_eq_true_eq]

/-- `at_end()` by the reading LAST_BYTE_FETCHED (R59). -/
theorem atEnd_lastByteFetched (h : s.params.eobProbe = .lastByteFetched) :
    atEnd s = true ↔ s.pktlen = 0 ∨ 8 * (s.pktlen - 1) < s.bitpos := by
  rw [atEnd, h, decide_eq_true_eq]

/-- `ReadU(0)` reads no bit (R61). -/
theorem readU_zero_run (h : ¬ atEnd s = true) : readU 0 s = .ok 0 s := by
  rw [readU, bind_of_ok (get_run s), bind_raiseIf_false (by simpa using h)]
  rfl

theorem readU_zero_atEnd (h : atEnd s = true) : readU 0 s = .error (.raise .eob) s := by
  rw [readU, bind_of_ok (get_run s), bind_raiseIf_true (by simpa using h)]

/-- Both commands with n = 0, by `at_end()`. -/
theorem zeroWidthRead_atEnd {i : Instr} (hi : i = .brReadU 0 ∨ i = .brReadS 0) :
    (¬ atEnd s = true → exec i s = .next { s with result := 0 }) ∧ (atEnd s = true → Raises i .eob s) := by
  obtain rfl | rfl := hi
  · exact ⟨fun h => exec_brReadU_run (readU_zero_run h), fun h => raises_of_stop rfl (bind_of_error (readU_zero_atEnd h))⟩
  · exact ⟨fun h => exec_brReadS_run (readU_zero_run h), fun h => raises_of_stop rfl (bind_of_error (readU_zero_atEnd h))⟩

end

/-- Settles O22: `ReadU(0)` tests `at_end()` only, which is the end by the reading EOB_PROBE chooses. -/
theorem zeroWidthReadProbesTheEnd : Obligations.ZeroWidthReadProbesTheEnd := by
  intro s i hi ended
  have hended : atEnd s = true ↔ ended := by
    cases hprobe : s.params.eobProbe with
    | allConsumed => simpa only [ended, hprobe] using atEnd_allConsumed hprobe
    | lastByteFetched => simpa only [ended, hprobe] using atEnd_lastByteFetched hprobe
  rw [← hended]
  exact zeroWidthRead_atEnd hi

/-! Reads past the end -/

section
variable {i : Instr} {e : ErrorCode} {c : Cmd Unit} {s u : State} {n : Nat}

/-- A bit inside a written packet is read (R60). -/
theorem readBit_written (hw : PacketWritten s) (hlt : s.bitpos < 8 * s.pktlen) :
    ∃ b d, readBit s = .ok b { s with bitpos := s.bitpos + 1, draws := d } := by
  obtain ⟨now, hnow⟩ := Option.isSome_iff_exists.1 (hw (s.bitpos / 8) (by omega))
  obtain ⟨b, d, hbit, -⟩ := packetBit_written hnow
  refine ⟨b, d, ?_⟩
  rw [readBit, bind_of_ok (get_run s), bind_raiseIf_false (decide_eq_false (by omega)), bind_of_ok hbit]
  rfl

/-- R61: with fewer than n bits left, the loop comes to the packet's end before the last of its n bits. -/
theorem readBits_short (hw : PacketWritten s) (hin : s.bitpos ≤ 8 * s.pktlen) (hshort : 8 * s.pktlen < s.bitpos + n) :
    ∃ u, readBits n s = .error (.raise .eob) u := by
  induction n generalizing s with
  | zero => omega
  | succ n ih =>
    rcases Nat.lt_or_ge s.bitpos (8 * s.pktlen) with hlt | hend
    · obtain ⟨b, d, hbit⟩ := readBit_written hw hlt
      obtain ⟨u, hrest⟩ := ih (s := { s with bitpos := s.bitpos + 1, draws := d }) hw hlt
        (show 8 * s.pktlen < s.bitpos + 1 + n by omega)
      exact ⟨u, by rw [readBits, bind_of_ok hbit, bind_of_error hrest]⟩
    · exact ⟨s, bind_of_error (readBit_eob hend)⟩

/-- A command that raises after reads of the packet raises with the effects of R107 only. -/
theorem raises_of_reads (hi : exec i s = runCommand i c s) (hr : readsBits i = true) (hu : Reads s u)
    (h : c s = .error (.raise e) u) : Raises i e s := by
  have hlen : u.pktlen = s.pktlen := by rw [hu.1]
  refine ⟨_, hi.trans (runCommand_of_raise h), errorEntry_reads_frame hu _ _ _ e, fun hno => ?_, fun hb => ?_⟩
  · rw [hr] at hno
    cases hno
  · rw [errorEntry_bitpos, if_pos hr, hlen]
    have := Nat.mod_lt (Config.freeNat (u.draws + 1)) (Nat.add_one_pos (8 * s.pktlen - s.bitpos))
    omega

end

/-- Settles O23: the three commands raise what their field's read raises. -/
theorem shortReadRaisesEob : Obligations.ShortReadRaisesEob := by
  intro s n hn _ hin hw hshort
  obtain ⟨u, hbits⟩ := readBits_short hw hin hshort
  have hread : readU n s = .error (.raise .eob) u := by rw [readU_pos hn, hbits]
  have hu : Reads s u := (keeps_readU n).error hread
  refine ⟨raises_of_reads rfl rfl hu (bind_of_error hread), raises_of_reads rfl rfl hu (bind_of_error hread), fun h => ?_⟩
  subst h
  exact raises_of_reads rfl rfl hu (bind_of_error (bind_of_error hread))

/-! BR_ILOG -/

/-- BR_ILOG (R68). -/
theorem exec_brIlog_run (s : State) : exec .brIlog s = .next (setResult (BitVec.ofNat 32 (ilog s.arg0.toNat)) s) := rfl

theorem ilog_le_of_lt {v n : Nat} (h : v < 2 ^ n) : ilog v ≤ n := by
  obtain rfl | hv := Nat.eq_zero_or_pos v
  · exact Nat.zero_le n
  · have := (Nat.pow_lt_pow_iff_right (by omega)).1 ((two_pow_le_of_ilog hv.ne').1.trans_lt h)
    omega

theorem two_pow_ilog_sub_one_le {v : Nat} (h : 0 < ilog v) : 2 ^ (ilog v - 1) ≤ v :=
  (two_pow_le_of_ilog fun hv => by rw [hv] at h; exact absurd h (Nat.lt_irrefl 0)).1

/-- Settles O26: the number is `ilog` of ARG0, which fits ARG0's 32 bits. -/
theorem brIlogGivesTheBitsNeeded : Obligations.BrIlogGivesTheBitsNeeded := fun s =>
  ⟨ilog s.arg0.toNat, exec_brIlog_run s, ilog_le_of_lt s.arg0.isLt, lt_two_pow_ilog _, two_pow_ilog_sub_one_le⟩

/-! The frame -/

/-- Settles O52: a reading command ends with RESULT or with the error entry, after reads (`exec_reading_next`). -/
theorem frameOfReadingCommands : Obligations.FrameOfReadingCommands := by
  refine fun s t i => ⟨fun hi h => ?_, fun h => ?_⟩
  · obtain ⟨u, hu, ⟨v, rfl⟩ | ⟨e, rfl⟩⟩ := exec_reading_next hi h
    · rw [setResult_reads_frame hu]
    · exact errorEntry_reads_frame hu _ _ _ e
  · rw [exec_brIlog_run] at h
    cases h
    rfl

end Sys2Proof.Machine
end

section
/-!
PROOFS. Codewords (42_codebook.md rules R69, R70, R77, R78): the root `lookup1_values` finds, where an insertion puts its
leaf, the code that insertions build, and the vector CB_VECTOR stores.
-/

namespace Sys2Proof.Machine

/-! lookup1_values -/

/-- The search keeps r a root of at most `count`, and ends where r + 1 is none: each round halves the room above r. -/
theorem lookup1Search_spec {count dim : Nat} (bits : Nat) {r : Nat} (hr : r ^ dim ≤ count)
    (hroom : count < (r + 2 ^ bits) ^ dim) :
    lookup1Search count dim bits r ^ dim ≤ count ∧ count < (lookup1Search count dim bits r + 1) ^ dim := by
  induction bits generalizing r with
  | zero => exact ⟨hr, hroom⟩
  | succ bits ih =>
    rw [lookup1Search]
    by_cases hle : (r + 2 ^ bits) ^ dim ≤ count
    · rw [if_pos hle]
      refine ih hle ?_
      rwa [Nat.add_assoc, ← Nat.two_mul, ← Nat.pow_succ']
    · rw [if_neg hle]
      exact ih hr (Nat.lt_of_not_le hle)

/-- Settles O30: the search starts at 0, with the room 2^ilog(E) above it. -/
theorem lookup1ValuesIsTheLargestRoot : Obligations.Lookup1ValuesIsTheLargestRoot := by
  intro count dim hdim
  have hroom : count < (0 + 2 ^ ilog count) ^ dim := by
    rw [Nat.zero_add]
    exact (lt_two_pow_ilog count).trans_le (Nat.le_self_pow (by omega) _)
  obtain ⟨hle, hlt⟩ := lookup1Search_spec (ilog count) (by rw [Nat.zero_pow hdim]; exact Nat.zero_le count) hroom
  exact ⟨hle, fun r hr => Nat.le_of_lt_succ (lt_of_pow_lt_pow_left₀ dim (Nat.zero_le _) (hr.trans_lt hlt))⟩

/-! Insertions -/

/-- `t'` is `t` with a leaf for `sym` at p, the lowest free path of length n, and with all of its leaves (R70). -/
structure PlacedAt (t t' : Tree) (sym n : Nat) (p : List Bool) : Prop where
  length : p.length = n
  free : pathFree t p
  lowest : ∀ q : List Bool, q.length = n → pathFree t q → pathNumber p ≤ pathNumber q
  leaves : ∀ (q : List Bool) (x : Nat),
    t'.nodeAt q = some (.leaf x) ↔ t.nodeAt q = some (.leaf x) ∨ (q = p ∧ x = sym)

section
variable {a b a' b' : Tree} {sym n : Nat} {p q : List Bool}

theorem pathNumber_cons_le_cons (x : Bool) (hlen : p.length = q.length) (h : pathNumber p ≤ pathNumber q) :
    pathNumber (x :: p) ≤ pathNumber (x :: q) := by
  rw [pathNumber_cons, pathNumber_cons, hlen]
  exact Nat.add_le_add_left h _

theorem pathNumber_child0_le_child1 (hlen : p.length = q.length) : pathNumber (false :: p) ≤ pathNumber (true :: q) := by
  have hlt := pathNumber_lt p
  rw [pathNumber_cons, pathNumber_cons]
  rw [hlen] at hlt
  simp only [bit, Bool.toNat_true, Bool.toNat_false]
  omega

/-- Below an empty child every path is free, and the chain takes the one of zeros. -/
theorem PlacedAt.chain (sym n : Nat) : PlacedAt .empty (chain sym n) sym n (List.replicate n false) where
  length := List.length_replicate
  free := pathFree_empty _
  lowest q _ _ := by rw [pathNumber_zeros]; exact Nat.zero_le _
  leaves q x := by rw [nodeAt_chain]; simp [Tree.empty_nodeAt_ne_leaf]

/-- A leaf placed below child 0 lies below every path through child 1. -/
theorem PlacedAt.child0 (h : PlacedAt a a' sym n p) : PlacedAt (.inner a b) (.inner a' b) sym (n + 1) (false :: p) where
  length := by rw [List.length_cons, h.length]
  free := by rw [pathFree_cons]; exact h.free
  lowest q hq hfree := by
    obtain ⟨x, q, rfl⟩ := List.exists_cons_of_length_eq_add_one hq
    have hlen : q.length = n := by simpa using hq
    rw [pathFree_cons] at hfree
    cases x with
    | false => exact pathNumber_cons_le_cons _ (h.length.trans hlen.symm) (h.lowest q hlen hfree)
    | true => exact pathNumber_child0_le_child1 (h.length.trans hlen.symm)
  leaves q x := by
    cases q with
    | nil => simp
    | cons y q => cases y <;> simp [h.leaves]

/-- A leaf placed below child 1 is the lowest when no path through child 0 is free. -/
theorem PlacedAt.child1 (h : PlacedAt b b' sym n p) (hfull : ∀ q : List Bool, q.length = n → ¬ pathFree a q) :
    PlacedAt (.inner a b) (.inner a b') sym (n + 1) (true :: p) where
  length := by rw [List.length_cons, h.length]
  free := by rw [pathFree_cons]; exact h.free
  lowest q hq hfree := by
    obtain ⟨x, q, rfl⟩ := List.exists_cons_of_length_eq_add_one hq
    have hlen : q.length = n := by simpa using hq
    rw [pathFree_cons] at hfree
    cases x with
    | false => exact absurd hfree (hfull q hlen)
    | true => exact pathNumber_cons_le_cons _ (h.length.trans hlen.symm) (h.lowest q hlen hfree)
  leaves q x := by
    cases q with
    | nil => simp
    | cons y q => cases y <;> simp [h.leaves]

/-- At an inner node, `placeChild` tries child 0 and, where that fails, child 1 (R70). -/
theorem placeChild_inner (sym : Nat) (a b : Tree) (n : Nat) :
    placeChild sym (.inner a b) (n + 1 + 1) =
      ((placeChild sym a (n + 1)).map (.inner · b)).or ((placeChild sym b (n + 1)).map (.inner a ·)) := by
  rw [placeChild, if_pos (by omega), Nat.add_sub_cancel]
  cases placeChild sym a (n + 1) <;> rfl

end

/-- R70: `placeChild` fails exactly where no path is free, and else takes the lowest. -/
theorem placeChild_spec (sym : Nat) (t : Tree) (n : Nat) :
    (∃ t' p, placeChild sym t (n + 1) = some t' ∧ PlacedAt t t' sym n p)
      ∨ (placeChild sym t (n + 1) = none ∧ ∀ q : List Bool, q.length = n → ¬ pathFree t q) := by
  induction t generalizing n with
  | empty => exact .inl ⟨_, _, rfl, .chain sym n⟩
  | leaf x => exact .inr ⟨rfl, fun q _ => not_pathFree_leaf x q⟩
  | inner a b iha ihb =>
    cases n with
    | zero =>
      refine .inr ⟨rfl, fun q hq => ?_⟩
      rw [List.length_eq_zero_iff.1 hq]
      exact not_pathFree_inner_nil a b
    | succ n =>
      rw [placeChild_inner]
      obtain ⟨a', p, hrun, hp⟩ | ⟨hrun, hfull⟩ := iha n
      · exact .inl ⟨_, _, by rw [hrun]; rfl, hp.child0⟩
      · obtain ⟨b', p, hrun', hp⟩ | ⟨hrun', hfull'⟩ := ihb n
        · exact .inl ⟨_, _, by rw [hrun, hrun']; rfl, hp.child1 hfull⟩
        · refine .inr ⟨by rw [hrun, hrun']; rfl, fun q hq hfree => ?_⟩
          obtain ⟨x, q, rfl⟩ := List.exists_cons_of_length_eq_add_one hq
          rw [pathFree_cons] at hfree
          cases x with
          | false => exact hfull q (by simpa using hq) hfree
          | true => exact hfull' q (by simpa using hq) hfree

/-- Settles O31: the insertion at an inner root is a `placeChild` one level up. -/
theorem insertTakesTheLeftmostFreePath : Obligations.InsertTakesTheLeftmostFreePath := by
  intro a b sym len hlen
  rw [insertCodeword_eq a b sym len hlen]
  obtain ⟨t', p, hrun, hp⟩ | ⟨hrun, hfull⟩ := placeChild_spec sym (.inner a b) len
  · rw [hrun]
    refine ⟨fun t ht => ?_, nofun⟩
    cases ht
    exact ⟨p, hp.length, hp.free, hp.lowest, hp.leaves⟩
  · rw [hrun]
    exact ⟨nofun, fun _ => hfull⟩

/-! The code of a list of lengths -/

/-- The leaves of `t` are the used entries of `lens`, each at one path, of its length (R78). -/
structure CodeOf (lens : List (Option Nat)) (t : Tree) : Prop where
  codeword : ∀ i l, lens[i]? = some (some l) → ∃ p : List Bool, p.length = l ∧ t.nodeAt p = some (.leaf i)
  entry : ∀ (p : List Bool) (i : Nat), t.nodeAt p = some (.leaf i) → lens[i]? = some (some p.length)
  unique : ∀ (p q : List Bool) (i : Nat), t.nodeAt p = some (.leaf i) → t.nodeAt q = some (.leaf i) → p = q

section
variable {done rest : List (Option Nat)} {t t' : Tree} {len sym : Nat}

/-- An insertion that succeeds was at an inner root, at the lowest free path. -/
theorem placedAt_of_insertCodeword (hlen : 1 ≤ len) (h : insertCodeword t sym len = some t') :
    ∃ p, PlacedAt t t' sym len p := by
  cases t with
  | empty => cases h
  | leaf x => cases h
  | inner a b =>
    obtain ⟨p, hl, hf, hlow, hleaves⟩ := (insertTakesTheLeftmostFreePath a b sym len hlen).1 t' h
    exact ⟨p, hl, hf, hlow, hleaves⟩

theorem CodeOf.nil : CodeOf [] (.inner .empty .empty) := by
  have hnone : ∀ (p : List Bool) (i : Nat), (Tree.inner .empty .empty).nodeAt p ≠ some (.leaf i) := by
    intro p i
    cases p with
    | nil => simp
    | cons b p => simp [Tree.empty_nodeAt_ne_leaf]
  exact ⟨nofun, fun p i h => absurd h (hnone p i), fun p q i h => absurd h (hnone p i)⟩

/-- The used entries of a list with one more length. -/
theorem getElem?_concat_used (done : List (Option Nat)) (o : Option Nat) (i l : Nat) :
    (done ++ [o])[i]? = some (some l) ↔ done[i]? = some (some l) ∨ (i = done.length ∧ o = some l) := by
  rw [List.getElem?_append]
  split
  · simp; omega
  · rename_i h
    rw [List.getElem?_eq_none (by omega : done.length ≤ i), List.getElem?_singleton]
    by_cases hi : i = done.length
    · simp [hi]
    · simp [hi]; omega

/-- An UNUSED entry has no codeword. -/
theorem CodeOf.concat_unused (h : CodeOf done t) : CodeOf (done ++ [none]) t where
  codeword i l hi := h.codeword i l (by simpa [getElem?_concat_used] using hi)
  entry p i hp := (getElem?_concat_used done none i _).2 (.inl (h.entry p i hp))
  unique := h.unique

/-- An insertion gives the next entry its codeword. -/
theorem CodeOf.concat_used (h : CodeOf done t) (hlen : 1 ≤ len) (hins : insertCodeword t done.length len = some t') :
    CodeOf (done ++ [some len]) t' := by
  obtain ⟨p, hp⟩ := placedAt_of_insertCodeword hlen hins
  have hnew : ∀ q : List Bool, t.nodeAt q ≠ some (.leaf done.length) := fun q hq => by
    have := h.entry q _ hq
    simp at this
  refine ⟨fun i l hi => ?_, fun q i hq => ?_, fun q r i hq hr => ?_⟩
  · rw [getElem?_concat_used] at hi
    obtain hi | ⟨rfl, hl⟩ := hi
    · obtain ⟨q, hq, hleaf⟩ := h.codeword i l hi
      exact ⟨q, hq, (hp.leaves q i).2 (.inl hleaf)⟩
    · cases hl
      exact ⟨p, hp.length, (hp.leaves p _).2 (.inr ⟨rfl, rfl⟩)⟩
  · rw [getElem?_concat_used]
    obtain hq | ⟨rfl, rfl⟩ := (hp.leaves q i).1 hq
    · exact .inl (h.entry q i hq)
    · exact .inr ⟨rfl, by rw [hp.length]⟩
  · obtain hq | ⟨rfl, rfl⟩ := (hp.leaves q i).1 hq <;> obtain hr | ⟨rfl, hi⟩ := (hp.leaves r _).1 hr
    · exact h.unique q r i hq hr
    · exact absurd (hi ▸ hq) (hnew q)
    · exact absurd hr (hnew r)
    · rfl

/-- R75: the insertions of the entries after `done` extend its code to theirs. -/
theorem codeOf_insertLengths (rest : List (Option Nat)) : ∀ {done : List (Option Nat)} {t t' : Tree}, CodeOf done t →
    (∀ l, some l ∈ rest → 1 ≤ l) → insertLengths t done.length rest = some t' → CodeOf (done ++ rest) t' := by
  induction rest with
  | nil =>
    intro done t t' h _ hins
    cases hins
    rwa [List.append_nil]
  | cons o rest ih =>
    intro done t t' h hpos hins
    have hrest : ∀ l, some l ∈ rest → 1 ≤ l := fun l hl => hpos l (List.mem_cons_of_mem _ hl)
    have happend : done ++ o :: rest = done ++ [o] ++ rest := by simp
    rw [happend]
    cases o with
    | none => exact ih h.concat_unused hrest (by simpa [insertLengths] using hins)
    | some len =>
      rw [insertLengths] at hins
      cases hc : insertCodeword t done.length len with
      | none => rw [hc] at hins; cases hins
      | some t1 =>
        rw [hc] at hins
        exact ih (h.concat_used (hpos len List.mem_cons_self) hc) hrest (by simpa using hins)

end

/-- Settles O32: the tree is the code of its lengths (`CodeOf`), and no path goes on below a leaf. -/
theorem codewordsAreAPrefixCode : Obligations.CodewordsAreAPrefixCode := by
  intro lens t hpos hbuild
  have hcode : CodeOf lens t := codeOf_insertLengths lens .nil hpos hbuild
  refine ⟨hcode.codeword, hcode.entry, fun p q i j hp hq => ⟨fun hpre => ?_, fun hij => ?_⟩⟩
  · obtain ⟨r, rfl⟩ := hpre
    rw [Tree.nodeAt_append_leaf hp hq, List.append_nil]
  · subst hij
    exact hcode.unique p q i hp hq

/-! CB_VECTOR -/

section
variable {s : State} {k e : Nat} {c : Codebook} {l : Lookup} {p : List Bool}

/-- The words CB_VECTOR stores at ARG0 for an entry's values (R77). -/
def storedVector (s : State) (acc : Bool) (old row : List Word) : List Word :=
  if acc then List.zipWith s.params.f32.add old row else row

/-- CB_VECTOR on the bits of a codeword (R74, R77): it stores the entry's values, or their sums with what was there. -/
theorem exec_cbVector_run {acc : Bool} (hsealed : s.cfgState = .sealed) (hk : k < s.cbCount)
    (hc : s.cb.find k = some c) (hl : c.lookup = some l) (hroom : s.arg0.toNat + c.dim ≤ s.params.vecWords)
    (hs : packetHas s p = true) (hleaf : c.tree.nodeAt p = some (.leaf e)) {old : List Word}
    (hold : acc = true → vecReadBlock s.arg0.toNat c.dim (advance s p.length) = .ok old (advance s p.length)) :
    exec (.cbVector k acc) s = .next (setResult (BitVec.ofNat 32 e)
      (storeVec (advance s p.length) s.arg0.toNat (storedVector s acc old (entryVector c l e)))) := by
  have hlook : c.lookup.isNone = false := by rw [hl]; rfl
  have hfits : decide (s.params.vecWords < arg0Nat s + c.dim) = false := decide_eq_false (Nat.not_lt.2 hroom)
  refine runCommand_of_ok (u := ()) ?_
  rw [bind_of_ok (decodeGate_run hsealed hk), bind_of_ok (codebookAt_find hc), bind_raiseIf_false hlook,
    bind_raiseIf_false hfits, bind_of_ok (vectorDecode_run hc hl hs hleaf)]
  cases acc with
  | false => rfl
  | true =>
    have hread : vecReadBlock (arg0Nat s) (entryVector c l e).length (advance s p.length)
        = .ok old (advance s p.length) := by rw [length_entryVector]; exact hold rfl
    exact bind_of_ok hread

end

/-- Settles O34: the words of the region are the ones stored, one per value, and a store keeps every other word. -/
theorem cbVectorWritesOrAccumulates : Obligations.CbVectorWritesOrAccumulates := by
  intro s k acc c l p e row hsealed hk hc hl hroom hs hleaf hrow hlen hw
  obtain ⟨old, hold⟩ : ∃ old : List Word, acc = true →
      vecReadBlock s.arg0.toNat c.dim (advance s p.length) = .ok old (advance s p.length) ∧ old.length = c.dim
        ∧ ∀ d, d < c.dim → s.vec.find (s.arg0.toNat + d) = old[d]? := by
    cases acc with
    | false => exact ⟨[], nofun⟩
    | true =>
      obtain ⟨old, hread⟩ := vecReadBlock_ok (s := advance s p.length) (hw rfl)
      exact ⟨old, fun _ => hread⟩
  have hrun := exec_cbVector_run hsealed hk hc hl hroom hs hleaf fun hacc => (hold hacc).1
  rw [entryVector_eq hrow hlen] at hrun
  have hstored : (storedVector s acc old row).length = c.dim := by
    cases acc with
    | false => exact hlen
    | true =>
      obtain ⟨-, holdlen, -⟩ := hold rfl
      simp [storedVector, holdlen, hlen]
  refine ⟨_, hrun, rfl, fun d x hx => ?_, fun w hout => ?_⟩
  · have hd : d < c.dim := hlen ▸ (List.getElem?_eq_some_iff.1 hx).1
    rw [setResult_vec, storeVec_vec, Sparse.find_store, hstored, if_pos (by omega), Nat.add_sub_cancel_left]
    cases acc with
    | false => exact hx
    | true =>
      obtain ⟨-, -, hfind⟩ := hold rfl
      rw [hfind d hd, if_pos rfl, storedVector, if_pos rfl, List.getElem?_zipWith, hx]
      cases old[d]? <;> rfl
  · rw [setResult_vec, storeVec_vec, Sparse.find_store, hstored, if_neg (by omega), advance_vec]

end Sys2Proof.Machine
end

section
/-!
PROOFS. CB_DEFINE (42_codebook.md rules R72, R75; 60_exceptions.md R108): it reads back the bits of a header, and what it
refuses, rule by rule in the order of the parse.
-/

namespace Sys2Proof.Machine

variable {α β : Type}

/-! Parses that look at the state -/

/-- `Spells` at one state, for a parser whose checks look at more of the state than the packet. -/
structure SpellsAt (s : State) (c : Cmd α) (bits : List Bool) (a : α) : Prop where
  yields : packetHas s bits = true → c s = .ok a (advance s bits.length)
  cuts : ∀ p, p <+: bits → p ≠ bits → packetHas s p = true → s.bitpos + p.length = 8 * s.pktlen →
    c s = .error (.raise .eob) (advance s p.length)

section
variable {s : State} {c d : Cmd α} {f : α → Cmd β} {b1 b2 : List Bool} {a : α} {r : β}

theorem Spells.atState (h : Spells c b1 a) (s : State) : SpellsAt s c b1 a := ⟨h.yields s, h.cuts s⟩

/-- Only what the parser does at this state counts. -/
theorem SpellsAt.congr (h : SpellsAt s d b1 a) (hcd : c s = d s) : SpellsAt s c b1 a :=
  ⟨fun hs => hcd.trans (h.yields hs), fun p hp hn hs he => hcd.trans (h.cuts p hp hn hs he)⟩

theorem SpellsAt.bind (h1 : SpellsAt s c b1 a) (h2 : SpellsAt (advance s b1.length) (f a) b2 r) :
    SpellsAt s (c >>= f) (b1 ++ b2) r where
  yields hs := by
    rw [packetHas_append] at hs
    rw [bind_of_ok (h1.yields hs.1), h2.yields hs.2, advance_advance, List.length_append]
  cuts p hp hn hs he := by
    obtain ⟨hpre, hne⟩ | ⟨q, rfl, hq⟩ := prefix_append_cases hp
    · exact bind_of_error (h1.cuts p hpre hne hs he)
    · rw [packetHas_append] at hs
      rw [List.length_append] at he
      have hcut := h2.cuts q hq (fun e => hn (by rw [e])) hs.2 (by simp only [advance_bitpos, advance_pktlen]; omega)
      rw [bind_of_ok (h1.yields hs.1), hcut, advance_advance, List.length_append]

end

/-! The parts of the parse -/

/-- The parse of `CB_DEFINE` (R75) up to D and E. -/
def readStart : Cmd (Nat × Nat) := do
  let sync ← readU 24
  raiseIf (decide (sync ≠ 0x564342)) .badSync
  let dim ← readU 16
  let count ← readU 24
  pure (dim, count)

/-- The parse of `CB_DEFINE` (R75) up to the codeword lengths: D, E and the lengths. -/
def readFront : Cmd (Nat × Nat × List (Option Nat)) := do
  let (dim, count) ← readStart
  let len ← readLengths count
  pure (dim, count, len)

/-- The parse of `CB_DEFINE` (R75) after its insertions. -/
def readTables (k dim count : Nat) (len : List (Option Nat)) (tree : Tree) : Cmd Codebook := do
  let s ← get
  raiseIf (decide (s.params.nodeCap < nodesUsed s - slotNodes s k + tree.nodes)) .noSpace
  let t ← readU 4
  let lookup ← readLookup k t dim count
  pure { dim, count, len, tree, lookup }

theorem parseCodebook_eq (k : Nat) : parseCodebook k = readFront >>= fun h =>
    (buildTree h.2.2).elim (raise .insert) (readTables k h.1 h.2.1 h.2.2) := by
  simp only [parseCodebook, readFront, readStart, bind_assoc, pure_bind]
  congr; funext sync; congr; funext _; congr; funext dim; congr; funext count; congr; funext len
  cases buildTree len <;> rfl

/-- The bits up to D and E (R75). -/
def startBits (dim count : Nat) : List Bool := fieldBits 24 0x564342 ++ fieldBits 16 dim ++ fieldBits 24 count

section
variable {dim count : Nat} {f : LengthFields}

theorem spells_readStart (hd : dim < 2 ^ 16) (hc : count < 2 ^ 24) :
    Spells readStart (startBits dim count) (dim, count) :=
  (Spells.bind (spells_readU (n := 24) (v := 0x564342) (by omega) (by omega)) (Spells.raiseIf_bind rfl
    (Spells.bind (spells_readU (n := 16) (by omega) hd) (Spells.map (fun count => (dim, count))
      (spells_readU (n := 24) (by omega) hc))))).cast (List.append_assoc _ _ _).symm rfl

/-- The front of a header is read back (R72, R75). -/
theorem spells_readFront (hd : dim < 2 ^ 16) (hc : count < 2 ^ 24) (hf : f.wellFormed count = true) :
    Spells readFront (startBits dim count ++ f.bits count) (dim, count, f.lengths) :=
  Spells.bind (spells_readStart hd hc) (Spells.map (fun len => (dim, count, len)) (spells_readLengths hf))

theorem readLookup_kind (k : Nat) (kind : LookupKind) (dim count : Nat) :
    readLookup k kind.number dim count = readTable k kind dim count := by cases kind <;> rfl

end

/-! Whole headers -/

section
variable {s : State} {k : Nat} {h : CodebookHeader} {tree : Tree}

/-- The record the header of a table part gives (R73, R75), where the parameters allow it. -/
theorem spellsAt_readLookup (hw : h.wellFormed = true) (hfits : h.fits tree k s = true) :
    SpellsAt s (readLookup k (h.table.elim 0 fun t => t.kind.number) h.dim h.count) (h.table.elim [] TableFields.bits)
      (h.lookup s.params.f32) := by
  obtain ⟨dim, count, lengths, table⟩ := h
  cases table with
  | none => exact (Spells.pure none).atState s
  | some t =>
    simp only [CodebookHeader.wellFormed, CodebookHeader.fits, Bool.and_eq_true, decide_eq_true_eq, List.all_eq_true]
      at hw hfits
    obtain ⟨_, ⟨hdim, hmin, hdelta, hv1, hv16, hlen⟩, hmult⟩ := hw
    obtain ⟨_, hvals, hkind⟩ := hfits
    refine ((spells_readTableFields s.params.f32 hmin hdelta hv1 hv16 hlen hmult).atState s).congr ?_
    exact (congrFun (readLookup_kind k t.kind dim count) s).trans (readTable_eq hdim hvals hkind)

theorem tableBits_eq (o : Option TableFields) :
    tableBits o = fieldBits 4 (o.elim 0 fun t => t.kind.number) ++ o.elim [] TableFields.bits := by
  cases o with
  | none => rfl
  | some t => simp [tableBits, TableFields.bits]

theorem LookupKind.number_lt (kind : LookupKind) : kind.number < 2 ^ 4 := by cases kind <;> decide

theorem fits_advance (n : Nat) : h.fits tree k (advance s n) = h.fits tree k s := rfl

/-- The part of a header after its lengths is read back, where the tables fit (R75). -/
theorem spellsAt_readTables (hw : h.wellFormed = true) (hfits : h.fits tree k s = true) :
    SpellsAt s (readTables k h.dim h.count h.lengths.lengths tree) (tableBits h.table) (h.record s.params.f32 tree) := by
  have hnodes : nodesUsed s - slotNodes s k + tree.nodes ≤ s.params.nodeCap := by
    simp only [CodebookHeader.fits, Bool.and_eq_true, decide_eq_true_eq] at hfits
    exact hfits.1
  have htype : (h.table.elim 0 fun t => t.kind.number) < 2 ^ 4 := by
    cases h.table with
    | none => decide
    | some t => exact t.kind.number_lt
  rw [tableBits_eq]
  have htail := (spellsAt_readLookup hw ((fits_advance 4).trans hfits)).bind
    (f := fun lookup => (pure ⟨h.dim, h.count, h.lengths.lengths, tree, lookup⟩ : Cmd Codebook)) ((Spells.pure _).atState _)
  rw [List.append_nil] at htail
  have hfield := (spells_readU (by omega) htype).atState s
  refine (hfield.bind (f := fun t => readLookup k t h.dim h.count >>= fun lookup =>
    pure ⟨h.dim, h.count, h.lengths.lengths, tree, lookup⟩) (by rw [length_fieldBits]; exact htail)).congr ?_
  rw [readTables, bind_of_ok (get_run s), bind_raiseIf_false (decide_eq_false (Nat.not_lt.2 hnodes))]

theorem wellFormed_front (hw : h.wellFormed = true) :
    h.dim < 2 ^ 16 ∧ h.count < 2 ^ 24 ∧ h.lengths.wellFormed h.count = true := by
  simp only [CodebookHeader.wellFormed, Bool.and_eq_true, decide_eq_true_eq] at hw
  exact ⟨hw.1.1.1, hw.1.1.2, hw.1.2⟩

/-- R75: the parse reads back the bits of a header whose lengths insert and whose tables fit. -/
theorem spellsAt_parseCodebook (hw : h.wellFormed = true) (hb : buildTree h.lengths.lengths = some tree)
    (hfits : h.fits tree k s = true) : SpellsAt s (parseCodebook k) h.bits (h.record s.params.f32 tree) := by
  obtain ⟨hd, hc, hl⟩ := wellFormed_front hw
  rw [parseCodebook_eq]
  refine ((spells_readFront hd hc hl).atState s).bind ?_
  rw [hb]
  exact spellsAt_readTables hw hfits

/-- CB_DEFINE whose parse gives a record stores it in its slot (R75). -/
theorem exec_cbDefine_run {c : Codebook} {u : State} (ho : s.cfgState = .opened) (hp : parseCodebook k s = .ok c u) :
    exec (.cbDefine k) s = .next (setResult (BitVec.ofNat 32 c.count) { u with cb := u.cb.store k [c] }) := by
  refine runCommand_of_ok (u := ()) ?_
  have hparse : onRaise (dropCodebook k) (parseCodebook k) s = .ok c u := by rw [onRaise_run, hp]
  rw [bind_raiseIf_false (by simp [ho]), bind_of_ok hparse, modify_run]

end

/-- Settles O37: the parse gives the header's record and stands after its bits. -/
theorem cbDefineParsesTheHeader : Obligations.CbDefineParsesTheHeader := by
  intro s k h tree ho hw hb hfits hs
  rw [exec_cbDefine_run ho ((spellsAt_parseCodebook hw hb hfits).yields hs)]
  rfl

/-! Refusals -/

section
variable {s u : State} {k dim count ty : Nat} {e : ErrorCode} {f : LengthFields} {tree : Tree}

/-- CB_DEFINE raises e with the effects of R107 and R108: BROKEN, and its slot empty. -/
def DropsCodebook (k : Nat) (e : ErrorCode) (s : State) : Prop :=
  ∃ t, exec (.cbDefine k) s = .next t ∧ ErrorFrom (.cbDefine k) e (dropCodebook k s) t

/-- Whatever the parse raises, it has only read. -/
theorem dropsCodebook_of_parse (ho : s.cfgState = .opened) (hp : parseCodebook k s = .error (.raise e) u) :
    DropsCodebook k e s := by
  have hu : Reads s u := (onlyReads_parseCodebook k).keeps.error hp
  have hdrop : Reads (dropCodebook k s) (dropCodebook k u) := by
    obtain ⟨heq, hge, hle⟩ := hu
    exact ⟨by rw [heq]; rfl, hge, hle⟩
  have hlen : u.pktlen = s.pktlen := by rw [hu.1]
  have hparse : onRaise (dropCodebook k) (parseCodebook k) s = .error (.raise e) (dropCodebook k u) := by
    rw [onRaise_run, hp]
  refine ⟨_, runCommand_of_raise (by rw [bind_raiseIf_false (by simp [ho]), bind_of_error hparse]),
    errorEntry_reads_frame hdrop _ _ _ e, nofun, fun hb => ?_⟩
  have := Nat.mod_lt (Config.freeNat ((dropCodebook k u).draws + 1)) (Nat.add_one_pos (8 * s.pktlen - s.bitpos))
  simp only [dropCodebook_bitpos, dropCodebook_pktlen] at hb ⊢
  rw [errorEntry_bitpos, if_pos (show readsBits (.cbDefine k) = true from rfl), dropCodebook_pktlen, hlen]
  omega

theorem readStart_badSync {sync : Nat} (hlt : sync < 2 ^ 24) (hne : sync ≠ 0x564342)
    (hs : packetHas s (fieldBits 24 sync) = true) : readStart s = .error (.raise .badSync) (advance s 24) := by
  rw [readStart, bind_of_ok ((spells_readU (by omega) hlt).yields s hs), length_fieldBits,
    bind_raiseIf_true (decide_eq_true hne)]

/-- What stops the front stops the parse. -/
theorem parseCodebook_of_front {x : Stop} (h : readFront s = .error x u) : parseCodebook k s = .error x u := by
  rw [parseCodebook_eq, bind_of_error h]

/-- After the front, the parse goes on with the insertions and the tables. -/
theorem parseCodebook_front (k : Nat) (hd : dim < 2 ^ 16) (hc : count < 2 ^ 24) (hf : f.wellFormed count = true)
    (hs : packetHas s (startBits dim count ++ f.bits count) = true) :
    parseCodebook k s = (buildTree f.lengths).elim (raise .insert) (readTables k dim count f.lengths)
      (advance s (startBits dim count ++ f.bits count).length) := by
  rw [parseCodebook_eq, bind_of_ok ((spells_readFront hd hc hf).yields s hs)]

variable {len : List (Option Nat)}

theorem readTables_full (hfull : s.params.nodeCap < nodesUsed s - slotNodes s k + tree.nodes) :
    readTables k dim count len tree s = .error (.raise .noSpace) s := by
  rw [readTables, bind_of_ok (get_run s), bind_raiseIf_true (decide_eq_true hfull)]

/-- With room for the tree, what stops the lookup part stops the parse. -/
theorem readTables_of_readLookup (hroom : ¬ s.params.nodeCap < nodesUsed s - slotNodes s k + tree.nodes)
    (hty : ty < 16) (hs : packetHas s (fieldBits 4 ty) = true)
    (hlookup : readLookup k ty dim count (advance s 4) = .error (.raise e) u) :
    readTables k dim count len tree s = .error (.raise e) u := by
  rw [readTables, bind_of_ok (get_run s), bind_raiseIf_false (decide_eq_false hroom),
    bind_of_ok ((spells_readU (by omega) hty).yields s hs), length_fieldBits, bind_of_error hlookup]

/-! The checks of a value table (R75), each where those before it find nothing. -/

theorem readLookup_unsupported (h : 2 < ty ∨ (ty = 2 ∧ s.params.lookup2 = .unsupported)) :
    readLookup k ty dim count s = .error (.raise .unsupported) s := by
  obtain h | ⟨rfl, h⟩ := h
  · obtain ⟨m, rfl⟩ : ∃ m, ty = m + 3 := ⟨ty - 3, by omega⟩
    rfl
  · rw [show readLookup k 2 dim count = readTable k .explicit dim count from rfl, readTable, bind_of_ok (get_run s),
      bind_raiseIf_true (by simp [h])]

/-- A lookup type with a value table is a kind the parameters allow. -/
theorem exists_allowed_kind (h : ty = 1 ∨ (ty = 2 ∧ s.params.lookup2 = .vorbisFormula)) :
    ∃ kind : LookupKind, kind.number = ty ∧ decide (kind = .explicit ∧ s.params.lookup2 = .unsupported) = false := by
  obtain rfl | ⟨rfl, h⟩ := h
  · exact ⟨.lattice, rfl, by simp⟩
  · exact ⟨.explicit, rfl, by simp [h]⟩

theorem readLookup_badCfg (h : ty = 1 ∨ (ty = 2 ∧ s.params.lookup2 = .vorbisFormula)) :
    readLookup k ty 0 count s = .error (.raise .badCfg) s := by
  obtain ⟨kind, rfl, hallowed⟩ := exists_allowed_kind h
  rw [readLookup_kind, readTable, bind_of_ok (get_run s), bind_raiseIf_false hallowed,
    bind_raiseIf_true (decide_eq_true rfl)]

theorem readLookup_noSpace (h : ty = 1 ∨ (ty = 2 ∧ s.params.lookup2 = .vorbisFormula)) (hdim : dim ≠ 0)
    (hfull : s.params.valCap < valsUsed s - slotVals s k + count * dim) :
    readLookup k ty dim count s = .error (.raise .noSpace) s := by
  obtain ⟨kind, rfl, hallowed⟩ := exists_allowed_kind h
  rw [readLookup_kind, readTable, bind_of_ok (get_run s), bind_raiseIf_false hallowed,
    bind_raiseIf_false (decide_eq_false hdim), bind_raiseIf_true (decide_eq_true hfull)]

end

/-! Refusals of the ordered mode -/

section
variable {s u : State} {k dim count first num fuel cur len : Nat} {runs : List Nat} {e : ErrorCode}

/-- The front of a header in the ordered mode, up to where its runs stand (R72). -/
def orderedBits (dim count first : Nat) (runs : List Nat) : List Bool :=
  startBits dim count ++ true :: fieldBits 5 (first - 1) ++ runBits count runs

/-- The next run where the packet ends inside its count (R60). -/
theorem readOrdered_short {p : List Bool} (hlt : cur < count) (hp : p.length < ilog (count - cur))
    (hs : packetHas s p = true) (hend : s.bitpos + p.length = 8 * s.pktlen) :
    readOrdered count (fuel + 1) cur len s = .error (.raise .eob) (advance s p.length) := by
  rw [readOrdered, if_pos hlt, bind_of_error (readU_cut hp hs hend)]

/-- The next run when it goes past the last entry, or is not empty and has a length over 32 (R72). -/
theorem readOrdered_badCfg (hlt : cur < count) (hnum : num < 2 ^ ilog (count - cur))
    (hs : packetHas s (fieldBits (ilog (count - cur)) num) = true)
    (hbad : count - cur < num ∨ (0 < num ∧ 32 < len)) :
    readOrdered count (fuel + 1) cur len s = .error (.raise .badCfg) (advance s (ilog (count - cur))) := by
  rw [readOrdered, if_pos hlt, bind_of_ok ((spells_readU (one_le_ilog (by omega)) hnum).yields s hs), length_fieldBits]
  by_cases hpast : count < cur + num
  · rw [bind_raiseIf_true (decide_eq_true hpast)]
  · rw [bind_raiseIf_false (decide_eq_false hpast),
      bind_raiseIf_true (decide_eq_true (show 0 < num ∧ maxCwLen < len by simp only [maxCwLen]; omega))]

/-- After runs that fit, the ordered mode stops where its next run does. -/
theorem readLengths_of_next_run (h1 : 1 ≤ first) (h32 : first ≤ 32) (hfit : runsFit count first runs = true)
    (hs : packetHas s (true :: fieldBits 5 (first - 1) ++ runBits count runs) = true)
    (hnext : ∀ fuel, readOrdered count (fuel + 1) runs.sum (first + runs.length)
      (advance s (true :: fieldBits 5 (first - 1) ++ runBits count runs).length) = .error (.raise e) u) :
    readLengths count s = .error (.raise e) u := by
  have hhead : packetHas s ([true] ++ (fieldBits 5 (first - 1) ++ runBits count runs)) = true := hs
  rw [packetHas_append, packetHas_append] at hhead
  obtain ⟨hflag, hfirst, hruns⟩ := hhead
  simp only [length_fieldBits, List.length_singleton, advance_advance, Nat.reduceAdd] at hruns
  have hlen := length_le_runBits runs count first hfit
  have hbound := ((packetHas_iff _ _).1 hruns).1
  simp only [advance_bitpos, advance_pktlen] at hbound
  obtain ⟨fuel, hfuel⟩ : ∃ fuel, bitsLeft (advance s 6) + 1 - runs.length = fuel + 1 :=
    ⟨bitsLeft (advance s 6) - runs.length, by simp only [bitsLeft, advance_bitpos, advance_pktlen]; omega⟩
  have hrest := hnext fuel
  rw [show (true :: fieldBits 5 (first - 1) ++ runBits count runs).length = 6 + (runBits count runs).length by simp; omega,
    ← advance_advance] at hrest
  have hordered : readOrdered count (bitsLeft (advance s 6) + 1) 0 first (advance s 6) = .error (.raise e) u := by
    rw [readOrdered_runs runs (Nat.zero_le _) hfit (by omega) hruns, hfuel, map_run, Nat.sub_zero, Nat.zero_add, hrest]
  rw [readLengths, bind_of_ok ((spells_flag true).yields s hflag), if_neg (by decide),
    bind_of_ok ((spells_readU (n := 5) (by omega) (by omega)).yields _ hfirst), length_fieldBits, bind_of_ok (get_run _),
    Nat.sub_add_cancel h1]
  exact hordered

/-- A front in the ordered mode whose next run stops. -/
theorem readFront_of_next_run (hd : dim < 2 ^ 16) (hc : count < 2 ^ 24) (h1 : 1 ≤ first) (h32 : first ≤ 32)
    (hfit : runsFit count first runs = true) (hs : packetHas s (orderedBits dim count first runs) = true)
    (hnext : ∀ fuel, readOrdered count (fuel + 1) runs.sum (first + runs.length)
      (advance s (orderedBits dim count first runs).length) = .error (.raise e) u) :
    readFront s = .error (.raise e) u := by
  rw [orderedBits, List.append_assoc, packetHas_append] at hs
  rw [readFront, bind_of_ok ((spells_readStart hd hc).yields s hs.1)]
  refine bind_of_error (readLengths_of_next_run h1 h32 hfit hs.2 fun fuel => ?_)
  rw [advance_advance, ← List.length_append, ← List.append_assoc]
  exact hnext fuel

end

/-- Settles O38: the parse raises at the first of its checks that fails, and where the packet ends; each leaves the slot
empty (`dropsCodebook_of_parse`). -/
theorem cbDefineRefusals : Obligations.CbDefineRefusals := by
  intro s k ho fails endsWith start
  have fails_of : ∀ {e : ErrorCode} {u : State}, parseCodebook k s = .error (.raise e) u → fails e := fun h =>
    dropsCodebook_of_parse ho h
  refine ⟨fun sync hlt hne hs => ?_, ?_, fun h tree p hw hb hfits hp hne hend => ?_, ?_⟩
  · exact fails_of (parseCodebook_of_front (bind_of_error (readStart_badSync hlt hne hs)))
  · intro dim count f hd hc hf front
    refine ⟨fun p hp hne hend => ?_, fun hb hs => ?_, ?_⟩
    · exact fails_of (parseCodebook_of_front ((spells_readFront hd hc hf).cuts s p hp hne hend.1 hend.2))
    · have hparse := parseCodebook_front k hd hc hf hs
      rw [hb] at hparse
      exact fails_of hparse
    · intro tree ty hb hty hs full
      rw [packetHas_append] at hs
      have htables := parseCodebook_front k hd hc hf hs.1
      rw [hb] at htables
      have hlookup : ¬ full → ∀ {e : ErrorCode} {u : State},
          readLookup k ty dim count (advance (advance s front.length) 4) = .error (.raise e) u → fails e :=
        fun hroom _ _ h => fails_of (htables.trans (readTables_of_readLookup hroom hty hs.2 h))
      refine ⟨fun hfull => ?_, fun hroom hbad => ?_, fun hroom hkind => ⟨fun hdim => ?_, fun hdim hfull => ?_⟩⟩
      · exact fails_of (htables.trans (readTables_full hfull))
      · exact hlookup hroom (readLookup_unsupported hbad)
      · subst hdim
        exact hlookup hroom (readLookup_badCfg hkind)
      · exact hlookup hroom (readLookup_noSpace hkind hdim hfull)
  · exact fails_of ((spellsAt_parseCodebook hw hb hfits).cuts p hp hne hend.1 hend.2)
  · intro dim count first runs hd hc h1 h32 hfit hsum left front
    refine ⟨fun p hp hend => ?_, fun num hnum hs hbad => ?_⟩
    · obtain ⟨hs, hend⟩ := hend
      rw [packetHas_append] at hs
      rw [List.length_append, ← Nat.add_assoc] at hend
      exact fails_of (parseCodebook_of_front (readFront_of_next_run hd hc h1 h32 hfit hs.1 fun _ =>
        readOrdered_short hsum hp hs.2 hend))
    · rw [packetHas_append] at hs
      exact fails_of (parseCodebook_of_front (readFront_of_next_run hd hc h1 h32 hfit hs.1 fun _ =>
        readOrdered_badCfg hsum hnum hs.2 hbad))

end Sys2Proof.Machine
end

section
/-!
PROOFS. Frames of the commands that store and of the configuration commands (42_codebook.md rules R75, R77; 43_residue.md
R84, R85; 44_config.md R89; 45_synthesis.md R97, R98; 60_exceptions.md R108), from each command's inversion lemma.
-/

namespace Sys2Proof.Machine

/-! Stores in a region of VEC -/

section
variable {s t u : State} {lo n : Nat}

/-- What a command that reads and stores in the n words of VEC from lo can change: RESULT, BITPOS, the error fields, and
these words (R77, R85, R107). -/
def StoresFrame (lo n : Nat) (s t : State) : Prop :=
  t = { s with result := t.result, bitpos := t.bitpos, err := t.err, errcode := t.errcode, errop := t.errop,
               draws := t.draws, vec := t.vec }
    ∧ ∀ w, w < lo ∨ lo + n ≤ w → t.vec.find w = s.vec.find w

theorem storesFrame_setResult (hu : Stores lo n s u) (v : Word) : StoresFrame lo n s (setResult v u) := by
  obtain ⟨heq, -, -, hvec, -⟩ := hu
  exact ⟨by rw [heq]; rfl, hvec⟩

theorem storesFrame_errorEntry (hu : Stores lo n s u) (op : Byte) (reads : Bool) (start : Nat) (e : ErrorCode) :
    StoresFrame lo n s (errorEntry op reads start e u) := by
  obtain ⟨heq, -, -, hvec, -⟩ := hu
  exact ⟨by rw [heq]; rfl, hvec⟩

end

section
variable {s t : State}

/-- CB_VECTOR stores in the D words of its slot's vector, or, where it fails, in none. -/
theorem exec_cbVector_frame {k : Nat} {acc : Bool} (h : exec (.cbVector k acc) s = .next t) :
    StoresFrame 0 0 s t ∨ ∃ c, s.cb.find k = some c ∧ StoresFrame s.arg0.toNat c.dim s t := by
  obtain ⟨e, u, hu, rfl⟩ | ⟨c, l, u, e, xs, hc, -, hu, -, hxs, rfl⟩ := exec_cbVector_next k acc s t h
  · exact .inl (storesFrame_errorEntry (.of_reads 0 0 hu) _ _ _ e)
  · refine .inr ⟨c, hc, storesFrame_setResult ?_ _⟩
    exact .trans _ _ _ u _ (.of_reads _ _ hu) (.of_storeVec _ _ _ _ _ (Nat.le_refl _) (by rw [hxs]))

/-- RES_DECODE stores in its nvec · N words only, also where it fails. -/
theorem exec_resDecode_frame {r nvec : Nat} (h : exec (.resDecode r nvec) s = .next t) :
    StoresFrame s.arg0.toNat (nvec * s.arg1.toNat) s t := by
  obtain ⟨e, rfl⟩ | ⟨-, u, hu, ⟨v, rfl⟩ | ⟨e, rfl⟩⟩ := exec_resDecode_next r nvec s t h
  · exact storesFrame_errorEntry (.refl _ _ s) _ _ _ e
  · exact storesFrame_setResult hu v
  · exact storesFrame_errorEntry hu _ _ _ e

/-- A block's words lie in the `blockCount` words of PCM from PCMCOUNT on (R98). -/
theorem find_blockState_pcm_outside {g : Geometry} (ys : List Word) {j : Nat}
    (hj : j < s.pcmcount ∨ s.pcmcount + blockCount s g ≤ j) : (blockState s g ys).pcm.find j = s.pcm.find j := by
  have := length_blockOutput_le s g ys
  show Sparse.find (s.pcm.store s.pcmcount (blockOutput s g ys)) j = _
  rw [Sparse.find_store, if_neg (by omega)]

end

/-- Settles O53: the region is that of the command's inversion lemma. -/
theorem frameOfStoringCommands : Obligations.FrameOfStoringCommands := by
  refine fun s t => ⟨fun k acc h => ?_, fun r nvec h => exec_resDecode_frame h, fun w pw nw h => ?_⟩
  · obtain ⟨heq, hvec⟩ | ⟨c, hc, heq, hvec⟩ := exec_cbVector_frame h
    · exact ⟨heq, fun w _ => hvec w (.inr (Nat.zero_le w))⟩
    · exact ⟨heq, fun w hw => hvec w (hw c hc)⟩
  · obtain ⟨e, rfl⟩ | ⟨x, ys, u, -, -, -, -, hys, rfl⟩ := exec_synBlock_next h
    · exact ⟨rfl, fun _ _ => rfl⟩
    · rw [blockSamples_state hys]
      exact ⟨rfl, fun j hj => find_blockState_pcm_outside ys hj⟩

/-! Configuration commands -/

section
variable {s t : State}

/-- The slot of CB_DEFINE is stored on success and erased on an error in OPEN (R75, R108). -/
theorem exec_cbDefine_frame {k : Nat} (h : exec (.cbDefine k) s = .next t) :
    t = { s with result := t.result, bitpos := t.bitpos, err := t.err, errcode := t.errcode, errop := t.errop,
                 draws := t.draws, cfgState := t.cfgState, cb := t.cb }
      ∧ ∀ j, j ≠ k → t.cb.find j = s.cb.find j := by
  obtain ⟨-, rfl⟩ | ⟨-, u, hu, ⟨c, -, rfl⟩ | ⟨e, rfl⟩⟩ := exec_cbDefine_next h
  · exact ⟨rfl, fun _ _ => rfl⟩
  · rw [hu.1]
    exact ⟨rfl, fun j hj => Sparse.find_store_one_other _ _ _ _ hj⟩
  · rw [hu.1]
    exact ⟨rfl, fun j hj => (Sparse.find_erase s.cb k j).trans (if_neg hj)⟩

/-- The slot of RES_DEFINE is stored on success and erased on an error in OPEN (R84, R108). -/
theorem exec_resDefine_frame {r : Nat} (h : exec (.resDefine r) s = .next t) :
    t = { s with result := t.result, bitpos := t.bitpos, err := t.err, errcode := t.errcode, errop := t.errop,
                 draws := t.draws, cfgState := t.cfgState, res := t.res }
      ∧ ∀ j, j ≠ r → t.res.find j = s.res.find j := by
  obtain ⟨-, rfl⟩ | ⟨-, u, hu, ⟨x, -, rfl⟩ | ⟨e, rfl⟩⟩ := exec_resDefine_next h
  · exact ⟨rfl, fun _ _ => rfl⟩
  · rw [hu.1]
    exact ⟨rfl, fun j hj => Sparse.find_store_one_other _ _ _ _ hj⟩
  · rw [hu.1]
    exact ⟨rfl, fun j hj => (Sparse.find_erase s.res r j).trans (if_neg hj)⟩

end

/-- Settles O54: every end of a configuration command is a success, the error entry, or the error entry after R108's
effects. -/
theorem frameOfConfigurationCommands : Obligations.FrameOfConfigurationCommands := by
  refine fun s t => ⟨fun k => exec_cbDefine_frame, fun r => exec_resDefine_frame, fun h => ?_, fun a b h => ?_⟩
  · obtain ⟨-, rfl⟩ | ⟨-, ⟨-, rfl⟩ | ⟨e, rfl⟩⟩ := exec_cfgSeal_next h
    · exact ⟨rfl, fun _ => ⟨rfl, rfl⟩⟩
    · exact ⟨rfl, fun hne => absurd rfl hne⟩
    · exact ⟨rfl, fun _ => ⟨rfl, rfl⟩⟩
  · obtain ⟨-, rfl⟩ | ⟨-, ⟨-, -, -, rfl⟩ | ⟨-, rfl⟩⟩ := exec_synConfig_next h
    · exact ⟨rfl, fun _ _ => ⟨rfl, rfl, rfl⟩⟩
    · exact ⟨rfl, fun hno herr => absurd (hno.symm.trans herr) (by decide)⟩
    · exact ⟨rfl, fun _ _ => ⟨rfl, rfl, rfl⟩⟩

end Sys2Proof.Machine
end

section
/-!
PROOFS. RES_DEFINE (43_residue.md rules R79, R84; 60_exceptions.md R108): it reads back the bits of a header, and what it
refuses.
-/

namespace Sys2Proof.Machine

section
variable {i : Instr} {s u : State}

/-- The error entry of a command that reads bits, taken after reads (R107). -/
theorem errorFrom_of_reads (hr : readsBits i = true) (hu : Reads s u) (e : ErrorCode) :
    ErrorFrom i e s (errorEntry (opByte i) (readsBits i) s.bitpos e u) := by
  have hlen : u.pktlen = s.pktlen := by rw [hu.1]
  refine ⟨errorEntry_reads_frame hu _ _ _ e, fun hno => ?_, fun hb => ?_⟩
  · rw [hr] at hno
    cases hno
  · rw [errorEntry_bitpos, if_pos hr, hlen]
    have := Nat.mod_lt (Config.freeNat (u.draws + 1)) (Nat.add_one_pos (8 * s.pktlen - s.bitpos))
    omega

end

section
variable {s u : State} {r : Nat} {x : Residue} {e : ErrorCode}

theorem reads_dropResidue (r : Nat) (hu : Reads s u) : Reads (dropResidue r s) (dropResidue r u) := by
  obtain ⟨heq, hge, hle⟩ := hu
  exact ⟨by rw [heq]; rfl, hge, hle⟩

/-- RES_DEFINE whose parse gives a record stores it in its slot (R84). -/
theorem exec_resDefine_run (ho : s.cfgState = .opened) (hp : parseResidue s = .ok x u) :
    exec (.resDefine r) s = .next (setResult (BitVec.ofNat 32 x.type) { u with res := u.res.store r [x] }) := by
  have hparse : onRaise (dropResidue r) parseResidue s = .ok x u := by rw [onRaise_run, hp]
  exact runCommand_of_ok (u := ()) (by rw [bind_raiseIf_false (by simp [ho]), bind_of_ok hparse, modify_run])

/-- RES_DEFINE whose parse raises has only read, and leaves BROKEN and its slot empty (R84, R108). -/
theorem exec_resDefine_raise (ho : s.cfgState = .opened) (hp : parseResidue s = .error (.raise e) u) :
    ∃ t, exec (.resDefine r) s = .next t ∧ ErrorFrom (.resDefine r) e (dropResidue r s) t := by
  have hparse : onRaise (dropResidue r) parseResidue s = .error (.raise e) (dropResidue r u) := by rw [onRaise_run, hp]
  have hreads : Reads (dropResidue r s) (dropResidue r u) := reads_dropResidue r (onlyReads_parseResidue.keeps.error hp)
  exact ⟨_, runCommand_of_raise (by rw [bind_raiseIf_false (by simp [ho]), bind_of_error hparse]),
    errorFrom_of_reads rfl hreads e⟩

/-- What the parse makes of a header's record, by its references (R84). -/
theorem parseResidue_run (h : readResidue s = .ok x u) :
    parseResidue s = if residueResolves u x then .ok x u else .error (.raise .badRef) u := by
  rw [parseResidue, bind_of_ok h, bind_of_ok (get_run u)]
  cases hclass : (u.cb.find x.classbook).isSome with
  | false => rw [bind_raiseIf_true (by simpa using hclass), residueResolves, hclass]; rfl
  | true =>
    have hpass : ((residueBooks x).any fun b => (u.cb.find b).isNone) = !residueResolves u x := by
      rw [residueResolves, hclass, Bool.true_and, List.not_all_eq_any_not]
      simp
    rw [bind_raiseIf_false (by simpa [Option.isSome_iff_ne_none] using hclass), hpass]
    cases residueResolves u x <;> rfl

/-- A type over 2 is refused before anything else is read (R79). -/
theorem readResidue_unsupported {ty : Nat} (h2 : 2 < ty) (hty : ty < 2 ^ 16)
    (hs : packetHas s (fieldBits 16 ty) = true) : readResidue s = .error (.raise .unsupported) (advance s 16) := by
  rw [readResidue, bind_of_ok ((spells_readU (by omega) hty).yields s hs), length_fieldBits,
    bind_raiseIf_true (decide_eq_true h2)]

end

/-- Settles O39: the parse reads a header back (`spells_readResidue`), then checks its references. -/
theorem resDefineParsesTheHeader : Obligations.ResDefineParsesTheHeader := by
  refine fun s r ho => ⟨fun h hw => ⟨fun hs => ?_, fun p hp hne hs hend => ?_⟩, fun ty h2 hty hs => ?_⟩
  · have hparse := parseResidue_run ((spells_readResidue hw).yields s hs)
    refine ⟨fun hres => ?_, fun hres => ?_⟩
    · rw [show residueResolves (advance s h.bits.length) h.record = true from hres] at hparse
      exact exec_resDefine_run ho hparse
    · rw [show residueResolves (advance s h.bits.length) h.record = false from hres] at hparse
      exact exec_resDefine_raise ho hparse
  · exact exec_resDefine_raise ho (bind_of_error ((spells_readResidue hw).cuts s p hp hne hs hend))
  · exact exec_resDefine_raise ho (bind_of_error (readResidue_unsupported h2 hty hs))

end Sys2Proof.Machine
end

section
/-!
PROOFS. RES_DECODE (43_residue.md rules R80 to R86; 60_exceptions.md R107): how the command runs around the decode core,
its zeros for silent vectors, and what it reads and adds along the places of `residueSteps`.
-/

namespace Sys2Proof.Machine

/-! The job and its region -/

/-- The job RES_DECODE sets up (R85). -/
def residueJob (s : State) (nvec : Nat) (x : Residue) : ResidueJob :=
  ⟨x, s.arg0.toNat, nvec, s.arg1.toNat, s.silent, s.params.f32⟩

section
variable {j : ResidueJob} {s t : State} {lo n : Nat}

/-- The state after the zeroing loop (R85). -/
def zeroRegion (j : ResidueJob) (s : State) : State := storeVec s j.base (List.replicate (j.nvec * j.len) 0)

theorem find_zeroRegion {w : Nat} (h1 : j.base ≤ w) (h2 : w < j.base + j.nvec * j.len) :
    (zeroRegion j s).vec.find w = some 0 := by
  rw [zeroRegion, storeVec_vec, Sparse.find_store, List.length_replicate, if_pos ⟨h1, h2⟩,
    List.getElem?_replicate, if_pos (by omega)]

theorem packetHas_zeroRegion (j : ResidueJob) (s : State) (bits : List Bool) :
    packetHas (zeroRegion j s) bits = packetHas s bits := rfl

theorem ready_zeroRegion (j : ResidueJob) (s : State) : Ready j s.cb (zeroRegion j s) :=
  ⟨rfl, fun k hk => by rw [find_zeroRegion (by omega) (by omega)]; rfl⟩

theorem stores_zeroRegion (j : ResidueJob) (s : State) : Stores j.base (j.nvec * j.len) s (zeroRegion j s) :=
  .of_storeVec _ _ _ _ _ (Nat.le_refl _) (by rw [List.length_replicate])

theorem stores_freeVec (lo n : Nat) (s : State) : Stores lo n s (freeVec lo n s) := by
  obtain ⟨-, hrest⟩ := Stores.of_storeVec lo n s lo ((List.range n).map fun k => Config.freeWord (s.draws + k))
    (Nat.le_refl _) (by simp)
  exact ⟨rfl, hrest⟩

/-- Beside VEC, a store in a region is a read. -/
theorem Stores.reads (h : Stores lo n s t) : Reads { s with vec := t.vec } t := ⟨h.1, h.2.1, h.2.2.1⟩

end

/-! The command around the decode core -/

section
variable {r nvec : Nat} {j : ResidueJob} {s u : State} {e : ErrorCode}

/-- Past its checks, RES_DECODE is the decode in the zeroed region (R85). -/
theorem exec_resDecode_run {used : Nat} (hj : residueChecks r nvec s = .ok j s)
    (h : decodeResidue j (zeroRegion j s) = .ok used u) :
    exec (.resDecode r nvec) s = .next (setResult (BitVec.ofNat 32 used) u) := by
  have hdecode : onRaise (freeVec j.base (j.nvec * j.len)) (decodeResidue j) (zeroRegion j s) = .ok used u := by
    rw [onRaise_run, h]
  refine runCommand_of_ok (u := ()) ?_
  rw [bind_of_ok hj, vecWrite, bind_of_ok (modify_run _ _)]
  exact bind_of_ok hdecode

/-- RES_DECODE raises e in its decode: the effects of R107, and VEC unspecified in its region only. -/
def RaisesInRegion (r nvec : Nat) (e : ErrorCode) (s : State) : Prop :=
  ∃ t v, exec (.resDecode r nvec) s = .next t ∧ ErrorFrom (.resDecode r nvec) e { s with vec := v } t
    ∧ ∀ w, w < s.arg0.toNat ∨ s.arg0.toNat + nvec * s.arg1.toNat ≤ w → Sparse.find v w = s.vec.find w

theorem raisesInRegion_of_decode (hj : residueChecks r nvec s = .ok j s)
    (h : decodeResidue j (zeroRegion j s) = .error (.raise e) u) : RaisesInRegion r nvec e s := by
  have hdecode : onRaise (freeVec j.base (j.nvec * j.len)) (decodeResidue j) (zeroRegion j s)
      = .error (.raise e) (freeVec j.base (j.nvec * j.len) u) := by rw [onRaise_run, h]
  have hexec : exec (.resDecode r nvec) s
      = .next (errorEntry 0x31 true s.bitpos e (freeVec j.base (j.nvec * j.len) u)) := by
    refine runCommand_of_raise ?_
    rw [bind_of_ok hj, vecWrite, bind_of_ok (modify_run _ _)]
    exact bind_of_error hdecode
  have hstores : Stores j.base (j.nvec * j.len) s (freeVec j.base (j.nvec * j.len) u) :=
    .trans _ _ _ _ _ (stores_zeroRegion j s)
      (.trans _ _ _ u _ ((inRegion_decodeResidue j).keeps.error h) (stores_freeVec _ _ u))
  exact ⟨_, _, hexec, errorFrom_of_reads (i := .resDecode r nvec) rfl hstores.reads e, (exec_resDecode_frame hexec).2⟩

/-! The decode around the core -/

theorem decodeResidue_silent (h2 : j.res.type = 2) (h : j.allSilent = true) : decodeResidue j s = .ok 0 s := by
  rw [decodeResidue, bind_of_ok (get_run s), if_pos ⟨h2, h⟩, pure_run]

section
variable (hplay : ¬ (j.res.type = 2 ∧ j.allSilent = true))
include hplay

theorem decodeResidue_badCfg (h : j.res.stop < j.res.begin) : decodeResidue j s = .error (.raise .badCfg) s := by
  rw [decodeResidue, bind_of_ok (get_run s), if_neg hplay, bind_raiseIf_true (decide_eq_true h)]

theorem decodeResidue_range (h1 : j.res.begin ≤ j.res.stop) (h2 : j.lvec < j.res.stop) :
    decodeResidue j s = .error (.raise .range) s := by
  rw [decodeResidue, bind_of_ok (get_run s), if_neg hplay, bind_raiseIf_false (decide_eq_false (Nat.not_lt.2 h1)),
    bind_raiseIf_true (decide_eq_true h2)]

variable (h1 : j.res.begin ≤ j.res.stop) (h2 : j.res.stop ≤ j.lvec)
include h1 h2

/-- With legal bounds the decode is its core, and answers the bits this consumes (R85). -/
theorem decodeResidue_core :
    decodeResidue j s = (do decodeCore j; let t ← get; pure (t.bitpos - s.bitpos)) s := by
  rw [decodeResidue, bind_of_ok (get_run s), if_neg hplay, bind_raiseIf_false (decide_eq_false (Nat.not_lt.2 h1)),
    bind_raiseIf_false (decide_eq_false (Nat.not_lt.2 h2))]

theorem decodeResidue_run {used : Nat} (h : decodeCore j s = .ok () u) (hused : u.bitpos = s.bitpos + used) :
    decodeResidue j s = .ok used u := by
  rw [decodeResidue_core hplay h1 h2, bind_of_ok h, bind_of_ok (get_run u), pure_run, hused, Nat.add_sub_cancel_left]

theorem decodeResidue_stop {x : Stop} (h : decodeCore j s = .error x u) : decodeResidue j s = .error x u := by
  rw [decodeResidue_core hplay h1 h2, bind_of_error h]

end

end

/-! Silent vectors -/

section
variable {j : ResidueJob} {s : State}

theorem decodeGroup_noVectors (h : j.active = []) (pass : Nat) (cls : List (List Nat)) (ps : List Nat) :
    decodeGroup j pass cls ps s = .ok () s := by
  induction ps with
  | nil => rfl
  | cons p ps ih =>
    rw [decodeGroup, h, List.zip_nil_left, forEach, bind_of_ok (pure_run _ s), ih]

theorem decodePass_noVectors (h : j.active = []) (dc parts pass : Nat) (fuel : Nat) : ∀ p,
    decodePass j dc parts pass fuel p [] s = .ok [] s := by
  induction fuel with
  | zero => exact fun _ => rfl
  | succ fuel ih =>
    intro p
    have hgroup : (decodeGroup j pass [] (List.range' p (min dc (parts - p))) >>= fun _ =>
        decodePass j dc parts pass fuel (p + dc) []) s = .ok [] s := by
      rw [bind_of_ok (decodeGroup_noVectors h _ _ _), ih]
    unfold decodePass
    split
    · split <;> exact hgroup
    · rfl

theorem decodePasses_noVectors (h : j.active = []) (dc parts : Nat) (passes : List Nat) :
    decodePasses j dc parts passes [] s = .ok () s := by
  induction passes with
  | nil => rfl
  | cons pass rest ih => rw [decodePasses, bind_of_ok (decodePass_noVectors h _ _ _ _ _), ih]

/-- Without a vector to decode, the core reads and adds nothing (R81). -/
theorem decodeCore_noVectors {c : Codebook} (h : j.active = []) (hc : s.cb.find j.res.classbook = some c)
    (hd : 1 ≤ c.dim) : decodeCore j s = .ok () s := by
  rw [decodeCore, bind_of_ok (codebookAt_find hc), bind_raiseIf_false (decide_eq_false (by omega)), h, List.map_nil,
    decodePasses_noVectors h]

theorem allSilent_iff : j.allSilent = true ↔ ∀ v, v < j.nvec → j.silent.getLsbD v = true := by
  simp [ResidueJob.allSilent]

theorem active_of_allSilent (h1 : j.res.type = 1) (h : j.allSilent = true) : j.active = [] := by
  rw [allSilent_iff] at h
  rw [ResidueJob.active, if_neg (by omega), List.filter_eq_nil_iff]
  exact fun v hv => by simp [h v (List.mem_range.1 hv)]

end

/-- Settles O40: the decode of silent vectors ends in the zeroed region, where it started. -/
theorem resDecodeOfSilentVectorsGivesZeros : Obligations.ResDecodeOfSilentVectorsGivesZeros := by
  intro s r nvec x hsealed hr hx hroom hsilent htype
  have hj : residueChecks r nvec s = .ok (residueJob s nvec x) s := residueChecks_run hsealed hr hroom hx (by omega)
  have hall : (residueJob s nvec x).allSilent = true := allSilent_iff.2 hsilent
  have hdecode : decodeResidue (residueJob s nvec x) (zeroRegion (residueJob s nvec x) s)
      = .ok 0 (zeroRegion (residueJob s nvec x) s) := by
    obtain h2 | ⟨h1, hbegin, hstop, c, hc, hd⟩ := htype
    · exact decodeResidue_silent h2 hall
    · have hlvec : (residueJob s nvec x).lvec = s.arg1.toNat := if_neg (by simp [residueJob, h1])
      have hcore : decodeCore (residueJob s nvec x) (zeroRegion (residueJob s nvec x) s) = .ok () _ :=
        decodeCore_noVectors (active_of_allSilent h1 hall) hc hd
      exact decodeResidue_run (fun h => by simp [residueJob, h1] at h) hbegin (hlvec ▸ hstop) hcore rfl
  have hexec := exec_resDecode_run hj hdecode
  exact ⟨_, hexec, rfl, fun w h1 h2 => find_zeroRegion (j := residueJob s nvec x) h1 h2, (exec_resDecode_frame hexec).2⟩

/-! The places of a trace -/

section
variable {s : State} {nvec : Nat} {x : Residue}

/-- Type 1 decodes in any case, type 2 where a vector is not silent (R82, R83). -/
theorem not_silenced (h : x.type = 1 ∨ x.type = 2 ∧ ∃ v, v < nvec ∧ s.silent.getLsbD v = false) :
    ¬ ((residueJob s nvec x).res.type = 2 ∧ (residueJob s nvec x).allSilent = true) := by
  rintro ⟨h2, hall⟩
  obtain h1 | ⟨-, v, hv, hplays⟩ := h
  · exact absurd (h1.symm.trans h2) (by decide)
  · exact absurd ((allSilent_iff.1 hall v hv).symm.trans hplays) (by decide)

end

section
variable {s u : State} {bits p : List Bool}

/-- The reader stands after these bits; what VEC holds there does not matter. -/
def StandsAfter (s : State) (bits : List Bool) (u : State) : Prop := u = { advance s bits.length with vec := u.vec }

theorem StandsAfter.packetHas (hu : StandsAfter s bits u) (hs : packetHas s (bits ++ p) = true) :
    packetHas s bits = true ∧ packetHas u p = true := by
  rw [packetHas_append] at hs
  exact ⟨hs.1, by rw [hu]; exact hs.2⟩

theorem StandsAfter.afterWords (hu : StandsAfter s bits u) (j : ResidueJob) (l : Lookup) (v i : Nat)
    (ws : List (List Bool × Nat)) : StandsAfter s (bits ++ ws.flatMap Prod.fst) (afterWords j l v i ws u) := by
  unfold StandsAfter at hu ⊢
  rw [List.length_append, ← advance_advance, Machine.afterWords, hu]
  rfl

theorem standsAfter_afterSteps (j : ResidueJob) (cb : Sparse Codebook) (dc : Nat) (words : StepWords) (s : State)
    (steps : List ResidueStep) :
    StandsAfter s (traceBits words steps) (afterSteps j cb dc words (zeroRegion j s) steps) := rfl

/-- The next state of a decode that ends there. -/
theorem StandsAfter.setResult_eq (hu : StandsAfter s bits u) (v : Word) : setResult v u
    = { s with result := v, bitpos := s.bitpos + bits.length, vec := (setResult v u).vec } := by
  rw [setResult_vec, hu]
  rfl

end

/-- Settles O41: the core runs the places of the trace (`runs_decodeCore`), from zeros. -/
theorem resDecodeFillsAPartition : Obligations.ResDecodeFillsAPartition := by
  intro s r nvec x cc words hsealed hr hx hw hroom htype n active lvec target parts hbegin hstop hcc hdim steps bits hok hs
  have hj : residueChecks r nvec s = .ok (residueJob s nvec x) s := residueChecks_run hsealed hr hroom hx (by omega)
  have hruns : Runs (residueJob s nvec x) s.cb cc.dim words (decodeCore (residueJob s nvec x)) steps () :=
    runs_decodeCore hw hcc hdim
  have hcore := hruns.ok (zeroRegion (residueJob s nvec x) s) (ready_zeroRegion _ s) hok
    ((packetHas_zeroRegion _ s bits).trans hs)
  have hend := standsAfter_afterSteps (residueJob s nvec x) s.cb cc.dim words s steps
  have hexec := exec_resDecode_run hj (decodeResidue_run (not_silenced htype) hbegin hstop hcore rfl)
  exact ⟨_, hexec, hend.setResult_eq _, fun a h1 h2 => find_addAll (find_zeroRegion (j := residueJob s nvec x) h1 h2),
    (exec_resDecode_frame hexec).2⟩

end Sys2Proof.Machine
end

section
/-!
PROOFS. What RES_DECODE refuses (43_residue.md rules R80, R81, R85; 60_exceptions.md R105, R107): its checks, those of the
decode, and at the first place of `residueSteps` that stops, where a codeword's walk or an addition does.
-/

namespace Sys2Proof.Machine

/-! The checks -/

section
variable {r nvec : Nat} {s : State} {x : Residue}

theorem residueChecks_range (hsealed : s.cfgState = .sealed) (hr : r < s.resCount)
    (hroom : s.params.vecWords < s.arg0.toNat + nvec * s.arg1.toNat) :
    residueChecks r nvec s = .error (.raise .range) s := by
  rw [residueChecks, bind_of_ok (get_run s), bind_raiseIf_false (by simp [hsealed]),
    bind_raiseIf_false (decide_eq_false (by omega))]
  exact bind_raiseIf_true (decide_eq_true hroom)

theorem residueChecks_unsupported (hsealed : s.cfgState = .sealed) (hr : r < s.resCount)
    (hroom : s.arg0.toNat + nvec * s.arg1.toNat ≤ s.params.vecWords) (hx : s.res.find r = some x) (h0 : x.type = 0) :
    residueChecks r nvec s = .error (.raise .unsupported) s := by
  have hfits : ¬ s.params.vecWords < arg0Nat s + nvec * arg1Nat s := Nat.not_lt_of_le hroom
  rw [residueChecks, bind_of_ok (get_run s), bind_raiseIf_false (by simp [hsealed]),
    bind_raiseIf_false (decide_eq_false (by omega)), bind_raiseIf_false (decide_eq_false hfits),
    bind_of_ok (show residueAt r s = .ok x s by rw [residueAt_run, hx]), bind_raiseIf_true (decide_eq_true h0)]

end

/-- What RES_DECODE's checks refuse, it refuses with VEC unchanged (R85, R109). -/
theorem raises_of_residueChecks {r nvec : Nat} {s : State} {e : ErrorCode}
    (h : residueChecks r nvec s = .error (.raise e) s) : Raises (.resDecode r nvec) e s :=
  raises_of_stop rfl (bind_of_error h)

/-! One partition -/

section
variable {j : ResidueJob} {s u : State} {c : Codebook} {l : Lookup} {v b off : Nat} {ws : List (List Bool × Nat)}
  {x : Stop}

/-- A class book of dimension 0 (R81). -/
theorem decodeCore_badCfg (hc : s.cb.find j.res.classbook = some c) (hdim : c.dim = 0)
    (hparts : 0 < (j.res.stop - j.res.begin) / j.res.psize) : decodeCore j s = .error (.raise .badCfg) s := by
  rw [decodeCore, bind_of_ok (codebookAt_find hc), bind_raiseIf_true (decide_eq_true ⟨hparts, hdim⟩)]

/-- A pass book without a value table (R80). -/
theorem decodePartition_noLookup (hc : s.cb.find b = some c) (hl : c.lookup = none) :
    decodePartition j b v off s = .error (.raise .noLookup) s := by
  rw [decodePartition, bind_of_ok (codebookAt_find hc), bind_raiseIf_true (by rw [hl]; rfl)]

theorem exists_lookup_of_vectorsOf (h : vectorsOf c ws = true) : ∃ l, c.lookup = some l ∧ 1 ≤ c.dim := by
  cases hl : c.lookup with
  | none => simp [vectorsOf, hl] at h
  | some l =>
    simp only [vectorsOf, hl, Bool.and_eq_true, decide_eq_true_eq] at h
    exact ⟨l, rfl, h.1.1⟩

section
variable (hv : v ∈ j.active) (hb : s.cb.find b = some c) (hl : c.lookup = some l) (hws : vectorsOf c ws = true)
  (hw : VecWritten s j.base (j.nvec * j.len)) (hsize : ws.length * c.dim < j.res.psize)
  (hroom : off + ws.length * c.dim ≤ j.lvec) (hs : packetHas s (ws.flatMap Prod.fst) = true)
include hv hb hl hws hw hsize hroom hs

/-- After vectors that do not fill the partition, it goes on with another one (R80). -/
theorem decodePartition_next : ∃ fuel, decodePartition j b v off s = (vectorDecode b >>= fun entry => do
    addValues j v (off + ws.length * c.dim) entry.2
    fillPartition j b v off fuel (ws.length * c.dim + entry.2.length)) (afterWords j l v off ws s) := by
  obtain ⟨-, -, hdim⟩ := exists_lookup_of_vectorsOf hws
  have hlen : ws.length ≤ ws.length * c.dim := Nat.le_mul_of_pos_right _ hdim
  refine ⟨j.res.psize - ws.length - 1, ?_⟩
  rw [decodePartition_words hv hb hl hws hw (by omega) hroom hs,
    show j.res.psize - ws.length = j.res.psize - ws.length - 1 + 1 by omega, fillPartition, if_pos hsize]
  rfl

/-- The partition stops where the walk to its next vector does (R74, R80). -/
theorem decodePartition_stop (hx : walk c.tree (afterWords j l v off ws s) = .error x u) :
    decodePartition j b v off s = .error x u := by
  obtain ⟨fuel, hnext⟩ := decodePartition_next hv hb hl hws hw hsize hroom hs
  have hb' : (afterWords j l v off ws s).cb.find b = some c := hb
  rw [hnext, bind_of_error (vectorDecode_stop hb' hl hx)]

/-- The partition whose next vector has an element past the Lvec elements (R80). -/
theorem decodePartition_range {w : List Bool × Nat} (hvec : vectorsOf c [w] = true)
    (hpast : j.lvec < off + (ws.length + 1) * c.dim) (hsw : packetHas (afterWords j l v off ws s) w.1 = true) :
    ∃ u, decodePartition j b v off s = .error (.raise .range) u := by
  obtain ⟨fuel, hnext⟩ := decodePartition_next hv hb hl hws hw hsize hroom hs
  have hcode : c.tree.nodeAt w.1 = some (.leaf w.2) := by
    simp only [vectorsOf, hl, codewordsOf, Bool.and_eq_true, List.all_cons, decide_eq_true_eq] at hvec
    exact hvec.1.2.1
  have hwritten : VecWritten (advance (afterWords j l v off ws s) w.1.length) j.base (j.nvec * j.len) :=
    vecWritten_addAll (s := s) hw
  rw [Nat.add_mul, Nat.one_mul, ← Nat.add_assoc] at hpast
  obtain ⟨u, hadd⟩ := addValues_range hv (entryVector c l w.2) hwritten hroom (by rwa [length_entryVector])
  have hb' : (afterWords j l v off ws s).cb.find b = some c := hb
  refine ⟨u, ?_⟩
  rw [hnext, bind_of_ok (vectorDecode_run hb' hl hsw hcode)]
  exact bind_of_error hadd

end

end

/-! Places -/

/-- The vector of a place is one the core decodes (R81). -/
theorem mem_active_of_fill {active : List Nat} {dc parts pass p v : Nat}
    (h : .fill pass p v ∈ residueSteps active dc parts) : v ∈ active := by
  simp only [residueSteps, groupSteps, List.mem_flatMap, List.mem_append, List.mem_map] at h
  obtain ⟨_, _, _, _, hclass | ⟨_, _, _, hv, heq⟩⟩ := h
  · split at hclass <;> simp at hclass
  · cases heq
    exact hv

section
variable {s u : State} {bits p : List Bool} {fails : ErrorCode → Prop}

/-- A walk that starts there stops at an empty branch and at the packet's end (R60, R71). -/
theorem StandsAfter.fails_in_codeword {tree : Tree} (hu : StandsAfter s bits u)
    (hfails : ∀ {e t}, walk tree u = .error (.raise e) t → fails e) (hs : Machine.packetHas s (bits ++ p) = true) :
    (tree.nodeAt p = some .empty → fails .badCode)
      ∧ ∀ a b, tree.nodeAt p = some (.inner a b) → s.bitpos + (bits ++ p).length = 8 * s.pktlen → fails .eob := by
  have hp := (hu.packetHas hs).2
  refine ⟨fun hempty => hfails (walk_empty hempty hp), fun a b hinner hend => hfails (walk_cut hinner hp ?_)⟩
  rw [List.length_append, ← Nat.add_assoc] at hend
  rw [hu]
  exact hend

end

/-- The place of a partition whose class has a book for the pass (R81). -/
theorem stepCmd_fill {j : ResidueJob} {dc pass p v b : Nat} {words : StepWords}
    (h : passBook j.res (partitionClass j.res dc words p v) pass = some b) :
    stepCmd j dc words (.fill pass p v) = decodePartition j b v (j.res.begin + p * j.res.psize) := by
  unfold stepCmd
  simp only [h]

/-- What a partition refuses: its book without a value table, then each vector before it is full (R80). -/
theorem fails_in_partition {j : ResidueJob} {s start : State} {read : List Bool} {fails : ErrorCode → Prop}
    {v b off : Nat} {c : Codebook} (hv : v ∈ j.active) (hc : start.cb.find b = some c)
    (hvec : VecWritten start j.base (j.nvec * j.len)) (hstart : StandsAfter s read start)
    (hfails : ∀ {e u}, packetHas s read = true → decodePartition j b v off start = .error (.raise e) u → fails e) :
    (c.lookup = none → packetHas s read = true → fails .noLookup)
    ∧ ∀ ws, vectorsOf c ws = true → ws.length * c.dim < j.res.psize → off + ws.length * c.dim ≤ j.lvec →
        (∀ p, packetHas s ((read ++ ws.flatMap Prod.fst) ++ p) = true → (c.tree.nodeAt p = some .empty → fails .badCode)
          ∧ ∀ a b, c.tree.nodeAt p = some (.inner a b) →
              s.bitpos + ((read ++ ws.flatMap Prod.fst) ++ p).length = 8 * s.pktlen → fails .eob)
        ∧ ∀ w, vectorsOf c [w] = true → j.lvec < off + (ws.length + 1) * c.dim →
            packetHas s ((read ++ ws.flatMap Prod.fst) ++ w.1) = true → fails .range := by
  refine ⟨fun hl hs => hfails hs (decodePartition_noLookup hc hl), fun ws hws hsize hin => ?_⟩
  obtain ⟨l, hl, -⟩ := exists_lookup_of_vectorsOf hws
  have hafter := hstart.afterWords j l v off ws
  refine ⟨fun p hs => ?_, fun w hw hpast hs => ?_⟩
  · obtain ⟨hread, hbits⟩ := hstart.packetHas (hafter.packetHas hs).1
    exact hafter.fails_in_codeword
      (fun hwalk => hfails hread (decodePartition_stop hv hc hl hws hvec hsize hin hbits hwalk)) hs
  · obtain ⟨hread, hbits⟩ := hstart.packetHas (hafter.packetHas hs).1
    obtain ⟨u, hrange⟩ := decodePartition_range hv hc hl hws hvec hsize hin hbits hw hpast (hafter.packetHas hs).2
    exact hfails hread hrange

/-- The first place of the core that stops is where RES_DECODE raises (R81). -/
theorem raisesInRegion_of_step {r nvec : Nat} {j : ResidueJob} {s u : State} {cc : Codebook} {words : StepWords}
    {before after : List ResidueStep} {step : ResidueStep} {e : ErrorCode} (hj : residueChecks r nvec s = .ok j s)
    (hplay : ¬ (j.res.type = 2 ∧ j.allSilent = true)) (h1 : j.res.begin ≤ j.res.stop) (h2 : j.res.stop ≤ j.lvec)
    (hw : j.res.wellFormed = true) (hcc : s.cb.find j.res.classbook = some cc) (hdim : 1 ≤ cc.dim)
    (hsteps : residueSteps j.active cc.dim ((j.res.stop - j.res.begin) / j.res.psize) = before ++ step :: after)
    (hok : AllOk j s.cb cc.dim words before) (hread : packetHas s (traceBits words before) = true)
    (h : stepCmd j cc.dim words step (afterSteps j s.cb cc.dim words (zeroRegion j s) before) = .error (.raise e) u) :
    RaisesInRegion r nvec e s :=
  have hruns : Runs j s.cb cc.dim words (decodeCore j) _ () := runs_decodeCore hw hcc fun _ => hdim
  raisesInRegion_of_decode hj (decodeResidue_stop hplay h1 h2
    (hruns.stops _ before step after _ _ hsteps (ready_zeroRegion j s) hok
      ((packetHas_zeroRegion j s _).trans hread) h))

/-- Settles O42: the checks, then the decode's own, then the first place that stops (`runs_decodeCore`), where the walk
or an addition does. -/
theorem resDecodeRefusals : Obligations.ResDecodeRefusals := by
  intro s r nvec x hsealed hr hx n lvec active parts fails
  refine ⟨fun hroom => raises_of_residueChecks (residueChecks_range hsealed hr hroom), fun hroom =>
    ⟨fun h0 => raises_of_residueChecks (residueChecks_unsupported hsealed hr hroom hx h0), fun htype => ?_⟩⟩
  have hj : residueChecks r nvec s = .ok (residueJob s nvec x) s := residueChecks_run hsealed hr hroom hx (by omega)
  have hplay := not_silenced htype
  have fails_of : ∀ {e u}, decodeResidue (residueJob s nvec x) (zeroRegion (residueJob s nvec x) s)
      = .error (.raise e) u → fails e := fun h => raisesInRegion_of_decode hj h
  refine ⟨fun h => fails_of (decodeResidue_badCfg hplay h), fun h1 h2 => fails_of (decodeResidue_range hplay h1 h2),
    fun h1 h2 cc hcc => ⟨fun h0 hparts => ?_, ?_⟩⟩
  · exact fails_of (decodeResidue_stop hplay h1 h2 (decodeCore_badCfg hcc h0 hparts))
  intro hdim hw words before after step hsteps hok read stuck
  have fails_at : ∀ {e u}, packetHas s read = true → stepCmd (residueJob s nvec x) cc.dim words step
      (afterSteps (residueJob s nvec x) s.cb cc.dim words (zeroRegion (residueJob s nvec x) s) before)
      = .error (.raise e) u → fails e :=
    fun hread h => raisesInRegion_of_step hj hplay h1 h2 hw hcc hdim hsteps hok hread h
  have hready := (ready_zeroRegion (residueJob s nvec x) s).afterSteps (dc := cc.dim) (words := words) before
  have hstart := standsAfter_afterSteps (residueJob s nvec x) s.cb cc.dim words s before
  generalize afterSteps _ _ _ _ _ _ = start at hready fails_at hstart
  obtain ⟨hcb, hvec⟩ := hready
  cases step with
  | classify g v =>
    exact fun p hs => hstart.fails_in_codeword (fun hwalk => fails_at (hstart.packetHas hs).1
      (bind_of_error ((scalarDecode_eq_walk (by rwa [hcb])).trans hwalk))) hs
  | fill pass p v =>
    intro b c hbook hc
    have hv : v ∈ (residueJob s nvec x).active :=
      mem_active_of_fill (hsteps ▸ List.mem_append_right _ List.mem_cons_self)
    have hcmd : stepCmd (residueJob s nvec x) cc.dim words (.fill pass p v)
        = decodePartition (residueJob s nvec x) b v (x.begin + p * x.psize) :=
      stepCmd_fill (j := residueJob s nvec x) (dc := cc.dim) (words := words) hbook
    exact fails_in_partition hv (by rwa [hcb]) hvec hstart fun hread h => fails_at hread (by rwa [hcmd])

end Sys2Proof.Machine
end

section
/-!
PROOFS. RES_DECODE does not depend on what VEC held before (43_residue.md rules R82, R85): run in two states that agree in
the region and in everything but VEC, every piece of the decode ends alike, in states that agree so again, or stops alike.
-/

namespace Sys2Proof.Machine

variable {α β : Type} {lo n : Nat}

/-- Two states that differ in VEC only. -/
def SameButVec (s u : State) : Prop := u = { s with vec := u.vec }

/-- Two states that differ in VEC only, outside its n words from lo. -/
def AgreeOn (lo n : Nat) (s u : State) : Prop :=
  SameButVec s u ∧ ∀ w, lo ≤ w → w < lo + n → u.vec.find w = s.vec.find w

/-- Two ends of a rule that agree in the region, or two stops that differ in VEC only. -/
inductive AgreeingEnd (lo n : Nat) : EStateM.Result Stop State α → EStateM.Result Stop State α → Prop where
  | ok (a : α) {t u : State} (h : AgreeOn lo n t u) : AgreeingEnd lo n (.ok a t) (.ok a u)
  | error (x : Stop) {t u : State} (h : SameButVec t u) : AgreeingEnd lo n (.error x t) (.error x u)

/-- A piece of a command that sees VEC in the region only. -/
def SeesRegion (lo n : Nat) (c : Cmd α) : Prop := ∀ s u, AgreeOn lo n s u → AgreeingEnd lo n (c s) (c u)

theorem SeesRegion.pure (a : α) : SeesRegion lo n (Pure.pure a : Cmd α) := fun _ _ h => .ok a h

theorem SeesRegion.raise (e : ErrorCode) : SeesRegion lo n (Machine.raise e : Cmd α) := fun _ _ h => .error _ h.1

theorem SeesRegion.raiseIf (c : Bool) (e : ErrorCode) : SeesRegion lo n (Machine.raiseIf c e) := by
  cases c
  · exact .pure ()
  · exact .raise e

theorem SeesRegion.stopFault (f : Fault) : SeesRegion lo n (Machine.stopFault f : Cmd α) := fun _ _ h => .error _ h.1

theorem SeesRegion.bind {c : Cmd α} {f : α → Cmd β} (hc : SeesRegion lo n c) (hf : ∀ a, SeesRegion lo n (f a)) :
    SeesRegion lo n (c >>= f) := by
  intro s u h
  rw [bind_run, bind_run]
  have hend := hc s u h
  generalize c s = x, c u = y at hend
  cases hend with
  | ok a h => exact hf a _ _ h
  | error x h => exact .error x h

/-- What follows a look at the state uses other fields than VEC. -/
theorem SeesRegion.get_bind {f : State → Cmd β} (hf : ∀ s m, f { s with vec := m } = f s)
    (hs : ∀ s, SeesRegion lo n (f s)) : SeesRegion lo n (MonadState.get >>= f) := by
  intro s u h
  have hfu : f u = f s := by rw [h.1, hf]
  rw [bind_of_ok (get_run s), bind_of_ok (get_run u), hfu]
  exact hs s s u h

/-- An update that leaves VEC alone and does not look at it. -/
theorem SeesRegion.of_modify {f : State → State} (hf : ∀ s m, f { s with vec := m } = { f s with vec := m })
    (hvec : ∀ s, (f s).vec = s.vec) : SeesRegion lo n (modify f : Cmd PUnit) := by
  intro s u h
  refine .ok _ ⟨?_, fun w h1 h2 => ?_⟩
  · have hfu : f u = { f s with vec := u.vec } := by rw [← hf, ← h.1]
    rw [SameButVec, hvec]
    exact hfu
  · rw [hvec, hvec, h.2 w h1 h2]

theorem SeesRegion.forEach {f : α → Cmd β} (as : List α) (hf : ∀ a ∈ as, SeesRegion lo n (f a)) :
    SeesRegion lo n (Machine.forEach f as) := by
  induction as with
  | nil => exact .pure _
  | cons a as ih =>
    exact .bind (hf a List.mem_cons_self) fun _ =>
      .bind (ih fun b hb => hf b (List.mem_cons_of_mem _ hb)) fun _ => .pure _

/-! Reads of the packet -/

theorem seesRegion_drawNat : SeesRegion lo n drawNat := by
  intro s u h
  rw [h.1]
  exact .ok _ ⟨rfl, h.2⟩

theorem seesRegion_drawWord : SeesRegion lo n drawWord := by
  intro s u h
  rw [h.1]
  exact .ok _ ⟨rfl, h.2⟩

theorem seesRegion_packetBit (p : Nat) : SeesRegion lo n (packetBit p) := by
  refine .get_bind (fun _ _ => rfl) fun s => ?_
  split
  · exact .stopFault _
  · split
    · exact .pure _
    · refine .bind seesRegion_drawNat fun k => ?_
      split
      · exact .pure _
      · exact .bind seesRegion_drawWord fun _ => .pure _

theorem seesRegion_readBit : SeesRegion lo n readBit :=
  .get_bind (fun _ _ => rfl) fun _ => .bind (.raiseIf _ _) fun _ => .bind (seesRegion_packetBit _) fun _ =>
    .bind (.of_modify (fun _ _ => rfl) fun _ => rfl) fun _ => .pure _

theorem seesRegion_walk (t : Tree) : SeesRegion lo n (walk t) := by
  induction t with
  | empty => exact .raise _
  | leaf sym => exact .pure _
  | inner a b iha ihb =>
    refine .bind seesRegion_readBit fun b1 => ?_
    split
    · exact ihb
    · exact iha

theorem seesRegion_codebookAt (k : Nat) : SeesRegion lo n (codebookAt k) := by
  refine .get_bind (fun _ _ => rfl) fun s => ?_
  split
  · exact .pure _
  · exact .raise _

theorem seesRegion_scalarDecode (k : Nat) : SeesRegion lo n (scalarDecode k) :=
  .bind (seesRegion_codebookAt k) fun c => seesRegion_walk c.tree

theorem seesRegion_vectorDecode (k : Nat) : SeesRegion lo n (vectorDecode k) := by
  refine .bind (seesRegion_codebookAt k) fun c => ?_
  split
  · exact .raise _
  · exact .bind (seesRegion_scalarDecode k) fun _ => .pure _

theorem seesRegion_residueChecks (r nvec : Nat) : SeesRegion lo n (residueChecks r nvec) := by
  have hres : SeesRegion lo n (residueAt r) := by
    refine .get_bind (fun _ _ => rfl) fun s => ?_
    split
    · exact .pure _
    · exact .raise _
  exact .get_bind (fun _ _ => rfl) fun _ => .bind (.raiseIf _ _) fun _ => .bind (.raiseIf _ _) fun _ =>
    .bind (.raiseIf _ _) fun _ => .bind hres fun _ => .bind (.raiseIf _ _) fun _ => .pure _

/-! Words of the region -/

theorem seesRegion_vecRead {w : Nat} (h1 : lo ≤ w) (h2 : w < lo + n) : SeesRegion lo n (vecRead w) := by
  intro s u h
  rw [vecRead_run, vecRead_run, h.2 w h1 h2]
  cases s.vec.find w with
  | none => exact .error _ h.1
  | some x => exact .ok x h

theorem seesRegion_vecWrite (w : Nat) (xs : List Word) : SeesRegion lo n (vecWrite w xs) := by
  intro s u h
  refine .ok _ ⟨?_, fun k h1 h2 => ?_⟩
  · rw [h.1]
    rfl
  · rw [storeVec_vec, storeVec_vec, Sparse.find_store, Sparse.find_store, h.2 k h1 h2]

/-- A store makes two states that differ in VEC only agree on what it stores. -/
theorem SameButVec.agreeOn_storeVec {s u : State} (h : SameButVec s u) (w : Nat) (xs : List Word) :
    AgreeOn w xs.length (storeVec s w xs) (storeVec u w xs) := by
  refine ⟨?_, fun k h1 h2 => ?_⟩
  · rw [h]
    rfl
  · rw [storeVec_vec, storeVec_vec, Sparse.find_store, Sparse.find_store, if_pos ⟨h1, h2⟩, if_pos ⟨h1, h2⟩]

/-! The decode -/

section
variable (j : ResidueJob)

/-- The region of the job is all of VEC the piece sees. -/
abbrev SeesJob (c : Cmd α) : Prop := SeesRegion j.base (j.nvec * j.len) c

theorem seesJob_addValues {v : Nat} (hv : v ∈ j.active) : ∀ (xs : List Word) (i : Nat), SeesJob j (addValues j v i xs)
  | [], _ => .pure _
  | x :: xs, i => by
    by_cases hi : j.lvec ≤ i
    · unfold addValues
      rw [decide_eq_true hi]
      exact fun _ _ h => .error _ h.1
    · obtain ⟨h1, h2⟩ := j.target_mem hv (Nat.lt_of_not_le hi)
      exact .bind (.raiseIf _ _) fun _ => .bind (seesRegion_vecRead h1 h2) fun _ =>
        .bind (seesRegion_vecWrite _ _) fun _ => seesJob_addValues hv xs (i + 1)

theorem seesJob_fillPartition {v : Nat} (hv : v ∈ j.active) (bk off : Nat) :
    ∀ fuel k, SeesJob j (fillPartition j bk v off fuel k)
  | 0, _ => .pure _
  | fuel + 1, k => by
    unfold fillPartition
    split
    · exact .bind (seesRegion_vectorDecode bk) fun _ => .bind (seesJob_addValues j hv _ _) fun _ =>
        seesJob_fillPartition hv bk off fuel _
    · exact .pure _

theorem seesJob_decodePartition {v : Nat} (hv : v ∈ j.active) (bk off : Nat) : SeesJob j (decodePartition j bk v off) :=
  .bind (seesRegion_codebookAt bk) fun _ => .bind (.raiseIf _ _) fun _ => seesJob_fillPartition j hv bk off _ _

theorem seesJob_classify (dc room : Nat) (cls : List (List Nat)) : SeesJob j (classify j dc room cls) :=
  .forEach _ fun _ _ => .bind (seesRegion_scalarDecode _) fun _ => .pure _

theorem seesJob_decodeVectorPartition (pass p : Nat) (vk : Nat × List Nat) (hv : vk.1 ∈ j.active) :
    SeesJob j (decodeVectorPartition j pass p vk) := by
  unfold decodeVectorPartition
  simp only
  split
  · split
    · exact seesJob_decodePartition j hv _ _
    · exact .raise _
  · exact .pure _

theorem seesJob_decodeGroup (pass : Nat) (cls : List (List Nat)) : ∀ ps, SeesJob j (decodeGroup j pass cls ps)
  | [] => .pure _
  | p :: ps => .bind (.forEach _ fun vk hvk => seesJob_decodeVectorPartition j pass p vk (List.of_mem_zip hvk).1) fun _ =>
      seesJob_decodeGroup pass cls ps

theorem seesJob_decodePass (dc parts pass : Nat) : ∀ fuel p cls, SeesJob j (decodePass j dc parts pass fuel p cls)
  | 0, _, _ => .pure _
  | fuel + 1, p, _ => by
    unfold decodePass
    split
    · have tail : ∀ cls', SeesJob j (do
          decodeGroup j pass cls' (List.range' p (min dc (parts - p)))
          decodePass j dc parts pass fuel (p + dc) cls') :=
        fun cls' => .bind (seesJob_decodeGroup j pass cls' _) fun _ => seesJob_decodePass dc parts pass fuel _ _
      split
      · exact .bind (seesJob_classify j _ _ _) tail
      · exact .bind (.pure _) tail
    · exact .pure _

theorem seesJob_decodePasses (dc parts : Nat) : ∀ passes cls, SeesJob j (decodePasses j dc parts passes cls)
  | [], _ => .pure _
  | _ :: rest, _ => .bind (seesJob_decodePass j dc parts _ _ _ _) fun _ => seesJob_decodePasses dc parts rest _

theorem seesJob_decodeResidue : SeesJob j (decodeResidue j) := by
  refine .get_bind (fun _ _ => rfl) fun s => ?_
  split
  · exact .pure _
  · exact .bind (.raiseIf _ _) fun _ => .bind (.raiseIf _ _) fun _ =>
      .bind (.bind (seesRegion_codebookAt _) fun _ => .bind (.raiseIf _ _) fun _ => seesJob_decodePasses j _ _ _ _)
        fun _ => .get_bind (fun _ _ => rfl) fun _ => .pure _

end

/-! The command -/

/-- The draws that replace the region do not look at VEC (R107). -/
theorem SeesRegion.onRaise_freeVec {c : Cmd α} (w m : Nat) (hc : SeesRegion lo n c) :
    SeesRegion lo n (Machine.onRaise (freeVec w m) c) := by
  intro s u h
  rw [onRaise_run, onRaise_run]
  have hend := hc s u h
  generalize c s = x, c u = y at hend
  cases hend with
  | ok a h => exact .ok a h
  | @error x t u h =>
    cases x with
    | raise e => exact .error _ (by rw [h]; rfl)
    | fault f => exact .error _ h

/-- Two outcomes that differ in VEC only, and outside the region where no error is taken. -/
inductive AgreeingOutcome (lo n : Nat) :
    Host.Outcome State Fault Refusal → Host.Outcome State Fault Refusal → Prop where
  | next {t u : State} (h : SameButVec t u)
      (hvec : t.err = false → ∀ w, lo ≤ w → w < lo + n → u.vec.find w = t.vec.find w) :
      AgreeingOutcome lo n (.next t) (.next u)
  | fault (f : Fault) : AgreeingOutcome lo n (.fault f) (.fault f)

theorem agreeingOutcome_runCommand {i : Instr} {c : Cmd Unit} {s u : State} (h : AgreeingEnd lo n (c s) (c u))
    (hpos : u.bitpos = s.bitpos) : AgreeingOutcome lo n (runCommand i c s) (runCommand i c u) := by
  unfold runCommand
  rw [hpos]
  generalize c s = x, c u = y at h
  cases h with
  | ok _ h => exact .next h.1 fun _ => h.2
  | error x h =>
    cases x with
    | raise e => exact .next (by rw [h]; rfl) nofun
    | fault f => exact .fault f

/-- Past its checks the command zeroes the region, so its two runs agree there from then on (R85). -/
theorem agreeingOutcome_resDecode (r nvec : Nat) {s u : State} (h : SameButVec s u) :
    AgreeingOutcome s.arg0.toNat (nvec * s.arg1.toNat) (exec (.resDecode r nvec) s) (exec (.resDecode r nvec) u) := by
  refine agreeingOutcome_runCommand ?_ (by rw [h])
  rw [bind_run, bind_run]
  have hchecks : AgreeingEnd 0 0 (residueChecks r nvec s) (residueChecks r nvec u) :=
    seesRegion_residueChecks r nvec s u ⟨h, fun w _ hw => absurd hw (Nat.not_lt_zero w)⟩
  generalize hrun : residueChecks r nvec s = x, residueChecks r nvec u = y at hchecks
  cases hchecks with
  | error x h => exact .error x h
  | ok j hagree =>
    obtain ⟨rfl, -, -, -, -, -, hbase, hnvec, hlen, -⟩ := residueChecks_ok hrun
    have hzero := hagree.1.agreeOn_storeVec j.base (List.replicate (j.nvec * j.len) 0)
    rw [List.length_replicate] at hzero
    have hend := (((seesJob_decodeResidue j).onRaise_freeVec j.base (j.nvec * j.len)).bind fun used =>
      .of_modify (f := setResult (BitVec.ofNat 32 used)) (fun _ _ => rfl) fun _ => rfl) _ _ hzero
    rw [← hbase, ← hnvec, ← hlen]
    exact hend

/-- Settles O43: nothing of the decode sees VEC outside the region it has zeroed (`agreeingOutcome_resDecode`). -/
theorem resDecodeDoesNotSeeOldVec : Obligations.ResDecodeDoesNotSeeOldVec := by
  intro s r nvec v
  have h := agreeingOutcome_resDecode r nvec (show SameButVec s { s with vec := v } from rfl)
  generalize exec (.resDecode r nvec) s = x, exec (.resDecode r nvec) { s with vec := v } = y at h
  cases h with
  | next h hvec => exact ⟨h, fun _ => hvec⟩
  | fault f => rfl

end Sys2Proof.Machine
end

section
/-!
PROOFS. The configuration and control commands (44_config.md rules R87 to R90; 45_synthesis.md R99, R100; 60_exceptions.md
R108): what the checks of CFG_SEAL find, the error that breaks a configuration, NOP, and the commands that reset a state.
-/

namespace Sys2Proof.Machine

/-! An error of a configuration command in OPEN (R107, R108) -/

section
variable {i : Instr} {e : ErrorCode} {s : State}

/-- The error entry of a command that reads no bits, taken where the command stands. -/
theorem errorFrom_of_not_readsBits (hr : readsBits i = false) (start : Nat) (e : ErrorCode) (s : State) :
    ErrorFrom i e s (errorEntry (opByte i) (readsBits i) start e s) := by
  have hbit : (errorEntry (opByte i) (readsBits i) start e s).bitpos = s.bitpos := by
    rw [errorEntry_bitpos, if_neg (by simp [hr])]
  exact ⟨rfl, fun _ => hbit, fun hle => by rw [hbit]; exact ⟨le_rfl, hle⟩⟩

/-- A command that needs OPEN and whose checks raise there leaves BROKEN (R108 (a)). -/
theorem raisesAndBreaks_of_checks {checks : Cmd Unit} {rest : Unit → Cmd Unit} (hr : readsBits i = false)
    (hi : exec i s = runCommand i (do
      raiseIf (decide (s.cfgState ≠ .opened)) .cfgState
      onRaise breakConfig checks >>= rest) s)
    (ho : s.cfgState = .opened) (h : checks s = .error (.raise e) s) : RaisesAndBreaks i e s := by
  have hchecks : onRaise breakConfig checks s = .error (.raise e) (breakConfig s) := by rw [onRaise_run, h]
  exact ⟨_, hi.trans (runCommand_of_raise (by rw [bind_raiseIf_false (by simp [ho]), bind_of_error hchecks])),
    errorFrom_of_not_readsBits hr _ _ _⟩

end

/-! CFG_SEAL (R89) -/

section
variable {ncb nres : Nat} {s : State}

/-- The residue checks pass where every slot's references resolve. -/
theorem forEach_sealResidue_run {rs : List Nat}
    (h : ∀ r ∈ rs, ∃ x, s.res.find r = some x ∧ x.classbook < ncb ∧ ∀ b ∈ residueBooks x, b < ncb) :
    ∃ us, forEach (sealResidue ncb) rs s = .ok us s := by
  cases hrun : forEach (sealResidue ncb) rs s with
  | ok us t => exact ⟨us, by rw [(forEach_sealResidue_ok hrun).1]⟩
  | error x t => exact absurd h (forEach_sealResidue_error hrun).2.2

/-- The checks pass where the counts are in range and the slots are sealable. -/
theorem sealChecks_run (h0 : arg0Nat s ≤ nCb) (h1 : arg1Nat s ≤ nRes) (h : Sealable s) :
    sealChecks (arg0Nat s) (arg1Nat s) s = .ok () s := by
  obtain ⟨hcb, hres⟩ := h
  have hslots : ((List.range (arg0Nat s)).any fun k => (s.cb.find k).isNone) = false := by
    simpa [Option.isSome_iff_ne_none] using hcb
  obtain ⟨us, hrun⟩ := forEach_sealResidue_run (rs := List.range (arg1Nat s)) fun r hr => hres r (List.mem_range.1 hr)
  rw [sealChecks, bind_raiseIf_false (decide_eq_false (Nat.not_lt.2 h0)),
    bind_raiseIf_false (decide_eq_false (Nat.not_lt.2 h1)), bind_of_ok (get_run s), bind_raiseIf_false hslots,
    bind_of_ok hrun, pure_run]

/-- A count out of range is found first. -/
theorem sealChecks_badCfg (h : nCb < ncb ∨ nRes < nres) : sealChecks ncb nres s = .error (.raise .badCfg) s := by
  cases hrun : sealChecks ncb nres s with
  | ok u t =>
    obtain ⟨-, h0, h1, -⟩ := sealChecks_ok hrun
    omega
  | error x t =>
    obtain ⟨rfl, ⟨-, rfl⟩ | ⟨⟨h0, h1⟩, -⟩⟩ := sealChecks_error hrun
    · rfl
    · omega

/-- With the counts in range, what the checks find is a reference (R89). -/
theorem sealChecks_badRef (h0 : arg0Nat s ≤ nCb) (h1 : arg1Nat s ≤ nRes) (h : ¬ Sealable s) :
    sealChecks (arg0Nat s) (arg1Nat s) s = .error (.raise .badRef) s := by
  cases hrun : sealChecks (arg0Nat s) (arg1Nat s) s with
  | ok u t =>
    obtain ⟨rfl, -, -, hcb, hres⟩ := sealChecks_ok hrun
    exact absurd ⟨hcb, hres⟩ h
  | error x t =>
    obtain ⟨rfl, ⟨hout, -⟩ | ⟨-, rfl⟩⟩ := sealChecks_error hrun
    · omega
    · rfl

/-- CFG_SEAL whose checks pass seals with its counts. -/
theorem exec_cfgSeal_run (ho : s.cfgState = .opened) (h : sealChecks (arg0Nat s) (arg1Nat s) s = .ok () s) :
    exec .cfgSeal s = .next { s with cbCount := arg0Nat s, resCount := arg1Nat s, cfgState := .sealed } := by
  have hchecks : onRaise breakConfig (sealChecks (arg0Nat s) (arg1Nat s)) s = .ok () s := by rw [onRaise_run, h]
  exact runCommand_of_ok (u := ()) (by rw [bind_raiseIf_false (by simp [ho]), bind_of_ok hchecks, modify_run])

end

/-- Settles O15: CFG_STATE first, then the counts, then the slots and their references, each where those before it find
nothing. -/
theorem cfgSealChecksAndSeals : Obligations.CfgSealChecksAndSeals := fun _ =>
  ⟨fun ho h0 h1 h => exec_cfgSeal_run ho (sealChecks_run h0 h1 h),
    fun ho => raises_of_check rfl (decide_eq_true ho),
    fun ho h => raisesAndBreaks_of_checks rfl rfl ho (sealChecks_badCfg h),
    fun ho h0 h1 h => raisesAndBreaks_of_checks rfl rfl ho (sealChecks_badRef h0 h1 h)⟩

/-! NOP (R87) -/

/-- A word whose opcode byte is 0 has format F0 and is NOP or illegal. -/
theorem decode_of_lt {c : Word} (h : c.toNat < 2 ^ 24) : decode c = fieldsF0 c.toNat .nop := by
  rw [decode, Nat.div_eq_of_lt h, Nat.mod_eq_of_lt h]
  rfl

/-- Settles O12: format F0 takes the payload 0 only, and NOP's rule is empty. -/
theorem nopChangesNothing : Obligations.NopChangesNothing := by
  refine ⟨decode_encode (i := .nop) rfl, rfl, fun s => runCommand_of_ok (i := .nop) (pure_run () s), fun c hlt hne => ?_⟩
  have hpayload : c.toNat ≠ 0 := fun h => hne (BitVec.eq_of_toNat_eq h)
  rw [decode_of_lt hlt, fieldsF0, if_neg hpayload]

/-! The commands that reset a state (R88, R90, R99, R100) -/

/-- A command whose rule is one update of the state ends at the updated state. -/
theorem runCommand_modify (i : Instr) (f : State → State) (s : State) : runCommand i (modify f) s = .next (f s) :=
  runCommand_of_ok (modify_run f s)

/-- STATUS, CFGINFO and LAPINFO after SOFT_RESET are those of the reset state: all their fields are reset (R88). -/
theorem readBack_softResetState (s : State) :
    statusWord (softResetState s) = 0 ∧ cfginfoWord (softResetState s) = 0 ∧ lapinfoWord (softResetState s) = 0 :=
  ⟨rfl, rfl, rfl⟩

/-- Settles O13: each of the four commands is one update, written out. -/
theorem resettingCommandsClearTheirState : Obligations.ResettingCommandsClearTheirState := fun s =>
  ⟨⟨softResetState s, runCommand_modify .softReset _ s, rfl, readBack_softResetState s⟩,
    runCommand_modify .cfgReset cfgResetState s,
    runCommand_modify .synReset (fun t => { t with lapValid := false, tailLen := 0 }) s,
    runCommand_modify .pcmClear (fun t => { t with pcmcount := 0 }) s⟩

end Sys2Proof.Machine
end

section
/-!
PROOFS. The tapers of a block and its window (45_synthesis.md rules R92, R93): where the tapers of a legal block lie, and
what the window function is on them.
-/

namespace Sys2Proof.Machine

/-! The tapers -/

section
variable {e0 e1 : Nat} {w pw nw : Bool}

theorem geometry_n : (geometry e0 e1 w pw nw).n = 2 ^ (if w then e1 else e0) := rfl

/-- A left taper that no shorter neighbour compresses is the left half of the block. -/
theorem geometry_left_full (h : w = false ∨ pw = true) :
    (geometry e0 e1 w pw nw).ls = 0 ∧ (geometry e0 e1 w pw nw).ln = (geometry e0 e1 w pw nw).n / 2 := by
  obtain rfl | rfl := h
  · exact ⟨rfl, rfl⟩
  · cases w <;> exact ⟨rfl, rfl⟩

theorem geometry_left_short : (geometry e0 e1 true false nw).ls = 2 ^ e1 / 4 - 2 ^ e0 / 4
    ∧ (geometry e0 e1 true false nw).ln = 2 ^ e0 / 2 := ⟨rfl, rfl⟩

/-- A legal block size is a multiple of 4, so the quarters and halves of R92 are exact. -/
theorem two_pow_eq_four_mul {e : Nat} (h : 6 ≤ e) : ∃ q, 0 < q ∧ 2 ^ e = 4 * q :=
  ⟨2 ^ (e - 2), Nat.two_pow_pos _, by rw [show 4 = 2 ^ 2 by rfl, ← Nat.pow_add, Nat.add_sub_cancel' (by omega)]⟩

/-- The left taper lies in the left half of the block, and is that half or is centred on its middle. -/
theorem geometry_left (h0 : 6 ≤ e0) (h1 : e0 ≤ e1) :
    let g := geometry e0 e1 w pw nw
    g.ls < g.ls + g.ln ∧ g.ls + g.ln ≤ g.n / 2 ∧ (w = true → pw = false → 2 * g.ln = 2 ^ e0 ∧ 2 * g.ls + g.ln = g.n / 2)
      ∧ (w = false ∨ pw = true → g.ls = 0 ∧ 2 * g.ln = g.n) := by
  intro g
  obtain ⟨a, ha, hs⟩ := two_pow_eq_four_mul h0
  obtain ⟨b, hb, hn⟩ := two_pow_eq_four_mul (h0.trans h1)
  by_cases hfull : w = false ∨ pw = true
  · obtain ⟨q, hq, hgn⟩ : ∃ q, 0 < q ∧ g.n = 4 * q := two_pow_eq_four_mul (by split <;> omega)
    obtain ⟨hls, hln⟩ : g.ls = 0 ∧ g.ln = g.n / 2 := geometry_left_full hfull
    exact ⟨by omega, by omega, fun hw hpw => by simp [hw, hpw] at hfull, fun _ => by omega⟩
  · obtain ⟨rfl, rfl⟩ : w = true ∧ pw = false := by simpa using hfull
    have hle : 2 ^ e0 ≤ 2 ^ e1 := Nat.pow_le_pow_right (by omega) h1
    have hgn : g.n = 2 ^ e1 := rfl
    obtain ⟨hls, hln⟩ : g.ls = 2 ^ e1 / 4 - 2 ^ e0 / 4 ∧ g.ln = 2 ^ e0 / 2 := geometry_left_short
    exact ⟨by omega, by omega, fun _ _ => by omega, fun h => absurd h hfull⟩

/-- The right taper lies in the right half as the left taper of the mirrored block, its neighbours exchanged, lies in the
left half. -/
theorem geometry_mirror (h0 : 6 ≤ e0) (h1 : e0 ≤ e1) :
    let g := geometry e0 e1 w pw nw
    let m := geometry e0 e1 w nw pw
    g.rs = g.n / 2 + m.ls ∧ g.rn = m.ln ∧ g.n = m.n := by
  intro g m
  cases w
  case false => exact ⟨rfl, rfl, rfl⟩
  cases nw
  case true => exact ⟨rfl, rfl, rfl⟩
  obtain ⟨q, -, hn⟩ := two_pow_eq_four_mul (h0.trans h1)
  have hle : 2 ^ e0 ≤ 2 ^ e1 := Nat.pow_le_pow_right (by omega) h1
  have hrs : g.rs = 3 * 2 ^ e1 / 4 - 2 ^ e0 / 4 := rfl
  have hls : m.ls = 2 ^ e1 / 4 - 2 ^ e0 / 4 := rfl
  have hgn : g.n = 2 ^ e1 := rfl
  exact ⟨by omega, rfl, rfl⟩

/-- The right taper lies in the right half of the block, and is that half or is centred on its middle. -/
theorem geometry_right (h0 : 6 ≤ e0) (h1 : e0 ≤ e1) :
    let g := geometry e0 e1 w pw nw
    g.n / 2 ≤ g.rs ∧ g.rs < g.rs + g.rn ∧ g.rs + g.rn ≤ g.n
      ∧ (w = true → nw = false → 2 * g.rn = 2 ^ e0 ∧ 2 * g.rs + g.rn = 3 * g.n / 2)
      ∧ (w = false ∨ nw = true → 2 * g.rs = g.n ∧ 2 * g.rn = g.n) := by
  intro g
  obtain ⟨hpos, hle, hshort, hfull⟩ := geometry_left (w := w) (pw := nw) (nw := pw) h0 h1
  obtain ⟨hrs, hrn, hn⟩ : g.rs = g.n / 2 + _ ∧ g.rn = _ ∧ g.n = _ := geometry_mirror h0 h1
  obtain ⟨q, -, hq⟩ : ∃ q, 0 < q ∧ g.n = 4 * q := two_pow_eq_four_mul (by split <;> omega)
  refine ⟨by omega, by omega, by omega, fun hw hnw => ?_, fun h => ?_⟩
  · have := hshort hw hnw
    omega
  · have := hfull h
    omega

end

/-- Settles O45, from the two tapers' own lemmas; a short block looks at neither neighbour. -/
theorem geometryOfABlock : Obligations.GeometryOfABlock := by
  intro e0 e1 w pw nw h0 h1 _ g
  obtain ⟨hleft, hle, hshortL, hfullL⟩ := geometry_left (w := w) (pw := pw) (nw := nw) h0 h1
  obtain ⟨hrs, hright, hre, hshortR, hfullR⟩ := geometry_right (w := w) (pw := pw) (nw := nw) h0 h1
  exact ⟨geometry_n, hleft, hle, hrs, hright, hre, fun hw => by subst hw; rfl, hshortL, hshortR, hfullL, hfullR⟩

/-! The window function -/

theorem windowFunction_mem (k j : Nat) : 0 ≤ windowFunction k j ∧ windowFunction k j ≤ 1 := by
  have hsq := Real.sin_sq_le_one (Real.pi / k * (j + 1 / 2))
  have hpi := Real.pi_pos
  exact ⟨Real.sin_nonneg_of_nonneg_of_le_pi (by positivity) (by nlinarith), Real.sin_le_one _⟩

/-- Both sines of the window function rise up to the middle of the window. -/
theorem windowFunction_lt {k i j : Nat} (hij : i < j) (hj : 2 * j + 1 ≤ k) : windowFunction k i < windowFunction k j := by
  have hpi := Real.pi_pos
  have hk : (0 : ℝ) < k := by exact_mod_cast (by omega : 0 < k)
  have hj : (2 * j + 1 : ℝ) ≤ k := by exact_mod_cast hj
  have hij : (i : ℝ) < j := by exact_mod_cast hij
  have hlt : Real.pi / k * (i + 1 / 2) < Real.pi / k * (j + 1 / 2) :=
    mul_lt_mul_of_pos_left (by linarith) (by positivity)
  have hmiddle : Real.pi / k * (j + 1 / 2) ≤ Real.pi / 2 := by
    rw [div_mul_eq_mul_div, div_le_div_iff₀ hk two_pos]
    nlinarith
  have hpos : 0 ≤ Real.pi / k * ((i : ℝ) + 1 / 2) := by positivity
  have hinner : Real.sin (Real.pi / k * (i + 1 / 2)) < Real.sin (Real.pi / k * (j + 1 / 2)) :=
    Real.sin_lt_sin_of_lt_of_le_pi_div_two (by linarith) hmiddle hlt
  have hsq : Real.sin (Real.pi / k * (i + 1 / 2)) ^ 2 < Real.sin (Real.pi / k * (j + 1 / 2)) ^ 2 :=
    pow_lt_pow_left₀ hinner (Real.sin_nonneg_of_nonneg_of_le_pi hpos (by linarith)) two_ne_zero
  have hone := Real.sin_sq_le_one (Real.pi / k * (j + 1 / 2))
  have hnonneg := sq_nonneg (Real.sin (Real.pi / k * ((i : ℝ) + 1 / 2)))
  exact Real.sin_lt_sin_of_lt_of_le_pi_div_two (by nlinarith) (by nlinarith) (by nlinarith)

/-- Half a window further on, the inner sine has become a cosine, and then so has the outer one. -/
theorem windowFunction_sq_add_sq {n : Nat} (hn : 0 < n) (j : Nat) :
    windowFunction (2 * n) j ^ 2 + windowFunction (2 * n) (n + j) ^ 2 = 1 := by
  have hn : (n : ℝ) ≠ 0 := by exact_mod_cast hn.ne'
  have hinner : Real.pi / (2 * n : Nat) * ((n + j : Nat) + 1 / 2) = Real.pi / (2 * n : Nat) * (j + 1 / 2) + Real.pi / 2 := by
    push_cast
    field_simp
    ring
  have houter (x : ℝ) : Real.pi / 2 * Real.cos x ^ 2 = Real.pi / 2 - Real.pi / 2 * Real.sin x ^ 2 := by
    rw [Real.cos_sq']
    ring
  rw [windowFunction, windowFunction, hinner, Real.sin_add_pi_div_two, houter, Real.sin_pi_div_two_sub,
    Real.sin_sq_add_cos_sq]

/-! The window of a block -/

section
variable {g : Geometry} {j : Nat}

theorem window_mem (g : Geometry) (i : Nat) : 0 ≤ window g i ∧ window g i ≤ 1 := by
  unfold window
  split_ifs
  · simp
  · exact windowFunction_mem _ _
  · simp
  · exact windowFunction_mem _ _
  · simp

/-- The left taper is the rising half of a window. -/
theorem window_left (hj : j < g.ln) : window g (g.ls + j) = windowFunction (2 * g.ln) j := by
  have hle := Geometry.le_eq g
  rw [window, if_neg (by omega), if_pos (by omega), Nat.add_sub_cancel_left]

/-- The right taper is the falling half of a window. -/
theorem window_right (h : Geometry.le g ≤ g.rs) (hj : j < g.rn) :
    window g (g.rs + j) = windowFunction (2 * g.rn) (g.rn + j) := by
  have hle := Geometry.le_eq g
  have hre := Geometry.re_eq g
  rw [window, if_neg (by omega), if_neg (by omega), if_neg (by omega), if_pos (by omega)]
  congr 1
  omega

end

/-- Settles O46: the tapers are halves of windows, so each clause is one about the window function. -/
theorem windowIsPowerComplementary : Obligations.WindowIsPowerComplementary := by
  refine ⟨window_mem, fun g j hj => ?_, fun g h j hwidth hh hj => ?_⟩
  · rw [Nat.add_assoc, window_left (by omega), window_left hj]
    exact windowFunction_lt (Nat.lt_succ_self j) (by omega)
  · rw [window_left hj, window_right hh (by omega), hwidth]
    exact windowFunction_sq_add_sq (by omega) j

end Sys2Proof.Machine
end

section
/-!
PROOFS. SYN_CONFIG (45_synthesis.md rule R97), and how many samples a run of SYN_BLOCK commands appends (R98, R101).
-/

namespace Sys2Proof.Machine

/-! SYN_CONFIG -/

/-- The checks of SYN_CONFIG on its exponents, in the order of R97. -/
def sizeChecks (e0 e1 : Nat) : Cmd Unit := do
  raiseIf (decide (e0 < bsMinExp ∨ bsMaxExp < e0)) .badCfg
  raiseIf (decide (e1 < e0 ∨ bsMaxExp < e1)) .badCfg

section
variable {e0 e1 : Nat} {s : State}

theorem exec_synConfig (e0 e1 : Nat) (s : State) : exec (.synConfig e0 e1) s = runCommand (.synConfig e0 e1) (do
    raiseIf (decide (s.cfgState ≠ .opened)) .cfgState
    onRaise breakConfig (sizeChecks e0 e1)
    modify fun t => { t with e0 := BitVec.ofNat 4 e0, e1 := BitVec.ofNat 4 e1, synValid := true }) s := rfl

theorem sizeChecks_run (h : 6 ≤ e0 ∧ e0 ≤ e1 ∧ e1 ≤ 13) : sizeChecks e0 e1 s = .ok () s := by
  have h0 : ¬ (e0 < 6 ∨ 13 < e0) := by omega
  have h1 : ¬ (e1 < e0 ∨ 13 < e1) := by omega
  rw [sizeChecks, bind_raiseIf_false (decide_eq_false h0), decide_eq_false h1, raiseIf_false]

theorem sizeChecks_badCfg (h : ¬ (6 ≤ e0 ∧ e0 ≤ e1 ∧ e1 ≤ 13)) :
    sizeChecks e0 e1 s = .error (.raise .badCfg) s := by
  by_cases h0 : e0 < 6 ∨ 13 < e0
  · rw [sizeChecks, bind_raiseIf_true (decide_eq_true h0)]
  · have h1 : e1 < e0 ∨ 13 < e1 := by omega
    rw [sizeChecks, bind_raiseIf_false (decide_eq_false h0), decide_eq_true h1, raiseIf_true]

end

/-- Settles O44: CFG_STATE first, then the exponents, whose error R108 makes break the configuration. -/
theorem synConfigSetsTheBlockSizes : Obligations.SynConfigSetsTheBlockSizes := by
  refine fun s e0 e1 => ⟨fun ho h0 h1 h2 => ?_, fun ho h => ?_, fun ho => ?_⟩
  · have hchecks : onRaise breakConfig (sizeChecks e0 e1) s = .ok () s := by rw [onRaise_run, sizeChecks_run ⟨h0, h1, h2⟩]
    rw [exec_synConfig]
    exact runCommand_of_ok (u := ()) (by rw [bind_raiseIf_false (by simp [ho]), bind_of_ok hchecks, modify_run])
  · exact raisesAndBreaks_of_checks rfl (exec_synConfig e0 e1 s) ho (sizeChecks_badCfg h)
  · exact raises_of_check (exec_synConfig e0 e1 s) (decide_eq_true ho)

/-! Runs of SYN_BLOCK -/

section
variable {s t : State} {w pw nw : Bool} {b : Bool × Bool × Bool} {bs : List (Bool × Bool × Bool)}

/-- What a SYN_BLOCK without an error leaves for the next one: its count is added, and there is a tail to overlap with. -/
theorem exec_synBlock_noError (h : exec (.synBlock w pw nw) s = .next t) (herr : t.err = false) :
    t.pcmcount = s.pcmcount + blockCount s (blockGeometry s w pw nw) ∧ t.lapValid = true ∧ t.e0 = s.e0 ∧ t.e1 = s.e1 := by
  obtain ⟨e, rfl⟩ | ⟨x, ys, u, -, -, -, -, hys, rfl⟩ := exec_synBlock_next h
  · cases herr
  · obtain ⟨_, d, hrun, -, -⟩ := blockSamples_run s.params (blockGeometry s w pw nw) x s
    cases hys.symm.trans hrun
    exact ⟨rfl, rfl, rfl, rfl⟩

theorem runBlocks_cons (h : runBlocks ((w, pw, nw) :: bs) s = some t) :
    ∃ u, exec (.synBlock w pw nw) s = .next u ∧ u.err = false ∧ runBlocks bs u = some t := by
  rw [runBlocks] at h
  split at h
  · rename_i u hu
    obtain ⟨herr, hrun⟩ : u.err = false ∧ runBlocks bs u = some t := by simpa using h
    exact ⟨u, hu, herr, hrun⟩
  · cases h

/-- The samples a block appends that is not a first one: its overlap and its middle (R101). -/
def laterCount (e0 e1 : Nat) (b : Bool × Bool × Bool) : Nat :=
  let g := geometry e0 e1 b.1 b.2.1 b.2.2
  g.ln + (g.rs - (g.ls + g.ln))

theorem blockCount_of_lapValid (h : s.lapValid = true) :
    blockCount s (blockGeometry s w pw nw) = laterCount s.e0.toNat s.e1.toNat (w, pw, nw) := by
  rw [blockCount_eq, overlapCount, if_pos h, middleStart_eq, if_neg (by simp [h])]
  rfl

/-- The count of a first block: its middle alone (R98). -/
theorem blockCount_of_not_lapValid {g : Geometry} (h : s.lapValid = false) : blockCount s g
    = g.rs - if s.params.firstMiddle = .fromCentre then max (g.ls + g.ln) (g.n / 2) else g.ls + g.ln := by
  rw [blockCount_eq, overlapCount, if_neg (by simp [h]), middleStart_eq, Nat.zero_add]
  simp only [h, true_and]

/-- With a tail to start from, every block of a run appends its overlap and its middle (R101). -/
theorem runBlocks_pcmcount (hlap : s.lapValid = true) (h : runBlocks bs s = some t) :
    t.pcmcount = s.pcmcount + (bs.map (laterCount s.e0.toNat s.e1.toNat)).sum := by
  induction bs generalizing s with
  | nil => cases h; rfl
  | cons b bs ih =>
    obtain ⟨w, pw, nw⟩ := b
    obtain ⟨u, hexec, herr, hrun⟩ := runBlocks_cons h
    obtain ⟨hcount, hlap', he0, he1⟩ := exec_synBlock_noError hexec herr
    rw [ih hlap' hrun, hcount, blockCount_of_lapValid hlap, he0, he1, List.map_cons, List.sum_cons, Nat.add_assoc]

/-- A block whose tapers both are full has no middle, wherever a first block's starts: it appends half of itself (R98). -/
theorem geometry_full {e0 e1 : Nat} (h0 : 6 ≤ e0) (h1 : e0 ≤ e1) (hl : w = false ∨ pw = true) (hr : w = false ∨ nw = true) :
    let g := geometry e0 e1 w pw nw
    g.ls + g.ln = g.n / 2 ∧ g.rs = g.n / 2 ∧ laterCount e0 e1 (w, pw, nw) = g.n / 2 := by
  intro g
  obtain ⟨-, -, -, hleft⟩ := geometry_left (w := w) (pw := pw) (nw := nw) h0 h1
  obtain ⟨-, -, -, -, hright⟩ := geometry_right (w := w) (pw := pw) (nw := nw) h0 h1
  obtain ⟨hls, hln⟩ : g.ls = 0 ∧ 2 * g.ln = g.n := hleft hl
  obtain ⟨hrs, -⟩ : 2 * g.rs = g.n ∧ 2 * g.rn = g.n := hright hr
  have hlater : laterCount e0 e1 (w, pw, nw) = g.ln + (g.rs - (g.ls + g.ln)) := rfl
  exact ⟨by omega, by omega, by omega⟩

/-- A run from any lapping state: the first block's count there, then each block's overlap and middle (R101). -/
theorem runBlocks_pcmcount_first (h : runBlocks ((w, pw, nw) :: bs) s = some t) :
    t.pcmcount = s.pcmcount + blockCount s (blockGeometry s w pw nw)
      + (bs.map (laterCount s.e0.toNat s.e1.toNat)).sum := by
  obtain ⟨u, hexec, herr, hrest⟩ := runBlocks_cons h
  obtain ⟨hcount, hlap', he0, he1⟩ := exec_synBlock_noError hexec herr
  rw [runBlocks_pcmcount hlap' hrest, hcount, he0, he1]

/-- A run of blocks of one size with full tapers appends half a block for each block but the first (R101). -/
theorem runBlocks_pcmcount_full {e : Nat} (hsizes : SizesOk s) (hlap : s.lapValid = false)
    (h : runBlocks (b :: bs) s = some t)
    (hfull : ∀ c ∈ b :: bs, (c.1 = false ∨ c.2.1 = true) ∧ (c.1 = false ∨ c.2.2 = true)
      ∧ (if c.1 then s.e1.toNat else s.e0.toNat) = e) :
    t.pcmcount = s.pcmcount + bs.length * 2 ^ (e - 1) := by
  obtain ⟨h0, h1, -⟩ := hsizes
  have later : ∀ m ∈ bs.map (laterCount s.e0.toNat s.e1.toNat), m = 2 ^ (e - 1) := fun m hm => by
    obtain ⟨c, hc, rfl⟩ := List.mem_map.mp hm
    obtain ⟨hl, hr, hsize⟩ := hfull c (List.mem_cons_of_mem b hc)
    obtain ⟨-, -, hcount⟩ := geometry_full h0 h1 hl hr
    rw [hcount, geometry_n, hsize, Nat.pow_sub_one two_ne_zero (by split at hsize <;> omega)]
  obtain ⟨hl, hr, -⟩ := hfull b List.mem_cons_self
  have first : blockCount s (blockGeometry s b.1 b.2.1 b.2.2) = 0 := by
    obtain ⟨hle, hrs, -⟩ := geometry_full h0 h1 hl hr
    rw [blockCount_of_not_lapValid hlap, blockGeometry, hle, hrs, max_self, ite_self, Nat.sub_self]
  rw [runBlocks_pcmcount_first h, first, List.sum_eq_card_nsmul _ _ later, List.length_map, smul_eq_mul, Nat.add_zero]

end

/-- Settles O50: the first block has no tail to overlap with, and leaves one to the next. -/
theorem runOfBlocksAppendsTheSampleCount : Obligations.RunOfBlocksAppendsTheSampleCount := by
  intro s t w pw nw rest hsizes _ hlap hrun geom g ms
  refine ⟨?_, fun hshort => ?_, fun hlong => ?_⟩
  · rw [runBlocks_pcmcount_first hrun, blockCount_of_not_lapValid hlap]
    rfl
  · exact runBlocks_pcmcount_full hsizes hlap hrun fun c hc => by simp [hshort c hc]
  · exact runBlocks_pcmcount_full hsizes hlap hrun fun c hc => by simp [hlong c hc]

end Sys2Proof.Machine
end

section
/-!
PROOFS. The command gate (60_exceptions.md rule R106): what it does with a word it lets no command run for, and which
commands of the recovery set clear ERR.
-/

namespace Sys2Proof.Machine

/-! The gate and the step around it -/

section
variable {s t : State} {c : Word} {rest : List HostEvent}

/-- While ERR = 1 the gate ignores an illegal word and a command outside the recovery set. -/
theorem gate_ignored (herr : s.err = true) (h : ∀ i, decode c = .ok i → i.recovery = false) : gate c s = .next s := by
  cases hd : decode c with
  | ok i => simp [gate, hd, herr, h i hd]
  | error x => simp [gate, hd, herr]

/-- With ERR = 0 an illegal word takes the error entry with ILLEGAL and its opcode byte. -/
theorem gate_illegal (herr : s.err = false) (h : ∀ i, decode c ≠ .ok i) :
    gate c s = .next (errorEntry (opcodeByte c) false s.bitpos .illegal s) := by
  cases hd : decode c with
  | ok i => exact absurd hd (h i)
  | error x => simp [gate, hd, herr]

/-- The step that serves a write to CMD (R44): the gate between BUSY = 1 and `retire`. -/
theorem step_of_gate (hp : s.pending = .write 0 4 c :: rest) (hr : s.inReset = false)
    (hg : gate c { s with pending := rest, busy := true } = .next t) :
    step s = .next (retire (statusWord { s with busy := true }) t) := by
  rw [step_write (g := .reg .cmd) hp hr rfl]
  simp only [serveWrite, issue, hg]
  rfl

end

/-! The recovery set -/

theorem recovery_iff (i : Instr) : i.recovery = true ↔
    i = .nop ∨ i = .softReset ∨ i = .brStart ∨ i = .cfgReset ∨ i = .synReset ∨ i = .pcmClear := by
  cases i <;> simp [Instr.recovery]

/-- BR_START clears the error, or fails with RANGE and replaces it (R64, R106). -/
theorem exec_brStart_error (s : State) : ∃ t, exec .brStart s = .next t ∧
    (t.err = false ∧ t.errcode = 0 ∧ t.errop = 0 ∨ t.err = true ∧ t.errcode = 0x08 ∧ t.errop = 0x10) := by
  obtain ⟨hstart, hlong⟩ := brStartBeginsAPacket s
  obtain h | h := le_or_gt s.arg0.toNat s.params.pktBytes
  · exact ⟨_, hstart h, .inl ⟨rfl, rfl, rfl⟩⟩
  · obtain ⟨t, ht, heq, -⟩ := hlong h
    exact ⟨t, ht, .inr (by rw [heq]; exact ⟨rfl, rfl, rfl⟩)⟩

/-- Settles O5: the gate's two answers that run no command, and the six recovery commands one by one. -/
theorem commandGate : Obligations.CommandGate := by
  refine ⟨fun s c rest hp hr => ⟨fun herr h => ?_, fun herr h => ?_⟩, recovery_iff, fun s => ?_⟩
  · exact ⟨_, step_of_gate hp hr (gate_ignored herr h)⟩
  · exact ⟨_, _, _, step_of_gate hp hr (gate_illegal herr h)⟩
  · obtain ⟨⟨t, hsoft, heq, -⟩, hcfg, hsyn, hpcm⟩ := resettingCommandsClearTheirState s
    refine ⟨⟨t, hsoft, by rw [heq]; exact ⟨rfl, rfl, rfl⟩⟩, ⟨_, hcfg, rfl, rfl, rfl⟩, exec_brStart_error s, ?_⟩
    obtain ⟨-, -, hnop, -⟩ := nopChangesNothing
    rintro i (rfl | rfl | rfl)
    · exact ⟨_, hnop s, rfl, rfl, rfl⟩
    · exact ⟨_, hsyn, rfl, rfl, rfl⟩
    · exact ⟨_, hpcm, rfl, rfl, rfl⟩

end Sys2Proof.Machine
end

section
/-!
PROOFS. A command that fails (60_exceptions.md rules R104, R105, R107, R108): every command leaves no new error, or is the
error entry after R108's effects, with VEC unspecified in the region of a RES_DECODE only.
-/

namespace Sys2Proof.Machine

/-! What stands beside the error entry -/

/-- The state with R108's effects of an error of command i. -/
def configEffect (i : Instr) (s : State) : State :=
  match i with
  | .cbDefine k => if s.cfgState = .opened then dropCodebook k s else s
  | .resDefine r => if s.cfgState = .opened then dropResidue r s else s
  | .synConfig _ _ | .cfgSeal => if s.cfgState = .opened then breakConfig s else s
  | _ => s

/-- The VEC contents v that an error of command i may leave (R107): the region of a RES_DECODE is unspecified. -/
def VecAfterError (i : Instr) (s : State) (v : Sparse Word) : Prop :=
  match i with
  | .resDecode _ nvec => ∀ w, w < s.arg0.toNat ∨ s.arg0.toNat + nvec * s.arg1.toNat ≤ w → v.find w = s.vec.find w
  | _ => v = s.vec

/-- Command i has failed: R107's error entry, R108's effects, and nothing else. -/
def Failed (i : Instr) (s t : State) : Prop :=
  ∃ e v, ErrorFrom i e { configEffect i s with vec := v } t ∧ VecAfterError i s v

section
variable {i : Instr} {s t u : State} {v : Sparse Word}

theorem vecAfterError_self (i : Instr) (s : State) : VecAfterError i s s.vec := by
  unfold VecAfterError
  split
  · exact fun _ _ => rfl
  · rfl

/-- R108 changes CFG_STATE and slots only. -/
theorem configEffect_frame (i : Instr) (s : State) : configEffect i s =
    { s with cfgState := (configEffect i s).cfgState, cb := (configEffect i s).cb, res := (configEffect i s).res } := by
  unfold configEffect
  split
  · split <;> rfl
  · split <;> rfl
  · split <;> rfl
  · split <;> rfl
  · rfl

theorem configEffect_bitpos (i : Instr) (s : State) : (configEffect i s).bitpos = s.bitpos := by rw [configEffect_frame]

theorem configEffect_vec (i : Instr) (s : State) : (configEffect i s).vec = s.vec := by rw [configEffect_frame]

/-- An error of a command that reads bits. -/
theorem Failed.of_reads (hr : readsBits i = true) (hu : Reads { configEffect i s with vec := v } u)
    (hv : VecAfterError i s v) (e : ErrorCode) : Failed i s (errorEntry (opByte i) (readsBits i) s.bitpos e u) := by
  refine ⟨e, v, ?_, hv⟩
  have h := errorFrom_of_reads hr hu e
  rwa [show ({ configEffect i s with vec := v } : State).bitpos = s.bitpos from configEffect_bitpos i s] at h

/-- An error of a command that has done nothing but read bits, after R108's effects. -/
theorem Failed.of_only_reads (hr : readsBits i = true) (hu : Reads (configEffect i s) u) (e : ErrorCode) :
    Failed i s (errorEntry (opByte i) (readsBits i) s.bitpos e u) :=
  .of_reads hr hu (configEffect_vec i s ▸ vecAfterError_self i s) e

/-- An error of a command that reads no bits. -/
theorem Failed.of_not_readsBits (hr : readsBits i = false) (hu : u = configEffect i s) (e : ErrorCode) :
    Failed i s (errorEntry (opByte i) (readsBits i) s.bitpos e u) := by
  subst hu
  exact ⟨e, (configEffect i s).vec, errorFrom_of_not_readsBits hr _ e _, configEffect_vec i s ▸ vecAfterError_self i s⟩

theorem reads_dropCodebook (k : Nat) (hu : Reads s u) : Reads (dropCodebook k s) (dropCodebook k u) := by
  obtain ⟨heq, hge, hle⟩ := hu
  exact ⟨by rw [heq]; rfl, hge, hle⟩

end

/-! Every command -/

section
variable {i : Instr} {s t u : State}

theorem Stores.err {lo n : Nat} (h : Stores lo n s u) : u.err = s.err := by rw [h.1]

theorem Reads.err (h : Reads s u) : u.err = s.err := by rw [h.1]

theorem exec_reading_failed
    (hi : (∃ n, i = .brReadU n) ∨ (∃ n, i = .brReadS n) ∨ i = .brReadF ∨ ∃ k, i = .cbScalar k)
    (h : exec i s = .next t) : (t.err = true → s.err = true) ∨ Failed i s t := by
  obtain ⟨u, hu, ⟨v, rfl⟩ | ⟨e, rfl⟩⟩ := exec_reading_next hi h
  · exact .inl hu.err.symm.trans
  · obtain ⟨hr, heff⟩ : readsBits i = true ∧ configEffect i s = s := by
      obtain ⟨n, rfl⟩ | ⟨n, rfl⟩ | rfl | ⟨k, rfl⟩ := hi <;> exact ⟨rfl, rfl⟩
    have hfail : Failed i s (errorEntry (opByte i) (readsBits i) s.bitpos e u) := .of_only_reads hr (heff.symm ▸ hu) e
    rw [hr] at hfail
    exact .inr hfail

/-- A command leaves no new error, or it has failed. -/
theorem exec_noError_or_failed (h : exec i s = .next t) : (t.err = true → s.err = true) ∨ Failed i s t := by
  cases i with
  | nop | brIlog | synReset | pcmClear => cases h; exact .inl id
  | softReset | cfgReset => cases h; exact .inl nofun
  | brReadU n => exact exec_reading_failed (.inl ⟨n, rfl⟩) h
  | brReadS n => exact exec_reading_failed (.inr (.inl ⟨n, rfl⟩)) h
  | brReadF => exact exec_reading_failed (.inr (.inr (.inl rfl))) h
  | cbScalar k => exact exec_reading_failed (.inr (.inr (.inr ⟨k, rfl⟩))) h
  | brStart =>
    obtain ⟨-, rfl⟩ | ⟨-, rfl⟩ := exec_brStart_next h
    · exact .inr (.of_not_readsBits (i := .brStart) rfl rfl .range)
    · exact .inl nofun
  | cfgSeal =>
    obtain ⟨ho, rfl⟩ | ⟨ho, ⟨-, rfl⟩ | ⟨e, rfl⟩⟩ := exec_cfgSeal_next h
    · exact .inr (.of_not_readsBits (i := .cfgSeal) rfl (if_neg ho).symm .cfgState)
    · exact .inl id
    · exact .inr (.of_not_readsBits (i := .cfgSeal) rfl (if_pos ho).symm e)
  | synConfig e0 e1 =>
    obtain ⟨ho, rfl⟩ | ⟨ho, ⟨-, -, -, rfl⟩ | ⟨-, rfl⟩⟩ := exec_synConfig_next h
    · exact .inr (.of_not_readsBits (i := .synConfig e0 e1) rfl (if_neg ho).symm .cfgState)
    · exact .inl id
    · exact .inr (.of_not_readsBits (i := .synConfig e0 e1) rfl (if_pos ho).symm .badCfg)
  | cbDefine k =>
    obtain ⟨ho, rfl⟩ | ⟨ho, u, hu, ⟨c, -, rfl⟩ | ⟨e, rfl⟩⟩ := exec_cbDefine_next h
    · have heff : configEffect (.cbDefine k) s = s := if_neg ho
      exact .inr (.of_only_reads (i := .cbDefine k) rfl (heff.symm ▸ .refl s) .cfgState)
    · exact .inl hu.err.symm.trans
    · have heff : configEffect (.cbDefine k) s = dropCodebook k s := if_pos ho
      exact .inr (.of_only_reads (i := .cbDefine k) rfl (heff ▸ reads_dropCodebook k hu) e)
  | resDefine r =>
    obtain ⟨ho, rfl⟩ | ⟨ho, u, hu, ⟨x, -, rfl⟩ | ⟨e, rfl⟩⟩ := exec_resDefine_next h
    · have heff : configEffect (.resDefine r) s = s := if_neg ho
      exact .inr (.of_only_reads (i := .resDefine r) rfl (heff.symm ▸ .refl s) .cfgState)
    · exact .inl hu.err.symm.trans
    · have heff : configEffect (.resDefine r) s = dropResidue r s := if_pos ho
      exact .inr (.of_only_reads (i := .resDefine r) rfl (heff ▸ reads_dropResidue r hu) e)
  | cbVector k acc =>
    obtain ⟨e, u, hu, rfl⟩ | ⟨c, l, u, e, xs, -, -, hu, -, -, rfl⟩ := exec_cbVector_next k acc s t h
    · exact .inr (.of_only_reads (i := .cbVector k acc) rfl hu e)
    · exact .inl hu.err.symm.trans
  | resDecode r nvec =>
    obtain ⟨e, rfl⟩ | ⟨-, u, hu, ⟨v, rfl⟩ | ⟨e, rfl⟩⟩ := exec_resDecode_next r nvec s t h
    · exact .inr (.of_only_reads (i := .resDecode r nvec) rfl (.refl s) e)
    · exact .inl hu.err.symm.trans
    · obtain ⟨-, -, -, hvec, -⟩ := id hu
      exact .inr (.of_reads (i := .resDecode r nvec) rfl hu.reads hvec e)
  | synBlock w pw nw =>
    obtain ⟨e, rfl⟩ | ⟨x, ys, u, -, -, -, -, hys, rfl⟩ := exec_synBlock_next h
    · exact .inr (.of_not_readsBits (i := .synBlock w pw nw) rfl rfl e)
    · rw [blockSamples_state hys]
      exact .inl id

end

/-- Settles O18: a command that newly sets ERR has failed (`exec_noError_or_failed`), and R108's effects are written
out. -/
theorem errorEntryChangesNothingElse : Obligations.ErrorEntryChangesNothingElse := by
  intro i s t hs h ht
  obtain hno | ⟨e, v, ⟨heq, hstay, hrange⟩, hvec⟩ := exec_noError_or_failed h
  · exact absurd (hs.symm.trans (hno ht)) nofun
  rw [configEffect_frame] at heq hstay hrange
  have hv : t.vec = v := by rw [heq]
  have hcfg : t.cfgState = (configEffect i s).cfgState := by rw [heq]
  have hcb : t.cb = (configEffect i s).cb := by rw [heq]
  have hres : t.res = (configEffect i s).res := by rw [heq]
  refine ⟨⟨e, by rw [heq]⟩, by rw [heq], by rw [heq], hstay, hrange, ?_, hv ▸ hvec⟩
  rw [hcfg, hcb, hres]
  cases i with
  | cbDefine k | resDefine r | synConfig a b | cfgSeal =>
    by_cases ho : s.cfgState = .opened <;> simp [configEffect, ho]
  | nop | softReset | cfgReset | brStart | brReadU n | brReadS n | brReadF | brIlog | cbScalar k | cbVector k acc
  | resDecode r nvec | synBlock w pw nw | synReset | pcmClear => exact ⟨rfl, rfl, rfl⟩

end Sys2Proof.Machine
end
